-- ==== Sys2Proof/Word.lean ====
section
/-!
DEFINITION. Word types of the Belnel K5: a halfword slot of a code line, a 64-bit register word, a byte, and the
register numbers of each register file (spec 03 R74).
-/
namespace Sys2Proof

/-- A halfword slot of a code line (02 R42). -/
abbrev Half := BitVec 16
/-- A 64-bit register value or address. -/
abbrev Word := BitVec 64
/-- A byte of memory. -/
abbrev Byte := BitVec 8

/-- Generator registers s0 to s31. -/
abbrev SReg := Fin 32
/-- Vector registers v0 to v63. -/
abbrev VReg := Fin 64
/-- Stream scalar registers x0 to x15. -/
abbrev XReg := Fin 16
/-- Mask registers m0 to m7. -/
abbrev MReg := Fin 8
/-- Anchor registers k0 to k15. -/
abbrev KReg := Fin 16
/-- Accumulator tiles z0 to z7. -/
abbrev ZReg := Fin 8
/-- Codebook registers cb0 to cb3. -/
abbrev CbReg := Fin 4
/-- Amax history registers amh0 to amh3. -/
abbrev AmhReg := Fin 4

end Sys2Proof
end

