-- ==== Sys2Proof/Syntax.lean ====
section
/-!
DEFINITION. The instruction set as data: one constructor of `Instr` per row of spec/opcode_table.json. Generator
instructions and stream words carry their decoded operands (spec 02 R46 to R63); the machine's own steps (spec 95) carry
the numbers that name what they act on.
-/
namespace Sys2Proof

/-- Element types of the TY field, 0x0 to 0xE (01 R11, R13, R18); 0xF is reserved (R20). -/
inductive Ty where
  | i8 | i16 | i32 | i64 | n8 | n16 | n32 | n64 | f64 | f32 | f16 | bf16 | e4m3 | e5m2 | cb4
  deriving DecidableEq, Repr

/-- The code of a type in TY fields (01 R11, R13). -/
def Ty.code : Ty → Nat
  | .i8 => 0 | .i16 => 1 | .i32 => 2 | .i64 => 3 | .n8 => 4 | .n16 => 5 | .n32 => 6 | .n64 => 7
  | .f64 => 8 | .f32 => 9 | .f16 => 10 | .bf16 => 11 | .e4m3 => 12 | .e5m2 => 13 | .cb4 => 14

/-- Width in bits of an element (01 R11, R13, R18). -/
def Ty.width : Ty → Nat
  | .i8 | .n8 | .e4m3 | .e5m2 => 8
  | .i16 | .n16 | .f16 | .bf16 => 16
  | .i32 | .n32 | .f32 => 32
  | .i64 | .n64 | .f64 => 64
  | .cb4 => 4

/-- Signed integer types (01 R11). -/
def Ty.signed : Ty → Bool
  | .i8 | .i16 | .i32 | .i64 => true
  | _ => false

/-- Integer types, TY 0x0 to 0x7 (01 R11). -/
def Ty.isInt : Ty → Bool
  | .i8 | .i16 | .i32 | .i64 | .n8 | .n16 | .n32 | .n64 => true
  | _ => false

/-- Floating-point types, TY 0x8 to 0xD (01 R13). -/
def Ty.isFloat : Ty → Bool
  | .f64 | .f32 | .f16 | .bf16 | .e4m3 | .e5m2 => true
  | _ => false

/-- The arithmetic floating-point types of 02 R59. -/
def Ty.isArithFloat : Ty → Bool
  | .f64 | .f32 | .f16 | .bf16 => true
  | _ => false

/-- The deviation types of anchored words (07 R198). -/
def Ty.isDev : Ty → Bool
  | .i8 | .i16 | .i32 => true
  | _ => false

/-- The types of CVT on s registers (02 R53). -/
inductive CvtTy where
  | i32 | i64 | n32 | n64 | f32 | f64 | f16 | bf16
  deriving DecidableEq, Repr

/-- The code of a CVT type (02 R53). -/
def CvtTy.code : CvtTy → Nat
  | .i32 => 0 | .i64 => 1 | .n32 => 2 | .n64 => 3 | .f32 => 4 | .f64 => 5 | .f16 => 6 | .bf16 => 7

/-- Integer types of CVT (02 R53). -/
def CvtTy.isInt : CvtTy → Bool
  | .i32 | .i64 | .n32 | .n64 => true
  | _ => false

/-- Format of FP on s registers (02 R52): FN<5>. -/
inductive SFmt where
  | f64 | f32
  deriving DecidableEq, Repr

/-- Access size of a generator load or store (04 R121): 1, 2, 4 or 8 bytes. -/
inductive Size where
  | b1 | b2 | b4 | b8
  deriving DecidableEq, Repr

/-- Size of an integer AMO (02 R54): 32 or 64 bits. -/
inductive AmoSize where
  | w32 | w64
  deriving DecidableEq, Repr

/-- Scopes (17 R335): strand, group, device, system. -/
inductive Scope where
  | st | gr | dv | sy
  deriving DecidableEq, Repr

/-- Order of an atomic (02 R54). -/
inductive Order where
  | none | acq | rel | ar
  deriving DecidableEq, Repr

/-- Kind of a FENCE (02 R55). -/
inductive FenceKind where
  | acq | rel | all
  deriving DecidableEq, Repr

/-- The scalar slot T2 (02 R48): an x register or the carried scalar. -/
inductive Slot where
  | x (r : XReg)
  | xq
  deriving DecidableEq, Repr

/-- The third operand of an arithmetic word (02 R48): vb, the scalar slot, or an immediate of 16, 32 or 64 bits. -/
inductive Third where
  | v (r : VReg)
  | s (slot : Slot)
  | i16 (imm : BitVec 16)
  | i32 (imm : BitVec 32)
  | i64 (imm : BitVec 64)
  deriving DecidableEq, Repr

/-- Operands of a word with a destination, a first source and a third operand (02 R47, R48). -/
structure Arith where
  msk : MReg
  ty : Ty
  vd : VReg
  va : VReg
  third : Third
  deriving DecidableEq, Repr

/-- Operands of a word with a destination and one source. -/
structure Unary where
  msk : MReg
  ty : Ty
  vd : VReg
  va : VReg
  deriving DecidableEq, Repr

/-- Operands of a word with a destination and two vector sources. -/
structure Binary where
  msk : MReg
  ty : Ty
  vd : VReg
  va : VReg
  vb : VReg
  deriving DecidableEq, Repr

/-- Operands of VBDOT (05 R161). -/
structure Dot where
  msk : MReg
  ty : Ty
  vd : VReg
  va : VReg
  vb : VReg
  vsa : VReg
  vsb : VReg
  xta : XReg
  xtb : XReg
  cba : CbReg
  cbb : CbReg
  fin : Bool
  deriving DecidableEq, Repr

/-- Operands common to the vector loads and stores: mask, type, the data or destination group, and X4, which holds
CH in its low two bits and RSVH in its high two (02 R49). -/
structure MemOps where
  msk : MReg
  ty : Ty
  v : VReg
  hint : Fin 16
  deriving DecidableEq, Repr

/-- A link whose flits are retried (14 R318, 22 R401, 25 R444). -/
inductive Link where
  | cluster (cluster core : Nat)
  | die (a b : Nat)
  | base (stack : Nat)
  | port (p : Nat)
  deriving DecidableEq, Repr

/-- The links of the package (22 R400): a core's of a cluster, the five die-to-die edges, the base-die links, and the ports. -/
def Link.real : Link → Bool
  | .cluster c k => decide (c < 20) && decide (k < 48)
  | .die a b => [(0, 1), (1, 2), (2, 3), (0, 3), (0, 2)].contains (a, b)
  | .base st => decide (st < 8)
  | .port p => decide (p < 52)

/-- An ingress entry (25 R436): a UET job bound to one partition, with its rights. -/
structure Ingress where
  job : BitVec 32
  part : Nat
  read : Bool
  write : Bool
  fe : Bool
  atomic : Bool
  deriving DecidableEq, Repr

/-- A remote operation as it arrives at a port (25 R434 to R436). -/
structure RemoteOp where
  port : Nat
  pdc : BitVec 32
  psn : BitVec 32
  ordered : Bool
  job : BitVec 32
  form : BitVec 8
  flags : BitVec 8
  wait : BitVec 16
  rsv : BitVec 32
  addr : Word
  len : Nat
  data : List Byte
  fn : Nat
  size : Nat
  deriving DecidableEq, Repr

/-- The reply of a remote node to an access through a GW page (25 R434, R437): a reason code, 0 for none, the data it
returned, and one status bit. -/
structure GwReply where
  reason : BitVec 8
  data : List Byte
  status : Bool
  deriving DecidableEq, Repr

/-- A step of the machine's own that is due: the rows of the opcode table that have no encoding (spec 95). -/
inductive Event where
  | storeBufferPerform (sid : Nat)
  | waiterRecheck (wid : Nat)
  | rejectRetry (wid : Nat)
  | markAndRecheck (wid : Nat)
  | park (sid key : Nat)
  | wake (key : Nat)
  | saveComplete (sid : Nat)
  | combiningApply (key : Nat)
  | copyRetire (sid handle : Nat)
  | takeTrap (sid : Nat)
  | int (sid : Nat) (val : Word)
  | preemptRequest (sid : Nat)
  | premaxExpiry (sid : Nat)
  | contextSave (sid : Nat)
  | contextRestore (sid : Nat)
  | hpWindowReset (die : Nat)
  | sample (core : Nat)
  | counterOverflow (core : Nat) (n : Fin 16)
  | tlbiPage (part : Nat) (va : Word) (sz : Fin 3)
  | tlbiAll (part : Nat)
  | qupd (part : Nat) (q : Fin 64)
  | pgwake (part : Nat) (va : Word) (sz : Fin 3)
  | hmaskWrite (part : Nat) (val : Word)
  | smpctlWrite (core : Nat) (val : Word)
  | evctlWrite (part : Nat) (val : Word)
  | pmcntWrite (core : Nat) (n : Fin 16) (val : Word)
  | take (part : Nat) (q : Fin 64)
  | nodeReady (nid : Nat)
  | select (part : Nat)
  | age (nid : Nat)
  | bind (part : Nat)
  | benchPreempt (part : Nat)
  | evict (gid : Nat)
  | evictRestore (gid : Nat)
  | nodeDone (nid : Nat)
  | hint (stack chan bank row : Nat)
  | hintRowClose (stack chan bank : Nat)
  | refresh (stack chan bank : Nat)
  | activationAlert (stack chan bank : Nat)
  | backoffEnd (stack chan bank : Nat)
  | powerWindow (watts : Nat)
  | thermalThreshold (die : Nat)
  | clockRaise
  | undervoltReturn (rail : Nat)
  | coreOutOfService (core : Nat)
  | linkRetry (link : Link) (failed : Bool)
  | tc0Window (part demoted : Nat)
  | resetN
  | pwrEn
  | cltOkFall
  | coolantTimeout
  | attestationRequest (nonce : BitVec 384)
  | mcRegisterWrite (part num : Nat) (val : Word)
  | keyLoad (part : Nat) (e : Fin 16)
  | partitionConfig (dies : List (BitVec 4))
  | ingressEntrySet (slot : Fin 64) (entry : Option Ingress)
  | remotePlainWrite (op : RemoteOp)
  | remotePlainRead (op : RemoteOp)
  | remoteAtomic (op : RemoteOp)
  | remoteFill (op : RemoteOp)
  | remoteSetFull (op : RemoteOp)
  | remoteWaitingRead (op : RemoteOp)
  | remoteConsumingRead (op : RemoteOp)
  | remoteTryConsume (op : RemoteOp)
  | remoteSetEmpty (op : RemoteOp)
  | remoteTryFill (op : RemoteOp)
  | remoteWaitExpiry (rid : Nat)
  | gwAck (gid : Nat) (reply : GwReply)
  | gwTimeout (gid : Nat)
  | portFrameRetry (port : Nat) (failed : Bool)
  | ptpMessage (port : Nat) (locked : Bool)
  | portLinkUp (port : Nat)
  | portLinkDown (port : Nat) (failed : Bool)
  | ptpLockLoss
  | cltOkRise
  | undervoltWindow (rail : Nat) (low : Bool)
  | predictiveFailure (array : Nat)
  | mailboxArrival (cluster core half : Nat)
  | watchClose (sid blk : Nat)
  | matrixWordRetire (sid : Nat)
  deriving DecidableEq, Repr

/-- One step of the machine: a generator instruction, a stream word, or a step of the machine's own (spec 95). -/
inductive Instr where
  | nop
  | endI
  | yield
  | trap (code : BitVec 16)
  | eret
  | fence (kind : FenceKind) (scope : Scope)
  | vfenceSv
  | vfenceVs
  | sysr (sd : SReg) (num : Fin 4096)
  | sysw (src : SReg) (num : Fin 4096)
  | iclk (sd sa : SReg) (imm : BitVec 27)
  | icunl (sa : SReg) (imm : BitVec 27)
  | launch (sd sa sb : SReg)
  | add (sd sa sb : SReg)
  | sub (sd sa sb : SReg)
  | and (sd sa sb : SReg)
  | or (sd sa sb : SReg)
  | xor (sd sa sb : SReg)
  | andn (sd sa sb : SReg)
  | orn (sd sa sb : SReg)
  | xnor (sd sa sb : SReg)
  | shl (sd sa sb : SReg)
  | shr (sd sa sb : SReg)
  | sra (sd sa sb : SReg)
  | rol (sd sa sb : SReg)
  | ror (sd sa sb : SReg)
  | slt (sd sa sb : SReg)
  | sltn (sd sa sb : SReg)
  | seq (sd sa sb : SReg)
  | min (sd sa sb : SReg)
  | max (sd sa sb : SReg)
  | minn (sd sa sb : SReg)
  | maxn (sd sa sb : SReg)
  | mul (sd sa sb : SReg)
  | mulh (sd sa sb : SReg)
  | mulhn (sd sa sb : SReg)
  | div (sd sa sb : SReg)
  | divn (sd sa sb : SReg)
  | rem (sd sa sb : SReg)
  | remn (sd sa sb : SReg)
  | clz (sd sa : SReg)
  | ctz (sd sa : SReg)
  | popc (sd sa : SReg)
  | brev (sd sa : SReg)
  | bswap (sd sa : SReg)
  | fadd (f : SFmt) (sd sa sb : SReg)
  | fsub (f : SFmt) (sd sa sb : SReg)
  | fmul (f : SFmt) (sd sa sb : SReg)
  | fdiv (f : SFmt) (sd sa sb : SReg)
  | fsqrt (f : SFmt) (sd sa : SReg)
  | fmin (f : SFmt) (sd sa sb : SReg)
  | fmax (f : SFmt) (sd sa sb : SReg)
  | feq (f : SFmt) (sd sa sb : SReg)
  | flt (f : SFmt) (sd sa sb : SReg)
  | fle (f : SFmt) (sd sa sb : SReg)
  | fclass (f : SFmt) (sd sa : SReg)
  | fneg (f : SFmt) (sd sa : SReg)
  | fabs (f : SFmt) (sd sa : SReg)
  | cvt (src dst : CvtTy) (rnd : Fin 5) (sd sa : SReg)
  | addi (sd sa : SReg) (imm : BitVec 27)
  | andi (sd sa : SReg) (imm : BitVec 27)
  | ori (sd sa : SReg) (imm : BitVec 27)
  | xori (sd sa : SReg) (imm : BitVec 27)
  | shli (sd sa : SReg) (amt : BitVec 6)
  | shri (sd sa : SReg) (amt : BitVec 6)
  | srai (sd sa : SReg) (amt : BitVec 6)
  | slti (sd sa : SReg) (imm : BitVec 27)
  | sltni (sd sa : SReg) (imm : BitVec 27)
  | lpc (sd : SReg) (imm : BitVec 27)
  | li (sd : SReg) (imm : BitVec 64)
  | ld (size : Size) (sext : Bool) (sd sa : SReg) (imm : BitVec 27)
  | ldW (size : Size) (sext : Bool) (sd sa : SReg) (imm : BitVec 27)
  | ldC (size : Size) (sext : Bool) (sd sa : SReg) (imm : BitVec 27)
  | ldct (sd sa : SReg) (imm : BitVec 27)
  | feget (sd sa : SReg) (imm : BitVec 27)
  | st (size : Size) (src base : SReg) (imm : BitVec 27)
  | stF (size : Size) (src base : SReg) (imm : BitVec 27)
  | stS (size : Size) (src base : SReg) (imm : BitVec 27)
  | feclr (base : SReg) (imm : BitVec 27)
  | feset (base : SReg) (imm : BitVec 27)
  | pwait (src base : SReg) (imm : BitVec 27)
  | amoadd (size : AmoSize) (order : Order) (scope : Scope) (sd sa sb : SReg)
  | amomin (size : AmoSize) (order : Order) (scope : Scope) (sd sa sb : SReg)
  | amomax (size : AmoSize) (order : Order) (scope : Scope) (sd sa sb : SReg)
  | amominn (size : AmoSize) (order : Order) (scope : Scope) (sd sa sb : SReg)
  | amomaxn (size : AmoSize) (order : Order) (scope : Scope) (sd sa sb : SReg)
  | amoand (size : AmoSize) (order : Order) (scope : Scope) (sd sa sb : SReg)
  | amoor (size : AmoSize) (order : Order) (scope : Scope) (sd sa sb : SReg)
  | amoxor (size : AmoSize) (order : Order) (scope : Scope) (sd sa sb : SReg)
  | amoswap (size : AmoSize) (order : Order) (scope : Scope) (sd sa sb : SReg)
  | amocas (size : AmoSize) (order : Order) (scope : Scope) (sd sa sb : SReg)
  | amofaddF32 (order : Order) (scope : Scope) (sd sa sb : SReg)
  | amofaddBf16 (order : Order) (scope : Scope) (sd sa sb : SReg)
  | beq (sa sb : SReg) (imm : BitVec 27)
  | bne (sa sb : SReg) (imm : BitVec 27)
  | blt (sa sb : SReg) (imm : BitVec 27)
  | bge (sa sb : SReg) (imm : BitVec 27)
  | bltn (sa sb : SReg) (imm : BitVec 27)
  | bgen (sa sb : SReg) (imm : BitVec 27)
  | j (imm : BitVec 27)
  | jl (sd : SReg) (imm : BitVec 27)
  | jr (sa : SReg) (imm : BitVec 27)
  | jlr (sd sa : SReg) (imm : BitVec 27)
  | loop (cnt : SReg) (c : Fin 2) (imm : BitVec 27)
  | emit (tmpl : Fin 256) (s1 s2 s3 : SReg)
  | emitw (carried lo hi : SReg)
  | emitb (carried addr : SReg)
  | rply (sd : SReg)
  | eqwait (n : Fin 64)
  | qstat (sd : SReg)
  | cpy (sd dst src len : SReg)
  | cpyWith (sd dst src len : SReg)
  | cpySetfull (sd dst src len : SReg)
  | cpySetempty (sd dst src len : SReg)
  | cpyBitsout (sd dst src len : SReg)
  | cpyBitsin (sd dst src len : SReg)
  | cpyMc (sd dst src len mask : SReg)
  | cpyMcSetfull (sd dst src len mask : SReg)
  | cpyRed (ty : Ty) (sd dst src len : SReg)
  | cpyRedSetfull (ty : Ty) (sd dst src len : SReg)
  | cpyw (sa : SReg)
  | cpyq (sd sa : SReg)
  | tileset (ty : Ty) (sm sn sk : SReg)
  | ghint (k : Fin 4) (tl : Fin 7) (a : Fin 64)
  | vnop
  | vsetvl (ty : Ty) (xd xs : XReg)
  | vsetrowsImm (n : Fin 64)
  | vsetrowsX (xn : XReg)
  | vbstrip (xc : XReg) (off : BitVec 16)
  | vbr (m : MReg) (off : BitVec 16)
  | vjoin
  | vj (off : BitVec 16)
  | vloop (c : Fin 2) (xn : XReg) (off : BitVec 16)
  | vbret
  | vrep (xs : XReg)
  | vextr (ty : Ty) (xd : XReg) (va : VReg) (idx : Slot)
  | vmvx (xd : XReg) (val : Slot)
  | blockCall (addr : Word)
  | vadd (o : Arith)
  | vsub (o : Arith)
  | vadds (o : Arith)
  | vsubs (o : Arith)
  | vmul (o : Arith)
  | vmulh (o : Arith)
  | vdiv (o : Arith)
  | vrem (o : Arith)
  | vmin (o : Arith)
  | vmax (o : Arith)
  | vand (o : Arith)
  | vor (o : Arith)
  | vxor (o : Arith)
  | vshl (o : Arith)
  | vshr (o : Arith)
  | vsra (o : Arith)
  | vabs (o : Unary)
  | vneg (o : Unary)
  | vclz (o : Unary)
  | vpopc (o : Unary)
  | vcmpeq (o : Arith)
  | vcmpne (o : Arith)
  | vcmplt (o : Arith)
  | vcmpge (o : Arith)
  | vfcmpeq (rnd : Fin 5) (o : Arith)
  | vfcmpne (rnd : Fin 5) (o : Arith)
  | vfcmplt (rnd : Fin 5) (o : Arith)
  | vfcmpge (rnd : Fin 5) (o : Arith)
  | vfcmple (rnd : Fin 5) (o : Arith)
  | vfcmpgt (rnd : Fin 5) (o : Arith)
  | vfcmpunord (rnd : Fin 5) (o : Arith)
  | vfcmpord (rnd : Fin 5) (o : Arith)
  | vsel (o : Arith)
  | vfclass (rnd : Fin 5) (o : Unary)
  | vfadd (rnd : Fin 5) (o : Arith)
  | vfsub (rnd : Fin 5) (o : Arith)
  | vfmul (rnd : Fin 5) (o : Arith)
  | vfdiv (rnd : Fin 5) (o : Arith)
  | vfsqrt (rnd : Fin 5) (o : Unary)
  | vfmin (rnd : Fin 5) (o : Arith)
  | vfmax (rnd : Fin 5) (o : Arith)
  | vfabs (rnd : Fin 5) (o : Unary)
  | vfneg (rnd : Fin 5) (o : Unary)
  | vfma (rnd : Fin 5) (o : Arith)
  | vfms (rnd : Fin 5) (o : Arith)
  | vfnma (rnd : Fin 5) (o : Arith)
  | vfnms (rnd : Fin 5) (o : Arith)
  | vcvt (dst : Ty) (rnd : Fin 6) (o : Unary)
  | vqcvt (dst : Ty) (rnd : Fin 6) (cb : CbReg) (scale : Slot) (o : Unary)
  | vcbd (msk : MReg) (cb : CbReg) (rnd : Fin 5) (vd va : VReg)
  | vcbe (msk : MReg) (cb : CbReg) (rnd : Fin 5) (vd va : VReg)
  | cbld (cb : CbReg) (base : Slot)
  | vamax (msk : MReg) (ty : Ty) (h : AmhReg) (va : VReg)
  | vamstep (h : AmhReg)
  | vqscale (ty : Ty) (xd : XReg) (h : AmhReg) (cb : CbReg)
  | vbdot (o : Dot)
  | vpack (dst : Ty) (o : Binary)
  | vunpack (dst : Ty) (hi : Bool) (o : Unary)
  | vredsum (rnd : Fin 5) (o : Unary)
  | vredmin (rnd : Fin 5) (o : Unary)
  | vredmax (rnd : Fin 5) (o : Unary)
  | vredand (o : Unary)
  | vredor (o : Unary)
  | vredxor (o : Unary)
  | vredso (rnd : Fin 5) (o : Unary)
  | vscansum (rnd : Fin 5) (o : Unary)
  | vscanmin (rnd : Fin 5) (o : Unary)
  | vscanmax (rnd : Fin 5) (o : Unary)
  | vscanand (o : Unary)
  | vscanor (o : Unary)
  | vscanxor (o : Unary)
  | vscanexsum (rnd : Fin 5) (o : Unary)
  | vscanexmin (rnd : Fin 5) (o : Unary)
  | vscanexmax (rnd : Fin 5) (o : Unary)
  | vscanexand (o : Unary)
  | vscanexor (o : Unary)
  | vscanexxor (o : Unary)
  | vslideup (o : Arith)
  | vslidedn (o : Arith)
  | vperm (o : Binary)
  | vcompress (o : Unary)
  | vexpand (o : Unary)
  | vbcast (o : Arith)
  | viota (msk : MReg) (ty : Ty) (vd : VReg)
  | vtrne (o : Binary)
  | vtrno (o : Binary)
  | vzipl (o : Binary)
  | vziph (o : Binary)
  | vld (m : MemOps) (base : Slot) (stride : Option XReg)
  | vldW (scope : Scope) (m : MemOps) (base : Slot) (stride : Option XReg)
  | vldC (scope : Scope) (m : MemOps) (base : Slot) (stride : Option XReg)
  | vldT (scope : Scope) (m : MemOps) (base : Slot) (stride : Option XReg)
  | vldx (m : MemOps) (base : Slot) (vb : VReg)
  | vldxW (scope : Scope) (m : MemOps) (base : Slot) (vb : VReg)
  | vldxC (scope : Scope) (m : MemOps) (base : Slot) (vb : VReg)
  | vldxT (scope : Scope) (m : MemOps) (base : Slot) (vb : VReg)
  | vldl (m : MemOps) (vb : VReg)
  | vldlW (scope : Scope) (m : MemOps) (vb : VReg)
  | vldlC (scope : Scope) (m : MemOps) (vb : VReg)
  | vldlT (scope : Scope) (m : MemOps) (vb : VReg)
  | vst (m : MemOps) (base : Slot) (stride : Option XReg)
  | vstF (scope : Scope) (m : MemOps) (base : Slot) (stride : Option XReg)
  | vstS (scope : Scope) (m : MemOps) (base : Slot) (stride : Option XReg)
  | vstx (m : MemOps) (base : Slot) (vb : VReg)
  | vstxF (scope : Scope) (m : MemOps) (base : Slot) (vb : VReg)
  | vstxS (scope : Scope) (m : MemOps) (base : Slot) (vb : VReg)
  | vstl (m : MemOps) (vb : VReg)
  | vstlF (scope : Scope) (m : MemOps) (vb : VReg)
  | vstlS (scope : Scope) (m : MemOps) (vb : VReg)
  | vstn (m : MemOps) (base : Slot) (prog : XReg)
  | vstnF (scope : Scope) (m : MemOps) (base : Slot) (prog : XReg)
  | vstnS (scope : Scope) (m : MemOps) (base : Slot) (prog : XReg)
  | vamoadd (order : Order) (scope : Scope) (base : Slot) (o : Binary)
  | vamomin (order : Order) (scope : Scope) (base : Slot) (o : Binary)
  | vamomax (order : Order) (scope : Scope) (base : Slot) (o : Binary)
  | vamominn (order : Order) (scope : Scope) (base : Slot) (o : Binary)
  | vamomaxn (order : Order) (scope : Scope) (base : Slot) (o : Binary)
  | vamoand (order : Order) (scope : Scope) (base : Slot) (o : Binary)
  | vamoor (order : Order) (scope : Scope) (base : Slot) (o : Binary)
  | vamoxor (order : Order) (scope : Scope) (base : Slot) (o : Binary)
  | vamoswap (order : Order) (scope : Scope) (base : Slot) (o : Binary)
  | vamocas (order : Order) (scope : Scope) (base : Slot) (o : Binary)
  | vamofaddF32 (order : Order) (scope : Scope) (base : Slot) (o : Binary)
  | vamofaddBf16 (order : Order) (scope : Scope) (base : Slot) (o : Binary)
  | vbupdadd (msk : MReg) (ty : Ty) (va : VReg) (base : Slot)
  | vbupdmin (msk : MReg) (ty : Ty) (va : VReg) (base : Slot)
  | vbupdmax (msk : MReg) (ty : Ty) (va : VReg) (base : Slot)
  | vbupdminn (msk : MReg) (ty : Ty) (va : VReg) (base : Slot)
  | vbupdmaxn (msk : MReg) (ty : Ty) (va : VReg) (base : Slot)
  | vbupdand (msk : MReg) (ty : Ty) (va : VReg) (base : Slot)
  | vbupdor (msk : MReg) (ty : Ty) (va : VReg) (base : Slot)
  | vbupdxor (msk : MReg) (ty : Ty) (va : VReg) (base : Slot)
  | vsend (msk : MReg) (ty : Ty) (va vb : VReg)
  | mailboxArrival (cluster core half : Nat)
  | vmrecv (msk : MReg) (ty : Ty) (vd : VReg)
  | vlock (msk : MReg) (ty : Ty) (md : MReg) (va : VReg)
  | vunlock (msk : MReg) (ty : Ty) (va : VReg)
  | farrive (scope : Scope) (b : Fin 16)
  | bwait (b : Fin 16)
  | bset (b : Fin 16) (n : BitVec 16)
  | ald (msk : MReg) (ty : Ty) (v : VReg) (k : KReg) (base : Slot) (xa : XReg)
  | aldW (scope : Scope) (msk : MReg) (ty : Ty) (v : VReg) (k : KReg) (base : Slot) (xa : XReg)
  | watchClose (sid blk : Nat)
  | ast (msk : MReg) (ty : Ty) (v : VReg) (k : KReg) (base : Slot) (xa : XReg)
  | astR (scope : Scope) (msk : MReg) (ty : Ty) (v : VReg) (k : KReg) (base : Slot) (xa : XReg)
  | aadd (ka kb kd : KReg) (o : Binary)
  | asub (ka kb kd : KReg) (o : Binary)
  | amul (ka kb kd : KReg) (o : Binary)
  | axpand (ka kb : KReg) (o : Binary)
  | adif (k : KReg) (h : Fin 32) (o : Unary)
  | reancCentre (k : KReg) (o : Unary)
  | reancWiden (k : KReg) (o : Unary)
  | reancNarrow (k : KReg) (o : Unary)
  | acvtFromanc (k : KReg) (plain : Ty) (o : Unary)
  | acvtToanc (k : KReg) (plain : Ty) (o : Unary)
  | amovkKv (msk : MReg) (ty : Ty) (vd : VReg) (k : KReg)
  | amovkVk (msk : MReg) (ty : Ty) (va : VReg) (k : KReg)
  | asclPow2 (k : KReg) (o : Arith)
  | asclScl (k : KReg) (o : Arith)
  | mclaim (w : Fin 64)
  | mfree
  | mclr (tiles : BitVec 8)
  | mma (msk : MReg) (ty : Ty) (zd : ZReg) (va vb : VReg) (m1 n1 : Fin 32) (cba cbb : CbReg)
  | mopa (msk : MReg) (ty : Ty) (zd : ZReg) (va vb : VReg) (cba cbb : CbReg)
  | mrd (msk : MReg) (ty : Ty) (z : ZReg) (v : VReg) (row : Fin 32)
  | mwr (msk : MReg) (ty : Ty) (z : ZReg) (v : VReg) (row : Fin 32)
  | mld (ty : Ty) (z : ZReg) (hint : Fin 16) (base : Slot) (xs : XReg)
  | mst (ty : Ty) (z : ZReg) (hint : Fin 16) (base : Slot) (xs : XReg)
  | matrixWordRetire (sid : Nat)
  | vhint (k : Fin 8) (tl : Fin 7) (a : Fin 32)
  | storeBufferPerform (sid : Nat)
  | waiterRecheck (wid : Nat)
  | rejectRetry (wid : Nat)
  | markAndRecheck (wid : Nat)
  | park (sid key : Nat)
  | wake (key : Nat)
  | saveComplete (sid : Nat)
  | combiningApply (key : Nat)
  | copyRetire (sid handle : Nat)
  | takeTrap (sid : Nat)
  | int (sid : Nat) (val : Word)
  | preemptRequest (sid : Nat)
  | premaxExpiry (sid : Nat)
  | contextSave (sid : Nat)
  | contextRestore (sid : Nat)
  | hpWindowReset (die : Nat)
  | sample (core : Nat)
  | counterOverflow (core : Nat) (n : Fin 16)
  | tlbiPage (part : Nat) (va : Word) (sz : Fin 3)
  | tlbiAll (part : Nat)
  | qupd (part : Nat) (q : Fin 64)
  | pgwake (part : Nat) (va : Word) (sz : Fin 3)
  | hmaskWrite (part : Nat) (val : Word)
  | smpctlWrite (core : Nat) (val : Word)
  | evctlWrite (part : Nat) (val : Word)
  | pmcntWrite (core : Nat) (n : Fin 16) (val : Word)
  | take (part : Nat) (q : Fin 64)
  | nodeReady (nid : Nat)
  | select (part : Nat)
  | age (nid : Nat)
  | bind (part : Nat)
  | benchPreempt (part : Nat)
  | evict (gid : Nat)
  | evictRestore (gid : Nat)
  | nodeDone (nid : Nat)
  | hint (stack chan bank row : Nat)
  | hintRowClose (stack chan bank : Nat)
  | refresh (stack chan bank : Nat)
  | activationAlert (stack chan bank : Nat)
  | backoffEnd (stack chan bank : Nat)
  | powerWindow (watts : Nat)
  | thermalThreshold (die : Nat)
  | clockRaise
  | undervoltReturn (rail : Nat)
  | coreOutOfService (core : Nat)
  | linkRetry (link : Link) (failed : Bool)
  | tc0Window (part demoted : Nat)
  | resetN
  | pwrEn
  | cltOkFall
  | coolantTimeout
  | attestationRequest (nonce : BitVec 384)
  | mcRegisterWrite (part num : Nat) (val : Word)
  | keyLoad (part : Nat) (e : Fin 16)
  | partitionConfig (dies : List (BitVec 4))
  | ingressEntrySet (slot : Fin 64) (entry : Option Ingress)
  | remotePlainWrite (op : RemoteOp)
  | remotePlainRead (op : RemoteOp)
  | remoteAtomic (op : RemoteOp)
  | remoteFill (op : RemoteOp)
  | remoteSetFull (op : RemoteOp)
  | remoteWaitingRead (op : RemoteOp)
  | remoteConsumingRead (op : RemoteOp)
  | remoteTryConsume (op : RemoteOp)
  | remoteSetEmpty (op : RemoteOp)
  | remoteTryFill (op : RemoteOp)
  | remoteWaitExpiry (rid : Nat)
  | gwAck (gid : Nat) (reply : GwReply)
  | gwTimeout (gid : Nat)
  | portFrameRetry (port : Nat) (failed : Bool)
  | ptpMessage (port : Nat) (locked : Bool)
  | portLinkUp (port : Nat)
  | portLinkDown (port : Nat) (failed : Bool)
  | ptpLockLoss
  | cltOkRise
  | undervoltWindow (rail : Nat) (low : Bool)
  | predictiveFailure (array : Nat)
  deriving DecidableEq, Repr

end Sys2Proof
end

