-- ==== Sys2Proof/Config.lean ====
section
/-!
DEFINITION. What the spec leaves open, as constants without a body: nothing in Lean can compute or prove a value of one.
Each is named in the assumption log.
-/
namespace Sys2Proof.Config

/-- What the K5's own order of a sum depends on beside its data (01 R35): the shape, which half of the lanes and
pods, and VL. -/
structure SumShape where
  half : Bool
  stratB : Bool
  lp : Bool
  vl : Nat
  deriving DecidableEq, Repr

/-- The sum of one row under FCTL.CANON = 0 (01 R35), as element bits: a function of shape, pod layout and VL, the type, the rounding mode, the
running value and the active elements in order; the order of addition is the K5's own. Log entry 7. -/
opaque openSum : SumShape → Ty → Fin 5 → Word → List (Nat × Word) → Word

/-- The flags of that sum, per element. Log entry 7. -/
opaque openSumFlags : SumShape → Ty → Fin 5 → Word → List (Nat × Word) → List (Nat × BitVec 9)

/-- Which of two codebook codes is chosen where both are equally near zero and the mode decides by nearness to zero (05 R155):
the spec states the tie for RNE only. Log entry 18. -/
opaque openTie : Nat → Nat → Bool

/-- The nanoseconds that a step lasts, from the model's step counter (25 R443). Log entry 8. -/
opaque timeTick : Nat → Nat

/-- How far TIME is slewed in a step, from the model's step counter: taken within the bound of 25 R443. Log entry 8. -/
opaque timeSlew : Nat → Nat

/-- The first packet sequence number of a packet delivery context, on which its two ends agree (25 R435). Log entry 41. -/
opaque firstPsn : BitVec 32 → BitVec 32

/-- Whether a sampling instant of a core falls in a step (13 R295), from the step counter and the core: cycles and the pseudo-random
offset are not modelled. Log entry 9. -/
opaque sampleDue : Nat → Nat → Bool

/-- Increments of a time-like performance counter (13 R293) in a step, from the step counter and the event code. Log entry 10. -/
opaque pmTick : Nat → Nat → Nat

/-- The signature of an attestation report (24 R428), from its text. Log entry 11. -/
opaque signature : List Byte → List Byte

/-- A free 64-bit value, from the model's step counter and the place that takes it: what only timing decides, and causes that no rule
names. Log entry 13. -/
opaque freeWord : Nat → Nat → Word

/-- Whether an instruction cache that holds an older copy of a line fetches it again (00 R3, 02 R44), from the model's step counter: the
spec does not say. Log entry 39. -/
opaque keepsLine : Nat → Bool

/-- Whether a line with more than four erroneous symbols, which the code of 22 R404 need not detect, is detected, from the step counter; if not,
its integrity tag fails. Log entry 14. -/
opaque detects : Nat → Bool

/-- The operation byte of a packet's digest record (25 R442), by kind: 0 write, 1 read, 2 atomic; the spec gives no codes. Log
entry 20. -/
opaque packetOp : Nat → Byte

/-- The rail that powers an array (24 R423): 0 to 7 the stacks, 8 and up the scratchpads by cluster, 32 and up the L2 by die, 40 and up
the memory-side caches by stack, 64 and up the L1s by core. Log entry 21. -/
opaque railOf : Nat → Nat

/-- The predictive-failure threshold of an array, in corrected errors per hour (24 R423). Log entry 21. -/
opaque failureRate : Nat → Nat

/-- The SHA-384 digests of the firmware images loaded (24 R428). Log entry 11. -/
opaque firmwareDigests : List Byte

end Sys2Proof.Config
end

