-- ==== Sys2Proof/Machine/State.lean ====
section
/-!
DEFINITION. The state of the machine, as plain data: everything the spec gives it (INVENTORY.md lists it with the rule of
each piece), and the model's own fields, marked so.
-/
namespace Sys2Proof.Machine

/-- Privilege level (04 R101). -/
inductive Level where
  | k | s
  deriving DecidableEq, Repr

/-- The page kinds of ORD (17 R342). -/
inductive PageKind where
  | rc | so | uo
  deriving DecidableEq, Repr

/-- A resolved location: its park key (14 R307), which names the byte uniquely, and what the leaf says of its page
(16 R329), with the key that its ENC entry holds (22 R408). `gw` marks a GW page, and `cls` is its descriptor's traffic class (R330). -/
structure Loc where
  key : Nat
  va : Word
  kind : PageKind
  fev : Bool
  wr : Bool
  tol : Bool
  subk : Bool
  gw : Bool
  enc : Nat
  pad : Bool
  cls : Nat
  deriving DecidableEq, Repr

/-- The control registers that follow the control-write rule (01 R24): the stream's view. -/
structure Ctl where
  fctl : Word
  fenab : Word
  srseed : Word
  ablk : Word
  chkctl : Word
  femode : Word
  febudget : Word
  deriving DecidableEq, Repr

/-- Flags in FSTAT order: bit 0 NV, 1 DZ, 2 OF, 3 UF, 4 NX, 5 SAT, 6 DOV, 7 SUB, 8 SCN (01 R26). -/
abbrev Flags := BitVec 9

/-- The record of one event class in a run (01 R30): the count of events and, when it is not 0, the lowest raising element. -/
structure Evt where
  cnt : Nat
  row : Nat
  idx : Nat
  deriving DecidableEq, Repr

/-- The flags and, per event class (01 R28), the events that the covered elements of a run have raised so far (01 R30). -/
structure Run where
  flags : Flags
  evts : Vector Evt 8
  deriving DecidableEq, Repr

/-- A run that has covered nothing. -/
def Run.none : Run := ⟨0, Vector.replicate 8 ⟨0, 0, 0⟩⟩

/-- An entry of the emit queue (03 R86, R87). `ord` numbers the pushes of the strand without wrapping and `succ` is the
instruction that execution reached when the push retired (R96). -/
structure Entry where
  call : Bool
  bits : Nat
  carried : Word
  prov : Word
  seq : BitVec 48
  ord : Nat
  succ : Word
  deriving DecidableEq, Repr

/-- An item of the emit queue: a word, or a control write that the stream applies in order (01 R24). -/
inductive QItem where
  | word (e : Entry)
  | ctl (num : Nat) (val : Word)
  deriving DecidableEq, Repr

/-- Kinds of a pending-fragment buffer entry (06 R194). -/
inductive FragKind where
  | uni | pend | res
  deriving DecidableEq, Repr

/-- An entry of the pending-fragment buffer (06 R194). -/
structure Frag where
  kind : FragKind
  pc : Word
  fmn : BitVec 1024
  fmj : BitVec 1024
  deriving DecidableEq, Repr

/-- Stream block state (06 R186, R190, R193, R194): the block-call word, the stream PC, the fragment mask, the
pending-fragment buffer, the stream loop registers and the strip registers. -/
structure Block where
  call : Option Entry
  spc : Word
  fm : BitVec 1024
  pfb : List Frag
  vlc0 : BitVec 32
  vlc1 : BitVec 32
  vlbeg0 : Word
  vlend0 : Word
  vlbeg1 : Word
  vlend1 : Word
  vlctl : BitVec 3
  stripv : Word
  strippc : Word
  stripct : BitVec 2
  deriving DecidableEq, Repr

/-- Where one pod stands in the word in progress (03 R85): its first unfinished element, elements of that group that have
completed beyond it (06 R175), the budget of the access it is at, and its waiter or remote request. `halt` says that it has met a fault, or that
its wait was withdrawn: it begins nothing more (06 R179). -/
structure Pod where
  row : Nat
  idx : Nat
  done : List Nat
  budget : Nat
  waiter : Option Nat
  exhausted : Bool
  gw : Option Nat
  halt : Bool
  deriving DecidableEq, Repr

/-- A VLD that strip-ahead may recognise (06 R192): its place, its base, step and VL · ROWS in the latest pass (`seen` says that it
executed in the pass in progress), and those of the pass before. -/
structure Strip where
  spc : Word
  base : Word
  step : Word
  span : Nat
  seen : Bool
  pbase : Word
  pstep : Word
  pspan : Nat
  pseen : Bool
  deriving DecidableEq, Repr

/-- What samples report of a vector memory word in progress (13 R297): the pages of its pin sets, its translation misses, the conflict
cycles of its rows (12 R272), and the first row that has not begun. -/
structure Vms where
  pages : List Word
  misses : Nat
  conf : Nat
  row : Nat
  deriving DecidableEq, Repr

/-- Why a word stops: the cause, its TVAL, and the element that raised it. -/
structure Stop where
  cause : Nat
  val : Word
  row : Nat
  idx : Nat
  deriving DecidableEq, Repr

/-- The word that the stream executes: its entry, whether a block fetched it, its own address and successor in the block,
its halfwords (`unfetched`: its fetch has failed), and its progress. `mask` holds the active elements as they were at its first issue, once
`masked` (05 R145, 06 R194), `due` a stop that waits for accesses under way (06 R179) or for its strand's return (13 R284), `brk` the sett
breakpoints that pods have met (13 R292), `won` that an access of an acquiring word has succeeded (17 R339), `staged` what an aligned word has done
within its unit, `watch` the watch of an ALD.W (07 R215). -/
structure Cur where
  e : Entry
  blk : Bool
  spc : Word
  nspc : Word
  w : Nat
  unfetched : Bool
  issued : Bool
  checked : Bool
  skipBrk : Bool
  masked : Bool
  mask : BitVec 1024
  pods : List Pod
  due : Option Stop
  brk : List (Nat × Nat)
  won : Bool
  pinEnd : Nat
  pins : List Word
  run : Run
  staged : List (Nat × Word)
  stage : Nat
  watch : Option Nat
  vms : Vms
  deriving DecidableEq, Repr

/-- Matrix operands captured by the engine (11 R249): the tile, the sizes, the operands row by row with cb4 codes decoded, and
which rows and which k are active; and the word's PROV, SEQ, and address if a block fetched it (13 R296). -/
structure Captured where
  ord : Nat
  prov : Word
  seq : BitVec 48
  spc : Option Word
  ty : Ty
  tile : Nat
  m : Nat
  n : Nat
  k : Nat
  a : List Word
  b : List Word
  mOn : List Bool
  kOn : List Bool
  deriving DecidableEq, Repr

/-- What a copy does with full/empty bits (12 R276). -/
inductive CopyMode where
  | plain | withBits | setFull | setEmpty | bitsOut | bitsIn
  deriving DecidableEq, Repr

/-- The kinds of copies (12 R277). -/
inductive CopyKind where
  | copy | mc (mask : Word) | red (ty : Ty)
  deriving DecidableEq, Repr

/-- The status of a copy (12 R280). -/
inductive CopySt where
  | waiting | running | retired
  deriving DecidableEq, Repr

/-- A copy (12 R275 to R280). `done` lists the setts already written, `gw` is the remote request of the sett under way and `buf`
that sett's source data once a remote node has given it. -/
structure Copy where
  handle : Nat
  st : CopySt
  kind : CopyKind
  mode : CopyMode
  dst : Word
  src : Word
  len : Word
  done : List Nat
  gw : Option Nat
  buf : Option Word
  err : BitVec 8
  flg : BitVec 5
  ord : Nat
  id : Nat
  deriving DecidableEq, Repr

/-- The functions of an atomic (02 R54). -/
inductive AtomFn where
  | add | min | max | minn | maxn | and | or | xor | swap | cas | faddF32 | faddBf16
  deriving DecidableEq, Repr

/-- What a store-buffer entry does (03 R94). `ld` is a plain load that a trap has set aside (04 R103). -/
inductive SbKind where
  | ld (size : Size) (sext : Bool) (sd : SReg)
  | st (size : Size) (val : Word)
  | stF (size : Size) (val : Word)
  | stS (size : Size) (val : Word)
  | feclr
  | feset
  | ldC (size : Size) (sext : Bool) (sd : SReg)
  | ldW (size : Size) (sext : Bool) (sd : SReg)
  | ldct (sd : SReg)
  | amo (fn : AtomFn) (bytes : Nat) (order : Order) (scope : Scope) (sd : SReg) (val cmp : Word)
  | launch (sd : SReg) (val : Word)
  | cpy (sd : SReg) (c : Copy)
  | fence (kind : FenceKind) (scope : Scope)
  deriving DecidableEq, Repr

/-- An entry of the store buffer. `ord` counts the pushes before it, `ir` are the halfwords of the instruction that issued it, `bad` is
the cause that its translation met when it was placed again (14 R310), `park` FEMODE.PARK as it was issued (R306), and `gw` the remote request
it waits on. -/
structure SbEntry where
  id : Nat
  ord : Nat
  ipc : Word
  ir : Nat
  kind : SbKind
  loc : Loc
  bad : Option Nat
  park : Bool
  budget : Nat
  waiter : Option Nat
  exhausted : Bool
  gw : Option Nat
  deriving DecidableEq, Repr

/-- A generator load that waits at its home (04 R103): LD.w, PWAIT when `target` holds its target, or a plain load of a GW page, with the bytes
`fwd` that buffered stores have given it (04 R125). -/
structure PendLoad where
  id : Nat
  ord : Nat
  ipc : Word
  ir : Nat
  size : Size
  sext : Bool
  sd : SReg
  target : Option Word
  plain : Bool
  loc : Loc
  bad : Option Nat
  park : Bool
  budget : Nat
  waiter : Option Nat
  exhausted : Bool
  gw : Option Nat
  fwd : List (Option Byte)
  deriving DecidableEq, Repr

/-- What a history entry restores (03 R95): an s register, a loop register by its system register number, GFSTAT, a control
register of R24 (by its number; the undo drops the queued write), or the reply entry that an RPLY popped. -/
inductive HistTarget where
  | s (r : SReg)
  | loop (num : Nat)
  | gfstat
  | ctl (num : Nat)
  | reply
  deriving DecidableEq, Repr

/-- An entry of the history buffer (03 R95): the last word pushed before the write, and the old value. -/
structure Hist where
  ord : Nat
  target : HistTarget
  old : Word
  deriving DecidableEq, Repr

/-- A bank of trap registers (08 R222 to R225) and what TakeTrap sets aside in it (R229); `mask` are the active elements of the
held word, with its halfwords (05 R145), and `unfetched` says that the fetch of it failed. -/
structure Bank where
  cause : Word
  val : Word
  epc : Word
  ipc : Word
  prov : Word
  seq : Word
  spc : Word
  word0 : Word
  word1 : Word
  xq : Word
  stat : Word
  startix : Vector Word 8
  block : Option Block
  nspc : Word
  held : Bool
  unfetched : Bool
  mask : Option (Nat × BitVec 1024)
  failed : Option SbEntry
  younger : List SbEntry
  deriving DecidableEq, Repr

/-- A field that $j of a template fills (20 R380). -/
structure Desc where
  kind : Nat
  low : Nat
  hw : Nat
  deriving DecidableEq, Repr

/-- An entry of the template store (04 R135, 20 R380). -/
structure Tmpl where
  num : Nat
  word : Nat
  d1 : List Desc
  d2 : List Desc
  d3 : List Desc
  deriving DecidableEq, Repr

/-- An anchor entry (01 R22). -/
structure Anchor where
  a : Word
  e : BitVec 16
  deriving DecidableEq, Repr

/-- An amax history register (01 R38): 16 f32 slots and the slot pointer. -/
structure Amh where
  slots : Vector (BitVec 32) 16
  ap : BitVec 4
  deriving DecidableEq, Repr

/-- The stream's register files (03 R74), with the dirty tags and VLT of the save engine (13 R286). The dirty bit of vN is
bit N, of mN 64+N, of kN 72+N, of zN 88+N, of cbN 96+N and of amhN 100+N. -/
structure Files where
  x : Vector Word 16
  v : Vector (BitVec 4096) 64
  m : Vector (BitVec 1024) 8
  k : Vector (Vector Anchor 64) 16
  z : Vector (BitVec 32768) 8
  cb : Vector (BitVec 256) 4
  amh : Vector Amh 4
  dirty : BitVec 104
  vlt : Vector Nat 64
  deriving DecidableEq, Repr

/-- The generator's registers (04). `npc` and `ir` are NextPC and the halfwords of the instruction that the step
fetched: the model's own. -/
structure Gen where
  s : Vector Word 32
  pc : Word
  npc : Word
  ir : Nat
  level : Level
  lc0 : BitVec 32
  lc1 : BitVec 32
  lbeg0 : Word
  lend0 : Word
  lbeg1 : Word
  lend1 : Word
  lctl : BitVec 3
  gfstat : BitVec 5
  deriving DecidableEq, Repr

/-- The identity registers (03 R80, 14 R301). -/
structure Ident where
  gidx : BitVec 32
  sidx : BitVec 7
  stage : BitVec 4
  ngrp : BitVec 32
  gsize : BitVec 7
  gcores : BitVec 48
  core : BitVec 7
  barph : BitVec 16
  mbxhead : BitVec 8
  locks : List Word
  deriving DecidableEq, Repr

/-- Where a strand stands (03 R99). Waiting and Trapped are read from its waiters and trap banks. -/
inductive Status where
  | unbound | ready | running | saving | parked | preempted | ended
  deriving DecidableEq, Repr

/-- A fault that is due: its cause and value, and what it belongs to (08 R220, R225): the push count, PC and halfwords of the
instruction that issued the access, and the number of handlers active then. -/
structure Pend where
  cause : Nat
  val : Word
  stream : Bool
  deferred : Bool
  ord : Nat
  ipc : Word
  ir : Nat
  depth : Nat
  entry : Option SbEntry
  deriving DecidableEq, Repr

/-- Conditions of a waiting access (14 R308). -/
inductive Cond where
  | full | empty | prog (target : Word)
  deriving DecidableEq, Repr

/-- What a waiter belongs to. -/
inductive WaitSrc where
  | load (sid id : Nat)
  | buf (sid id : Nat)
  | pod (sid p : Nat)
  | copy (sid handle : Nat)
  | remote (rid : Nat)
  | node (nid : Nat)
  | queue (part q : Nat)
  deriving DecidableEq, Repr

/-- One strand: its registers, queues and buffers (03), trap banks (08), debug registers (13) and its place in the
machine. `brks` are the sett breakpoints that its generator accesses have met (13 R292); `saveOpen` says that PREMAX lets the word in
progress go on while the strand is saved (R284). -/
structure Strand where
  id : Nat
  gid : Nat
  nid : Nat
  part : Nat
  cluster : Nat
  status : Status
  half : Bool
  stratB : Bool
  lp : Bool
  gen : Gen
  files : Files
  ctl : Ctl
  fstat : Flags
  eidx : Vector Word 8
  vl : Nat
  rows : Nat
  mctl : Word
  vbyp : Word
  premax : Word
  dbgctl : Word
  chkcnt : Word
  bpctl : Vector Word 4
  bpval : Vector Word 4
  ident : Ident
  deleg : Word
  ktvec : Word
  stvec : Word
  fefail : Word
  feform : Word
  kbank : Bank
  sbank : Bank
  tmpl : List Tmpl
  queue : List QItem
  nseq : BitVec 48
  nord : Nat
  reply : List Word
  sbuf : List SbEntry
  pend : List PendLoad
  hist : List Hist
  cur : Option Cur
  block : Block
  captured : List Captured
  copies : List Copy
  nextCopy : Nat
  icg : List Word
  ics : List Word
  strips : List Strip
  fault : Option Pend
  brks : List Pend
  ints : List Word
  preempt : Bool
  saveOpen : Bool
  yielded : Bool
  preSpent : Bool
  skipBrk : Bool
  image : Word
  record : Word
  parkKey : Option Nat
  parkCond : Cond
  parkSrc : Option WaitSrc
  recState : Nat
  nextId : Nat
  stall : Nat
  sstall : Nat
  deriving DecidableEq, Repr

/-- A line of an L1 (12 R268, R270): its key, page kind, priority, the setts that it holds (all but progress words), their full/empty bits
and bytes. -/
structure L1Line where
  key : Nat
  kind : PageKind
  high : Bool
  held : BitVec 16
  bits : BitVec 16
  data : BitVec 1024
  deriving DecidableEq, Repr

/-- A line of a core's generator instruction cache or stream block cache (00 R3): its key, the address it was fetched by, and its bytes. -/
structure CodeLine where
  key : Nat
  va : Word
  stream : Bool
  data : BitVec 512
  deriving DecidableEq, Repr

/-- A TLB entry (16 R331): the page's base, size in bits, and leaf. -/
structure TlbEntry where
  part : Nat
  va : Nat
  bits : Nat
  leaf : Word
  deriving DecidableEq, Repr

/-- An arrival at a core's mailbox port that has not been applied (14 R313): for the mailbox of which half, from which strand,
and its data. -/
structure Arrival where
  half : Nat
  sid : Nat
  data : Word
  deriving DecidableEq, Repr

/-- One core (11 to 14). -/
structure CoreSt where
  id : Nat
  cur : Bool
  next : Bool
  l1 : List L1Line
  icache : List CodeLine
  dtlb : List TlbEntry
  pmsel : Vector Word 16
  pmcnt : Vector Word 16
  pmovf : BitVec 16
  pmlost : BitVec 32
  smpctl : Word
  smpbase : Word
  smpsize : Word
  smpptr : Word
  tailA : BitVec 8
  tailB : BitVec 8
  arrivals : List Arrival
  service : Bool
  shdLanes : List Nat
  owner : Option Nat
  deriving DecidableEq, Repr

/-- A barrier of a cluster (14 R316). Its release setts are setts of the machine, under their park keys. -/
structure Barrier where
  cnt : Nat
  arr : Nat
  ph : Bool
  deriving DecidableEq, Repr

/-- One cluster: its shared TLB, barriers and the groups that hold them. -/
structure ClusterSt where
  id : Nat
  tlb : List TlbEntry
  barriers : Vector Barrier 16
  holders : Vector (Option Nat) 16
  deriving DecidableEq, Repr

/-- One die's hot-page tracker (16 R334). -/
structure DieSt where
  id : Nat
  hpctl : Word
  hpbase : Word
  hpptr : Word
  pinskip : Word
  counts : List (Nat × Nat)
  told : List Nat
  deriving DecidableEq, Repr

/-- An entry of a home's waiter table (14 R305), or a watch of ALD.W (07 R215). `changed` is set when its sett changes;
`cancelled` when a watched header was emptied; `spent` says that the budget is gone, so that mark and re-check comes next (R309). -/
structure Waiter where
  id : Nat
  key : Nat
  cond : Cond
  src : WaitSrc
  watch : Bool
  changed : Bool
  cancelled : Bool
  rejected : Bool
  spent : Bool
  deriving DecidableEq, Repr

/-- An atomic in the combining store of a bank (16 R324): the line it waits for, what it belongs to, its operation, and, for an element of a
stream word, what applying it gave: a cause or 0, the old value and the flags. -/
structure Chain where
  line : Nat
  src : WaitSrc
  loc : Loc
  bytes : Nat
  fn : AtomFn
  b : Nat
  cmp : Nat
  result : Option (Nat × Nat × Flags)
  deriving DecidableEq, Repr

/-- A parked-waiter mark of a home (14 R309): its sett, and whether it waits for a progress word. -/
structure Mark where
  key : Nat
  prog : Bool
  deriving DecidableEq, Repr

/-- What is known of a stored line beyond its bytes (22 R404, R408, R412, R445): the key it was written
under, poison, and an integrity tag that never matches. A line of HBM that is not listed is fresh. For the scratchpad an entry is a
sett with an uncorrectable error (12 R271). -/
structure LineInfo where
  key : Nat
  enc : Nat
  poison : Bool
  badTag : Bool
  deriving DecidableEq, Repr

/-- A launch queue at the bench (19 R358). -/
structure LQueue where
  slots : Word
  log2n : Nat
  prio : Nat
  en : Bool
  head : Nat
  last : Option Nat
  deriving DecidableEq, Repr

/-- The states of a node (19 R364). -/
inductive NodeSt where
  | taken | waiting | ready | binding | running | done
  deriving DecidableEq, Repr

/-- A tile range of a node (19 R362, R366). -/
structure Tile where
  base : Nat
  len : Nat
  write : Bool
  deriving DecidableEq, Repr

/-- A node at the bench (19 R362 to R371). -/
structure Node where
  id : Nat
  part : Nat
  q : Nat
  st : NodeSt
  kcb : Word
  args : List Word
  half : Bool
  ovlp : Bool
  park : Bool
  chk : Word
  stages : Nat
  nbar : Nat
  gsize : Nat
  gps : Nat
  budget : Word
  entry : Word
  ktvec : Word
  deleg : Word
  tmpl : List Tmpl
  done : Word
  lp : Bool
  preds : List Word
  seen : Nat
  tiles : List Tile
  recorded : Bool
  reject : Nat
  prev : Option Nat
  prio : Nat
  eff : Nat
  readyAt : Nat
  raises : Nat
  nextG : Nat
  ended : Nat
  lastCluster : Option Nat
  fail : Option (Nat × Nat)
  doneOk : Bool
  slots : List Nat
  gw : Option Nat
  deriving DecidableEq, Repr

/-- A bound group (14 R298, R299): its cores and barriers, and what an eviction saved. -/
structure Group where
  id : Nat
  nid : Nat
  part : Nat
  gidx : Nat
  cluster : Nat
  cores : List Nat
  bars : List Nat
  half : Bool
  seqNo : Nat
  pre : Bool
  evicted : Bool
  evSlots : List Nat
  live : Nat
  deriving DecidableEq, Repr

/-- One partition (22 R402): its registers, held at the bench, its counters and the bench itself. -/
structure Part where
  id : Nat
  dies : BitVec 4
  msc : BitVec 2
  ttb : Word
  gwtb : Word
  gwtn : Word
  parkbase : Word
  spsave : Word
  spsaven : Word
  sentry : Word
  qtbase : Word
  imgpool : Word
  recpool : Word
  hmask : Word
  evctl : Word
  evbase : Word
  evsize : Word
  evptr : Word
  subcnt : Word
  hbmce : Vector Word 8
  hbmue : Vector Word 8
  itgf : Word
  hints : Word
  hdrop : Word
  l1par : Word
  spce : Word
  l2ce : Word
  shdcor : Word
  linkrt : Word
  tc0dem : Word
  uvce : Word
  keyval : BitVec 16
  keys : Vector Nat 16
  queues : Vector LQueue 64
  order : List Nat
  rr : Vector Nat 8
  slots : List Nat
  evSlots : List Nat
  recFail : Nat
  deriving DecidableEq, Repr

/-- A row of a DRAM bank (22 R406, R411, R414): open under a hint, refreshes postponed, in back-off. -/
structure BankSt where
  stack : Nat
  chan : Nat
  bank : Nat
  hinted : Option Nat
  postponed : Nat
  backoff : Bool
  rfm : Nat
  deriving DecidableEq, Repr

/-- A hint in the queue of its pseudo-channel (22 R411): the row of a bank that it names. -/
structure Hint where
  stack : Nat
  chan : Nat
  bank : Nat
  row : Nat
  deriving DecidableEq, Repr

/-- A remote operation that waits at a home, or behind an earlier one of its context (25 R434, R435): the next byte to serve, what
it has read, the time at which its wait ends, and whether it has a waiter. -/
structure RemoteWait where
  rid : Nat
  op : RemoteOp
  part : Nat
  next : Nat
  read : List Byte
  status : List Bool
  deadline : Nat
  waiter : Option Nat
  deriving DecidableEq, Repr

/-- A packet delivery context as its packets have arrived (25 R435, R444): every sequence number below `next` has, and those of `late`. -/
structure Pdc where
  id : BitVec 32
  next : BitVec 32
  late : List (BitVec 32)
  deriving DecidableEq, Repr

/-- A request on its way to a remote node (25 R437), with its WAIT (R434) and priority (R439). `nibs` are the nibbles of its data that are
written (06 R175). -/
structure GwReq where
  id : Nat
  src : WaitSrc
  node : BitVec 32
  addr : Word
  form : BitVec 8
  rel : Bool
  wait : BitVec 16
  pcp : Nat
  len : Nat
  data : List Byte
  nibs : Nat
  fn : Nat
  deadline : Nat
  reply : Option GwReply
  deriving DecidableEq, Repr

/-- What leaves the package or is reported to the board (25 R436, 24 R428, R429). -/
inductive Out where
  | ack (port : Nat) (psn : BitVec 32) (reason : BitVec 8) (data : List Byte) (status : List Bool)
  | request (r : GwReq)
  | report (data sig : List Byte)
  | tagMismatch (key : Nat)
  | ctrl (code : Nat) (arg : Nat)
  deriving DecidableEq, Repr

/-- The links and what has failed on them (22 R401, 25 R444). -/
structure LinkSt where
  link : Link
  fails : Nat
  half : Bool
  oos : Bool
  deriving DecidableEq, Repr

/-- Corrected errors of an array in an hour, at nominal voltage and in undervolt windows of its rail (24 R423). -/
structure ArrayErrs where
  array : Nat
  hour : Nat
  nominal : Nat
  under : Nat
  deriving DecidableEq, Repr

/-- The package: time, ports, pins, clock, DRAM and the management controller's tables (22 to 25). `noRaise` says that
the clock may not rise: no power window has closed below 95% of the limit since it was lowered; `raiseAt` is when it rose last, or when one
did (24 R421). -/
structure Pkg where
  time : Nat
  lock : Bool
  fnode : BitVec 32
  pstat : Vector (BitVec 8) 52
  pdig : Vector Word 52
  pdcnt : Vector Word 52
  clk : Nat
  therm : List Nat
  noRaise : Bool
  raiseAt : Nat
  pwrEn : Bool
  pgood : Bool
  resetN : Bool
  thermN : Bool
  faultN : Bool
  cltOk : Bool
  cltLowAt : Nat
  ingress : Vector (Option Ingress) 64
  ptlb : Vector (List TlbEntry) 52
  pdcs : List Pdc
  banks : List BankSt
  hintq : List Hint
  links : List LinkSt
  rails : List (Nat × Bool)
  noUv : List Nat
  arrays : List ArrayErrs
  predicted : List Nat
  dead : List Nat
  fatal : Bool
  out : List Out
  deriving DecidableEq, Repr

/-- Who moves in the next step: the model's own choice of an interleaving (log entry 4). -/
inductive Turn where
  | gen | stream | buffer | chain
  | event (n : Nat)
  | focus (sid : Nat)
  | sett (sid handle sett : Nat)
  deriving DecidableEq, Repr

/-- Physical events of the environment that a step meets (12 R268, R271, 08 R236, 22 R404): a shadow mismatch that persists for
`n` executions at an element group of the word in progress, a parity error, `n` erroneous symbols of a line, an error of a scratchpad, of the
L2 or of the memory-side cache, each of which strikes as an access of the sett at its key is made, an uncorrectable error in another array of a
core (24 R422), and a boot step that fails (24 R427). The spec does not say when they occur; the model holds them as inputs (log
entry 14). -/
inductive Upset where
  | shadow (sid row group n : Nat)
  | rotated (sid n : Nat)
  | parity (core key : Nat)
  | symbols (key n : Nat)
  | padCorrected (key : Nat)
  | padBad (key : Nat)
  | l2Corrected (key : Nat)
  | cacheCorrected (key : Nat)
  | cacheBad (key : Nat)
  | coreBad (core : Nat)
  | bootFails
  deriving DecidableEq, Repr

/-- Counter events of a step (13 R293): the core and strand that they are of, the code, and how many. -/
structure Tally where
  core : Nat
  stratB : Bool
  evt : Nat
  n : Nat
  deriving DecidableEq, Repr

/-- The whole machine. `cur` is the strand that acts; `tally` holds the counter events (13 R293) of the step in progress;
`chains` the atomics that wait at a bank for their line (16 R324); `progs` the words that have served
as progress words (12 R268); `nextKey` numbers the keys that are loaded (22 R408). -/
structure State where
  cur : Strand
  others : List Strand
  mem : List Host.Cell
  empties : List Nat
  marks : List Mark
  waiters : List Waiter
  nextWaiter : Nat
  lines : List LineInfo
  cores : List CoreSt
  clusters : List ClusterSt
  dies : List DieSt
  parts : List Part
  nodes : List Node
  groups : List Group
  nextNode : Nat
  nextGroup : Nat
  remotes : List RemoteWait
  nextRemote : Nat
  gwReqs : List GwReq
  nextGw : Nat
  chains : List Chain
  progs : List Nat
  nextKey : Nat
  pkg : Pkg
  events : List Event
  sched : List Turn
  upsets : List Upset
  podLag : Vector Nat 8
  tick : Nat
  tally : List Tally
  deriving DecidableEq, Repr

/-- Why the machine stops. -/
inductive Fault where
  /-- Raised by `step` when the package is out of service after a fatal error (22 R401, 24 R421, R422): safe, the spec
  lets nothing run on. -/
  | fatalError
  deriving DecidableEq, Repr

/-- Why a step has no meaning. -/
inductive Refusal where
  /-- Raised by `exec` for an instruction that the model does not give a meaning yet: safe, nothing follows from it. -/
  | notModelled (mnemonic : String)
  deriving DecidableEq, Repr

/-! ## Reset -/

/-- A trap bank at reset (08 R222 to R225; the fields without a stated value by log entry 1). -/
def Bank.reset : Bank :=
  { cause := 0, val := 0, epc := 0, ipc := 0, prov := 0, seq := 0, spc := 0, word0 := 0, word1 := 0, xq := 0, stat := 0
    startix := Vector.replicate 8 0, block := none, nspc := 0, held := false, unfetched := false, mask := none, failed := none, younger := [] }

/-- The control registers at reset (01 R25, R27, R33, 03 R79, 08 R235, 14 R306). -/
def Ctl.reset : Ctl :=
  { fctl := 0xF04, fenab := 0, srseed := 1, ablk := 4, chkctl := 0x42, femode := 1, febudget := 0x1000 }

/-- Stream block state outside any block (06 R186, R190, R193, R194). -/
def Block.reset : Block :=
  { call := none, spc := 0, fm := BitVec.allOnes 1024, pfb := [], vlc0 := 0, vlc1 := 0, vlbeg0 := 0, vlend0 := 0
    vlbeg1 := 0, vlend1 := 0, vlctl := 0, stripv := 0, strippc := 0, stripct := 0 }

/-- The stream's register files at reset (03 R74, 11 R247, 01 R38; x, m, k and cb by log entry 1). -/
def Files.reset : Files :=
  { x := Vector.replicate 16 0, v := Vector.replicate 64 0, m := Vector.replicate 8 0
    k := Vector.replicate 16 (Vector.replicate 64 ⟨0, 0⟩), z := Vector.replicate 8 0, cb := Vector.replicate 4 0
    amh := Vector.replicate 4 ⟨Vector.replicate 16 0, 0⟩, dirty := 0, vlt := Vector.replicate 64 0 }

/-- The generator's registers at reset (19 R370; pc before a bind by log entry 1). -/
def Gen.reset : Gen :=
  { s := Vector.replicate 32 0, pc := 0, npc := 0, ir := 0, level := .k, lc0 := 0, lc1 := 0, lbeg0 := 0, lend0 := 0
    lbeg1 := 0, lend1 := 0, lctl := 0, gfstat := 0 }

/-- The identity registers before a bind (03 R80, 14 R301; log entry 1). -/
def Ident.reset : Ident :=
  { gidx := 0, sidx := 0, stage := 0, ngrp := 0, gsize := 0, gcores := 0, core := 0, barph := 0, mbxhead := 0, locks := [] }

/-- A strand that no group binds. -/
def Strand.reset : Strand :=
  { id := 0, gid := 0, nid := 0, part := 0, cluster := 0, status := .unbound, half := false, stratB := false, lp := false
    gen := Gen.reset, files := Files.reset, ctl := Ctl.reset, fstat := 0, eidx := Vector.replicate 8 0, vl := 0, rows := 1
    mctl := 0, vbyp := 0x10000, premax := 0x7D0, dbgctl := 0, chkcnt := 0, bpctl := Vector.replicate 4 0
    bpval := Vector.replicate 4 0, ident := Ident.reset, deleg := 0, ktvec := 0, stvec := 0, fefail := 0, feform := 0
    kbank := Bank.reset, sbank := Bank.reset, tmpl := [], queue := [], nseq := 0, nord := 0, reply := [], sbuf := []
    pend := [], hist := [], cur := none, block := Block.reset, captured := [], copies := [], nextCopy := 1, icg := []
    ics := [], strips := [], fault := none, brks := [], ints := [], preempt := false, saveOpen := false, yielded := false, preSpent := false, skipBrk := false, image := 0
    record := 0, parkKey := none, parkCond := .full, parkSrc := none, recState := 0, nextId := 0, stall := 16, sstall := 16 }

/-- A core at reset (11 R245, 13 R293, R295, 14 R311). -/
def CoreSt.reset (id : Nat) : CoreSt :=
  { id := id, cur := false, next := false, l1 := [], icache := [], dtlb := [], pmsel := Vector.replicate 16 0
    pmcnt := Vector.replicate 16 0, pmovf := 0, pmlost := 0, smpctl := 0x1000, smpbase := 0, smpsize := 0, smpptr := 0
    tailA := 0, tailB := 0, arrivals := [], service := true, shdLanes := [], owner := none }

/-- A barrier before any group binds it (14 R316; log entry 1). -/
def Barrier.reset : Barrier :=
  { cnt := 0, arr := 0, ph := false }

/-- A cluster at reset. -/
def ClusterSt.reset (id : Nat) : ClusterSt :=
  { id := id, tlb := [], barriers := Vector.replicate 16 Barrier.reset, holders := Vector.replicate 16 none }

/-- A die's tracker at reset (16 R334). -/
def DieSt.reset (id : Nat) : DieSt :=
  { id := id, hpctl := 0x1000028, hpbase := 0, hpptr := 0, pinskip := 0, counts := [], told := [] }

/-- A launch queue that the bench does not serve. -/
def LQueue.reset : LQueue := { slots := 0, log2n := 0, prio := 0, en := false, head := 0, last := none }

/-- A partition at reset (14 R300, R307, 16 R328, 19 R357, R375, 22 R402, R407, R408, R413, 24 R424). -/
def Part.reset (id : Nat) (dies : BitVec 4) (msc : BitVec 2) : Part :=
  { id := id, dies := dies, msc := msc, ttb := 0, gwtb := 0, gwtn := 0, parkbase := 0, spsave := 0, spsaven := 0
    sentry := 0, qtbase := 0, imgpool := 0, recpool := 0, hmask := 0x7FFFFFFC0, evctl := 0, evbase := 0, evsize := 0
    evptr := 0, subcnt := 0, hbmce := Vector.replicate 8 0, hbmue := Vector.replicate 8 0, itgf := 0, hints := 0
    hdrop := 0, l1par := 0, spce := 0, l2ce := 0, shdcor := 0, linkrt := 0, tc0dem := 0, uvce := 0, keyval := 0, keys := Vector.replicate 16 0
    queues := Vector.replicate 64 LQueue.reset, order := [], rr := Vector.replicate 8 0, slots := [], evSlots := []
    recFail := 0 }

/-- The role bits of a port's PSTAT (25 R430, R433): ports 13d+9 to 13d+12 are scale-out. -/
def portRole (p : Nat) : BitVec 8 := if 9 ≤ p % 13 then 0x40 else 0

/-- The package at reset (24 R424, R429, 25 R433, R436; FNODE and the pins by log entry 2). -/
def Pkg.reset : Pkg :=
  { time := 0, lock := false, fnode := 0, pstat := Vector.ofFn fun p : Fin 52 => portRole p.val
    pdig := Vector.replicate 52 0, pdcnt := Vector.replicate 52 0, clk := 14, therm := [], noRaise := false, raiseAt := 0, pwrEn := true
    pgood := true, resetN := true, thermN := true, faultN := true, cltOk := true, cltLowAt := 0
    ingress := Vector.replicate 64 none, ptlb := Vector.replicate 52 [], pdcs := [], banks := [], hintq := [], links := [], rails := [], noUv := [], arrays := [], predicted := [], dead := []
    fatal := false, out := [] }

/-- The machine right after reset: memory zero and full (17 R338), one partition of all four dies (log entry 2), no node,
no strand bound. -/
def State.reset : State :=
  { cur := Strand.reset, others := [], mem := [], empties := [], marks := [], waiters := [], nextWaiter := 0, lines := []
    cores := [], clusters := [], dies := [], parts := [Part.reset 0 0xF 2], nodes := [], groups := [], nextNode := 0
    nextGroup := 0, remotes := [], nextRemote := 0, gwReqs := [], nextGw := 0, chains := [], progs := [], nextKey := 1, pkg := Pkg.reset, events := [], sched := []
    upsets := [], podLag := Vector.replicate 8 0, tick := 0, tally := [] }

end Sys2Proof.Machine
end

