-- ==== Sys2Proof/Machine/Float.lean ====
section
/-!
DEFINITION. Exact arithmetic and rounding (spec 01 R13 to R17, R32, R33). A floating-point operand is decoded into an
exact value, the operation is computed exactly, and one function rounds the result into its format.
-/
namespace Sys2Proof.Machine

/-! ## Flags -/

/-- Invalid operation. -/
def fNV : Flags := 1
/-- Division by zero. -/
def fDZ : Flags := 2
/-- Overflow. -/
def fOF : Flags := 4
/-- Underflow. -/
def fUF : Flags := 8
/-- Inexact. -/
def fNX : Flags := 16
/-- Saturated. -/
def fSAT : Flags := 32
/-- Deviation overflow. -/
def fDOV : Flags := 64
/-- Substituted data. -/
def fSUB : Flags := 128
/-- NaN scale. -/
def fSCN : Flags := 256

/-- A flag under a condition. -/
def flagIf (c : Bool) (f : Flags) : Flags := if c then f else 0

/-! ## Rounding to an integer -/

/-- A rounding mode; stochastic rounding carries its 16-bit draw (R33). -/
inductive Rm where
  | rne | rtz | rup | rdn
  | sr (rnd : Nat)
  deriving DecidableEq, Repr

/-- FCTL.RM (R25). -/
def Rm.ofCode : Nat → Rm
  | 0 => .rne | 1 => .rtz | 2 => .rup
  | _ => .rdn

/-- The number of bits of `m`. -/
def bitLen (m : Nat) : Nat := if m = 0 then 0 else m.log2 + 1

/-- Round m / 2^d to an integer by the mode, for a value of the given sign; the second component says that it was inexact.
A shift far beyond the bits of `m` leaves a remainder below every tie and below every stochastic step. -/
def roundShift (rm : Rm) (neg : Bool) (m d : Nat) : Nat × Bool :=
  let far := bitLen m + 40 < d
  let n := if far then 0 else m / 2 ^ d
  let rem := if far then (if m = 0 then 0 else 1) else m % 2 ^ d
  let unit := if far then 2 ^ 40 else 2 ^ d
  let up := match rm with
    | .rne => unit < 2 * rem || (2 * rem == unit && n % 2 == 1)
    | .rtz => false
    | .rup => rem != 0 && !neg
    | .rdn => rem != 0 && neg
    | .sr r => rem != 0 && 65536 ≤ rem * 65536 / unit + r
  (if up then n + 1 else n, rem != 0)

/-! ## Exact values -/

/-- An exact dyadic number m · 2^e. -/
structure Dy where
  m : Int
  e : Int
  deriving DecidableEq, Repr

/-- Zero. -/
def Dy.zero : Dy := ⟨0, 0⟩

/-- The exact sum; an operand that is zero costs nothing. -/
def Dy.add (a b : Dy) : Dy :=
  if a.m = 0 then b else if b.m = 0 then a
  else
    let e := min a.e b.e
    ⟨a.m * 2 ^ (a.e - e).toNat + b.m * 2 ^ (b.e - e).toNat, e⟩

/-- The negation. -/
def Dy.neg (a : Dy) : Dy := ⟨-a.m, a.e⟩
/-- The exact product. -/
def Dy.mul (a b : Dy) : Dy := ⟨a.m * b.m, a.e + b.e⟩
/-- The exact product with 2^k. -/
def Dy.scale (a : Dy) (k : Int) : Dy := ⟨a.m, a.e + k⟩
/-- a < b, exactly. -/
def Dy.lt (a b : Dy) : Bool := (a.add b.neg).m < 0
/-- a = b, exactly. -/
def Dy.eq (a b : Dy) : Bool := (a.add b.neg).m == 0
/-- The magnitude. -/
def Dy.abs (a : Dy) : Dy := ⟨a.m.natAbs, a.e⟩
/-- The dyadic of an integer. -/
def Dy.ofInt (i : Int) : Dy := ⟨i, 0⟩

/-- Round a / 2^q to an integer by the mode, and whether it was inexact. A magnitude of 2^300 stands for any larger one. -/
def Dy.toInt (rm : Rm) (a : Dy) (q : Int) : Int × Bool :=
  let s := a.e - q
  if a.m = 0 then (0, false)
  else if 300 ≤ s then (if a.m < 0 then -(2 ^ 300) else 2 ^ 300, false)
  else if 0 ≤ s then (a.m * 2 ^ s.toNat, false)
  else
    let r := roundShift rm (a.m < 0) a.m.natAbs (-s).toNat
    (if a.m < 0 then -(r.1 : Int) else r.1, r.2)

/-- An exact operand or result: a NaN, an infinity, or a finite value with its sign (a zero keeps one). -/
inductive FVal where
  | nan (signalling : Bool)
  | inf (neg : Bool)
  | fin (neg : Bool) (m : Nat) (e : Int)
  deriving DecidableEq, Repr

/-- The dyadic of a finite value. -/
def FVal.dy : FVal → Dy
  | .fin neg m e => ⟨if neg then -(m : Int) else m, e⟩
  | _ => Dy.zero

/-- A finite value. -/
def FVal.isFin : FVal → Bool
  | .fin _ _ _ => true
  | _ => false

/-- A NaN. -/
def FVal.isNan : FVal → Bool
  | .nan _ => true
  | _ => false

/-- A signalling NaN. -/
def FVal.isSnan : FVal → Bool
  | .nan s => s
  | _ => false

/-- A zero of either sign. -/
def FVal.isZero : FVal → Bool
  | .fin _ m _ => m == 0
  | _ => false

/-- The sign. -/
def FVal.sign : FVal → Bool
  | .nan _ => false
  | .inf n => n
  | .fin n _ _ => n

/-- The value with its sign inverted. -/
def FVal.negate : FVal → FVal
  | .nan s => .nan s
  | .inf n => .inf (!n)
  | .fin n m e => .fin (!n) m e

/-- The finite value of a dyadic, with a sign for zero. -/
def FVal.ofDy (a : Dy) (zneg : Bool) : FVal :=
  if a.m = 0 then .fin zneg 0 0 else .fin (a.m < 0) a.m.natAbs a.e

/-! ## Formats -/

/-- A floating-point format (R13): exponent bits, fraction bits, and whether it has infinities. -/
structure Fmt where
  eb : Nat
  fb : Nat
  inf : Bool
  deriving DecidableEq, Repr

/-- The format of a floating-point type (R13). -/
def fmtOf : Ty → Fmt
  | .f64 => ⟨11, 52, true⟩
  | .f32 => ⟨8, 23, true⟩
  | .f16 => ⟨5, 10, true⟩
  | .bf16 => ⟨8, 7, true⟩
  | .e4m3 => ⟨4, 3, false⟩
  | _ => ⟨5, 2, true⟩

/-- The exponent bias. -/
def Fmt.bias (f : Fmt) : Int := 2 ^ (f.eb - 1) - 1
/-- The width in bits. -/
def Fmt.width (f : Fmt) : Nat := 1 + f.eb + f.fb
/-- The exponent field of all ones. -/
def Fmt.emax (f : Fmt) : Nat := 2 ^ f.eb - 1
/-- The generated NaN (R14). -/
def Fmt.nan (f : Fmt) : Nat := if f.inf then f.emax * 2 ^ f.fb + 2 ^ (f.fb - 1) else 2 ^ (f.width - 1) - 1
/-- The code of an infinity, without its sign. -/
def Fmt.infCode (f : Fmt) : Nat := f.emax * 2 ^ f.fb
/-- The code of the largest finite value, without its sign (R13). -/
def Fmt.maxCode (f : Fmt) : Nat := if f.inf then f.infCode - 1 else 2 ^ (f.width - 1) - 2
/-- The sign bit in its place. -/
def Fmt.signBit (f : Fmt) (neg : Bool) : Nat := if neg then 2 ^ (f.width - 1) else 0

/-- The exact value of a code (R13, R14). -/
def Fmt.decode (f : Fmt) (b : Nat) : FVal :=
  let neg := b / 2 ^ (f.width - 1) % 2 == 1
  let ex := b / 2 ^ f.fb % 2 ^ f.eb
  let fr := b % 2 ^ f.fb
  if f.inf && ex == f.emax then
    (if fr = 0 then .inf neg else .nan (f.eb + f.fb != 7 && fr / 2 ^ (f.fb - 1) % 2 == 0))
  else if !f.inf && ex == f.emax && fr == 2 ^ f.fb - 1 then .nan false
  else if ex = 0 then .fin neg fr (1 - f.bias - f.fb)
  else .fin neg (2 ^ f.fb + fr) (ex - f.bias - f.fb)

/-- Round a finite non-zero value into the format (R15, R32, R33): its code and flags. -/
def Fmt.roundFin (f : Fmt) (rm : Rm) (neg : Bool) (m : Nat) (e : Int) : Nat × Flags :=
  if m = 0 then (f.signBit neg, 0)
  else
    let top : Int := e + m.log2
    let emin : Int := 1 - f.bias
    let q : Int := max (top - f.fb) (emin - f.fb)
    let d := q - e
    let r := if d ≤ 0 then (m * 2 ^ (-d).toNat, false) else roundShift rm neg m d.toNat
    let code := if r.1 < 2 ^ f.fb then r.1
      else (((q + f.fb + f.bias).toNat) * 2 ^ f.fb + (r.1 - 2 ^ f.fb))
    -- the same rounding without a limit on the exponent range decides tininess
    let q' : Int := top - f.fb
    let t := match rm with | .sr _ => Rm.rtz | o => o
    let u := if q' - e ≤ 0 then (m * 2 ^ (e - q').toNat, false) else roundShift t neg m (q' - e).toNat
    let tiny := u.1.log2 + q' < emin
    let above := f.maxCode < code
    -- under stochastic rounding, overflow is judged as under RTZ
    let z := if d ≤ 0 then (m * 2 ^ (-d).toNat, false) else roundShift .rtz neg m d.toNat
    let zcode := if z.1 < 2 ^ f.fb then z.1
      else (((q + f.fb + f.bias).toNat) * 2 ^ f.fb + (z.1 - 2 ^ f.fb))
    if above then
      (match rm with
      | .sr _ =>
        if zcode ≤ f.maxCode then (f.signBit neg + f.maxCode, fNX)
        else if f.inf then (f.signBit neg + f.maxCode, fOF ||| fNX) else (f.signBit neg + f.nan, fOF ||| fNX)
      | _ =>
        if !f.inf then (f.signBit neg + f.nan, fOF ||| fNX)
        else
          let toInf := match rm with
            | .rne => true
            | .rup => !neg
            | .rdn => neg
            | _ => false
          (f.signBit neg + (if toInf then f.infCode else f.maxCode), fOF ||| fNX))
    else (f.signBit neg + code, flagIf r.2 fNX ||| flagIf (r.2 && tiny) fUF)

/-- Round an exact value into the format. An infinite result of a format without infinities is its NaN code with NV. -/
def Fmt.encode (f : Fmt) (rm : Rm) : FVal → Nat × Flags
  | .nan _ => (f.nan, 0)
  | .inf neg => if f.inf then (f.signBit neg + f.infCode, 0) else (f.signBit neg + f.nan, fNV)
  | .fin neg m e => f.roundFin rm neg m e

/-- An exact sum of dyadics as a value: a zero sum of operands of opposite sign is +0, or −0 under RDN (R15). -/
def sumVal (rm : Rm) (na nb : Bool) (a b : Dy) : FVal :=
  FVal.ofDy (a.add b) (if na == nb then na else rm == .rdn)

/-- The exact sum of two values and its flags, before rounding (R15). -/
def FVal.add (rm : Rm) (a b : FVal) : FVal × Flags :=
  let s := flagIf (a.isSnan || b.isSnan) fNV
  match a, b with
  | .nan _, _ => (.nan false, s)
  | _, .nan _ => (.nan false, s)
  | .inf x, .inf y => if x == y then (.inf x, 0) else (.nan false, fNV)
  | .inf x, _ => (.inf x, 0)
  | _, .inf y => (.inf y, 0)
  | .fin na _ _, .fin nb _ _ => (sumVal rm na nb a.dy b.dy, 0)

/-- The exact product of two values and its flags (R15). -/
def FVal.mul (a b : FVal) : FVal × Flags :=
  let s := flagIf (a.isSnan || b.isSnan) fNV
  match a, b with
  | .nan _, _ => (.nan false, s)
  | _, .nan _ => (.nan false, s)
  | .inf x, .inf y => (.inf (x != y), 0)
  | .inf x, .fin y m _ => if m = 0 then (.nan false, fNV) else (.inf (x != y), 0)
  | .fin x m _, .inf y => if m = 0 then (.nan false, fNV) else (.inf (x != y), 0)
  | .fin x m e, .fin y n g => (.fin (x != y) (m * n) (e + g), 0)

/-- a + b in one format. -/
def Fmt.addBits (f : Fmt) (rm : Rm) (a b : Nat) : Nat × Flags :=
  let r := (f.decode a).add rm (f.decode b)
  let o := f.encode rm r.1
  (o.1, r.2 ||| o.2)

/-- a − b. A NaN keeps its kind when its sign is inverted. -/
def Fmt.subBits (f : Fmt) (rm : Rm) (a b : Nat) : Nat × Flags :=
  let r := (f.decode a).add rm (f.decode b).negate
  let o := f.encode rm r.1
  (o.1, r.2 ||| o.2)

/-- a · b. -/
def Fmt.mulBits (f : Fmt) (rm : Rm) (a b : Nat) : Nat × Flags :=
  let r := (f.decode a).mul (f.decode b)
  let o := f.encode rm r.1
  (o.1, r.2 ||| o.2)

/-- a / b: the quotient is formed with more bits than any format holds and a sticky bit. -/
def Fmt.divBits (f : Fmt) (rm : Rm) (a b : Nat) : Nat × Flags :=
  let x := f.decode a
  let y := f.decode b
  let s := flagIf (x.isSnan || y.isSnan) fNV
  let out (v : FVal) (fl : Flags) : Nat × Flags := let o := f.encode rm v; (o.1, fl ||| o.2)
  match x, y with
  | .nan _, _ => out (.nan false) s
  | _, .nan _ => out (.nan false) s
  | .inf _, .inf _ => out (.nan false) fNV
  | .inf n, .fin n' _ _ => out (.inf (n != n')) 0
  | .fin n _ _, .inf n' => out (.fin (n != n') 0 0) 0
  | .fin n m e, .fin n' m' e' =>
    if m' = 0 then (if m = 0 then out (.nan false) fNV else out (.inf (n != n')) fDZ)
    else if m = 0 then out (.fin (n != n') 0 0) 0
    else
      let k := 80 + m'.log2
      let q := m * 2 ^ k / m'
      let sticky := if m * 2 ^ k % m' = 0 then 0 else 1
      out (.fin (n != n') (2 * q + sticky) (e - e' - k - 1)) 0

/-- The integer square root, bit by bit from 2^n. -/
def isqrtAux (m : Nat) : Nat → Nat → Nat
  | 0, r => if (r + 1) * (r + 1) ≤ m then r + 1 else r
  | n + 1, r => let t := r + 2 ^ (n + 1); isqrtAux m n (if t * t ≤ m then t else r)

/-- The integer square root of m. -/
def isqrt (m : Nat) : Nat := isqrtAux m (bitLen m / 2 + 1) 0

/-- √a (04 R117). -/
def Fmt.sqrtBits (f : Fmt) (rm : Rm) (a : Nat) : Nat × Flags :=
  let out (v : FVal) (fl : Flags) : Nat × Flags := let o := f.encode rm v; (o.1, fl ||| o.2)
  match f.decode a with
  | .nan s => out (.nan false) (flagIf s fNV)
  | .inf n => if n then out (.nan false) fNV else out (.inf false) 0
  | .fin n m e =>
    if m = 0 then out (.fin n 0 0) 0
    else if n then out (.nan false) fNV
    else
      -- an even exponent, and enough bits for any format
      let k : Nat := if (e - 130) % 2 = 0 then 130 else 131
      let mm := m * 2 ^ k
      let r := isqrt mm
      let sticky := if r * r = mm then 0 else 1
      out (.fin false (2 * r + sticky) ((e - k) / 2 - 1)) 0

/-- ±(a·b) ± c with one rounding. 0·∞ sets NV even when c is a quiet NaN (05 R153). -/
def Fmt.fmaBits (f : Fmt) (rm : Rm) (np nc : Bool) (a b c : Nat) : Nat × Flags :=
  let p := (f.decode a).mul (f.decode b)
  let pv := if np then p.1.negate else p.1
  let z := f.decode c
  let zv := if nc then z.negate else z
  let r := pv.add rm zv
  let o := f.encode rm r.1
  (o.1, p.2 ||| r.2 ||| flagIf z.isSnan fNV ||| o.2)

/-- The order of two values that are no NaN, −0 equal to +0. -/
def FVal.ltv : FVal → FVal → Bool
  | .inf n, .inf n' => n && !n'
  | .inf n, _ => n
  | _, .inf n => !n
  | a, b => a.dy.lt b.dy

/-- Equality of two values that are no NaN, −0 equal to +0. -/
def FVal.eqv : FVal → FVal → Bool
  | .inf n, .inf n' => n == n'
  | .inf _, _ => false
  | _, .inf _ => false
  | a, b => a.dy.eq b.dy

/-- FMIN and FMAX (04 R117): −0 is less than +0; one NaN gives the other operand; two give the generated NaN. -/
def Fmt.minMax (f : Fmt) (max : Bool) (a b : Nat) : Nat × Flags :=
  let x := f.decode a
  let y := f.decode b
  let fl := flagIf (x.isSnan || y.isSnan) fNV
  match x.isNan, y.isNan with
  | true, true => (f.nan, fl)
  | true, false => (b, fl)
  | false, true => (a, fl)
  | false, false =>
    let less := x.ltv y || (x.isZero && y.isZero && x.sign && !y.sign)
    ((if max then (if less then b else a) else (if less then a else b)), fl)

/-- The one-hot class of R117, bits 9 to 0. -/
def Fmt.classify (f : Fmt) (a : Nat) : Nat :=
  let ex := a / 2 ^ f.fb % 2 ^ f.eb
  match f.decode a with
  | .inf n => if n then 1 else 128
  | .nan s => if s then 256 else 512
  | .fin n m _ =>
    if m = 0 then (if n then 8 else 16)
    else if ex = 0 then (if n then 4 else 32)
    else (if n then 2 else 64)

/-- The least and greatest integer of an integer type (R11). -/
def intMin (w : Nat) (signed : Bool) : Int := if signed then -(2 ^ (w - 1)) else 0
/-- The greatest integer of an integer type (R11). -/
def intMax (w : Nat) (signed : Bool) : Int := if signed then 2 ^ (w - 1) - 1 else 2 ^ w - 1

/-- An integer as w bits. -/
def intBits (w : Nat) (i : Int) : Nat := (i % 2 ^ w).toNat

/-- Read w bits as an integer. -/
def bitsInt (w : Nat) (signed : Bool) (b : Nat) : Int :=
  let n := b % 2 ^ w
  if signed && 2 ^ (w - 1) ≤ n then (n : Int) - 2 ^ w else n

/-- Clamp to an integer type, and whether it clamped. -/
def clampInt (w : Nat) (signed : Bool) (i : Int) : Int × Bool :=
  if i < intMin w signed then (intMin w signed, true)
  else if intMax w signed < i then (intMax w signed, true) else (i, false)

/-- Floating point to integer (R16): the source is rounded first, and its range judged after. -/
def valToInt (rm : Rm) (w : Nat) (signed : Bool) (v : FVal) : Nat × Flags :=
  match v with
  | .nan _ => (0, fNV)
  | .inf n => (intBits w (if n then intMin w signed else intMax w signed), fNV)
  | .fin _ _ _ =>
    let r := v.dy.toInt rm 0
    let c := clampInt w signed r.1
    (intBits w c.1, if c.2 then fNV else flagIf r.2 fNX)

/-- Integer to floating point (05 R154). -/
def intToFmt (f : Fmt) (rm : Rm) (i : Int) : Nat × Flags :=
  f.roundFin rm (i < 0) i.natAbs 0

/-- Float to float (05 R154): a NaN becomes the generated NaN of the destination, and a signalling one sets NV. -/
def fmtToFmt (src dst : Fmt) (rm : Rm) (b : Nat) : Nat × Flags :=
  let v := src.decode b
  let o := dst.encode rm v
  (o.1, flagIf v.isSnan fNV ||| o.2)

end Sys2Proof.Machine
end

