-- ==== Sys2Proof/Machine/Util.lean ====
section
/-!
DEFINITION. Small helpers of the machine: indexing register files by number, bit fields, elements packed in a register
(01 R10), and updates of the keyed tables of `State`.
-/
namespace Sys2Proof.Machine

/-- Entry `i` of a register file. -/
def vget {α : Type} {n : Nat} [NeZero n] (v : Vector α n) (i : Nat) : α := v[i % n]'(Nat.mod_lt _ (Nat.pos_of_neZero n))

/-- The register file with entry `i` replaced. -/
def vset {α : Type} {n : Nat} [NeZero n] (v : Vector α n) (i : Nat) (a : α) : Vector α n :=
  v.set (i % n) a (Nat.mod_lt _ (Nat.pos_of_neZero n))

/-- Bits lo+len−1 : lo of a number. -/
def bits (x lo len : Nat) : Nat := (x >>> lo) % 2 ^ len

/-- Bits lo+len−1 : lo of a word. -/
def fieldOf {n : Nat} (x : BitVec n) (lo len : Nat) : Nat := bits x.toNat lo len

/-- A number with bits lo+len−1 : lo replaced by `v`. -/
def putBits (x lo len v : Nat) : Nat := x - (bits x lo len) <<< lo + (v % 2 ^ len) <<< lo

/-- A word with bits lo+len−1 : lo replaced. -/
def setField {n : Nat} (x : BitVec n) (lo len v : Nat) : BitVec n := BitVec.ofNat n (putBits x.toNat lo len v)

/-- Element `i` of width `w` of a register (01 R10). -/
def elemGet {n : Nat} (x : BitVec n) (w i : Nat) : Nat := bits x.toNat (w * i) w

/-- A register with element `i` of width `w` replaced (01 R10). -/
def elemSet {n : Nat} (x : BitVec n) (w i v : Nat) : BitVec n := setField x (w * i) w v

/-- The sign-extended imm27 of a generator instruction (04 R100). -/
def imm64 (imm : BitVec 27) : Word := imm.signExtend 64

/-- An offset in halfwords as a byte offset (02 R45). -/
def halfOff {n : Nat} (imm : BitVec n) : Word := imm.signExtend 64 <<< 1

/-- The low `w` bits of a number read as signed. -/
def signedOf (w x : Nat) : Int := if x % 2 ^ w < 2 ^ (w - 1) then (x % 2 ^ w : Nat) else (x % 2 ^ w : Nat) - (2 ^ w : Nat)

/-- The entry of a table whose key is `k`. -/
def findBy {α : Type} (key : α → Nat) (k : Nat) (l : List α) : Option α := l.find? fun a => key a == k

/-- A table kept in rising order of its key, with the entry of `a` put or replaced. -/
def putBy {α : Type} (key : α → Nat) (a : α) : List α → List α
  | [] => [a]
  | b :: t => if key a < key b then a :: b :: t else if key a == key b then a :: t else b :: putBy key a t

/-- A table without the entry of key `k`. -/
def dropBy {α : Type} (key : α → Nat) (k : Nat) (l : List α) : List α := l.filter fun a => key a != k

/-- A rising list of numbers with `n` inserted. -/
def insNat (n : Nat) : List Nat → List Nat
  | [] => [n]
  | m :: t => if n < m then n :: m :: t else if n == m then m :: t else m :: insNat n t

/-- The numbers below `n` whose bit of `x` is set, rising. -/
def setBits (x n : Nat) : List Nat := (List.range n).filter fun i => x.testBit i

/-- Little-endian value of bytes (01 R10). -/
def leValue : List Byte → Nat
  | [] => 0
  | b :: t => b.toNat + 256 * leValue t

/-- The `n` little-endian bytes of a value (01 R10). -/
def leBytes (v : Nat) : Nat → List Byte
  | 0 => []
  | n + 1 => BitVec.ofNat 8 v :: leBytes (v / 256) n

/-! ## Pieces of the state -/

/-- The core that holds the strand's lanes, with its number in the package: cluster · 48 + index. -/
def Strand.coreNo (st : Strand) : Nat := st.cluster * 48 + fieldOf st.ident.core 0 6

/-- The core with number `c`; a core that nothing has touched is as at reset. -/
def State.core (s : State) (c : Nat) : CoreSt := (findBy CoreSt.id c s.cores).getD (CoreSt.reset c)

def State.putCore (s : State) (c : CoreSt) : State := { s with cores := putBy CoreSt.id c s.cores }

def State.cluster (s : State) (c : Nat) : ClusterSt := (findBy ClusterSt.id c s.clusters).getD (ClusterSt.reset c)

def State.putCluster (s : State) (c : ClusterSt) : State := { s with clusters := putBy ClusterSt.id c s.clusters }

def State.die (s : State) (d : Nat) : DieSt := (findBy DieSt.id d s.dies).getD (DieSt.reset d)

def State.putDie (s : State) (d : DieSt) : State := { s with dies := putBy DieSt.id d s.dies }

/-- The partition with number `p`. -/
def State.part (s : State) (p : Nat) : Part := (findBy Part.id p s.parts).getD (Part.reset p 0 1)

def State.putPart (s : State) (p : Part) : State := { s with parts := putBy Part.id p s.parts }

/-- The partition that the acting strand belongs to. -/
def State.curPart (s : State) : Part := s.part s.cur.part

/-- Dies of a partition in rising order (22 R402). -/
def Part.dieList (p : Part) : List Nat := setBits p.dies.toNat 4

/-- The partition's stacks in rising global number (22 R402). -/
def Part.stacks (p : Part) : List Nat := p.dieList.flatMap fun d => [2 * d, 2 * d + 1]

/-- Clusters 5d to 5d+4 of each die of the partition, in rising order. -/
def Part.clusters (p : Part) : List Nat := p.dieList.flatMap fun d => (List.range 5).map (5 * d + ·)

/-- A partition is out of service: it has lost a stack, which nothing reaches any more (22 R401). -/
def State.lost (s : State) (pid : Nat) : Bool := s.pkg.dead.contains pid

/-- The partition that holds die `d`. -/
def State.partOfDie (s : State) (d : Nat) : Option Part := s.parts.find? fun p => p.dies.getLsbD d

/-- The state with the acting strand changed. -/
def State.onCur (s : State) (f : Strand → Strand) : State := { s with cur := f s.cur }

/-- Makes strand `sid` the acting one. -/
def State.focus (s : State) (sid : Nat) : State :=
  if s.cur.id == sid then s
  else match findBy Strand.id sid s.others with
    | some t => { s with cur := t, others := putBy Strand.id s.cur (dropBy Strand.id sid s.others) }
    | none => s

/-- The strand `sid`, if the machine holds it. -/
def State.strand (s : State) (sid : Nat) : Option Strand :=
  if s.cur.id == sid then some s.cur else findBy Strand.id sid s.others

/-- Every strand of the machine, the acting one first. -/
def State.strands (s : State) : List Strand := s.cur :: s.others

/-- Acts as strand `sid` and returns to the strand that acted. -/
def State.asStrand (s : State) (sid : Nat) (f : State → State) : State := (f (s.focus sid)).focus s.cur.id

/-- Adds `n` events of code `evt` of the acting strand to its core's counters at the end of the step (13 R293). -/
def State.count (s : State) (evt n : Nat) : State := { s with tally := ⟨s.cur.coreNo, s.cur.stratB, evt, n⟩ :: s.tally }

/-- A step of the machine's own becomes due. -/
def State.due (s : State) (e : Event) : State := { s with events := s.events ++ [e] }

/-- A saturating 64-bit counter (22 R413, 24 R424). -/
def satInc (w : Word) (n : Nat) : Word := BitVec.ofNat 64 (min (w.toNat + n) (2 ^ 64 - 1))

end Sys2Proof.Machine
end

