-- ==== Sys2Proof/Machine/Memory.lean ====
section
/-!
DEFINITION. Memory at its homes: bytes, full/empty bits, waiters and marks of a sett, and the lines of HBM with their poison
and keys (14 R305, R309, 17 R337, R338, 22 R404 to R413, R445). A byte is named by its key: stack · 2^36 + stack address, or
the scratchpad window address with the cluster number in bits 29:25 (14 R307).
-/
namespace Sys2Proof.Machine

/-- What a byte that nothing has written reads as: memory starts zero (17 R338). -/
def unlisted : Byte := 0

/-- The canonical form of memory: addresses strictly rising and no entry equal to what an unlisted address reads as. -/
def Memory.wf : List Host.Cell → Bool
  | [] => true
  | [(_, b)] => b != unlisted
  | (a, b) :: (a', b') :: t => a.blt a' && b != unlisted && Memory.wf ((a', b') :: t)

/-- The byte at `a`. -/
def Memory.get : List Host.Cell → Nat → Byte
  | [], _ => unlisted
  | (k, b) :: t, a => bif k.beq a then b else bif a.blt k then unlisted else Memory.get t a

/-- Memory with the byte at `a` set to `b`, in canonical form. -/
def Memory.set : List Host.Cell → Nat → Byte → List Host.Cell
  | [], a, b => bif b == unlisted then [] else [(a, b)]
  | (k, c) :: t, a, b =>
    bif k.beq a then (bif b == unlisted then t else (a, b) :: t)
    else bif a.blt k then (bif b == unlisted then (k, c) :: t else (a, b) :: (k, c) :: t)
    else (k, c) :: Memory.set t a b

/-- Memory with consecutive bytes set. -/
def Memory.setMany (m : List Host.Cell) (a : Nat) : List Byte → List Host.Cell
  | [] => m
  | b :: t => Memory.setMany (Memory.set m a b) (a + 1) t

/-- Memory with `n` bytes from `a` cleared to zero, which unlisted bytes read as. -/
def Memory.clear (m : List Host.Cell) (a n : Nat) : List Host.Cell := m.filter fun c => !(decide (a ≤ c.1) && decide (c.1 < a + n))

/-- `n` bytes from `a`. -/
def Memory.getMany (m : List Host.Cell) (a : Nat) : Nat → List Byte
  | 0 => []
  | n + 1 => Memory.get m a :: Memory.getMany m (a + 1) n

/-- The little-endian value of `n` bytes from `a`. -/
def Memory.value (m : List Host.Cell) (a n : Nat) : Nat := leValue (Memory.getMany m a n)

/-- The sett of a byte. -/
def settOf (key : Nat) : Nat := key / 8 * 8

/-- The line of a byte. -/
def lineOf (key : Nat) : Nat := key / 128 * 128

/-- Keys at or above this one lie in a scratchpad window or name a barrier sett (06 R168). -/
def padBase : Nat := 0xFFFFFFFF00000000

/-- A key of HBM (22 R405): eight stacks of 2^36 bytes. -/
def isHbm (key : Nat) : Bool := key < 2 ^ 39

/-- The stack of an HBM key. -/
def stackOf (key : Nat) : Nat := key / 2 ^ 36

/-- The cluster in bits 29:25 of a scratchpad or barrier key (14 R307): window addresses have those bits set. -/
def padCluster (key : Nat) : Nat := bits key 25 5 ^^^ 31

/-- The flat scratchpad address a<24:0> of a window key (06 R168). -/
def padFlat (key : Nat) : Nat := bits key 0 25

/-- The key of a window address in a cluster (14 R307). -/
def padKey (va cluster : Nat) : Nat := va ^^^ (cluster <<< 25)

/-- The window address of offset `o` of core `core` (06 R168). -/
def windowAddr (core o : Nat) : Nat := 0xFFFFFFFFFE000000 + core <<< 19 + o

/-- The key of byte `o` of the scratchpad of a core, numbered as in `Strand.coreNo`. -/
def scratchKey (coreNo o : Nat) : Nat := padKey (windowAddr (coreNo % 48) o) (coreNo / 48)

/-- The key of release sett `p` of physical barrier `b` (14 R307). -/
def barrierKey (cluster b p : Nat) : Nat := padKey (0xFFFFFFFFFFF80000 + 16 * b + 8 * p) cluster

/-- The die of a key's home: the die of the stack (16 R322), or of the cluster. -/
def dieOfKey (key : Nat) : Nat := if isHbm key then stackOf key / 2 else padCluster key / 5

/-- A number that names the home of a sett (14 R305, 16 R322): the slice of its line, the scratchpad bank, or the
barrier home. -/
def homeOf (key : Nat) : Nat :=
  if isHbm key then
    let a := key % 2 ^ 36
    dieOfKey key * 256 + (bits a 7 8 ^^^ bits a 15 8 ^^^ bits a 23 8 ^^^ bits a 31 5)
  else if bits key 19 6 = 63 then 2 ^ 20 + padCluster key
  else 2 ^ 21 + padCluster key * 2 ^ 12 + bits key 19 6 * 64 + bits key 3 6

/-- Whether a sett is full. -/
def State.full (s : State) (key : Nat) : Bool := !s.empties.contains (settOf key)

/-- A change of a sett: waiters of the sett are due to check again, and a mark sends its wake (14 R305, R309). `prog` limits
it to progress words. -/
def State.settChanged (s : State) (sett : Nat) (prog : Bool) : State :=
  let hit (w : Waiter) := w.key == sett && !w.rejected && !w.spent && (w.watch || !prog || (match w.cond with | .prog _ => true | _ => false))
  let s := { s with waiters := s.waiters.map fun w => if hit w then { w with changed := true } else w
                    events := s.events ++ ((s.waiters.filter fun (w : Waiter) => hit w && !w.watch && !w.changed).map fun (w : Waiter) => Event.waiterRecheck w.id) }
  let mk (m : Mark) := m.key == sett && (m.prog || !prog)
  if s.marks.any mk then { s with marks := s.marks.filter fun m => !mk m, events := s.events ++ [Event.wake sett] } else s

/-- Sets the full/empty bit of a sett; a change wakes (14 R309). A watch of a sett that is emptied is cancelled (07 R215). -/
def State.setFull (s : State) (key : Nat) (full : Bool) : State :=
  let sett := settOf key
  if s.full key == full then s
  else
    let e := if full then s.empties.filter (· != sett) else insNat sett s.empties
    let s := { s with empties := e
                      waiters := if full then s.waiters
                        else s.waiters.map fun (w : Waiter) => if w.watch && w.key == sett then { w with cancelled := true } else w }
    s.settChanged sett false

/-- The setts that `n` bytes from `key` lie in. -/
def settsOf (key n : Nat) : List Nat :=
  (List.range ((key + n - 1) / 8 - key / 8 + 1)).map fun i => settOf key + 8 * i

/-- The unit that one code protects: a line of HBM (22 R404), a sett of a scratchpad (12 R271; the width of its SEC-DED words is DEDUCED, log
entry 14). -/
def unitOf (key : Nat) : Nat := if isHbm key then lineOf key else settOf key

/-- What is known of the line, or the scratchpad sett, of a key. -/
def State.lineInfo (s : State) (key : Nat) : Option LineInfo := findBy LineInfo.key (unitOf key) s.lines

/-- A line of HBM is fresh until something is stored in it (22 R445). -/
def State.fresh (s : State) (key : Nat) : Bool := (s.lineInfo key).isNone

/-- Changes the counters of the partition that holds a stack. -/
def State.onStackPart (s : State) (key : Nat) (f : Part → Nat → Part) : State :=
  match s.partOfDie (dieOfKey key) with
  | some p => s.putPart (f p (p.stacks.findIdx (· == stackOf key)))
  | none => s

/-- Marks a line uncorrectable: poisoned (22 R412); or a scratchpad sett (12 R271). -/
def State.poison (s : State) (key : Nat) (bad : Bool) : State :=
  let i := (s.lineInfo key).getD ⟨unitOf key, 0, false, false⟩
  { s with lines := putBy LineInfo.key { i with poison := true, badTag := i.badTag || bad } s.lines }

/-- A physical event of the environment that strikes as an access of `n` bytes from `key` is made (log entry 14). -/
def Upset.meets (key n : Nat) : Upset → Bool
  | .symbols k _ | .padCorrected k | .padBad k | .l2Corrected k | .cacheCorrected k | .cacheBad k => (settsOf key n).contains (settOf k)
  | _ => false

/-- Whether the rail of an array is below nominal (24 R423). -/
def State.railLow (s : State) (array : Nat) : Bool := s.pkg.rails.contains (Config.railOf array, true)

/-- An array's errors of the hour that TIME is in. -/
def State.arrayErrs (s : State) (array : Nat) : ArrayErrs :=
  let hour := s.pkg.time / 3600000000000
  (s.pkg.arrays.find? fun a => a.array == array && a.hour == hour).getD ⟨array, hour, 0, 0⟩

/-- The reliability arbiter takes a corrected error: where the rate in undervolt windows passes the array's threshold its rail returns, and
where the rate at nominal voltage does the array is a predictive failure; neither waits for the other (24 R423). -/
def State.arbitrate (s : State) (array : Nat) (low : Bool) : State :=
  let a := s.arrayErrs array
  let a : ArrayErrs := if low then { a with under := a.under + 1 } else { a with nominal := a.nominal + 1 }
  let s := { s with pkg := { s.pkg with arrays := putBy ArrayErrs.array a s.pkg.arrays } }
  let s := if low && decide (Config.failureRate array < a.under) then s.due (.undervoltReturn (Config.railOf array)) else s
  if !low && decide (Config.failureRate array < a.nominal) then s.due (.predictiveFailure array) else s

/-- Counts a corrected error of an array: in UVCE while its rail is below nominal, else in the array's own counter (24 R423); `count` changes the
counters of the partition that it is of. -/
def State.correctedIn (s : State) (array : Nat) (count : State → (Part → Part) → State) (own : Part → Part) : State :=
  let low := s.railLow array
  (count s (if low then fun p => { p with uvce := satInc p.uvce 1 } else own)).arbitrate array low

/-- Counts a corrected error of an array in the partition that holds a key. -/
def State.corrected (s : State) (array key : Nat) (own : Part → Nat → Part) : State :=
  match s.partOfDie (dieOfKey key) with
  | some p => s.correctedIn array (fun s f => s.onStackPart key fun q _ => f q) fun q => own q (p.stacks.findIdx (· == stackOf key))
  | none => s.arbitrate array (s.railLow array)

/-- Erroneous symbols of a line of HBM (22 R404, R412): up to three are corrected, and of a fresh line not even counted (R445); four are
detected and poison the line; of more the code promises nothing. -/
def State.symbols (s : State) (key n : Nat) : State :=
  if n == 0 || (n ≤ 3 && s.fresh key) then s
  else if n ≤ 3 then s.corrected (stackOf key) key fun p k => { p with hbmce := vset p.hbmce k (satInc (vget p.hbmce k) 1) }
  else if n == 4 || Config.detects s.tick then
    (s.poison key false).onStackPart key fun p k => { p with hbmue := vset p.hbmue k (satInc (vget p.hbmue k) 1) }
  else { s with lines := putBy LineInfo.key { (s.lineInfo key).getD ⟨unitOf key, 0, false, false⟩ with badTag := true } s.lines }

/-- Demand accesses of a step to DRAM, as they stand in its tally while banks have something open, owed or held (22 R411, R414). -/
def demandEvt : Nat := 0x2000

/-- An access reaches the bank of a key. -/
def State.demand (s : State) (key : Nat) : State :=
  if s.pkg.banks.isEmpty || !isHbm key then s else { s with tally := ⟨0, false, demandEvt, key⟩ :: s.tally }

/-- An uncorrectable error of a scratchpad spoils the sett (12 R271), and its core is to leave service (24 R422; log entry 14). -/
def State.padLost (s : State) (key : Nat) : State :=
  let s := s.poison key false
  if bits key 19 6 < 48 then s.due (.coreOutOfService (padCluster key * 48 + bits key 19 6)) else s

/-- Meets the physical events that strike at an access: a corrected error is counted, an uncorrectable one poisons the line or spoils the sett
(22 R412, 12 R271, 16 R322, 22 R410). -/
def State.touch (s : State) (key n : Nat) : State :=
  let s := s.demand key
  if s.upsets.any (Upset.meets key n) then
    let ev := s.upsets.filter (Upset.meets key n)
    let s := { s with upsets := s.upsets.filter fun u => !u.meets key n }
    ev.foldl (fun s u => match u with
      | .symbols k n => if isHbm k then s.symbols k n else s
      | .padBad k => if isHbm k then s else s.padLost k
      | .padCorrected _ => s.corrected (8 + padCluster key) key fun p _ => { p with spce := satInc p.spce 1 }
      | .l2Corrected _ => s.corrected (32 + dieOfKey key) key fun p _ => { p with l2ce := satInc p.l2ce 1 }
      | .cacheCorrected _ => s.corrected (40 + stackOf key) key fun p _ => { p with l2ce := satInc p.l2ce 1 }
      | .cacheBad k => if isHbm k then s.poison k false else s
      | _ => s) s
  else s

/-- What the home finds when it reads the line of a location under the leaf's key (22 R408 to R412): good data, an
uncorrectable line that a TOL page may substitute, or a failed integrity tag, which is never substituted. -/
inductive LineRead where
  | good | poisoned | badTag
  deriving DecidableEq, Repr

/-- The state of the line that an access reads (22 R408, R409, R412, R445). -/
def State.lineRead (s : State) (l : Loc) : LineRead :=
  match s.lineInfo l.key with
  | none => .good
  | some i =>
    if i.badTag || (isHbm l.key && i.enc != l.enc && !i.poison) then .badTag
    else if i.poison then .poisoned else .good

/-- What `n` bytes of a location find: the worst of the setts of a scratchpad (12 R271), the line of HBM. -/
def State.lineReads (s : State) (l : Loc) (n : Nat) : LineRead :=
  if n ≤ 8 || isHbm l.key then s.lineRead l
  else if (settsOf l.key n).any fun k => s.lineRead { l with key := k } != .good then .poisoned else .good

/-- A failed tag at a key is counted in ITGF and reported to the management controller (22 R409, R413). -/
def State.tagFailed (s : State) (key : Nat) : State :=
  let s := s.onStackPart key fun p _ => { p with itgf := satInc p.itgf 1 }
  { s with pkg := { s.pkg with out := s.pkg.out ++ [.tagMismatch key] } }

/-- The home finds a failed tag, if it does. -/
def State.countBadTag (s : State) (l : Loc) : State := if s.lineRead l == .badTag then s.tagFailed l.key else s

/-- Whether a table entry lies in a line that cannot be read (16 R329, 22 R412). Tables are read under no leaf, and so under no key (log
entry 19). -/
def State.badEntry (s : State) (key : Nat) : Bool := (s.lineInfo key).any fun i => i.poison || i.badTag

/-- A store of some bytes of a line: it is stored normally under the leaf's key (22 R445); a poisoned line stays poisoned
(R412), and a partial write over a line of another key leaves a line whose tag fails. -/
def State.lineWritten (s : State) (l : Loc) : State :=
  if !isHbm l.key then s else
  match s.lineInfo l.key with
  | none => { s with lines := putBy LineInfo.key ⟨lineOf l.key, l.enc, false, false⟩ s.lines }
  | some i =>
    if isHbm l.key && i.enc != l.enc && !i.poison then
      { s with lines := putBy LineInfo.key { i with badTag := true } s.lines }
    else s

/-- A copy in a mode with bits has written all 128 bytes of a line (22 R412): stored anew, without poison. -/
def State.lineRenewed (s : State) (l : Loc) : State :=
  { s with lines := putBy LineInfo.key ⟨lineOf l.key, l.enc, false, false⟩ s.lines }

/-- Another write of all 128 bytes of a line (22 R412, R445): stored under the writer's key, with a new tag; a poisoned line stays
poisoned. -/
def State.lineStored (s : State) (l : Loc) : State :=
  { s with lines := putBy LineInfo.key ⟨lineOf l.key, l.enc, (s.lineInfo l.key).any LineInfo.poison, false⟩ s.lines }

/-- Scratchpad setts that `n` bytes cover whole have new check bits (12 R271). -/
def State.settsWritten (s : State) (l : Loc) (n : Nat) : State :=
  if isHbm l.key || s.lines.isEmpty then s
  else { s with lines := s.lines.filter fun i => isHbm i.key || !(decide (l.key ≤ i.key) && decide (i.key + 8 ≤ l.key + n)) }

/-- Bytes at a home. -/
def State.bytesAt (s : State) (key n : Nat) : List Byte := Memory.getMany s.mem key n

/-- The little-endian value of `n` bytes at a home. -/
def State.valueAt (s : State) (key n : Nat) : Nat := Memory.value s.mem key n

/-- Applies a write at its home (17 R337): the bytes, the line's state, and progress waiters and marks of its setts (14
R309). The write has `n > 0` bytes within one line. -/
def State.storeAt (s : State) (l : Loc) (bs : List Byte) : State :=
  let s := { s with mem := Memory.setMany s.mem l.key bs }
  let s := (s.lineWritten l).settsWritten l bs.length
  (settsOf l.key bs.length).foldl (fun s k => s.settChanged k true) s

/-- Applies a write of a value of `n` bytes. -/
def State.storeVal (s : State) (l : Loc) (n v : Nat) : State := s.storeAt l (leBytes v n)

/-- A change of a sett's bit stores its line (22 R445). -/
def State.fillAt (s : State) (l : Loc) (full : Bool) : State :=
  if s.full l.key == full then s else (s.lineWritten l).setFull l.key full

end Sys2Proof.Machine
end

