-- ==== Sys2Proof/Machine/Translate.lean ====
section
/-!
DEFINITION. Translation (16 R328 to R331, 22 R405, R408): the walk, the TLBs, and the location that an address names.
-/
namespace Sys2Proof.Machine

/-! ## Trap causes (08 R220) -/

def cILL : Nat := 0x01
def cPRIV : Nat := 0x02
def cALIGN : Nat := 0x03
def cPAGE : Nat := 0x04
def cPROT : Nat := 0x05
def cMEMUE : Nat := 0x06
def cFEB : Nat := 0x07
def cDOV : Nat := 0x08
def cNPG : Nat := 0x09
def cPFBO : Nat := 0x0A
def cNOREPLY : Nat := 0x0B
def cFPX : Nat := 0x0C
def cEQX : Nat := 0x0D
def cSHD : Nat := 0x0E
def cSCB : Nat := 0x0F
def cMAT : Nat := 0x10
def cBRK : Nat := 0x11
def cSTEP : Nat := 0x12
def cPRE : Nat := 0x20
def cINT : Nat := 0x21

/-- The causes of the table of 08 R220. -/
def causes : List Nat := [0x01, 0x02, 0x03, 0x04, 0x05, 0x06, 0x07, 0x08, 0x09, 0x0A, 0x0B, 0x0C, 0x0D, 0x0E, 0x0F, 0x10, 0x11, 0x12, 0x20, 0x21]

/-- A cause that the spec leaves open: a free one of the table, for no other is recorded (08 R220; log entry 13). -/
def openCause (w : Word) : Nat := causes.getD (w.toNat % 20) cILL

/-- TVAL of a memory fault at an address: a FEB names the sett (08 R220, R226). -/
def faultVal (cause : Nat) (va : Word) : Word := if cause == cFEB then va &&& ~~~7 else va

/-! ## Physical addresses (22 R405) -/

/-- The key of an interleaved address of a partition with the given stacks: none at or above n · 2^36. -/
def interleavedKey (ks : List Nat) (P : Nat) : Option Nat :=
  let b := ks.length.log2
  if P < ks.length * 2 ^ 36 then
    let k := bits P 12 b ^^^ bits P 21 b
    some (ks.getD k 0 * 2 ^ 36 + (bits P (12 + b) 24 * 2 ^ 12 + P % 2 ^ 12))
  else none

/-- Bits 63:56 of a device virtual address are all equal (04 R120, 06 R168). -/
def canonical (va : Nat) : Bool := bits va 56 8 == 0 || bits va 56 8 == 255

/-- The scratchpad window (06 R168). -/
def inWindow (va : Nat) : Bool := bits va 25 39 == 2 ^ 39 - 1

/-! ## The walk (16 R329) -/

/-- The shift of the index of each level. -/
def levelShift : Nat → Nat
  | 0 => 48 | 1 => 39 | 2 => 30 | 3 => 21 | _ => 16

/-- Whether a leaf is well formed apart from its V bit: RSV bits, ORD, PLC, GW and the alignment of its frame. -/
def leafOk (p : Part) (level e : Nat) : Bool :=
  let shift := levelShift level
  let gw := e.testBit 11
  2 ≤ level && bits e 48 12 == 0 && bits e 4 1 == 0 && bits e 2 1 == 0 && bits e 5 2 != 3
    && (if gw then bits e 32 16 == 0 && decide (bits e 16 16 < p.gwtn.toNat) else bits e 16 (shift - 16) == 0)
    && (e.testBit 15 || bits e 12 3 == 0)

/-- Whether a non-leaf entry is well formed apart from its V bit. -/
def tableOk (level e : Nat) : Bool :=
  level < 4 && bits e 2 6 == 0 && bits e 48 16 == 0 && (level == 3 || bits e 8 4 == 0)

/-- The key of the entry of `va` in the table at `base` of a level; none outside the partition's space. -/
def entryKey (p : Part) (va level base : Nat) : Option Nat :=
  interleavedKey p.stacks (base + 8 * (if level == 4 then bits va 16 5 else bits va (levelShift level) 9))

/-- The entry at which the walk of `va` ends, with the level: the walk goes on while an entry is a valid table.
`levels` counts those left, `base` is the table's interleaved address. PAGE where it would read nothing, MEMUE where it reads an uncorrectable
line. -/
def walkEntry (s : State) (p : Part) (va : Nat) : Nat → Nat → Except Nat (Nat × Nat)
  | 0, _ => .error cPAGE
  | levels + 1, base =>
    let level := 4 - levels
    match entryKey p va level base with
    | none => .error cPAGE
    | some k =>
      let e := s.valueAt k 8
      if s.badEntry k then .error cMEMUE
      else if e.testBit 1 || !e.testBit 0 || !tableOk level e then .ok (e, level)
      else walkEntry s p va levels (bits e 8 40 * 256)

/-- A leaf and the number of offset bits of its page, or PAGE, or MEMUE (16 R329). -/
def walk (s : State) (p : Part) (va : Nat) : Except Nat (Nat × Nat) :=
  let base := p.ttb.toNat
  if base == 0 then .error cPAGE
  else match walkEntry s p va 5 base with
    | .ok (e, level) => if e.testBit 0 && e.testBit 1 && leafOk p level e then .ok (e, levelShift level) else .error cPAGE
    | .error c => .error c

/-- The walker's reads, plain loads at their homes, meet the memory errors that strike there; a failed tag is reported (22 R409). -/
def State.walked (s : State) (p : Part) (va : Nat) : State := go 5 p.ttb.toNat s
where
  go : Nat → Nat → State → State
    | 0, _, s => s
    | levels + 1, base, s =>
      if base == 0 then s
      else match entryKey p va (4 - levels) base with
        | none => s
        | some k =>
          let s := s.touch k 8
          let e := s.valueAt k 8
          if (s.lineInfo k).any LineInfo.badTag then s.tagFailed k
          else if s.badEntry k || e.testBit 1 || !e.testBit 0 || !tableOk (4 - levels) e then s
          else go levels (bits e 8 40 * 256) s

/-! ## TLBs (16 R331) -/

/-- Looks an address up in a list of TLB entries. -/
def tlbFind (l : List TlbEntry) (part va : Nat) : Option TlbEntry :=
  l.find? fun e => e.part == part && e.va >>> e.bits == va >>> e.bits

/-- Adds an entry to a TLB of `n` entries, the oldest leaving first (the replacement is the model's choice, log entry 15). -/
def tlbPut (l : List TlbEntry) (n : Nat) (e : TlbEntry) : List TlbEntry := (e :: l).take n

/-- Translates a device virtual address for a core of a partition: through the core's DTLB, the cluster's shared TLB, or a
walk, which both then hold. -/
def State.lookupVa (s : State) (pid coreNo va : Nat) : State × Except Nat (Nat × Nat) :=
  if !canonical va || inWindow va then (s, .error cPAGE)
  else
    let c := s.core coreNo
    match tlbFind c.dtlb pid va with
    | some e => (s, .ok (e.leaf.toNat, e.bits))
    | none =>
      let s := if coreNo == s.cur.coreNo then s.count 0x09 1 else s
      let cl := s.cluster (coreNo / 48)
      match tlbFind cl.tlb pid va with
      | some e => (s.putCore { c with dtlb := tlbPut c.dtlb 256 e }, .ok (e.leaf.toNat, e.bits))
      | none =>
        let s := s.walked (s.part pid) va
        match walk s (s.part pid) va with
        | .error c => (s, .error c)
        | .ok (leaf, b) =>
          let e : TlbEntry := ⟨pid, va, b, BitVec.ofNat 64 leaf⟩
          ((s.putCore { c with dtlb := tlbPut c.dtlb 256 e }).putCluster { cl with tlb := tlbPut cl.tlb 8192 e }, .ok (leaf, b))

/-! ## Locations -/

/-- The ordering kind of a leaf's ORD field (17 R342). -/
def kindOf : Nat → PageKind
  | 1 => .so | 2 => .uo | _ => .rc

/-- Key of a byte of a remote node behind a global window (16 R330): it names no byte of this package. -/
def gwKey (node addr : Nat) : Nat := 2 ^ 100 + node * 2 ^ 64 + addr

/-- A descriptor of the global window table: remote address, node and class; none in a line that cannot be read. The table is read at its
interleaved address (DEDUCED from its width, log entry 16). -/
def gwDescriptor (s : State) (p : Part) (idx : Nat) : Option (Nat × Nat × Nat) :=
  match interleavedKey p.stacks (p.gwtb.toNat + 16 * idx) with
  | some k => if s.badEntry k then none else some (s.valueAt k 8, s.valueAt (k + 8) 4, s.valueAt (k + 12) 1)
  | none => some (0, 0, 0)

/-- The location that a leaf gives an address, or PROT: a stack outside the partition, an interleaved address out of range,
or a key entry that is not loaded (16 R329, 22 R405, R408). -/
def leafLoc (s : State) (p : Part) (va leaf b : Nat) : Except Nat Loc :=
  let off := va % 2 ^ b
  let mk (key cls : Nat) : Loc :=
    { key := key, va := BitVec.ofNat 64 va, kind := kindOf (bits leaf 5 2), fev := leaf.testBit 9, wr := leaf.testBit 3
      tol := leaf.testBit 7, subk := leaf.testBit 8, gw := leaf.testBit 11, enc := vget p.keys (bits leaf 60 4), pad := false, cls := cls }
  if leaf.testBit 11 then
    match gwDescriptor s p (bits leaf 16 16) with
    | some (r, node, cls) => .ok (mk (gwKey node ((r + off) % 2 ^ 64)) cls)
    | none => .error cMEMUE
  else if !p.keyval.getLsbD (bits leaf 60 4) then .error cPROT
  else if leaf.testBit 15 then
    let a := bits leaf 16 20 * 2 ^ 16 + off
    if p.stacks.contains (bits leaf 12 3) then .ok (mk (bits leaf 12 3 * 2 ^ 36 + a) 0) else .error cPROT
  else match interleavedKey p.stacks (bits leaf 16 32 * 2 ^ 16 + off) with
    | some k => .ok (mk k 0)
    | none => .error cPROT

/-- The read of the descriptor that a GW leaf names meets the memory errors that strike there; a failed tag is reported (22 R409, R412). -/
def State.described (s : State) (p : Part) (leaf : Nat) : State :=
  if !leaf.testBit 11 then s
  else match interleavedKey p.stacks (p.gwtb.toNat + 16 * bits leaf 16 16) with
    | none => s
    | some k =>
      let s := s.touch k 16
      if (s.lineInfo k).any LineInfo.badTag then s.tagFailed k else s

/-- Resolves a device virtual address for a core. -/
def State.resolveFor (s : State) (pid coreNo va : Nat) : State × Except Nat Loc :=
  match s.lookupVa pid coreNo va with
  | (s, .error c) => (s, .error c)
  | (s, .ok (leaf, b)) =>
    let s := s.described (s.part pid) leaf
    (s, leafLoc s (s.part pid) va leaf b)

/-- What an access does, as protection sees it. -/
structure Need where
  write : Bool
  fe : Bool

/-- The protection of a page: WR for writes, FEV for full/empty forms (04 R121, 16 R325). On a GW page the bits of the
remote tables apply (16 R330). -/
def protCheck (n : Need) (l : Loc) : Except Nat Loc :=
  if n.write && !l.wr then .error cPROT
  else if n.fe && !l.fev && !l.gw then .error cPROT
  else .ok l

/-- Resolves an access of the acting strand to device virtual memory (generator: the window raises PAGE). -/
def State.resolve (s : State) (n : Need) (va : Nat) : State × Except Nat Loc :=
  match s.resolveFor s.cur.part s.cur.coreNo va with
  | (s, .error c) => (s, .error c)
  | (s, .ok l) => (s, protCheck n l)

/-- The portable register backing of the strand with the given half and core shape (20 R392): first byte and length. -/
def lpBacking (half stratB : Bool) : Nat × Nat :=
  if half && !stratB then (0x1F000, 0x20000) else (0x3F000, 0x20000)

/-- Whether byte `o` of a core's scratchpad belongs to the backing of a strand that runs there under LP words. -/
def State.inBacking (s : State) (coreNo o : Nat) : Bool :=
  s.strands.any fun t => t.lp && (t.status == .running || t.status == .saving) && t.coreNo == coreNo &&
    (let (b, n) := lpBacking t.half t.stratB; b ≤ o && o < b + n)

/-- Resolves a window address of the acting strand (06 R168, 14 R302): core index and offset within limits, a core of the
group, and not the backing of an LP strand (20 R392). -/
def State.resolvePad (s : State) (va : Nat) : Except Nat Loc :=
  let core := bits va 19 6
  let o := bits va 0 19
  if core ≥ 48 || o ≥ 0x60000 || !s.cur.ident.gcores.getLsbD core || s.inBacking (s.cur.cluster * 48 + core) o then .error cPROT
  else .ok { key := padKey va s.cur.cluster, va := BitVec.ofNat 64 va, kind := .rc, fev := true, wr := true, tol := false
             subk := false, gw := false, enc := 0, pad := true, cls := 0 }

/-- Resolves a stream access: the window, or device virtual memory (06 R168). -/
def State.resolveStream (s : State) (n : Need) (va : Nat) : State × Except Nat Loc :=
  if inWindow va then (s, s.resolvePad va) else s.resolve n va

end Sys2Proof.Machine
end

