-- ==== Sys2Proof/Machine/Access.lean ====
section
/-!
DEFINITION. Accesses of a core at their homes: the L1 (12 R268 to R270), loads with their memory errors (06 R179, 22 R412),
stores, the hot-page tracker (16 R334), and the atomics of a bank ALU (16 R325).
-/
namespace Sys2Proof.Machine

/-! ## The L1 (12 R268, R269) -/

/-- Lines that an L1 of 320 KiB holds. -/
def l1Lines : Nat := 2560

/-- Discards the lines of a core's L1 that an acquire discards: RC lines, and UO lines too for a FENCE of kind all. -/
def State.l1Invalidate (s : State) (coreNo : Nat) (uo : Bool) : State :=
  let c := s.core coreNo
  s.putCore { c with l1 := c.l1.filter fun l => !(l.kind == .rc || uo) }

/-- Discards one line of a core's L1. -/
def State.l1Drop (s : State) (coreNo line : Nat) : State :=
  let c := s.core coreNo
  if c.l1.any fun l => l.key == line then s.putCore { c with l1 := c.l1.filter fun l => l.key != line } else s

/-- Bits of a line's setts that `f` holds of. -/
def settMask (line : Nat) (f : Nat → Bool) : BitVec 16 :=
  BitVec.ofNat 16 ((List.range 16).foldl (fun a i => if f (line + 8 * i) then a + 2 ^ i else a) 0)

/-- A line as its home holds it now, as a core's L1 takes it: without the progress words (12 R268). -/
def State.lineNow (s : State) (line : Nat) (kind : PageKind) (high : Bool) : L1Line :=
  { key := line, kind := kind, high := high, held := settMask line fun k => !s.progs.contains k, bits := settMask line s.full
    data := BitVec.ofNat 1024 (s.valueAt line 128) }

/-- Refreshes the copy of a line in a core's L1 from its home, if one is present (12 R268, 17 R338). -/
def State.l1Refresh (s : State) (coreNo key : Nat) : State :=
  let c := s.core coreNo
  if c.l1.any fun l => l.key == lineOf key then
    s.putCore { c with l1 := c.l1.map fun l => if l.key == lineOf key then s.lineNow l.key l.kind l.high else l }
  else s

/-- The lines of a full L1 without the one that leaves: the oldest of normal priority, or the oldest of all. -/
def l1Victim (l : List L1Line) : List L1Line :=
  match l.reverse.find? fun x => !x.high with
  | some x => l.erase x
  | none => l.dropLast

/-- Brings a line into a core's L1 at a priority (12 R270; which line leaves is the model's choice, log entry 15). -/
def State.l1Fill (s : State) (coreNo : Nat) (l : Loc) (high : Bool) : State :=
  let c := s.core coreNo
  let rest := c.l1.filter fun x => x.key != lineOf l.key
  s.putCore { c with l1 := s.lineNow (lineOf l.key) l.kind high :: (if l1Lines ≤ rest.length then l1Victim rest else rest) }

/-- A word serves as a progress word: no L1 holds it (12 R268). -/
def State.noteProg (s : State) (key : Nat) : State :=
  let line := lineOf key
  let drop (l : L1Line) : L1Line := if l.key == line then { l with held := setField l.held (key % 128 / 8) 1 0 } else l
  if s.progs.contains key then s
  else { s with progs := key :: s.progs, cores := s.cores.map fun c => { c with l1 := c.l1.map drop } }

/-- Whether a line of an L1 holds `n` bytes from `key`: progress words are never held. -/
def L1Line.holds (x : L1Line) (key n : Nat) : Bool := x.key == lineOf key && (settsOf key n).all fun k => x.held.getLsbD (k % 128 / 8)

/-- A parity error that a hit of its sett meets (12 R268): the line is fetched again and the error counts, by the rail of the core's L1 (24
R423). -/
def State.l1Parity (s : State) (coreNo key n : Nat) : State :=
  let hit (u : Upset) := match u with | .parity c k => c == coreNo && (settsOf key n).contains (settOf k) | _ => false
  if s.upsets.any hit && (s.core coreNo).l1.any fun x => x.holds key n then
    let s := { s with upsets := s.upsets.filter fun u => !hit u }.l1Drop coreNo (lineOf key)
    (s.correctedIn (64 + coreNo) (fun s f => s.putPart (f s.curPart)) fun p => { p with l1par := satInc p.l1par 1 }).count 0x0F 1
  else s

/-! ## The hot-page tracker (16 R334) -/

/-- Whether a page of the 2 MiB region has PIN = 1; the walks read the tables as any walk does. -/
def regionPinned (s : State) (p : Part) (region : Nat) : State × Bool :=
  (List.range 32).foldl (fun (a : State × Bool) i =>
    let va := region * 2 ^ 21 + i * 2 ^ 16
    let s := a.1.walked p va
    (s, a.2 || match walk s p va with | .ok (leaf, _) => leaf.testBit 10 | .error _ => false)) (s, false)

/-- A plain device-scope store by a unit of the machine at a device virtual address of a partition, of bytes within one line,
or the cause of its fault. A partial write merges with the line as it is: into a poisoned one (22 R412), but not into one whose tag fails
(R409). Nothing reaches a partition that has lost a stack (22 R401). -/
def State.unitPut (s : State) (pid coreNo va : Nat) (bs : List Byte) : State × Except Nat Unit :=
  if s.lost pid then (s, .error cMEMUE)
  else match s.resolveFor pid coreNo va with
  | (s, .error c) => (s, .error c)
  | (s, .ok l) =>
    let s := s.demand l.key
    if !l.wr || l.gw then (s, .error cPROT)
    else if bs.length == 128 then ((s.storeAt l bs).lineStored l, .ok ())
    else if s.lineRead l == .badTag then (s.countBadTag l, .error cMEMUE)
    else (s.storeAt l bs, .ok ())

/-- A unit's store; false when it faults. -/
def State.unitStore (s : State) (pid coreNo va : Nat) (bs : List Byte) : State × Bool :=
  match s.unitPut pid coreNo va bs with
  | (s, .ok _) => (s, true)
  | (s, .error _) => (s, false)

/-- A unit's plain load of `n` bytes within one line. -/
def State.unitGet (s : State) (pid coreNo va n : Nat) : State × Except Nat Nat :=
  if s.lost pid then (s, .error cMEMUE)
  else match s.resolveFor pid coreNo va with
  | (s, .error c) => (s, .error c)
  | (s, .ok l) =>
    if l.gw then (s, .error cPROT)
    else
      let s := s.touch l.key n
      match s.lineRead l with
      | .good => (s, .ok (s.valueAt l.key n))
      | .poisoned => (s, .error cMEMUE)
      | .badTag => (s.countBadTag l, .error cMEMUE)

/-- Stores of a unit of any length from a device virtual address, line by line. -/
def State.unitPutMany (s : State) (pid coreNo va : Nat) (bs : List Byte) : State × Except Nat Unit :=
  go (bs.length / 128 + 2) va bs s
where
  go : Nat → Nat → List Byte → State → State × Except Nat Unit
    | 0, _, _, s => (s, .ok ())
    | fuel + 1, va, bs, s =>
      if bs.isEmpty then (s, .ok ())
      else
        let k := 128 - va % 128
        match s.unitPut pid coreNo va (bs.take k) with
        | (s, .ok _) => go fuel (va + k) (bs.drop k) s
        | r => r

/-- Loads of a unit of any length, line by line: the bytes as a little-endian number. -/
def State.unitGetMany (s : State) (pid coreNo va n : Nat) : State × Except Nat Nat :=
  go (n / 128 + 2) va n 0 0 s
where
  go : Nat → Nat → Nat → Nat → Nat → State → State × Except Nat Nat
    | 0, _, _, _, acc, s => (s, .ok acc)
    | fuel + 1, va, n, got, acc, s =>
      if n == 0 then (s, .ok acc)
      else
        let k := min n (128 - va % 128)
        match s.unitGet pid coreNo va k with
        | (s, .ok v) => go fuel (va + k) (n - k) (got + k) (acc + v * 2 ^ (8 * got)) s
        | r => r

/-- Counts an access whose home is on another die, and proposes the region when its count reaches THR. -/
def State.hotAccess (s : State) (l : Loc) : State :=
  if !isHbm l.key then s
  else
    let d := s.die (s.cur.cluster / 5)
    if !d.hpctl.getLsbD 0 || dieOfKey l.key == d.id then s
    else
      let region := bits l.va.toNat 21 36
      let n := (match d.counts.find? fun c => c.1 == region with | some c => c.2 | none => 0) + 1
      let d := { d with counts := putBy Prod.fst (region, n) d.counts }
      if n < fieldOf d.hpctl 8 32 || d.told.contains region then s.putDie d
      else
        let d := { d with told := insNat region d.told }
        let (s, pinned) := regionPinned s s.curPart region
        if pinned then s.putDie { d with pinskip := d.pinskip + 1 }
        else
          let (s, _) := s.unitStore s.cur.part s.cur.coreNo (d.hpbase.toNat + 16 * d.hpptr.toNat)
            (leBytes (region * 2 ^ 21) 8 ++ leBytes d.id 1 ++ leBytes 0 7)
          s.putDie { d with hpptr := BitVec.ofNat 64 ((d.hpptr.toNat + 1) % 256) }

/-! ## Loads -/

/-- What a load delivers: its bytes, and whether they were substituted (01 R17). -/
structure Loaded where
  val : Nat
  sub : Bool

/-- Counts one substitution (22 R412, R413). -/
def State.countSub (s : State) : State :=
  let p := s.curPart
  s.putPart { p with subcnt := satInc p.subcnt 1 }

/-- Reads `n` bytes of a line at the home (17 R337), with its errors: MEMUE for an uncorrectable line, unless the page
tolerates it and the access may be substituted. -/
def State.readHome (s : State) (l : Loc) (n : Nat) (maySub : Bool) : State × Except Nat Loaded :=
  let s := s.touch l.key n
  match s.lineReads l n with
  | .good => (s, .ok ⟨s.valueAt l.key n, false⟩)
  | .poisoned => if maySub && l.tol then (s, .ok ⟨0, true⟩) else (s, .error cMEMUE)
  | .badTag => (s.countBadTag l, .error cMEMUE)

/-- A plain load of `n` bytes of one line by the acting core (12 R268, 17 R338): from the L1 for RC and UO pages when it
holds the line, else from the home. `alloc` brings the line in, at high priority or not; `l1` says that the L1 may serve, which it does not where
the home would find an error, for residency never changes a fault (12 R270). A load served at the home refreshes the L1's copy (R338). -/
def State.loadPlain (s : State) (l : Loc) (n : Nat) (l1 : Bool) (alloc : Option Bool) : State × Except Nat Loaded :=
  let cn := s.cur.coreNo
  let s := s.hotAccess l
  let cacheable := isHbm l.key && l.kind != .so
  let s := if cacheable && l1 then s.l1Parity cn l.key n else s
  let quiet := !(s.upsets.any fun u => u.meets l.key n) && s.lineReads l n == .good
  match (if cacheable && l1 && quiet then (s.core cn).l1.find? fun x => x.holds l.key n else none) with
  | some x => (s.count 0x06 1, .ok ⟨bits x.data.toNat (8 * (l.key % 128)) (8 * n), false⟩)
  | none =>
    let s := if cacheable then s.count 0x07 1 else s
    match s.readHome l n true with
    | (s, .ok r) =>
      if r.sub then (s, .ok r)
      else match alloc with
        | some high => (if cacheable then s.l1Fill cn l high else s.l1Refresh cn l.key, .ok r)
        | none => (s.l1Refresh cn l.key, .ok r)
    | r => r

/-! ## Stores -/

/-- A store of the acting core (12 R268): applied at the home, and to the L1's copy of the line. -/
def State.storeCore (s : State) (l : Loc) (bs : List Byte) : State :=
  (((s.hotAccess l).touch l.key bs.length).storeAt l bs).l1Refresh s.cur.coreNo l.key

/-! ## Full/empty checks at a home (04 R121, R122) -/

/-- What a full/empty form does at its sett. -/
structure FeForm where
  need : Option Bool      -- the bit it waits for
  data : Option (List Byte)  -- bytes it writes
  after : Option Bool     -- the bit afterwards

/-- One check at the home: unmet, or done with the sett's bytes as read, or MEMUE for an uncorrectable line (22 R412). -/
inductive Checked where
  | unmet
  | memue
  | done (val : Nat)

/-- Applies a full/empty form of `n` bytes at its home, as one step (04 R122, R127). -/
def State.homeCheck (s : State) (l : Loc) (n : Nat) (f : FeForm) : State × Checked :=
  let s := s.touch l.key n
  match s.lineRead l with
  | .poisoned => (s, .memue)
  | .badTag => (s.countBadTag l, .memue)
  | .good =>
    if f.need.isSome && f.need != some (s.full l.key) then (s, .unmet)
    else
      let v := s.valueAt l.key n
      let s := match f.data with | some bs => s.storeAt l bs | none => s
      (match f.after with | some b => s.fillAt l b | none => s, .done v)

/-- The check of the acting strand: a failed one counts, and the core's L1 copy follows what was read or written. -/
def State.checkSett (s : State) (l : Loc) (n : Nat) (f : FeForm) : State × Checked :=
  match (s.hotAccess l).homeCheck l n f with
  | (s, .unmet) => (s.count 0x0A 1, .unmet)
  | (s, .memue) => (s, .memue)
  | (s, .done v) => (s.l1Refresh s.cur.coreNo l.key, .done v)

/-- A check of a progress word against a target, unsigned (04 R126): its full/empty bit plays no part. -/
def State.checkProg (s : State) (l : Loc) (target : Word) : State × Checked :=
  let s := ((s.noteProg (settOf l.key)).hotAccess l).touch l.key 8
  match s.lineRead l with
  | .poisoned => (s, .memue)
  | .badTag => (s.countBadTag l, .memue)
  | .good =>
    let v := s.valueAt l.key 8
    if v < target.toNat then (s.count 0x0A 1, .unmet) else (s, .done v)

/-! ## Atomics at a home (16 R325) -/

/-- The new value of an atomic of width `w`, and its flags. -/
def atomNew (fn : AtomFn) (w old b cmp : Nat) (fadd : Nat → Nat → Nat × Flags) : Nat × Flags :=
  let lt := decide (signedOf w old < signedOf w b)
  match fn with
  | .add => ((old + b) % 2 ^ w, 0)
  | .min => (if lt then old else b, 0)
  | .max => (if lt then b else old, 0)
  | .minn => (min old b, 0)
  | .maxn => (max old b, 0)
  | .and => (old &&& b, 0)
  | .or => (old ||| b, 0)
  | .xor => (old ^^^ b, 0)
  | .swap => (b, 0)
  | .cas => (if old == cmp then b else old, 0)
  | .faddF32 | .faddBf16 => fadd old b

/-- Applies an atomic at its home as one step: the old value and the flags, or MEMUE for an uncorrectable old value, even on
a TOL page. A CAS that fails writes nothing. -/
def State.homeAtom (s : State) (l : Loc) (bytes : Nat) (fn : AtomFn) (b cmp : Nat) (fadd : Nat → Nat → Nat × Flags) :
    State × Except Nat (Nat × Flags) :=
  let s := s.touch l.key bytes
  match s.lineRead l with
  | .poisoned => (s, .error cMEMUE)
  | .badTag => (s.countBadTag l, .error cMEMUE)
  | .good =>
    let w := 8 * bytes
    let old := s.valueAt l.key bytes
    let (v, fl) := atomNew fn w old (b % 2 ^ w) (cmp % 2 ^ w) fadd
    (if fn == .cas && old != cmp % 2 ^ w then s else s.storeVal l bytes v, .ok (old, fl))

/-- An atomic of the acting strand: its core's L1 copy of the line is discarded. -/
def State.atomAt (s : State) (l : Loc) (bytes : Nat) (fn : AtomFn) (b cmp : Nat) (fadd : Nat → Nat → Nat × Flags) :
    State × Except Nat (Nat × Flags) :=
  ((s.hotAccess l).l1Drop s.cur.coreNo (lineOf l.key)).homeAtom l bytes fn b cmp fadd

end Sys2Proof.Machine
end

