-- ==== Sys2Proof/Machine/Group.lean ====
section
/-!
DEFINITION. The end of strands and groups, and the distributor's event stream (14 R299, R318, 19 R371, R375, R376).
-/
namespace Sys2Proof.Machine

/-! ## Waiters -/

/-- Withdraws every waiter of a source (06 R179). -/
def State.dropWaiters (s : State) (f : Waiter → Bool) : State := { s with waiters := s.waiters.filter fun w => !f w }

/-- Withdraws the arrivals of a strand from every mailbox port (14 R313); the arrivals behind them may be applied. -/
def State.dropArrivals (s : State) (sid : Nat) : State :=
  { s with cores := s.cores.map fun c => { c with arrivals := c.arrivals.filter fun a => a.sid != sid }
           events := s.events ++ s.cores.flatMap fun c =>
             if c.arrivals.any fun a => a.sid == sid then
               [Event.mailboxArrival (c.id / 48) (c.id % 48) 0, Event.mailboxArrival (c.id / 48) (c.id % 48) 1] else [] }

/-- The strand that a waiter belongs to. -/
def Waiter.sid (w : Waiter) : Option Nat :=
  match w.src with
  | .load sid _ | .buf sid _ | .pod sid _ | .copy sid _ => some sid
  | .remote _ | .node _ | .queue _ _ => none

/-! ## The event stream (19 R375, R376) -/

/-- What a record of the event stream says. -/
structure EvRec where
  ty : Nat
  q : Nat := 0
  prio : Nat := 0
  code : Nat := 0
  gidx : Nat := 0
  sidx : Nat := 0
  cluster : Nat := 0
  addr : Nat := 0

/-- A core through which the bench of a partition translates: the lowest of its lowest die. -/
def Part.benchCore (p : Part) : Nat := (p.dieList.headD 0) * 240

/-- Writes an event record, if the stream is on; a write that faults sets ERR and clears EN. -/
def State.eventRecord (s : State) (pid : Nat) (e : EvRec) : State :=
  let p := s.part pid
  if !p.evctl.getLsbD 0 then s
  else
    let bs := leBytes s.pkg.time 8 ++ leBytes e.ty 1 ++ leBytes e.q 1 ++ leBytes e.prio 1 ++ leBytes e.code 1 ++
      leBytes e.gidx 4 ++ leBytes e.sidx 1 ++ leBytes e.cluster 1 ++ leBytes 0 6 ++ leBytes e.addr 8
    let (s, ok) := s.unitStore pid p.benchCore (p.evbase.toNat + p.evptr.toNat) bs
    let p := s.part pid
    if ok then
      let n := p.evptr.toNat + 32
      if n ≥ p.evsize.toNat then s.putPart { p with evptr := 0, evctl := p.evctl ||| 0x4000 }
      else s.putPart { p with evptr := BitVec.ofNat 64 n }
    else s.putPart { p with evctl := (p.evctl ||| 0x8000) &&& ~~~1 }

/-! ## Nodes and groups -/

def State.node (s : State) (nid : Nat) : Option Node := findBy Node.id nid s.nodes

def State.putNode (s : State) (n : Node) : State := { s with nodes := putBy Node.id n s.nodes }

def State.group (s : State) (gid : Nat) : Option Group := findBy Group.id gid s.groups

def State.putGroup (s : State) (g : Group) : State := { s with groups := putBy Group.id g s.groups }

/-- Strands of a sweep (19 R362). -/
def Node.total (n : Node) : Nat := n.gps * n.stages * n.gsize

/-- A core that a group holds becomes reserved to no group and takes its next shape (11 R246). -/
def State.freeCore (s : State) (coreNo gid : Nat) : State :=
  let c := s.core coreNo
  if c.owner == some gid then s.putCore { c with owner := none, cur := c.next } else s

/-- Releases the cores and barriers that a group holds (14 R299). -/
def State.releaseGroup (s : State) (g : Group) : State :=
  let s := g.cores.foldl (fun s c => s.freeCore (g.cluster * 48 + c) g.id) s
  let cl := s.cluster g.cluster
  s.putCluster { cl with holders := Vector.map (fun h => if h == some g.id then none else h) cl.holders }

/-- Counts ended strands of a node; a node whose every strand has ended is due to be Done (19 R371). -/
def State.nodeEnded (s : State) (nid n : Nat) : State :=
  match s.node nid with
  | none => s
  | some nd =>
    let nd := { nd with ended := nd.ended + n }
    let s := s.putNode nd
    if nd.ended == nd.total then s.due (.nodeDone nid) else s

/-- The priority at selection of a group's node. -/
def State.prioOf (s : State) (g : Group) : Nat := (s.node g.nid).elim 0 Node.prio

/-- The evicted groups of a partition, those of higher priority first. -/
def State.evictedOf (s : State) (pid : Nat) : List Group :=
  [7, 6, 5, 4, 3, 2, 1, 0].flatMap fun k => s.groups.filter fun g => g.part == pid && g.evicted && s.prioOf g == k

/-- Cores and barriers have become free (19 R368, R373): evicted groups come back first, then the binding node goes on. -/
def State.coresFreed (s : State) (pid : Nat) : State :=
  { s with events := s.events ++ (s.evictedOf pid).map (fun g => Event.evictRestore g.id) ++ [.bind pid] }

/-- Whether no strand of a group is on its core or about to be. -/
def State.groupOff (s : State) (gid : Nat) : Bool :=
  s.strands.all fun t => t.gid != gid || (t.status != .running && t.status != .saving)

/-- A group that has lost `n` live strands; the last one releases its cores and barriers. Where the bench pre-empts the group and the
others have left their cores, it is evicted (19 R372). -/
def State.groupEnded (s : State) (gid n : Nat) : State :=
  match s.group gid with
  | none => s
  | some g =>
    let g := { g with live := g.live - n }
    if g.live == 0 then ({ s.releaseGroup g with groups := dropBy Group.id gid s.groups }).coresFreed g.part
    else
      let s := s.putGroup g
      if g.pre && s.groupOff gid then s.due (.evict gid) else s

/-- The strand as END leaves it (04 R105, 13 R289): queues, history and instruction-cache locks are gone, and pending
requests lapse (08 R233). -/
def Strand.ended (st : Strand) : Strand :=
  { st with status := .ended, queue := [], reply := [], hist := [], pend := [], sbuf := [], cur := none, captured := []
            fault := none, ints := [], preempt := false, yielded := false, icg := [], ics := [], strips := [] }

/-- Writes the addresses of held locks into the image (13 R287, 19 R371). -/
def State.writeLocks (s : State) (st : Strand) : State :=
  if st.ident.locks.isEmpty then s
  else (s.unitStore st.part st.coreNo (st.image.toNat + 0x3100) (st.ident.locks.flatMap fun a => leBytes a.toNat 8)).1

/-- A record of the event stream about a strand and its node. -/
def State.strandEvent (s : State) (st : Strand) (ty code : Nat) : State :=
  let n := s.node st.nid
  s.eventRecord st.part { ty := ty, q := n.elim 0 Node.q, prio := n.elim 0 Node.prio, code := code, gidx := st.ident.gidx.toNat
                          sidx := st.ident.sidx.toNat, cluster := st.cluster, addr := n.elim 0 fun n => n.kcb.toNat }

/-- The end record of a strand (19 R371): its held locks are listed in its image, and STRAND END carries their count. -/
def State.endRecord (s : State) (st : Strand) : State := (s.writeLocks st).strandEvent st 0x0B st.ident.locks.length

/-- The acting strand ends (04 R105, 19 R371): STRAND END is written, and its group and node count it. -/
def State.endStrand (s : State) : State :=
  let st := s.cur
  let s := ((s.dropArrivals st.id).dropWaiters fun w => w.sid == some st.id).endRecord st
  (s.onCur Strand.ended |>.groupEnded st.gid 1).nodeEnded st.nid 1

/-- A failed strand or core ends the whole group at once (19 R371): the failed strand has its end record, every other strand is stopped and
its image discarded, a FATAL event is written, and the node keeps the lowest group that failed. -/
def State.groupFatal (s : State) (st : Strand) (cause : Nat) : State :=
  let mine (t : Strand) : Bool := (t.id == st.id || (t.gid == st.gid && (s.group st.gid).isSome)) && t.status != .ended
  let n := (s.strands.filter mine).length
  let ids := (s.strands.filter mine).map Strand.id
  let s := { s with cur := if mine s.cur then s.cur.ended else s.cur
                    others := s.others.map fun t => if mine t then t.ended else t }
  let s := (ids.foldl State.dropArrivals s).dropWaiters fun w => match w.sid with | some i => ids.contains i | none => false
  let s := match s.node st.nid with
    | some nd =>
      let g := st.ident.gidx.toNat
      s.putNode { nd with fail := match nd.fail with
        | some (h, c) => some (if g < h then (g, cause) else (h, c))
        | none => some (g, cause) }
    | none => s
  let s := (s.endRecord st).strandEvent st 0x0D cause
  (s.groupEnded st.gid n).nodeEnded st.nid n

end Sys2Proof.Machine
end

