-- ==== Sys2Proof/Machine/Ops.lean ====
section
/-!
DEFINITION. The operations of a strand: generator registers with their history (03 R95), retirement with the loop end test
(04 R134), pushes (03 R86, R87), control registers (01 R24), and taking an exception (03 R96, R97, 08 R227 to R231).
-/
namespace Sys2Proof.Machine

/-- The outcome of a step. -/
abbrev Res := Host.Outcome State Fault Refusal

/-! ## Stall reasons (13 R296) -/

def wEQFULL : Nat := 0x0
def wEQEMPTY : Nat := 0x1
def wFEWAIT : Nat := 0x2
def wPARKED : Nat := 0x3
def wMEMLAT : Nat := 0x4
def wSCOREBOARD : Nat := 0x6
def wFENCE : Nat := 0x7
def wBARRIER : Nat := 0x8
def wREPLY : Nat := 0x9
def wMATRIX : Nat := 0xB
def wPREEMPT : Nat := 0xD
def wOTHER : Nat := 0xF
/-- No stall. -/
def wNone : Nat := 16

/-- The generator stalls at its instruction, which has no effect (03 R98). -/
def State.stallGen (s : State) (why : Nat) : State := s.onCur fun st => { st with stall := why }

def stall (s : State) (why : Nat) : Res := .next (s.stallGen why)

/-! ## Shape (03 R73, R75, 20 R390) -/

/-- Lanes of a strand. -/
def Strand.lanes (st : Strand) : Nat := if st.half then 32 else 64

/-- Pods of a strand. -/
def Strand.pods (st : Strand) : Nat := if st.half then 4 else 8

/-- VLMAX(w) (03 R75, 20 R390). -/
def Strand.vlmax (st : Strand) (w : Nat) : Nat := (if st.lp then 16384 else st.lanes * 64) / w

/-- Bits of a mask register or of the fragment mask (03 R74, 20 R390). -/
def Strand.maskBits (st : Strand) : Nat := if st.half && !st.lp then 512 else 1024

/-! ## Words not yet retired (03 R86, R94) -/

/-- Whether the word in progress counts as a queued entry: it has left the queue but not issued to the lanes (03 R86). A word that is
issued again is none. -/
def Cur.queued (c : Cur) : Bool := !c.blk && !c.issued && c.pods.isEmpty

/-- Queued emit entries (03 R86). -/
def Strand.qn (st : Strand) : Nat :=
  (st.queue.filter fun | .word _ => true | .ctl _ _ => false).length + (st.cur.toList.filter Cur.queued).length

/-- The push numbers of the words that have not retired. -/
def Strand.unretired (st : Strand) : List Nat :=
  st.captured.map Captured.ord ++ (st.block.call.toList.map Entry.ord) ++ (st.cur.toList.map fun c => c.e.ord) ++
    st.queue.filterMap fun | .word e => some e.ord | .ctl _ _ => none

/-- Words pushed and not yet retired, a block counting as its block-call word (06 R186). -/
def Strand.outstanding (st : Strand) : Nat := st.unretired.eraseDups.length

/-- Every word emitted so far has retired. -/
def Strand.idle (st : Strand) : Bool := st.unretired.isEmpty

/-- The stream has no word to execute (03 R88). -/
def Strand.streamEmpty (st : Strand) : Bool := st.cur.isNone && st.block.call.isNone && st.qn == 0

/-! ## Generator registers -/

/-- Reads s[r]; s0 reads zero (04 R100). -/
def Gen.read (g : Gen) (r : SReg) : Word := if r = 0 then 0 else g.s[r]

/-- Registers that a buffered access writes when it performs (04 R100). -/
def SbKind.dests : SbKind → List SReg
  | .ld _ _ sd | .ldC _ _ sd | .ldW _ _ sd | .amo _ _ _ _ sd _ _ | .launch sd _ | .cpy sd _ => [sd]
  | .ldct sd => [sd, sd + 1]
  | _ => []

/-- Registers that pending accesses are still to write. -/
def Strand.busy (st : Strand) : List SReg :=
  (st.pend.filterMap fun p => if p.target.isSome then none else some p.sd) ++ st.sbuf.flatMap fun e => e.kind.dests

/-- Whether an access of the generator is held on a full/empty condition: at its home, or, for a waiting form, at a remote node that has not
answered. -/
def SbEntry.unmet (e : SbEntry) : Bool :=
  e.waiter.isSome || (e.gw.isSome && match e.kind with | .ldC _ _ _ | .ldW _ _ _ | .stF _ _ => true | _ => false)

def PendLoad.unmet (p : PendLoad) : Bool := p.waiter.isSome || (p.gw.isSome && !p.plain)

/-- Registers whose pending access is held on an unmet condition. -/
def Strand.unmet (st : Strand) : List SReg :=
  (st.pend.filterMap fun p => if p.target.isNone && p.unmet then some p.sd else none) ++
    st.sbuf.flatMap fun e => if e.unmet then e.kind.dests else []

/-- Whether an instruction that names these registers stalls for a pending access (04 R100). -/
def Strand.isBusy (st : Strand) (rs : List SReg) : Bool := rs.any fun r => r != 0 && st.busy.contains r

/-- A loop register by its system register number (04 R132). -/
def Gen.loopReg (g : Gen) : Nat → Word
  | 0x50 => g.lc0.setWidth 64 | 0x51 => g.lc1.setWidth 64
  | 0x52 => g.lbeg0 | 0x53 => g.lend0 | 0x54 => g.lbeg1 | 0x55 => g.lend1
  | _ => g.lctl.setWidth 64

/-- Writes a loop register; its RSV bits are ignored. -/
def Gen.setLoopReg (g : Gen) (num : Nat) (v : Word) : Gen :=
  match num with
  | 0x50 => { g with lc0 := v.setWidth 32 } | 0x51 => { g with lc1 := v.setWidth 32 }
  | 0x52 => { g with lbeg0 := v &&& ~~~1 } | 0x53 => { g with lend0 := v &&& ~~~1 }
  | 0x54 => { g with lbeg1 := v &&& ~~~1 } | 0x55 => { g with lend1 := v &&& ~~~1 }
  | _ => { g with lctl := v.setWidth 3 }

/-- The old value that a history entry records (03 R95). -/
def Strand.histOld (st : Strand) : HistTarget → Word
  | .s r => st.gen.read r
  | .loop n => st.gen.loopReg n
  | .gfstat => st.gen.gfstat.setWidth 64
  | .ctl _ => 0
  | .reply => st.reply.headD 0

/-- Gives a target a value; also how an undo restores it. Writes to s0 are discarded (04 R100). -/
def Strand.put (st : Strand) (t : HistTarget) (v : Word) : Strand :=
  match t with
  | .s r => if r = 0 then st else { st with gen := { st.gen with s := st.gen.s.set r v } }
  | .loop n => { st with gen := st.gen.setLoopReg n v }
  | .gfstat => { st with gen := { st.gen with gfstat := v.setWidth 5 } }
  | .ctl _ => st
  | .reply => { st with reply := v :: st.reply }

/-- Whether a write of a target takes an entry of the history buffer. -/
def HistTarget.counts : HistTarget → Bool
  | .s r => r != 0
  | .reply => false
  | _ => true

/-- Whether the late write of a pending load is to be recorded: the word pushed before the load has not retired (03 R95). -/
def Strand.records (st : Strand) (ord : Nat) (r : SReg) : Bool := r != 0 && st.unretired.any (· + 1 == ord)

/-- Entries of the history buffer in use, those reserved for pending loads among them: a load that has left the generator can no longer
stall it (log entry 29). -/
def Strand.histUsed (st : Strand) : Nat :=
  (st.hist.filter fun h => h.target.counts).length + (st.pend.filter fun p => p.target.isNone && st.records p.ord p.sd).length

/-- Records the old value of a target, if the last word pushed has not retired (03 R95). -/
def Strand.recordOld (st : Strand) (t : HistTarget) : Strand :=
  if st.idle || t == .s 0 then st else { st with hist := st.hist ++ [⟨st.nord - 1, t, st.histOld t⟩] }

/-- A generator write: recorded, then made. -/
def Strand.write (st : Strand) (t : HistTarget) (v : Word) : Strand := (st.recordOld t).put t v

def Strand.writes (st : Strand) (ws : List (HistTarget × Word)) : Strand := ws.foldl (fun st w => st.write w.1 w.2) st

/-! ## Retirement and hardware loops (04 R134) -/

/-- Loop `c` is active. -/
def Gen.act (g : Gen) (c : Nat) : Bool := g.lctl.getLsbD c

def Gen.lend (g : Gen) (c : Nat) : Word := if c == 0 then g.lend0 else g.lend1

def Gen.lbeg (g : Gen) (c : Nat) : Word := if c == 0 then g.lbeg0 else g.lbeg1

def Gen.lc (g : Gen) (c : Nat) : BitVec 32 := if c == 0 then g.lc0 else g.lc1

/-- LCTL with loop `c` made inactive. -/
def Gen.deact (g : Gen) (c : Nat) : Word := (g.lctl &&& ~~~(1#3 <<< c)).setWidth 64

/-- The end test of one loop: where execution continues, and the loop's writes; `none` when the loop is not tested. -/
def Gen.endTest1 (g : Gen) (c : Nat) (npc : Word) : Option (Bool × List (HistTarget × Word)) :=
  if g.act c && g.lend c == npc then
    if (g.lc c).toNat ≤ 1 then some (false, [(.loop (0x50 + c), 0), (.loop 0x56, g.deact c)])
    else some (true, [(.loop (0x50 + c), (g.lc c - 1).setWidth 64)])
  else none

/-- The end tests at a retirement in sequence: the INNER loop first; the other only if that one does not loop back. -/
def Strand.endTest (st : Strand) (npc : Word) : Word × List (HistTarget × Word) :=
  let inner := if st.gen.lctl.getLsbD 2 then 1 else 0
  match st.gen.endTest1 inner npc with
  | some (true, ws) => (st.gen.lbeg inner, ws)
  | first =>
    let ws := match first with | some (_, ws) => ws | none => []
    let g := (ws.foldl (fun st w => st.put w.1 w.2) st).gen
    match g.endTest1 (1 - inner) npc with
    | some (true, ws') => (g.lbeg (1 - inner), ws ++ ws')
    | some (false, ws') => (npc, ws ++ ws')
    | none => (npc, ws)

/-- A taken transfer to LEND of an active loop ends every active loop with that LEND. -/
def Strand.jumpEnds (st : Strand) (t : Word) : List (HistTarget × Word) :=
  let e0 := st.gen.act 0 && st.gen.lend 0 == t
  let e1 := st.gen.act 1 && st.gen.lend 1 == t
  let ctl : BitVec 3 := st.gen.lctl &&& ~~~((if e0 then 1#3 else 0) ||| (if e1 then 2#3 else 0))
  (if e0 then [(.loop 0x50, 0)] else []) ++ (if e1 then [(.loop 0x51, 0)] else []) ++
    (if e0 || e1 then [(.loop 0x56, ctl.setWidth 64)] else [])

/-- Where execution goes after the acting instruction, and the loop registers that its retirement writes: `target` is the
target of a taken transfer. -/
def Strand.advance (st : Strand) (target : Option Word) : Word × List (HistTarget × Word) :=
  match target with
  | some t => (t, st.jumpEnds t)
  | none => st.endTest st.gen.npc

/-- The strand with an instruction retired: its writes, then the end test, then the PC. -/
def Strand.retired (st : Strand) (ws : List (HistTarget × Word)) (target : Option Word) : Strand :=
  let st := st.writes ws
  let (pc, lw) := st.advance target
  let st := st.writes lw
  { st with gen := { st.gen with pc := pc }, stall := wNone, skipBrk := false }

/-- Whether the history buffer has room for what a retirement writes (03 R95). -/
def Strand.histRoom (st : Strand) (ws : List (HistTarget × Word)) (target : Option Word) : Bool :=
  st.idle || (st.retired ws target).histUsed ≤ 64

/-- Retires the acting generator instruction, or stalls it for want of history entries. -/
def retire (s : State) (ws : List (HistTarget × Word)) (target : Option Word) : Res :=
  if s.cur.histRoom ws target then .next ((s.onCur fun st => st.retired ws target).count 0x02 1)
  else stall s wSCOREBOARD

/-- Retires an instruction that writes one s register. -/
def retireS (s : State) (sd : SReg) (v : Word) : Res := retire s [(.s sd, v)] none

/-- Runs an instruction that names the given registers, unless one is the destination of a pending access (04 R100): samples report FEWAIT
while that access waits for its condition (R122, 13 R296). -/
def withRegs (s : State) (rs : List SReg) (f : State → Res) : Res :=
  if s.cur.isBusy rs then stall s (if rs.any fun r => r != 0 && s.cur.unmet.contains r then wFEWAIT else wMEMLAT) else f s

/-- A handler is active: HDL of a bank (08 R224). -/
def Bank.hdl (b : Bank) : Bool := b.stat.getLsbD 0

/-- A handler of either bank is active. -/
def Strand.handling (st : Strand) : Bool := st.kbank.hdl || st.sbank.hdl

/-- Handlers that are active. -/
def Strand.depth (st : Strand) : Nat := (if st.kbank.hdl then 1 else 0) + (if st.sbank.hdl then 1 else 0)

/-! ## Pushes (03 R86, R87, R96) -/

/-- Retires the acting instruction and pushes a word: its successor is where the retirement sent execution. -/
def push (s : State) (call : Bool) (bits : Nat) (carried : Word) : Res :=
  if s.cur.qn ≥ 64 then stall s wEQFULL
  else if s.cur.dbgctl.getLsbD 0 && !s.cur.handling && !s.cur.idle then stall s wOTHER
  else if !s.cur.histRoom [] none then stall s wSCOREBOARD
  else
    let prov := s.cur.gen.pc
    .next ((s.onCur fun st =>
      let st := st.retired [] none
      let e : Entry := { call := call, bits := bits, carried := carried, prov := prov, seq := st.nseq, ord := st.nord
                         succ := st.gen.pc }
      { st with queue := st.queue ++ [.word e], nseq := st.nseq + 1, nord := st.nord + 1 }).count 0x02 1)

/-! ## Control registers of 01 R24 -/

/-- A register of the control-write rule, by number. -/
def Ctl.get (c : Ctl) : Nat → Word
  | 0x010 => c.fctl | 0x012 => c.fenab | 0x013 => c.srseed | 0x023 => c.ablk | 0x07D => c.chkctl
  | 0x0C8 => c.femode | _ => c.febudget

def Ctl.set (c : Ctl) (num : Nat) (v : Word) : Ctl :=
  match num with
  | 0x010 => { c with fctl := v } | 0x012 => { c with fenab := v } | 0x013 => { c with srseed := v }
  | 0x023 => { c with ablk := v } | 0x07D => { c with chkctl := v } | 0x0C8 => { c with femode := v }
  | _ => { c with febudget := v }

/-- The generator's view of a control register: its latest write still in the queue, else the stream's value. -/
def Strand.genCtl (st : Strand) (num : Nat) : Word :=
  match st.queue.reverse.findSome? fun | .ctl n v => if n == num then some v else none | .word _ => none with
  | some v => v
  | none => st.ctl.get num

/-- With no word outstanding the control writes still in the queue take effect (01 R24). -/
def Strand.settleCtl (st : Strand) : Strand :=
  { st with ctl := st.queue.foldl (fun c q => match q with | .ctl n w => c.set n w | .word _ => c) st.ctl, queue := [] }

/-- A control write: at once when no word is outstanding, else in queue order (01 R24). -/
def Strand.setCtl (st : Strand) (num : Nat) (v : Word) : Strand :=
  if st.idle then { st.settleCtl with ctl := st.settleCtl.ctl.set num v } else { st with queue := st.queue ++ [.ctl num v] }

/-! ## Trap banks and handlers -/

/-- The DELEG bit of a delegable cause (08 R220, R227). -/
def delegBit (cause : Nat) : Option Nat :=
  if cause == cFEB then some 0 else if cause == cDOV then some 1 else if cause == cNPG then some 2
  else if cause == cPFBO then some 3 else if cause == cFPX then some 4 else if cause == cBRK then some 5 else none

/-- Where a trap goes (08 R229): the level, PREV and NEST, or StrandFatal. -/
def Strand.route (st : Strand) (cause : Nat) : Option (Level × Nat × Nat) :=
  if st.sbank.hdl then none
  else if st.kbank.hdl then (if st.stvec == 0 then none else some (.s, 1, 1))
  else if (match delegBit cause with | some b => st.deleg.getLsbD b | none => false) && st.ktvec != 0 then some (.k, 0, 0)
  else if st.stvec == 0 then none else some (.s, 0, 0)

/-- What a trap records (08 R225, R229). -/
structure Trap where
  cause : Nat
  val : Word
  stream : Bool := false
  deferred : Bool := false
  blk : Bool := false
  bcall : Bool := false
  epc : Word
  ipc : Word := 0
  prov : Word
  seq : BitVec 48
  spc : Word := 0
  w : Nat := 0
  xq : Word := 0
  startix : Option (Vector Word 8) := none
  block : Option Block := none
  nspc : Word := 0
  unfetched : Bool := false
  mask : Option (Nat × BitVec 1024) := none
  failed : Option SbEntry := none
  younger : List SbEntry := []

/-- TCAUSE (08 R223). -/
def Trap.tcause (t : Trap) (nest : Nat) : Word :=
  BitVec.ofNat 64 (t.cause + (if t.stream then 0x100 else 0) + (if t.deferred then 0x200 else 0) + nest * 0x400 +
    (if t.blk then 0x800 else 0) + (if t.bcall then 0x1000 else 0))

/-- A bank with a trap recorded. -/
def Bank.take (b : Bank) (t : Trap) (prev nest : Nat) : Bank :=
  { b with
    cause := t.tcause nest, val := t.val, epc := t.epc, ipc := t.ipc, prov := t.prov, seq := t.seq.setWidth 64, spc := t.spc
    word0 := BitVec.ofNat 64 t.w, word1 := BitVec.ofNat 64 (t.w / 2 ^ 64 % 2 ^ 48), xq := t.xq
    stat := BitVec.ofNat 64 (prev * 2 + 1), startix := t.startix.getD b.startix, block := t.block, nspc := t.nspc
    held := t.stream, unfetched := t.unfetched, mask := t.mask, failed := t.failed, younger := t.younger }

/-- The block state as a handler or the end of a block leaves it: no block, the fragment mask all ones and no waiting
fragment; the loop and strip registers stand (06 R186, 08 R230). -/
def Block.leave (b : Block) : Block := { b with call := none, spc := 0, fm := BitVec.allOnes 1024, pfb := [] }

/-- TakeTrap (08 R229): records the trap in the bank it routes to and enters the handler, or ends the strand and its group. The request
of a YIELD lapses (04 R106). -/
def State.takeTrap (s : State) (t : Trap) : State :=
  match s.cur.route t.cause with
  | none => s.groupFatal s.cur t.cause
  | some (lvl, prev, nest) =>
    s.onCur fun st =>
      let st := { st with fault := none, yielded := false, skipBrk := false, cur := none, block := st.block.leave, sbuf := [], stall := wNone, sstall := wNone }
      match lvl with
      | .k => { st with kbank := st.kbank.take t prev nest, gen := { st.gen with level := .k, pc := st.ktvec } }
      | .s => { st with sbank := st.sbank.take t prev nest, gen := { st.gen with level := .s, pc := st.stvec } }

/-- Records a FEB in FEFAIL and FEFORM (08 R226). -/
def Strand.feRecord (st : Strand) (addr : Word) (pod : Nat) (stream : Bool) (form : Nat) : Strand :=
  { st with fefail := addr, feform := BitVec.ofNat 64 (pod * 32 + (if stream then 16 else 0) + form) }

/-- No access is left behind by the generator: the store buffer is empty and no waiting load is pending (04 R103). DEDUCED: a precise
fault waits for both (log entry 30). -/
def Strand.drained (st : Strand) : Bool := st.sbuf.isEmpty && st.pend.all fun p => p.target.isSome

/-- A generator fault (03 R97, 04 R102): delivered once every earlier word has retired and every pending access has performed;
the instruction has no effect. `epc` is the resume PC. -/
def genFaultAt (s : State) (cause : Nat) (val epc : Word) : Res :=
  let st := s.cur
  if !st.idle || !st.drained then stall s wFENCE
  else .next (s.takeTrap { cause := cause, val := val, epc := epc, prov := st.gen.pc, seq := st.nseq, w := st.gen.ir })

def genFault (s : State) (cause : Nat) (val : Word) : Res := genFaultAt s cause val s.cur.gen.pc

/-- The head halfword of the acting instruction, TVAL of an ILL (08 R220). -/
def Strand.headVal (st : Strand) : Word := BitVec.ofNat 64 (st.gen.ir % 2 ^ 16)

/-- An encoding or value fault of a generator instruction. -/
def genIll (s : State) : Res := genFault s cILL s.cur.headVal

/-! ## Reconciling a stream fault (03 R96) -/

/-- Undoes the history entries younger than the push `ord`, newest first. A popped reply returns, though more than 16 are held then (log entry
29). -/
def Strand.undo (st : Strand) (ord : Nat) : Strand :=
  let st' := (st.hist.filter fun h => ord ≤ h.ord).reverse.foldl (fun st h => st.put h.target h.old) st
  { st' with hist := st.hist.filter fun h => h.ord < ord }

/-- The generator rewound to just after the push of `e`: younger words, store-buffer entries, loads, writes and CPYs are
gone. NSEQ is set as R96 says, also where handler words above n have retired and their numbers come again (log entry 30). -/
def Strand.rewind (st : Strand) (e : Entry) : Strand :=
  let lost (c : Copy) : Bool := c.st == .waiting && e.ord < c.ord
  let st := { st with queue := [], sbuf := st.sbuf.filter fun b => b.ord ≤ e.ord, pend := st.pend.filter fun p => p.ord ≤ e.ord
                      brks := st.brks.filter fun b => b.ord ≤ e.ord
                      copies := st.copies.filter fun c => !lost c
                      nextCopy := ((st.copies.filter lost).map Copy.handle).foldl min st.nextCopy }
  let st := st.undo e.ord
  { st with nseq := e.seq + 1, gen := { st.gen with pc := e.succ }, stall := wNone }

/-- A position of STARTIX (03 R85). -/
def startOf (row idx : Nat) : Word := BitVec.ofNat 64 (min row 32 * 2 ^ 16 + idx)

/-- The stop record of every pod: the word in progress keeps it (03 R85). -/
def Cur.startix (c : Cur) : Vector Word 8 := Vector.ofFn fun i : Fin 8 =>
  match c.pods[i.val]? with | some p => startOf p.row p.idx | none => 0

/-- The word that a stopped stream holds: for a block-call word its block address. -/
def Cur.heldWord (c : Cur) : Nat := if c.e.call && !c.blk then c.e.bits % 2 ^ 64 else c.w

/-- Takes the trap of the stream fault that is due, with the word in progress as held word (08 R225, R229). -/
def State.takeStream (s : State) (f : Pend) (c : Cur) : State :=
  s.takeTrap { cause := f.cause, val := f.val, stream := true, blk := c.blk, bcall := c.e.call && !c.blk, epc := c.e.succ
               prov := c.e.prov, seq := c.e.seq, spc := if c.blk then c.spc else 0, w := c.heldWord, xq := c.e.carried
               startix := some c.startix, block := if c.blk then some s.cur.block else none, nspc := c.nspc, unfetched := c.unfetched
               mask := if c.masked then some (c.w, c.mask) else none, younger := s.cur.sbuf }

/-- A failed older load, whose deferred fault the stream fault precedes, is placed again (03 R97). -/
def Strand.backFailed (st : Strand) (ord : Nat) : Strand :=
  match st.fault.bind Pend.entry with
  | some x => if x.ord ≤ ord && !st.sbuf.any fun b => b.id == x.id then { st with sbuf := putBy SbEntry.id x st.sbuf } else st
  | none => st

/-- A stream fault of the word in progress (03 R96, 08 R231): the generator is rewound, and the trap is taken, at once when
the store buffer has drained, else by TAKE_TRAP. DEDUCED: it waits for older waiting loads too (log entry 30). -/
def streamFault (s : State) (cause : Nat) (val : Word) : Res :=
  match s.cur.cur with
  | none => .next s
  | some c =>
    let f : Pend := { cause := cause, val := val, stream := true, deferred := false, ord := c.e.ord, ipc := 0, ir := 0, depth := 0, entry := none }
    let lost := (s.cur.sbuf.filter fun b => c.e.ord < b.ord).map SbEntry.id ++ (s.cur.pend.filter fun p => c.e.ord < p.ord).map PendLoad.id
    let s := (s.dropArrivals s.cur.id).dropWaiters fun w => match w.src with
      | .load sid i | .buf sid i => sid == s.cur.id && lost.contains i
      | .pod sid _ => sid == s.cur.id
      | .copy _ _ | .remote _ | .node _ | .queue _ _ => false
    let s := s.onCur fun st => { (st.rewind c.e).backFailed c.e.ord with cur := some { c with watch := none, pins := [], pods := c.pods.map fun p => { p with waiter := none } } }
    if s.cur.drained then .next (s.takeStream f c) else .next (s.onCur fun st => { st with fault := some f })

/-- A failed access with the strand's other entries, in their order. -/
def Strand.putBack (st : Strand) (e : SbEntry) : Strand :=
  if st.sbuf.any fun b => b.id == e.id then st else { st with sbuf := putBy SbEntry.id e st.sbuf }

/-- A deferred generator fault becomes due (04 R103): the generator stops at its boundary. A stream fault that is due already is taken at
once, with the failed access set aside to be placed again (03 R97, 08 R230); of two failed accesses the older one's fault is due, and
the other is placed again after it. -/
def State.deferFault (s : State) (cause : Nat) (addr : Word) (entry : SbEntry) : State :=
  let f : Pend := { cause := cause, val := addr, stream := false, deferred := true, ord := entry.ord, ipc := entry.ipc, ir := entry.ir
                    depth := 0, entry := some entry }
  match s.cur.fault, s.cur.cur with
  | none, _ => s.onCur fun st => { st with fault := some f }
  | some g, c =>
    if g.stream then (match c with | some c => (s.onCur fun st => st.putBack entry).takeStream g c | none => s.onCur fun st => st.putBack entry)
    else match g.entry with
      | some x => if entry.id < x.id then s.onCur fun st => { st.putBack x with fault := some f } else s.onCur fun st => st.putBack entry
      | none => s.onCur fun st => st.putBack entry

/-- The form code of a buffered access that can meet FEB (08 R226). -/
def SbKind.feForm : SbKind → Nat
  | .ldW _ _ _ => 1 | .ldC _ _ _ => 2 | .stF _ _ => 3
  | _ => 0

/-- A pending load as a store-buffer entry, for its set-aside after a deferred fault (04 R103). -/
def PendLoad.asEntry (p : PendLoad) : SbEntry :=
  { id := p.id, ord := p.ord, ipc := p.ipc, ir := p.ir, kind := if p.plain then .ld p.size p.sext p.sd else .ldW p.size p.sext p.sd
    loc := p.loc, bad := p.bad, park := p.park, budget := p.budget, waiter := none, exhausted := false, gw := none }

/-- Takes a deferred fault (04 R103, 08 R225): the failed access and the younger ones, waiting loads among them, are set aside. A FEB is recorded
(R226). -/
def State.takeDeferred (s : State) (f : Pend) : State :=
  let s := if f.cause == cFEB then s.onCur fun st => st.feRecord f.val 0 false (f.entry.elim 0 fun e => e.kind.feForm) else s
  let st := s.cur
  let all := (st.sbuf.filter fun b => some b.id != f.entry.map SbEntry.id) ++
    (st.pend.filter fun p => p.target.isNone && some p.id != f.entry.map SbEntry.id).map PendLoad.asEntry
  let s := { s with waiters := s.waiters.filter fun w => match w.src with | .load sid _ => sid != st.id | _ => true
                    cur := { st with pend := [] } }
  s.takeTrap { cause := f.cause, val := f.val, deferred := f.deferred, epc := st.gen.pc, ipc := f.ipc, prov := f.ipc, seq := st.nseq, w := f.ir
               failed := f.entry, younger := all.foldl (fun l e => putBy SbEntry.id e l) [] }

/-- Takes the breakpoint that a generator access has met (13 R292): TIPC names the issuing instruction. -/
def State.takeBreak (s : State) (f : Pend) : State :=
  let st := s.cur
  ({ s with cur := { st with brks := st.brks.erase f } }).takeTrap
    { cause := f.cause, val := f.val, epc := st.gen.pc, ipc := f.ipc, prov := f.ipc, seq := st.nseq, w := f.ir }

end Sys2Proof.Machine
end

