-- ==== Sys2Proof/Machine/Flags.lean ====
section
/-!
DEFINITION. Flags and event records: what a run of a word has raised (01 R28, R30, R31), its merge into FSTAT and EIDX
(R29, R30), the flags that trap (R27), and the generator's GFSTAT (04 R116).
-/
namespace Sys2Proof.Machine

/-- Whether flags raise event class `c`: bits 0 to 6 are the classes 0 to 6, and SCN is class 7, as is an anchor consultation
(01 R28). SUB has no class. -/
def raisesClass (fl : Flags) (consult : Bool) (c : Nat) : Bool := if c == 7 then fl.getLsbD 8 || consult else fl.getLsbD c

/-- (row, element) positions, rows compared first (01 R30). -/
def posLt (r i r' i' : Nat) : Bool := r < r' || (r == r' && i < i')

/-- A run with the flags of one element added. -/
def Run.raise (r : Run) (row idx : Nat) (fl : Flags) (consult : Bool := false) : Run :=
  if fl == 0 && !consult then r
  else
    { flags := r.flags ||| fl
      evts := Vector.ofFn fun c : Fin 8 =>
        let e := r.evts[c]
        if raisesClass fl consult c.val then
          if e.cnt == 0 then ⟨1, row, idx⟩
          else if posLt row idx e.row e.idx then ⟨e.cnt + 1, row, idx⟩ else ⟨e.cnt + 1, e.row, e.idx⟩
        else e }

/-- An EIDX register with the record of its class merged (01 R29, R30). -/
def mergeEidx (x : Word) (e : Evt) (stopped : Bool) : Word :=
  let x' :=
    if e.cnt == 0 then x
    else
      let val := x.getLsbD 31
      let part := x.getLsbD 30
      let take := !val || !part || posLt e.row e.idx (fieldOf x 16 5) (fieldOf x 0 16)
      let row := if take then e.row else fieldOf x 16 5
      let idx := if take then e.idx else fieldOf x 0 16
      let cnt := min (fieldOf x 32 32 + e.cnt) (2 ^ 32 - 1)
      BitVec.ofNat 64 (cnt * 2 ^ 32 + 2 ^ 31 + (if part || stopped then 2 ^ 30 else 0) + row * 2 ^ 16 + idx % 2 ^ 16)
  if stopped then x' else x' &&& ~~~(1#64 <<< 30)

/-- Merges a run into FSTAT and the EIDX registers; a handler's word leaves EIDX unchanged (01 R30, 08 R230). -/
def Strand.merge (st : Strand) (r : Run) (stopped : Bool) : Strand :=
  { st with fstat := st.fstat ||| r.flags
            eidx := if st.handling then st.eidx else Vector.ofFn fun c : Fin 8 => mergeEidx st.eidx[c] r.evts[c] stopped }

/-- Flags that FENAB can enable: all but DOV and SUB (01 R27). -/
def fpxMask : Flags := 0x13F

/-- Whether flags raise FPX. -/
def Ctl.fpx (c : Ctl) (fl : Flags) : Bool := fl &&& c.fenab.setWidth 9 &&& fpxMask != 0

/-- The rounding mode of FCTL.RM (01 R25). -/
def Ctl.rm (c : Ctl) : Rm := Rm.ofCode (fieldOf c.fctl 0 2)

/-- FCTL.CANON. -/
def Ctl.canon (c : Ctl) : Bool := c.fctl.getLsbD 2

/-- FCTL.ADOVM = SAT. -/
def Ctl.dovSat (c : Ctl) : Bool := c.fctl.getLsbD 3

/-- The window of the amax history (01 R38). -/
def Ctl.amaxWindow (c : Ctl) : Nat := fieldOf c.fctl 8 4 + 1

/-- The rounding mode of an X4 or rounding field: 0 takes FCTL.RM, 1 to 4 name a mode (01 R32, 02 R49). -/
def Ctl.mode (c : Ctl) (rnd : Nat) : Rm := if rnd == 0 then c.rm else Rm.ofCode (rnd - 1)

/-- GFSTAT with flags of a buffered atomic merged: the recorded old values of younger writes get them too, so that an undo
keeps what an earlier access raised (04 R116, 03 R95). -/
def Strand.mergeGf (st : Strand) (fl : Flags) (ord : Nat) : Strand :=
  let f := fl.setWidth 5
  if f == 0 then st
  else { st with gen := { st.gen with gfstat := st.gen.gfstat ||| f }
                 hist := st.hist.map fun h =>
                   if h.target == .gfstat && ord ≤ h.ord then { h with old := h.old ||| f.setWidth 64 } else h }

/-- The write of GFSTAT that an instruction raising flags makes: none when it does not change (04 R116). -/
def Strand.gfWrites (st : Strand) (fl : Flags) : List (HistTarget × Word) :=
  let n := st.gen.gfstat ||| fl.setWidth 5
  if n == st.gen.gfstat then [] else [(.gfstat, n.setWidth 64)]

end Sys2Proof.Machine
end

