-- ==== Sys2Proof/Machine/GenAlu.lean ====
section
/-!
DEFINITION. The integer and immediate instructions of the generator (04 R110 to R114).
-/
namespace Sys2Proof.Machine

/-- 1 or 0 as a 64-bit integer (04 R110). -/
def ofBool (b : Bool) : Word := if b then 1 else 0

/-- The shift amount s[sb]<5:0>. -/
def shamt (b : Word) : Nat := fieldOf b 0 6

/-- Signed quotient toward zero; all ones by zero; −2^63 by −1 is −2^63 (04 R110). -/
def divS (a b : Word) : Word := if b = 0 then BitVec.allOnes 64 else a.sdiv b

/-- Signed remainder with the sign of the dividend; the dividend by zero. -/
def remS (a b : Word) : Word := if b = 0 then a else a.srem b

/-- Unsigned quotient; all ones by zero. -/
def divN (a b : Word) : Word := if b = 0 then BitVec.allOnes 64 else a / b

/-- Unsigned remainder; the dividend by zero. -/
def remN (a b : Word) : Word := if b = 0 then a else a % b

/-- Leading zero bits of a number of `n` bits. -/
def clzN (x : Nat) : Nat → Nat
  | 0 => 0
  | n + 1 => if x.testBit n then 0 else clzN x n + 1

/-- Trailing zero bits of a word; 64 when it is 0. -/
def ctzW (a : Word) : Nat := if a = 0 then 64 else ((List.range 64).find? fun i => a.getLsbD i).getD 64

/-- One bits among the low `n`. -/
def popN (x n : Nat) : Nat := ((List.range n).filter fun i => x.testBit i).length

/-- Bytes reversed. -/
def bswapW (a : Word) : Word := BitVec.ofNat 64 (leValue (leBytes a.toNat 8).reverse)

/-- An instruction s[sd] ← f(s[sa], s[sb]) (04 R110). -/
def alu (s : State) (sd sa sb : SReg) (f : Word → Word → Word) : Res :=
  withRegs s [sd, sa, sb] fun s => retireS s sd (f (s.cur.gen.read sa) (s.cur.gen.read sb))

/-- An instruction s[sd] ← f(s[sa]). -/
def alu1 (s : State) (sd sa : SReg) (f : Word → Word) : Res :=
  withRegs s [sd, sa] fun s => retireS s sd (f (s.cur.gen.read sa))

/-- ADD (04 R110): Sum modulo 2^64. -/
def execAdd (sd sa sb : SReg) (s : State) : Res := alu s sd sa sb fun a b => a + b

/-- SUB (04 R110): Difference modulo 2^64. -/
def execSub (sd sa sb : SReg) (s : State) : Res := alu s sd sa sb fun a b => a - b

/-- AND (04 R110): Bitwise and. -/
def execAnd (sd sa sb : SReg) (s : State) : Res := alu s sd sa sb fun a b => a &&& b

/-- OR (04 R110): Bitwise or. -/
def execOr (sd sa sb : SReg) (s : State) : Res := alu s sd sa sb fun a b => a ||| b

/-- XOR (04 R110): Bitwise exclusive or. -/
def execXor (sd sa sb : SReg) (s : State) : Res := alu s sd sa sb fun a b => a ^^^ b

/-- ANDN (04 R110): a and not b. -/
def execAndn (sd sa sb : SReg) (s : State) : Res := alu s sd sa sb fun a b => a &&& ~~~b

/-- ORN (04 R110): a or not b. -/
def execOrn (sd sa sb : SReg) (s : State) : Res := alu s sd sa sb fun a b => a ||| ~~~b

/-- XNOR (04 R110): Not (a xor b). -/
def execXnor (sd sa sb : SReg) (s : State) : Res := alu s sd sa sb fun a b => ~~~(a ^^^ b)

/-- SHL (04 R110): Shift left by s[sb]<5:0>. -/
def execShl (sd sa sb : SReg) (s : State) : Res := alu s sd sa sb fun a b => a <<< shamt b

/-- SHR (04 R110): Logical shift right by s[sb]<5:0>. -/
def execShr (sd sa sb : SReg) (s : State) : Res := alu s sd sa sb fun a b => a >>> shamt b

/-- SRA (04 R110): Arithmetic shift right by s[sb]<5:0>. -/
def execSra (sd sa sb : SReg) (s : State) : Res := alu s sd sa sb fun a b => a.sshiftRight (shamt b)

/-- ROL (04 R110): Rotate left by s[sb]<5:0>. -/
def execRol (sd sa sb : SReg) (s : State) : Res := alu s sd sa sb fun a b => a.rotateLeft (shamt b)

/-- ROR (04 R110): Rotate right by s[sb]<5:0>. -/
def execRor (sd sa sb : SReg) (s : State) : Res := alu s sd sa sb fun a b => a.rotateRight (shamt b)

/-- SLT (04 R110): 1 if a < b signed, else 0. -/
def execSlt (sd sa sb : SReg) (s : State) : Res := alu s sd sa sb fun a b => ofBool (a.slt b)

/-- SLTN (04 R110): 1 if a < b unsigned, else 0. -/
def execSltn (sd sa sb : SReg) (s : State) : Res := alu s sd sa sb fun a b => ofBool (a.ult b)

/-- SEQ (04 R110): 1 if a = b, else 0. -/
def execSeq (sd sa sb : SReg) (s : State) : Res := alu s sd sa sb fun a b => ofBool (a == b)

/-- MIN (04 R110): Signed minimum. -/
def execMin (sd sa sb : SReg) (s : State) : Res := alu s sd sa sb fun a b => if a.slt b then a else b

/-- MAX (04 R110): Signed maximum. -/
def execMax (sd sa sb : SReg) (s : State) : Res := alu s sd sa sb fun a b => if a.slt b then b else a

/-- MINN (04 R110): Unsigned minimum. -/
def execMinn (sd sa sb : SReg) (s : State) : Res := alu s sd sa sb fun a b => if a.ult b then a else b

/-- MAXN (04 R110): Unsigned maximum. -/
def execMaxn (sd sa sb : SReg) (s : State) : Res := alu s sd sa sb fun a b => if a.ult b then b else a

/-- MUL (04 R110): Low 64 bits of the product. -/
def execMul (sd sa sb : SReg) (s : State) : Res := alu s sd sa sb fun a b => a * b

/-- MULH (04 R110): High 64 bits of the signed product. -/
def execMulh (sd sa sb : SReg) (s : State) : Res := alu s sd sa sb fun a b => BitVec.ofInt 64 (a.toInt * b.toInt / 2 ^ 64)

/-- MULHN (04 R110): High 64 bits of the unsigned product. -/
def execMulhn (sd sa sb : SReg) (s : State) : Res := alu s sd sa sb fun a b => BitVec.ofNat 64 (a.toNat * b.toNat / 2 ^ 64)

/-- DIV (04 R110): Signed quotient. -/
def execDiv (sd sa sb : SReg) (s : State) : Res := alu s sd sa sb fun a b => divS a b

/-- DIVN (04 R110): Unsigned quotient. -/
def execDivn (sd sa sb : SReg) (s : State) : Res := alu s sd sa sb fun a b => divN a b

/-- REM (04 R110): Signed remainder. -/
def execRem (sd sa sb : SReg) (s : State) : Res := alu s sd sa sb fun a b => remS a b

/-- REMN (04 R110): Unsigned remainder. -/
def execRemn (sd sa sb : SReg) (s : State) : Res := alu s sd sa sb fun a b => remN a b

/-- CLZ (04 R110): Leading zero bits; 64 for 0. -/
def execClz (sd sa : SReg) (s : State) : Res := alu1 s sd sa fun a => BitVec.ofNat 64 (clzN a.toNat 64)

/-- CTZ (04 R110): Trailing zero bits; 64 for 0. -/
def execCtz (sd sa : SReg) (s : State) : Res := alu1 s sd sa fun a => BitVec.ofNat 64 (ctzW a)

/-- POPC (04 R110): Count of one bits. -/
def execPopc (sd sa : SReg) (s : State) : Res := alu1 s sd sa fun a => BitVec.ofNat 64 (popN a.toNat 64)

/-- BREV (04 R110): Bits reversed. -/
def execBrev (sd sa : SReg) (s : State) : Res := alu1 s sd sa fun a => a.reverse

/-- BSWAP (04 R110): Bytes reversed. -/
def execBswap (sd sa : SReg) (s : State) : Res := alu1 s sd sa fun a => bswapW a

/-- ADDI (04 R111), with the immediate sign-extended. -/
def execAddi (sd sa : SReg) (imm : BitVec 27) (s : State) : Res := alu1 s sd sa fun a => a + imm64 imm

/-- ANDI (04 R111), with the immediate sign-extended. -/
def execAndi (sd sa : SReg) (imm : BitVec 27) (s : State) : Res := alu1 s sd sa fun a => a &&& imm64 imm

/-- ORI (04 R111), with the immediate sign-extended. -/
def execOri (sd sa : SReg) (imm : BitVec 27) (s : State) : Res := alu1 s sd sa fun a => a ||| imm64 imm

/-- XORI (04 R111), with the immediate sign-extended. -/
def execXori (sd sa : SReg) (imm : BitVec 27) (s : State) : Res := alu1 s sd sa fun a => a ^^^ imm64 imm

/-- SLTI (04 R111), with the immediate sign-extended. -/
def execSlti (sd sa : SReg) (imm : BitVec 27) (s : State) : Res := alu1 s sd sa fun a => ofBool (a.slt (imm64 imm))

/-- SLTNI (04 R111), with the immediate sign-extended. -/
def execSltni (sd sa : SReg) (imm : BitVec 27) (s : State) : Res := alu1 s sd sa fun a => ofBool (a.ult (imm64 imm))

/-- SHLI (04 R112). -/
def execShli (sd sa : SReg) (amt : BitVec 6) (s : State) : Res := alu1 s sd sa fun a => a <<< amt.toNat

/-- SHRI (04 R112). -/
def execShri (sd sa : SReg) (amt : BitVec 6) (s : State) : Res := alu1 s sd sa fun a => a >>> amt.toNat

/-- SRAI (04 R112). -/
def execSrai (sd sa : SReg) (amt : BitVec 6) (s : State) : Res := alu1 s sd sa fun a => a.sshiftRight amt.toNat

/-- LPC (04 R113): s[sd] ← PC + Imm · 2. -/
def execLpc (sd : SReg) (imm : BitVec 27) (s : State) : Res :=
  withRegs s [sd] fun s => retireS s sd (s.cur.gen.pc + halfOff imm)

/-- LI (04 R114): s[sd] ← the 64-bit immediate. -/
def execLi (sd : SReg) (imm : BitVec 64) (s : State) : Res := withRegs s [sd] fun s => retireS s sd imm

end Sys2Proof.Machine
end

