-- ==== Sys2Proof/Machine/GenFp.lean ====
section
/-!
DEFINITION. Floating point on s registers (04 R115 to R119).
-/
namespace Sys2Proof.Machine

/-- The format of an FP instruction. -/
def sfmt : SFmt → Fmt
  | .f64 => fmtOf .f64
  | .f32 => fmtOf .f32

/-- The value of a register in a format: the high bits are ignored (04 R115). -/
def fread (f : SFmt) (v : Word) : Nat := v.toNat % 2 ^ (sfmt f).width

/-- The generator's rounding mode: FCTL.RM as its own latest SYSW left it (04 R115). -/
def Strand.genRm (st : Strand) : Rm := Rm.ofCode (fieldOf (st.genCtl 0x010) 0 2)

/-- A result and its flags: the flags go to GFSTAT (04 R115, R116). -/
def retireF (s : State) (sd : SReg) (r : Nat × Flags) : Res :=
  retire s ((.s sd, BitVec.ofNat 64 r.1) :: s.cur.gfWrites r.2) none

/-- A two-operand FP instruction. -/
def fp2 (f : SFmt) (sd sa sb : SReg) (s : State) (op : Rm → Nat → Nat → Nat × Flags) : Res :=
  withRegs s [sd, sa, sb] fun s =>
    retireF s sd (op s.cur.genRm (fread f (s.cur.gen.read sa)) (fread f (s.cur.gen.read sb)))

/-- A one-operand FP instruction. -/
def fp1 (f : SFmt) (sd sa : SReg) (s : State) (op : Rm → Nat → Nat × Flags) : Res :=
  withRegs s [sd, sa] fun s => retireF s sd (op s.cur.genRm (fread f (s.cur.gen.read sa)))

/-- FEQ, FLT and FLE: 1 or 0, with NV for a signalling NaN, or for any NaN when `quiet` is false (04 R117). -/
def fcompare (f : SFmt) (quiet : Bool) (rel : FVal → FVal → Bool) (a b : Nat) : Nat × Flags :=
  let x := (sfmt f).decode a
  let y := (sfmt f).decode b
  let nan := x.isNan || y.isNan
  let fl := flagIf (if quiet then x.isSnan || y.isSnan else nan) fNV
  (if !nan && rel x y then 1 else 0, fl)

/-- FADD (04 R117), rounded once. -/
def execFadd (f : SFmt) (sd sa sb : SReg) (s : State) : Res := fp2 f sd sa sb s fun rm a b => (sfmt f).addBits rm a b

/-- FSUB (04 R117), rounded once. -/
def execFsub (f : SFmt) (sd sa sb : SReg) (s : State) : Res := fp2 f sd sa sb s fun rm a b => (sfmt f).subBits rm a b

/-- FMUL (04 R117), rounded once. -/
def execFmul (f : SFmt) (sd sa sb : SReg) (s : State) : Res := fp2 f sd sa sb s fun rm a b => (sfmt f).mulBits rm a b

/-- FDIV (04 R117), rounded once. -/
def execFdiv (f : SFmt) (sd sa sb : SReg) (s : State) : Res := fp2 f sd sa sb s fun rm a b => (sfmt f).divBits rm a b

/-- FSQRT (04 R117). -/
def execFsqrt (f : SFmt) (sd sa : SReg) (s : State) : Res := fp1 f sd sa s fun rm a => (sfmt f).sqrtBits rm a

/-- FMIN (04 R117). -/
def execFmin (f : SFmt) (sd sa sb : SReg) (s : State) : Res := fp2 f sd sa sb s fun _ a b => (sfmt f).minMax false a b

/-- FMAX (04 R117). -/
def execFmax (f : SFmt) (sd sa sb : SReg) (s : State) : Res := fp2 f sd sa sb s fun _ a b => (sfmt f).minMax true a b

/-- FEQ (04 R117). -/
def execFeq (f : SFmt) (sd sa sb : SReg) (s : State) : Res := fp2 f sd sa sb s fun _ a b => fcompare f true FVal.eqv a b

/-- FLT (04 R117). -/
def execFlt (f : SFmt) (sd sa sb : SReg) (s : State) : Res := fp2 f sd sa sb s fun _ a b => fcompare f false FVal.ltv a b

/-- FLE (04 R117). -/
def execFle (f : SFmt) (sd sa sb : SReg) (s : State) : Res :=
  fp2 f sd sa sb s fun _ a b => fcompare f false (fun x y => x.ltv y || x.eqv y) a b

/-- FCLASS (04 R117). -/
def execFclass (f : SFmt) (sd sa : SReg) (s : State) : Res := fp1 f sd sa s fun _ a => ((sfmt f).classify a, 0)

/-- FNEG (04 R117): the sign bit inverted. -/
def execFneg (f : SFmt) (sd sa : SReg) (s : State) : Res := fp1 f sd sa s fun _ a => (a ^^^ (sfmt f).signBit true, 0)

/-- FABS (04 R117): the sign bit cleared. -/
def execFabs (f : SFmt) (sd sa : SReg) (s : State) : Res := fp1 f sd sa s fun _ a => (a % (sfmt f).signBit true, 0)

/-- The element type of a CVT type (02 R53). -/
def cvtTy : CvtTy → Ty
  | .i32 => .i32 | .i64 => .i64 | .n32 => .n32 | .n64 => .n64 | .f32 => .f32 | .f64 => .f64 | .f16 => .f16 | .bf16 => .bf16

/-- Conversion of `w` bits between types (04 R118, 05 R154): the destination's bits and the flags. -/
def convert (src dst : Ty) (rm : Rm) (a : Nat) : Nat × Flags :=
  if src.isInt then
    if dst.isInt then (intBits dst.width (bitsInt src.width src.signed a), 0)
    else intToFmt (fmtOf dst) rm (bitsInt src.width src.signed a)
  else if dst.isInt then valToInt rm dst.width dst.signed ((fmtOf src).decode (a % 2 ^ src.width))
  else fmtToFmt (fmtOf src) (fmtOf dst) rm (a % 2 ^ src.width)

/-- A converted value as a register holds it: i32 sign-extended, every other type zero-extended (04 R115). -/
def cvtOut (dst : Ty) (v : Nat) : Word := if dst.signed then BitVec.ofInt 64 (signedOf dst.width v) else BitVec.ofNat 64 v

/-- CVT (04 R118). -/
def execCvt (src dst : CvtTy) (rnd : Fin 5) (sd sa : SReg) (s : State) : Res :=
  withRegs s [sd, sa] fun s =>
    let rm := if rnd = 0 then s.cur.genRm else Rm.ofCode (rnd.val - 1)
    let r := convert (cvtTy src) (cvtTy dst) rm (s.cur.gen.read sa).toNat
    retire s ((.s sd, cvtOut (cvtTy dst) r.1) :: s.cur.gfWrites r.2) none

end Sys2Proof.Machine
end

