-- ==== Sys2Proof/Machine/Home.lean ====
section
/-!
DEFINITION. Waiting at a home (04 R122, 14 R305 to R309), requests to remote nodes (25 R437), waiting loads (04 R103, R128) and
the store buffer (03 R94).
-/
namespace Sys2Proof.Machine

/-! ## Waiting -/

/-- Waiter entries in use at the home of a sett (14 R305). -/
def State.homeLoad (s : State) (key : Nat) : Nat := (s.waiters.filter fun w => !w.rejected && homeOf w.key == homeOf key).length

/-- What a failed check leaves (04 R122, 14 R305): the budget that is left, and the waiter. With the budget gone the home is
due to mark and check again (R309); with no entry free the access is rejected and sent again. -/
def State.failCheck (s : State) (budget key : Nat) (cond : Cond) (src : WaitSrc) : State × Nat × Nat :=
  let id := s.nextWaiter
  let rejected := 64 ≤ s.homeLoad key
  let w : Waiter := { id := id, key := settOf key, cond := cond, src := src, watch := false, changed := false, cancelled := false
                      rejected := rejected, spent := budget ≤ 1 }
  let s := { s with waiters := s.waiters ++ [w], nextWaiter := id + 1 }
  let s := if budget ≤ 1 then s.due (.markAndRecheck id) else if rejected then s.due (.rejectRetry id) else s
  (s, budget - 1, id)

/-- Whether a waiter's condition holds at its home. -/
def State.condMet (s : State) (w : Waiter) : Bool :=
  match w.cond with
  | .full => s.full w.key
  | .empty => !s.full w.key
  | .prog t => decide (t.toNat ≤ s.valueAt w.key 8)

/-! ## Requests to remote nodes (25 R434, R437) -/

/-- Forms of the extension header (25 R434). -/
def gfPlain : Nat := 0
def gfFill : Nat := 1
def gfSetFull : Nat := 2
def gfWait : Nat := 3
def gfConsume : Nat := 4
def gfTry : Nat := 5
def gfSetEmpty : Nat := 6
def gfTryFill : Nat := 7

/-- All nibbles of a request's data: it writes every byte. -/
def allNibs (data : List Byte) : Nat := 2 ^ (2 * data.length) - 1

/-- The place of a full/empty form of a GW page: its whole sett (25 R434). -/
def Loc.sett (l : Loc) : Loc := { l with key := settOf l.key }

/-- The WAIT of a request (25 R437): waiting forms may wait for the longest time. -/
def gwWait (form : Nat) : BitVec 16 := if form == gfFill || form == gfWait || form == gfConsume then 0xFFFF else 0

/-- The priority of a traffic class on the ports (25 R439). -/
def classPcp : Nat → Nat
  | 0 => 6 | 1 => 5 | 2 => 3 | _ => 1

/-- A request of TC0 leaves a port: beyond the share of TC0 it travels as TC1 and counts in TC0DEM (25 R439). Whether it is beyond is timing,
left free (log entry 13). -/
def State.gwDemote (s : State) : State × Nat :=
  let beyond := (Config.freeWord s.tick 8).getLsbD 0
  let p := s.curPart
  (s.putPart { p with tc0dem := if beyond then satInc p.tc0dem 1 else p.tc0dem }, classPcp (if beyond then 1 else 0))

/-- A request leaves for the node of a GW page. Its answer is due 10 ms after the WAIT that it carries. -/
def State.gwSend (s : State) (src : WaitSrc) (l : Loc) (form : Nat) (rel : Bool) (len : Nat) (data : List Byte) (fn : Nat)
    (nibs : Nat := allNibs data) : State × Nat :=
  let (s, pcp) := if l.cls == 0 then s.gwDemote else (s, classPcp l.cls)
  let id := s.nextGw
  let r : GwReq := { id := id, src := src, node := BitVec.ofNat 32 (bits l.key 64 32), addr := BitVec.ofNat 64 l.key
                     form := BitVec.ofNat 8 form, rel := rel, wait := gwWait form, pcp := pcp, len := len, data := data, nibs := nibs, fn := fn
                     deadline := s.pkg.time + 10000000 + 1000 * (gwWait form).toNat, reply := none }
  ({ s with gwReqs := s.gwReqs ++ [r], nextGw := id + 1, pkg := { s.pkg with out := s.pkg.out ++ [.request r] } }, id)

/-- The answer of a request, if it has come. -/
def State.gwReply (s : State) (id : Nat) : Option GwReply := (findBy GwReq.id id s.gwReqs).bind GwReq.reply

def State.gwDrop (s : State) (id : Nat) : State := { s with gwReqs := dropBy GwReq.id id s.gwReqs }

/-- What a remote access comes to. -/
inductive Remote where
  | waiting (id : Nat)
  | answered (r : GwReply)

/-- A remote access that a stop has left under way (06 R179): it is not sent again. -/
def State.gwSent (s : State) (src : WaitSrc) (l : Loc) (form : Nat) (data : List Byte) (fn : Nat) : Option Nat :=
  (s.gwReqs.find? fun q => q.src == src && q.addr == BitVec.ofNat 64 l.key && q.form == BitVec.ofNat 8 form && q.data == data && q.fn == fn).map GwReq.id

/-- A remote access: sent once, then complete when its answer is there. -/
def State.gwAccess (s : State) (sent : Option Nat) (src : WaitSrc) (l : Loc) (form : Nat) (rel : Bool) (len : Nat)
    (data : List Byte) (fn : Nat) (nibs : Nat := allNibs data) : State × Remote :=
  match sent.orElse fun _ => s.gwSent src l form data fn with
  | none => let (s, id) := s.gwSend src l form rel len data fn nibs; (s, .waiting id)
  | some id => match s.gwReply id with
    | none => (s, .waiting id)
    | some r => (s.gwDrop id, .answered r)

/-! ## The combining store of a bank (16 R324) -/

/-- Whether a bank is fetching the line of a location for an atomic: later atomics on it wait behind that one. -/
def State.chaining (s : State) (l : Loc) : Bool := s.chains.any fun c => c.line == lineOf l.key && c.result.isNone

/-- The atomic that an element has in a combining store: a stop does not take it out (06 R179, 16 R327). -/
def State.chainOf (s : State) (src : WaitSrc) (l : Loc) (fn : AtomFn) (b cmp : Nat) : Option Chain :=
  s.chains.find? fun c => c.src == src && c.loc.key == l.key && c.fn == fn && c.b == b && c.cmp == cmp

/-- An atomic joins the chain of its line. -/
def State.chainJoin (s : State) (src : WaitSrc) (l : Loc) (bytes : Nat) (fn : AtomFn) (b cmp : Nat) : State :=
  { s with chains := s.chains ++ [{ line := lineOf l.key, src := src, loc := l, bytes := bytes, fn := fn, b := b, cmp := cmp, result := none }] }

/-! ## Sett breakpoints (13 R291, R292) -/

/-- The breakpoint that an access of a sett meets, from the bit before and after. -/
def Strand.settBreak (st : Strand) (va : Word) (before after : Bool) : Option Nat :=
  (List.range 4).find? fun i =>
    let c := vget st.bpctl i
    c.getLsbD 0 && fieldOf c 1 2 == 3 && (vget st.bpval i).toNat / 8 == va.toNat / 8 &&
      (match fieldOf c 4 2 with
        | 0 => true
        | 1 => before && !after
        | 2 => !before && after
        | _ => before != after)

/-- A generator access has performed: a matching sett breakpoint stops the generator at its next boundary. -/
def State.genBreak (s : State) (l : Loc) (before after : Bool) (ord : Nat) (ipc : Word) (ir : Nat) : State :=
  match s.cur.settBreak l.va before after with
  | some n =>
    let f : Pend := { cause := cBRK, val := BitVec.ofNat 64 n, stream := false, deferred := false, ord := ord, ipc := ipc, ir := ir
                      depth := s.cur.depth, entry := none }
    s.onCur fun st => { st with brks := st.brks ++ [f] }
  | none => s

/-- The same for an access of the acting instruction. -/
def State.genBreakNow (s : State) (l : Loc) (before : Bool) : State := s.genBreak l before (s.full l.key) s.cur.nord s.cur.gen.pc s.cur.gen.ir

/-- The bit of a remote sett that an access does not tell: left free (log entry 13). -/
def State.openBit (s : State) : Bool := (Config.freeWord s.tick 9).getLsbD 0

/-! ## Copies that an access waits for (12 R278) -/

/-- Ranges of a copy as recorded in the scoreboard: source, and destination. -/
def Copy.ranges (c : Copy) (st : Strand) : List (Nat × Nat) :=
  let src := (c.src.toNat, if c.mode == .bitsIn then c.len.toNat / 64 else c.len.toNat)
  let len := if c.mode == .bitsOut then c.len.toNat / 64 else c.len.toNat
  match c.kind with
  | .mc mask =>
    let core := fieldOf st.ident.core 0 6
    if mask.getLsbD core then [src, (windowAddr core (bits c.dst.toNat 0 19), len)] else [src]
  | _ => [src, (c.dst.toNat, len)]

def overlap (a n b m : Nat) : Bool := a < b + m && b < a + n

/-- The strand holds its core: it runs, or is being saved. -/
def Strand.onCore (st : Strand) : Bool := st.status == .running || st.status == .saving

/-- Whether an access of the acting strand to `n` bytes at `va` waits for a copy: one of its own that `mine` holds to be
earlier in strand order, or a running one of the other strand of the core. -/
def State.copyHolds (s : State) (va n : Nat) (mine : Copy → Bool) : Bool :=
  (s.cur.copies.any fun c => c.st != .retired && mine c && (c.ranges s.cur).any fun r => overlap va n r.1 r.2) ||
  s.others.any fun t => t.coreNo == s.cur.coreNo && t.onCore &&
    t.copies.any fun c => c.st == .running && (c.ranges t).any fun r => overlap va n r.1 r.2

/-! ## Sizes -/

def sizeBytes : Size → Nat
  | .b1 => 1 | .b2 => 2 | .b4 => 4 | .b8 => 8

/-- A loaded value as it is written to a register (04 R121). -/
def extend (size : Size) (sext : Bool) (v : Nat) : Word :=
  let w := 8 * (sizeBytes size)
  if sext then BitVec.ofInt 64 (signedOf w v) else BitVec.ofNat 64 (v % 2 ^ w)

/-! ## Waiting loads (04 R103, R128) -/

/-- A register write by an access that performs after later instructions: recorded, when the word pushed before the access
has not retired, at the access's place (03 R95). -/
def Strand.lateWrite (st : Strand) (ord : Nat) (r : SReg) (v : Word) : Strand :=
  let st := if st.records ord r then
      { st with hist := st.hist ++ [⟨ord - 1, .s r, st.gen.read r⟩] } else st
  st.put (.s r) v

/-- The pending load with an id changed or dropped. -/
def Strand.setPend (st : Strand) (p : PendLoad) : Strand := { st with pend := st.pend.map fun q => if q.id == p.id then p else q }

def Strand.dropPend (st : Strand) (id : Nat) : Strand := { st with pend := st.pend.filter fun q => q.id != id }

/-- A plain generator load was substituted: SUB, and one count (01 R17, 22 R412). -/
def State.genSub (s : State) : State := (s.onCur fun st => { st with fstat := st.fstat ||| fSUB }).countSub

/-- A pending load has its value: it writes its register; a waiting load is an acquire (12 R269). A load leaves the bit as it is. -/
def State.loadDone (s : State) (p : PendLoad) (v : Nat) (bit : Bool) : State :=
  let s := s.onCur fun st => (st.dropPend p.id).lateWrite p.ord p.sd (extend p.size p.sext v)
  let s := if p.plain then s else s.l1Invalidate s.cur.coreNo false
  s.genBreak p.loc bit bit p.ord p.ipc p.ir

/-- A pending load fails after the generator has left it (04 R103, 08 R221). -/
def State.loadFault (s : State) (p : PendLoad) (cause : Nat) : State :=
  (s.onCur fun st => st.dropPend p.id).deferFault cause (faultVal cause p.loc.va) p.asEntry

/-- Loaded bytes with those over them that buffered stores have given (04 R125). -/
def overlay (bs : List Byte) (fwd : List (Option Byte)) : List Byte := bs.mapIdx fun i b => (fwd.getD i none).getD b

/-- One attempt of a pending load at its home: a waiting load, or a plain load that a GW page has left behind. -/
def State.attemptLoad (s : State) (p : PendLoad) : State :=
  if let some c := p.bad then s.loadFault p c
  else if p.loc.gw then
    let l := if p.plain then p.loc else p.loc.sett
    match s.gwAccess p.gw (.load s.cur.id p.id) l (if p.plain then gfPlain else gfWait) false (if p.plain then sizeBytes p.size else 8) [] 0 with
    | (s, .waiting id) => s.onCur fun st => st.setPend { p with gw := some id }
    | (s, .answered r) =>
      if r.reason == 0 then
        s.loadDone p (leValue (overlay (leBytes (leValue r.data >>> (8 * (p.loc.key - l.key))) (sizeBytes p.size)) p.fwd)) (!p.plain || s.openBit)
      else s.loadFault p r.reason.toNat
  else if p.plain then
    let before := s.full p.loc.key
    match s.loadPlain p.loc (sizeBytes p.size) true (some false) with
    | (s, .ok r) => ((if r.sub then s.genSub else s)).loadDone p r.val before
    | (s, .error c) => s.loadFault p c
  else
    let before := s.full p.loc.key
    match s.checkSett p.loc (sizeBytes p.size) ⟨some true, none, none⟩ with
    | (s, .done v) => s.loadDone p v before
    | (s, .memue) => s.loadFault p cMEMUE
    | (s, .unmet) =>
      let (s, b, w) := s.failCheck p.budget p.loc.key .full (.load s.cur.id p.id)
      s.onCur fun st => st.setPend { p with budget := b, waiter := some w }

/-! ## The store buffer (03 R94, 04 R128) -/

/-- Whether the head entry may perform: every word emitted before it has retired, every older waiting load has performed,
no earlier failure is to be delivered first, and no copy holds it (03 R94, 12 R278, 17 R339). -/
def State.bufReady (s : State) (e : SbEntry) : Bool :=
  let st := s.cur
  st.unretired.all (fun o => e.ord ≤ o) && st.pend.all (fun p => e.id < p.id) &&
    (match st.fault with | some f => f.stream || (match f.entry with | some x => e.id < x.id | none => true) | none => true) &&
    (match e.kind with
      | .fence _ _ => true
      | .cpy _ c => (c.ranges st).all fun r => !s.copyHolds r.1 r.2 (fun d => d.id < e.id)
      | _ => !s.copyHolds e.loc.va.toNat 8 (fun c => c.id < e.id))

/-- Full/empty form of an entry that makes one check at its home, and the bytes it moves (04 R121). -/
def SbKind.check : SbKind → Option (FeForm × Nat)
  | .stF sz v => some (⟨some false, some (leBytes v.toNat (sizeBytes sz)), some true⟩, (sizeBytes sz))
  | .stS sz v => some (⟨none, some (leBytes v.toNat (sizeBytes sz)), some true⟩, (sizeBytes sz))
  | .feclr => some (⟨none, none, some false⟩, 8)
  | .feset => some (⟨none, none, some true⟩, 8)
  | .ldC sz _ _ => some (⟨some true, none, some false⟩, (sizeBytes sz))
  | .ldW sz _ _ => some (⟨some true, none, none⟩, (sizeBytes sz))
  | .ldct _ => some (⟨some true, none, some false⟩, 8)
  | .launch _ v => some (⟨some false, some (leBytes v.toNat 8), some true⟩, 8)
  | _ => none

/-- What an entry does, as protection sees it (04 R102); none for an entry that names no address. -/
def SbKind.need : SbKind → Option Need
  | .ld _ _ _ => some ⟨false, false⟩
  | .st _ _ | .amo _ _ _ _ _ _ _ => some ⟨true, false⟩
  | .stF _ _ | .stS _ _ | .feclr | .feset | .launch _ _ => some ⟨true, true⟩
  | .ldC _ _ _ | .ldW _ _ _ | .ldct _ => some ⟨false, true⟩
  | .cpy _ _ | .fence _ _ => none

/-- The data of a store that fills a whole sett of a remote node: the stored bytes at their offset. -/
def settBytes (o n v : Nat) : List Byte := leBytes (v % 2 ^ (8 * n) * 2 ^ (8 * o)) 8

/-- The remote form of an entry at byte `o` of its sett, whether it is a release, its length and data (25 R437). -/
def SbKind.remote (k : SbKind) (o : Nat) : Nat × Bool × Nat × List Byte :=
  match k with
  | .ld sz _ _ => (gfPlain, false, (sizeBytes sz), [])
  | .st sz v => (gfPlain, false, (sizeBytes sz), leBytes v.toNat (sizeBytes sz))
  | .stF sz v => (gfFill, true, 8, settBytes o (sizeBytes sz) v.toNat)
  | .stS sz v => (gfSetFull, true, 8, settBytes o (sizeBytes sz) v.toNat)
  | .feclr => (gfSetEmpty, true, 8, leBytes 0 8)
  | .feset => (gfSetFull, true, 8, [])
  | .ldC _ _ _ => (gfConsume, false, 8, [])
  | .ldW _ _ _ => (gfWait, false, 8, [])
  | .ldct _ => (gfTry, false, 8, [])
  | .amo _ n o _ _ v c => (gfPlain, o == .rel || o == .ar, n, leBytes v.toNat n ++ leBytes c.toNat n)
  | .launch _ v => (gfTryFill, true, 8, leBytes v.toNat 8)
  | _ => (gfPlain, false, 0, [])

/-- The nibbles that a remote form of an entry writes at byte `o` of its sett. -/
def SbKind.nibs (k : SbKind) (o : Nat) (data : List Byte) : Nat :=
  match k with
  | .stF sz _ | .stS sz _ => (2 ^ (2 * sizeBytes sz) - 1) * 2 ^ (2 * o)
  | .feclr => 0
  | _ => allNibs data

/-- The code of an atomic function (02 R54). -/
def AtomFn.code : AtomFn → Nat
  | .add => 0 | .min => 1 | .max => 2 | .minn => 3 | .maxn => 4 | .and => 5 | .or => 6 | .xor => 7 | .swap => 8 | .cas => 9
  | .faddF32 => 10 | .faddBf16 => 11

/-- The rounding of FADD: RNE, whatever FCTL.RM holds (16 R325). -/
def faddOf (fn : AtomFn) (a b : Nat) : Nat × Flags :=
  match fn with
  | .faddBf16 => (fmtOf .bf16).addBits .rne a b
  | _ => (fmtOf .f32).addBits .rne a b

/-- The flags of an atomic whose old value a remote home has returned (16 R325). DEDUCED (log entry 17). -/
def atomFlags (fn : AtomFn) (bytes old b cmp : Nat) : Flags :=
  (atomNew fn (8 * bytes) (old % 2 ^ (8 * bytes)) (b % 2 ^ (8 * bytes)) (cmp % 2 ^ (8 * bytes)) (faddOf fn)).2

/-- Whether an order acquires, or releases. -/
def acquires : Order → Bool
  | .acq | .ar => true
  | _ => false

def releases : Order → Bool
  | .rel | .ar => true
  | _ => false

/-- Whether an entry is an acquire that discards L1 lines when it completes, or a fence that does (12 R269): RC lines, or UO
lines too. -/
def SbKind.discards : SbKind → Option Bool
  | .ldC _ _ _ | .ldW _ _ _ | .ldct _ => some false
  | .amo _ _ o sc _ _ _ => if acquires o && sc != .st then some false else none
  | .fence k _ => (match k with | .acq => some false | .all => some true | .rel => none)
  | _ => none

def Strand.popBuf (st : Strand) (id : Nat) : Strand := { st with sbuf := st.sbuf.filter fun b => b.id != id }

def Strand.setBuf (st : Strand) (e : SbEntry) : Strand := { st with sbuf := st.sbuf.map fun b => if b.id == e.id then e else b }

/-- The bit of a remote sett before and after an entry performs there; `ok` says that a try has succeeded. -/
def SbKind.remoteBits (k : SbKind) (ok bit : Bool) : Bool × Bool :=
  match k with
  | .stF _ _ => (false, true)
  | .stS _ _ | .feset => (bit, true)
  | .feclr => (bit, false)
  | .ldC _ _ _ => (true, false)
  | .ldW _ _ _ => (true, true)
  | .ldct _ => (ok, false)
  | .launch _ _ => (!ok, true)
  | _ => (bit, bit)

/-- An entry has performed with the value it read: its registers are written, and what it discards is discarded; `bits` are the bit of its sett
before and after. -/
def State.bufDone (s : State) (e : SbEntry) (val : Nat) (ok : Bool) (fl : Flags) (bits : Bool × Bool) : State :=
  let v : Word := BitVec.ofNat 64 val
  let s := s.onCur fun st =>
    let st := (st.popBuf e.id).mergeGf fl e.ord
    match e.kind with
    | .ld sz sx sd | .ldC sz sx sd | .ldW sz sx sd => st.put (.s sd) (extend sz sx val)
    | .ldct sd => (st.put (.s sd) (if ok then v else 0)).put (.s (sd + 1)) (if ok then 1 else 0)
    | .amo _ _ _ _ sd _ _ => st.put (.s sd) v
    | .launch sd _ => st.put (.s sd) (if ok then 0 else 1)
    | _ => st
  let acq := match e.kind with | .ldct _ => ok | _ => true
  let s := match e.kind.discards with
    | some uo => if acq then s.l1Invalidate s.cur.coreNo uo else s
    | none => s
  match e.kind with
  | .fence _ _ => s
  | _ => s.genBreak e.loc bits.1 bits.2 e.ord e.ipc e.ir

/-- An entry fails: a deferred fault (04 R103). The entry stays at the head until the fault is taken. -/
def State.bufFault (s : State) (e : SbEntry) (cause : Nat) : State :=
  let e' := { e with waiter := none, exhausted := false, gw := none }
  (s.onCur fun st => st.setBuf e').deferFault cause (faultVal cause e.loc.va) e'

/-- A copy starts in the engine as its CPY performs; a copy of no bytes retires at once (12 R275). -/
def State.copyStart (s : State) (e : SbEntry) (sd : SReg) (c : Copy) : State :=
  let c := { c with st := if c.len == 0 then .retired else .running }
  let s := if c.len == 0 then s else s.due (.copyRetire s.cur.id c.handle)
  s.onCur fun st =>
    ({ st.popBuf e.id with copies := putBy Copy.handle c st.copies }).put (.s sd) (BitVec.ofNat 64 c.handle)

/-- Performs the head entry of the acting strand's store buffer, as one step at its home. -/
def State.performBuf (s : State) (e : SbEntry) : State :=
  let src := WaitSrc.buf s.cur.id e.id
  match e.kind with
  | .fence _ _ => s.bufDone e 0 true 0 (true, true)
  | .cpy sd c => s.copyStart e sd c
  | k =>
    if let some c := e.bad then s.bufFault e c
    else if e.loc.gw then
      let o := e.loc.key % 8
      let (form, rel, len, data) := k.remote o
      let l := if form == gfPlain then e.loc else e.loc.sett
      let fn := match k with | .amo f _ _ _ _ _ _ => f.code + 1 | _ => 0
      let flags (old : Nat) : Flags := match k with | .amo f n _ _ _ v c => atomFlags f n old v.toNat c.toNat | _ => 0
      match s.gwAccess e.gw src l form rel len data fn (k.nibs o data) with
      | (s, .waiting id) => s.onCur fun st => st.setBuf { e with gw := some id }
      | (s, .answered r) => 
        if r.reason == 0 then
          let ok := match k with | .launch _ _ => !r.status | _ => r.status
          s.bufDone e (leValue r.data >>> (8 * (e.loc.key - l.key))) ok (flags (leValue r.data)) (k.remoteBits ok s.openBit)
        else s.bufFault e r.reason.toNat
    else
      let bits (t : State) : Bool × Bool := (s.full e.loc.key, t.full e.loc.key)
      match k with
      | .ld sz _ _ =>
        (match s.loadPlain e.loc (sizeBytes sz) true (some false) with
          | (s, .ok r) => (if r.sub then s.genSub else s).bufDone e r.val true 0 (bits s)
          | (s, .error c) => s.bufFault e c)
      | .st sz v =>
        let s := s.storeCore e.loc (leBytes v.toNat (sizeBytes sz))
        s.bufDone e 0 true 0 (bits s)
      | .amo fn n _ _ _ v c =>
        match s.atomAt e.loc n fn v.toNat c.toNat (faddOf fn) with
        | (s, .ok (old, fl)) => s.bufDone e old true fl (bits s)
        | (s, .error c) => s.bufFault e c
      | k => match k.check with
        | none => s
        | some (f, n) => match s.checkSett e.loc n f with
          | (s, .done v) => s.bufDone e v true 0 (bits s)
          | (s, .memue) => s.bufFault e cMEMUE
          | (s, .unmet) =>
            match k with
            | .ldct _ | .launch _ _ => s.bufDone e 0 false 0 (bits s)
            | _ =>
              let (s, b, w) := s.failCheck e.budget e.loc.key (if f.need == some true then .full else .empty) src
              s.onCur fun st => st.setBuf { e with budget := b, waiter := some w }

/-- The head entry of the store buffer that is due to perform. -/
def State.bufHead (s : State) : Option SbEntry :=
  match s.cur.sbuf with
  | e :: _ => if s.bufReady e && e.waiter.isNone && (e.gw.isNone || (e.gw.bind s.gwReply).isSome) then some e else none
  | [] => none

end Sys2Proof.Machine
end

