-- ==== Sys2Proof/Machine/GenMem.lean ====
section
/-!
DEFINITION. Loads, stores, full/empty forms and atomics of the generator (04 R120 to R128, 16 R325), LAUNCH (19 R361), and the
fences (04 R142, R143).
-/
namespace Sys2Proof.Machine

/-- Checks 3 and 4 of 04 R102 for an access: alignment, then translation and protection. -/
def genAccess (s : State) (va : Word) (align : Nat) (n : Need) (k : State → Loc → Res) : Res :=
  if va.toNat % align != 0 then genFault s cALIGN va
  else match s.resolve n va.toNat with
    | (s, .error c) => genFault s c va
    | (s, .ok l) => k s l

/-- Runs `k` when the history buffer has room for the writes of a retirement. -/
def withRoom (s : State) (ws : List (HistTarget × Word)) (k : State → Res) : Res :=
  if s.cur.histRoom ws none then k s else stall s wSCOREBOARD

/-- Bytes that an entry names at its home: its key and length. -/
def SbEntry.span (e : SbEntry) : Nat × Nat :=
  match e.kind with
  | .st sz _ | .stF sz _ | .stS sz _ | .ldC sz _ _ | .ldW sz _ _ => (e.loc.key, sizeBytes sz)
  | .amo _ n _ _ _ _ _ => (e.loc.key, n)
  | .fence _ _ | .cpy _ _ => (0, 0)
  | _ => (e.loc.key, 8)

/-- The data of a buffered store, which a plain load takes (03 R94). -/
def SbKind.storeData : SbKind → Option (List Byte)
  | .st sz v | .stF sz v | .stS sz v => some (leBytes v.toNat (sizeBytes sz))
  | _ => none

/-- Whether a buffered entry holds back every later generator load (17 R345): acquires, fences of kind acq and all, and SO
accesses. -/
def SbEntry.holdsLoads (e : SbEntry) : Bool :=
  match e.kind with
  | .fence k _ => k != .rel
  | .cpy _ _ => false
  | k => k.discards.isSome || e.loc.kind == .so

/-- Whether a buffered store supplies byte `k`. -/
def SbEntry.gives (e : SbEntry) (k : Nat) : Bool :=
  match e.kind.storeData with
  | some d => e.loc.key ≤ k && k < e.loc.key + d.length
  | none => false

/-- Whether buffered stores supply every byte of a load. -/
def covered (key n : Nat) (buf : List SbEntry) : Bool := (List.range n).all fun i => buf.any fun e => e.gives (key + i)

/-- Why a generator load of `n` bytes waits, if it does (03 R94, 04 R125, 12 R278, 17 R342, R344, R345): for a waiting load, for an SO access or a
load of its sett that a GW page has left behind, for buffered accesses, for a copy. `home` says that it takes no bytes from the buffer and
acts on its whole sett; another load waits for a buffered store of its sett that gives it no byte, unless the buffer has all its bytes (17
R344). A load held by an access whose condition is unmet reports FEWAIT (04 R122). -/
def State.loadWaits (s : State) (l : Loc) (n : Nat) (home : Bool) : Option Nat :=
  let st := s.cur
  let all := !home && covered l.key n st.sbuf
  let held (e : SbEntry) : Bool :=
    let (k, m) := e.span
    m != 0 && overlap (settOf l.key) 8 (settOf k) (m + k % 8) &&
      (home || e.kind.storeData.isNone || (!all && !(List.range n).any fun i => e.gives (l.key + i)))
  let buffer := if st.sbuf.any SbEntry.unmet then wFEWAIT else wFENCE
  if st.pend.any fun p => !p.plain && p.target.isNone then some wFEWAIT
  else if st.pend.any fun p => p.plain && (p.loc.kind == .so || settOf p.loc.key == settOf l.key) then some wMEMLAT
  else if st.sbuf.any SbEntry.holdsLoads || (l.kind == .so && (!st.sbuf.isEmpty || !st.pend.isEmpty)) || st.sbuf.any held then some buffer
  else if s.copyHolds l.va.toNat n fun _ => true then some wSCOREBOARD
  else none

/-- Runs `k` when nothing holds a generator load back. -/
def whenLoad (s : State) (l : Loc) (n : Nat) (home : Bool) (k : State → Res) : Res :=
  match s.loadWaits l n home with
  | some w => stall s w
  | none => k s

/-- Bytes of a load with those of overlapping buffered stores over them, the youngest last (03 R94, R125). -/
def forward (key : Nat) (bs : List Byte) (buf : List SbEntry) : List Byte :=
  buf.foldl (fun bs e => match e.kind.storeData with
    | some d => bs.mapIdx fun i b =>
        if e.loc.key ≤ key + i && key + i < e.loc.key + d.length then d.getD (key + i - e.loc.key) b else b
    | none => bs) bs

/-- The bytes of a load that buffered stores supply. -/
def forwarded (key n : Nat) (buf : List SbEntry) : List (Option Byte) :=
  (List.range n).map fun i => if buf.any fun e => e.gives (key + i) then (forward (key + i) [0] buf).head? else none

/-- FEBUDGET.CHK as the generator's accesses see it (14 R306). -/
def Strand.genBudget (st : Strand) : Nat := fieldOf (st.genCtl 0x0C9) 0 32

/-- FEMODE.PARK as it stands for the generator's accesses that issue now (14 R306). -/
def Strand.genPark (st : Strand) : Bool := (st.genCtl 0x0C8).getLsbD 0

/-- A new pending load (04 R103). -/
def Strand.newLoad (st : Strand) (size : Size) (sext : Bool) (sd : SReg) (target : Option Word) (plain : Bool) (l : Loc)
    (fwd : List (Option Byte) := []) : PendLoad :=
  { id := st.nextId, ord := st.nord, ipc := st.gen.pc, ir := st.gen.ir, size := size, sext := sext, sd := sd, target := target, plain := plain
    loc := l, bad := none, park := st.genPark, budget := st.genBudget, waiter := none, exhausted := false, gw := none, fwd := fwd }

def Strand.addPend (st : Strand) (p : PendLoad) : Strand := { st with pend := st.pend ++ [p], nextId := st.nextId + 1 }

/-- Retires an instruction without writing, with a load left pending, and makes its first attempt. -/
def leaveLoad (s : State) (p : PendLoad) : Res :=
  .next (((s.onCur fun st => (st.retired [] none).addPend p).count 0x02 1).attemptLoad p)

/-- LD (04 R121, R128): a plain load, performed at once; the generator goes on while a GW page answers. A load takes the bytes that buffered
stores of its strand give it (R125), but none on an SO page (17 R342). -/
def execLd (size : Size) (sext : Bool) (sd sa : SReg) (imm : BitVec 27) (s : State) : Res :=
  withRegs s [sd, sa] fun s =>
    let n := sizeBytes size
    genAccess s (s.cur.gen.read sa + imm64 imm) n ⟨false, false⟩ fun s l =>
      withRoom s [(.s sd, 0)] fun s => whenLoad s l n false fun s =>
        let all := l.kind != .so && covered l.key n s.cur.sbuf
        if l.gw && !all then leaveLoad s (s.cur.newLoad size sext sd none true l (forwarded l.key n s.cur.sbuf))
        else
          let before := s.full l.key
          let r := if all then (s, Except.ok ⟨0, false⟩) else s.loadPlain l n true (some false)
          match r with
          | (s, .error c) => genFault s c l.va
          | (s, .ok r) =>
            let v := leValue (forward l.key (leBytes r.val n) s.cur.sbuf)
            let s := if r.sub then s.genSub else s
            retireS (s.genBreakNow l before) sd (extend size sext v)

/-- LD.w (04 R121, R122, R128): waits for full, reads, leaves full; an acquire at device scope. The generator goes on while it
waits. -/
def execLdW (size : Size) (sext : Bool) (sd sa : SReg) (imm : BitVec 27) (s : State) : Res :=
  withRegs s [sd, sa] fun s =>
    let n := sizeBytes size
    genAccess s (s.cur.gen.read sa + imm64 imm) n ⟨false, true⟩ fun s l =>
      withRoom s [(.s sd, 0)] fun s => whenLoad s l n true fun s =>
        if l.gw then leaveLoad s (s.cur.newLoad size sext sd none false l)
        else match s.checkSett l n ⟨some true, none, none⟩ with
          | (s, .memue) => genFault s cMEMUE l.va
          | (s, .done v) => retireS ((s.l1Invalidate s.cur.coreNo false).genBreakNow l true) sd (extend size sext v)
          | (s, .unmet) =>
            let p := s.cur.newLoad size sext sd none false l
            let (s, b, w) := s.failCheck p.budget l.key .full (.load s.cur.id p.id)
            let p := { p with budget := b, waiter := some w }
            .next ((s.onCur fun st => (st.retired [] none).addPend p).count 0x02 1)

/-- FEGET (04 R124): 1 if the sett is full, else 0; performed at once, served at the home. No remote form reads a bit: a GW
page raises PROT (log entry 17). -/
def execFeget (sd sa : SReg) (imm : BitVec 27) (s : State) : Res :=
  withRegs s [sd, sa] fun s =>
    genAccess s (s.cur.gen.read sa + imm64 imm) 1 ⟨false, true⟩ fun s l =>
      if l.gw then genFault s cPROT l.va
      else withRoom s [(.s sd, 0)] fun s => whenLoad s l 1 true fun s =>
        match s.checkSett l 1 ⟨none, none, none⟩ with
        | (s, .done _) =>
          let f := s.full l.key
          retireS (s.genBreakNow l f) sd (ofBool f)
        | (s, _) => genFault s cMEMUE l.va

/-- PWAIT (04 R126): the generator stalls until the progress word is at least the target, unsigned; an acquire. Its budget is
kept while it waits; with the budget gone and parking off it raises FEB, precise. A GW page raises PROT (25 R437). -/
def execPwait (src base : SReg) (imm : BitVec 27) (s : State) : Res :=
  withRegs s [src, base] fun s =>
    match s.cur.pend.find? fun p => p.target.isSome with
    | some p =>
      if p.waiter.isSome then stall s wFEWAIT
      else if p.exhausted then
        if !s.cur.idle || !s.cur.drained then stall s wFEWAIT
        else genFault (s.onCur fun st => (st.dropPend p.id).feRecord p.loc.va 0 false 4) cFEB p.loc.va
      else attempt s p
    | none =>
      genAccess s (s.cur.gen.read base + imm64 imm) 8 ⟨false, false⟩ fun s l =>
        if l.gw then genFault s cPROT l.va
        else withRoom s [] fun s => whenLoad s l 8 true fun s =>
          let p := s.cur.newLoad .b8 false 0 (some (s.cur.gen.read src)) false l
          attempt (s.onCur fun st => st.addPend p) p
where
  attempt (s : State) (p : PendLoad) : Res :=
    match s.checkProg p.loc (p.target.getD 0) with
    | (s, .done _) =>
      let s := (s.onCur fun st => st.dropPend p.id).l1Invalidate s.cur.coreNo false
      retire (s.genBreakNow p.loc (s.full p.loc.key)) [] none
    | (s, .memue) => genFault (s.onCur fun st => st.dropPend p.id) cMEMUE p.loc.va
    | (s, .unmet) =>
      let (s, b, w) := s.failCheck p.budget p.loc.key (.prog (p.target.getD 0)) (.load s.cur.id p.id)
      stall (s.onCur fun st => st.setPend { p with budget := b, waiter := some w }) wFEWAIT

/-! ## Accesses that enter the store buffer (03 R94) -/

/-- Retires an instruction whose access enters the store buffer; with 32 entries taken the generator stalls. -/
def enterBuf (s : State) (k : SbKind) (l : Loc) : Res :=
  if 32 ≤ s.cur.sbuf.length then stall s wFENCE
  else withRoom s [] fun s =>
    .next ((s.onCur fun st =>
      let e : SbEntry := { id := st.nextId, ord := st.nord, ipc := st.gen.pc, ir := st.gen.ir, kind := k, loc := l, bad := none, park := st.genPark, budget := st.genBudget
                           waiter := none, exhausted := false, gw := none }
      { st.retired [] none with sbuf := st.sbuf ++ [e], nextId := st.nextId + 1 }).count 0x02 1)

/-- LD.c (04 R121): a consuming load through the store buffer. -/
def execLdC (size : Size) (sext : Bool) (sd sa : SReg) (imm : BitVec 27) (s : State) : Res :=
  withRegs s [sd, sa] fun s =>
    genAccess s (s.cur.gen.read sa + imm64 imm) (sizeBytes size) ⟨false, true⟩ fun s l => enterBuf s (.ldC size sext sd) l

/-- LDCT (04 R123): one consuming attempt of 64 bits. -/
def execLdct (sd sa : SReg) (imm : BitVec 27) (s : State) : Res :=
  withRegs s [sd, sd + 1, sa] fun s =>
    genAccess s (s.cur.gen.read sa + imm64 imm) 8 ⟨false, true⟩ fun s l => enterBuf s (.ldct sd) l

/-- A store form of the generator. -/
def genStore (s : State) (size : Size) (src base : SReg) (imm : BitVec 27) (fe : Bool) (k : Size → Word → SbKind) : Res :=
  withRegs s [src, base] fun s =>
    genAccess s (s.cur.gen.read base + imm64 imm) (sizeBytes size) ⟨true, fe⟩ fun s l => enterBuf s (k size (s.cur.gen.read src)) l

/-- ST (04 R121): a plain store. -/
def execSt (size : Size) (src base : SReg) (imm : BitVec 27) (s : State) : Res := genStore s size src base imm false .st

/-- ST.f (04 R121): waits for empty, writes, sets full. -/
def execStF (size : Size) (src base : SReg) (imm : BitVec 27) (s : State) : Res := genStore s size src base imm true .stF

/-- ST.s (04 R121): writes and sets full without waiting. -/
def execStS (size : Size) (src base : SReg) (imm : BitVec 27) (s : State) : Res := genStore s size src base imm true .stS

/-- FECLR (04 R121): sets the sett empty. -/
def execFeclr (base : SReg) (imm : BitVec 27) (s : State) : Res :=
  withRegs s [base] fun s => genAccess s (s.cur.gen.read base + imm64 imm) 8 ⟨true, true⟩ fun s l => enterBuf s .feclr l

/-- FESET (04 R121): sets the sett full. -/
def execFeset (base : SReg) (imm : BitVec 27) (s : State) : Res :=
  withRegs s [base] fun s => genAccess s (s.cur.gen.read base + imm64 imm) 8 ⟨true, true⟩ fun s l => enterBuf s .feset l

/-- LAUNCH (19 R361): one try to fill a slot header, through the store buffer. -/
def execLaunch (sd sa sb : SReg) (s : State) : Res :=
  withRegs s [sd, sa, sb] fun s =>
    genAccess s (s.cur.gen.read sa) 128 ⟨true, true⟩ fun s l => enterBuf s (.launch sd (s.cur.gen.read sb)) l

/-! ## Atomics (16 R325) -/

def amoBytes : AmoSize → Nat
  | .w32 => 4
  | .w64 => 8

/-- An AMO of `n` bytes; CAS compares with s[sd]. -/
def amo (s : State) (fn : AtomFn) (n : Nat) (order : Order) (scope : Scope) (sd sa sb : SReg) : Res :=
  withRegs s [sd, sa, sb] fun s =>
    genAccess s (s.cur.gen.read sa) n ⟨true, false⟩ fun s l =>
      enterBuf s (.amo fn n order scope sd (s.cur.gen.read sb) (s.cur.gen.read sd)) l

/-- AMOADD (16 R325). -/
def execAmoadd (size : AmoSize) (order : Order) (scope : Scope) (sd sa sb : SReg) (s : State) : Res :=
  amo s .add (amoBytes size) order scope sd sa sb

/-- AMOMIN (16 R325). -/
def execAmomin (size : AmoSize) (order : Order) (scope : Scope) (sd sa sb : SReg) (s : State) : Res :=
  amo s .min (amoBytes size) order scope sd sa sb

/-- AMOMAX (16 R325). -/
def execAmomax (size : AmoSize) (order : Order) (scope : Scope) (sd sa sb : SReg) (s : State) : Res :=
  amo s .max (amoBytes size) order scope sd sa sb

/-- AMOMINN (16 R325). -/
def execAmominn (size : AmoSize) (order : Order) (scope : Scope) (sd sa sb : SReg) (s : State) : Res :=
  amo s .minn (amoBytes size) order scope sd sa sb

/-- AMOMAXN (16 R325). -/
def execAmomaxn (size : AmoSize) (order : Order) (scope : Scope) (sd sa sb : SReg) (s : State) : Res :=
  amo s .maxn (amoBytes size) order scope sd sa sb

/-- AMOAND (16 R325). -/
def execAmoand (size : AmoSize) (order : Order) (scope : Scope) (sd sa sb : SReg) (s : State) : Res :=
  amo s .and (amoBytes size) order scope sd sa sb

/-- AMOOR (16 R325). -/
def execAmoor (size : AmoSize) (order : Order) (scope : Scope) (sd sa sb : SReg) (s : State) : Res :=
  amo s .or (amoBytes size) order scope sd sa sb

/-- AMOXOR (16 R325). -/
def execAmoxor (size : AmoSize) (order : Order) (scope : Scope) (sd sa sb : SReg) (s : State) : Res :=
  amo s .xor (amoBytes size) order scope sd sa sb

/-- AMOSWAP (16 R325). -/
def execAmoswap (size : AmoSize) (order : Order) (scope : Scope) (sd sa sb : SReg) (s : State) : Res :=
  amo s .swap (amoBytes size) order scope sd sa sb

/-- AMOCAS (16 R325). -/
def execAmocas (size : AmoSize) (order : Order) (scope : Scope) (sd sa sb : SReg) (s : State) : Res :=
  amo s .cas (amoBytes size) order scope sd sa sb

/-- AMOFADD.f32 (16 R325). -/
def execAmofaddF32 (order : Order) (scope : Scope) (sd sa sb : SReg) (s : State) : Res := amo s .faddF32 4 order scope sd sa sb

/-- AMOFADD.bf16 (16 R325). -/
def execAmofaddBf16 (order : Order) (scope : Scope) (sd sa sb : SReg) (s : State) : Res := amo s .faddBf16 2 order scope sd sa sb

/-! ## Fences -/

/-- The place of an entry that names no memory. -/
def Loc.nowhere : Loc :=
  { key := 0, va := 0, kind := .rc, fev := false, wr := false, tol := false, subk := false, gw := false, enc := 0, pad := false, cls := 0 }

/-- FENCE (04 R142): takes a store-buffer entry and completes when the accesses before it have performed. -/
def execFence (kind : FenceKind) (scope : Scope) (s : State) : Res := enterBuf s (.fence kind scope) Loc.nowhere

/-- VFENCE.SV (04 R143): waits until every earlier generator access has performed. -/
def execVfenceSv (s : State) : Res :=
  if !s.cur.sbuf.isEmpty || !s.cur.pend.isEmpty then stall s wFENCE else retire s [] none

/-- VFENCE.VS (04 R143): waits until every word pushed before it has retired. -/
def execVfenceVs (s : State) : Res := if !s.cur.idle then stall s wFENCE else retire s [] none

end Sys2Proof.Machine
end

