-- ==== Sys2Proof/Machine/Fetch.lean ====
section
/-!
DEFINITION. Code lines and the fetch of one instruction from them (02 R42 to R45), and the instruction-cache locks (13 R288, R289).
-/
namespace Sys2Proof.Machine

/-- Halfword slot `i` of a line (R42). -/
def lineSlot (line i : Nat) : Nat := bits line (16 * i) 16

/-- The instruction count N of a line (R42). -/
def lineCount (line : Nat) : Nat := bits line 0 5

/-- The tail counts of the heads in slots 1 to `k` (R43). -/
def tailSum (line : Nat) : Nat → Nat
  | 0 => 0
  | k + 1 => tailSum line k + bits (lineSlot line (k + 1)) 0 3

/-- A line that passes R44 for a fetcher of the given KIND. -/
def lineOk (line kind : Nat) : Bool :=
  lineCount line != 0 && bits line 8 8 == 0 && bits line 5 3 == kind &&
    (List.range (lineCount line)).all (fun i => bits (lineSlot line (i + 1)) 0 3 != 7) &&
    lineCount line + tailSum line (lineCount line) ≤ 31

/-- Instruction `k` of a valid line as one number: its head, then its tails (R43). -/
def lineInstr (line k : Nat) : Nat :=
  let tl := bits (lineSlot line k) 0 3
  lineSlot line k + bits line (16 * (32 - tailSum line k)) (16 * tl) * 2 ^ 16

/-- What a fetch gives: the instruction's halfwords and NextPC, or a cause with its TVAL. -/
abbrev Fetched := Except (Nat × Word) (Nat × Word)

/-! ## The two instruction caches (00 R3) -/

/-- Lines that a cache of 64 KiB holds. -/
def codeLines : Nat := 1024

/-- Whether a strand's locks are in force in the caches of core `c` (13 R289): it is on the core, or it acts there. -/
def State.locksOn (s : State) (c : Nat) (t : Strand) : Bool := t.coreNo == c && (t.onCore || t.id == s.cur.id)

/-- Whether a strand on core `c` has locked the line that holds `va` (13 R288). -/
def State.codeLocked (s : State) (c : Nat) (x : CodeLine) : Bool :=
  s.strands.any fun t => s.locksOn c t && (if x.stream then t.ics else t.icg).contains x.va

/-- Drops the last line of a list that is not locked: the oldest leaves a full cache first (the replacement is the model's choice, log entry
15). -/
def State.dropOldest (s : State) (c : Nat) (l : List CodeLine) : List CodeLine :=
  match l.reverse.find? fun x => !s.codeLocked c x with
  | some x => l.erase x
  | none => l

/-- A core's instruction caches with a line brought in. -/
def State.codeFill (s : State) (x : CodeLine) : State :=
  let n := s.cur.coreNo
  let c := s.core n
  let rest := c.icache.filter fun y => !(y.key == x.key && y.stream == x.stream)
  let same := rest.filter fun y => y.stream == x.stream
  let same := if codeLines ≤ same.length then s.dropOldest n same else same
  s.putCore { c with icache := x :: same ++ rest.filter fun y => y.stream != x.stream }

/-- A line from its home, brought into the cache that its fetcher uses, or that its KIND names. -/
def State.refetch (s : State) (va : Word) (l : Loc) (stream : Option Bool) : State × Except Nat Nat :=
  match (s.hotAccess l).readHome l 64 false with
  | (s, .error c) => (s, .error c)
  | (s, .ok r) => (s.codeFill ⟨l.key, va, stream.getD (bits r.val 5 3 == 1), BitVec.ofNat 512 r.val⟩, .ok r.val)

/-- Reads the line that holds an address, as a fetch does: translated, from the fetcher's cache if that holds it, and MEMUE for an
uncorrectable line. Whether a cache follows a store to a line that it holds is left open. A global window holds no code: PROT (log entry
17). -/
def State.fetchLine (s : State) (va : Word) (stream : Option Bool) : State × Except Nat Nat :=
  let va := va &&& ~~~63
  match s.resolveFor s.cur.part s.cur.coreNo va.toNat with
  | (s, .error c) => (s, .error c)
  | (s, .ok l) =>
    if l.gw then (s, .error cPROT)
    else match (s.core s.cur.coreNo).icache.find? fun x => x.key == l.key && stream.all (x.stream == ·) with
      | some x => if x.data.toNat == s.valueAt l.key 64 || Config.keepsLine s.tick then (s, .ok x.data.toNat) else s.refetch va l stream
      | none => s.refetch va l stream

/-- Fetches the instruction at `pc` from a line of the given KIND (R44, R45). -/
def State.fetchAt (s : State) (pc : Word) (kind : Nat) : State × Fetched :=
  if pc.getLsbD 0 then (s, .error (cALIGN, pc))
  else match s.fetchLine pc (some (kind == 1)) with
    | (s, .error c) => (s, .error (c, pc))
    | (s, .ok line) =>
      let base : Word := pc &&& ~~~63
      if !lineOk line kind then (s, .error (cILL, base))
      else
        let k := fieldOf pc 1 5
        if k == 0 || lineCount line < k then (s, .error (cILL, pc))
        else (s, .ok (lineInstr line k, if k < lineCount line then pc + 2 else base + 66))

/-! ## Locks (13 R288, R289) -/

/-- Lines locked in one of a core's two caches, by the acting strand and every other that is on the core; one that both have locked counts
once. -/
def State.lockedLines (s : State) (stream : Bool) : List Word :=
  ((s.strands.filter fun t => s.locksOn s.cur.coreNo t).flatMap fun t => if stream then t.ics else t.icg).eraseDups

/-- Tries to lock the line at an address for the acting strand: the status of ICLK, or a cause. -/
def State.lockLine (s : State) (va : Word) : State × Except Nat Nat :=
  match s.fetchLine va none with
  | (s, .error c) => (s, .error c)
  | (s, .ok line) =>
    let kind := bits line 5 3
    if 2 ≤ kind || !lineOk line kind then (s, .ok 2)
    else
      let mine := if kind == 1 then s.cur.ics else s.cur.icg
      if mine.contains va then (s, .ok 0)
      else if !(s.lockedLines (kind == 1)).contains va && 256 ≤ (s.lockedLines (kind == 1)).length then (s, .ok 1)
      else (s.onCur fun st => if kind == 1 then { st with ics := st.ics ++ [va] } else { st with icg := st.icg ++ [va] }, .ok 0)

end Sys2Proof.Machine
end

