-- ==== Sys2Proof/WellFormed.lean ====
section
/-!
DEFINITION. Which instructions are well formed: the checks of spec 02 R46 to R64 that look at one instruction alone (the
type sets, the values a field may not hold, the operands that must differ). Checks against VL, ROWS and the shape are
made at issue, by the meanings.
-/
namespace Sys2Proof

/-- An order of none needs scope .st (16 R325, R326). -/
def orderScope (o : Order) (s : Scope) : Bool := o != .none || s == .st

/-- The types of CPY.RED (02 R54). -/
def redTy : Ty → Bool
  | .f64 | .f32 | .bf16 | .i32 | .i64 => true
  | _ => false

/-- The operand types of MMA, MOPA and TILESET (11 R251, R255). -/
def mmaTy : Ty → Bool
  | .i8 | .n8 | .f16 | .bf16 | .f32 | .e4m3 | .e5m2 | .cb4 => true
  | _ => false

/-- The targets of VQCVT and VQSCALE (01 R39). -/
def scaleTarget : Ty → Bool
  | .e4m3 | .e5m2 | .f16 | .i8 | .n8 | .cb4 => true
  | _ => false

/-- The operand types of VBDOT (05 R161). -/
def dotTy : Ty → Bool
  | .cb4 | .e4m3 | .e5m2 => true
  | _ => false

/-- The types of the integer atomics (16 R325). -/
def atomTy : Ty → Bool
  | .i32 | .n32 | .i64 | .n64 => true
  | _ => false

/-- The types of VSEND and VMRECV (14 R312). -/
def msgTy : Ty → Bool
  | .i64 | .n64 | .f64 => true
  | _ => false

/-- VPACK narrows integers, and n8 to cb4 (05 R162). -/
def packTy (src dst : Ty) : Bool :=
  src.isInt && ((dst.isInt && dst.width < src.width) || (dst == .cb4 && src == .n8))

/-- VUNPACK widens integers, and cb4 to n8 (05 R163). -/
def unpackTy (src dst : Ty) : Bool :=
  dst.isInt && ((src.isInt && src.width < dst.width) || (src == .cb4 && dst == .n8))

/-- Two of TILESET's registers differ, or both are s0 (11 R251). -/
def distinct (a b : SReg) : Bool := a != b || a.val == 0

/-- The third operand is an immediate. -/
def Third.isImm : Third → Bool
  | .v _ | .s _ => false
  | _ => true

/-- A floating-point immediate has the width of its type (02 R48). -/
def Third.fitsFloat (ty : Ty) : Third → Bool
  | .i16 _ => ty == .f16 || ty == .bf16
  | .i32 _ => ty == .f32
  | .i64 _ => ty == .f64
  | _ => true

/-- The amount of a slide: the scalar slot, or imm16 with a type other than cb4 (02 R48, 05 R167). -/
def Third.isSlide (ty : Ty) : Third → Bool
  | .s _ => true
  | .i16 _ => ty != .cb4
  | _ => false

/-- The operand of ASCL in power-of-two mode (07 R205). -/
def Third.isSlotOr16 : Third → Bool
  | .s _ | .i16 _ => true
  | _ => false

/-- The operand of ASCL in scalar mode (07 R205). -/
def Third.isSlotOr64 : Third → Bool
  | .s _ | .i64 _ => true
  | _ => false

/-- The instruction is well formed. -/
def Instr.wf : Instr → Bool
  | .nop => true
  | .endI => true
  | .yield => true
  | .trap _ => true
  | .eret => true
  | .fence _ scope => scope != .st
  | .vfenceSv => true
  | .vfenceVs => true
  | .sysr _ _ => true
  | .sysw _ _ => true
  | .iclk _ _ _ => true
  | .icunl _ _ => true
  | .launch _ _ _ => true
  | .add _ _ _ => true
  | .sub _ _ _ => true
  | .and _ _ _ => true
  | .or _ _ _ => true
  | .xor _ _ _ => true
  | .andn _ _ _ => true
  | .orn _ _ _ => true
  | .xnor _ _ _ => true
  | .shl _ _ _ => true
  | .shr _ _ _ => true
  | .sra _ _ _ => true
  | .rol _ _ _ => true
  | .ror _ _ _ => true
  | .slt _ _ _ => true
  | .sltn _ _ _ => true
  | .seq _ _ _ => true
  | .min _ _ _ => true
  | .max _ _ _ => true
  | .minn _ _ _ => true
  | .maxn _ _ _ => true
  | .mul _ _ _ => true
  | .mulh _ _ _ => true
  | .mulhn _ _ _ => true
  | .div _ _ _ => true
  | .divn _ _ _ => true
  | .rem _ _ _ => true
  | .remn _ _ _ => true
  | .clz _ _ => true
  | .ctz _ _ => true
  | .popc _ _ => true
  | .brev _ _ => true
  | .bswap _ _ => true
  | .fadd _ _ _ _ => true
  | .fsub _ _ _ _ => true
  | .fmul _ _ _ _ => true
  | .fdiv _ _ _ _ => true
  | .fsqrt _ _ _ => true
  | .fmin _ _ _ _ => true
  | .fmax _ _ _ _ => true
  | .feq _ _ _ _ => true
  | .flt _ _ _ _ => true
  | .fle _ _ _ _ => true
  | .fclass _ _ _ => true
  | .fneg _ _ _ => true
  | .fabs _ _ _ => true
  | .cvt src dst _ _ _ => src != dst && !(src.isInt && dst.isInt)
  | .addi _ _ _ => true
  | .andi _ _ _ => true
  | .ori _ _ _ => true
  | .xori _ _ _ => true
  | .shli _ _ _ => true
  | .shri _ _ _ => true
  | .srai _ _ _ => true
  | .slti _ _ _ => true
  | .sltni _ _ _ => true
  | .lpc _ _ => true
  | .li _ _ => true
  | .ld size sext _ _ _ => !(size == .b8 && sext)
  | .ldW size sext _ _ _ => !(size == .b8 && sext)
  | .ldC size sext _ _ _ => !(size == .b8 && sext)
  | .ldct sd _ _ => sd.val % 2 == 0 && sd.val != 0
  | .feget _ _ _ => true
  | .st _ _ _ _ => true
  | .stF _ _ _ _ => true
  | .stS _ _ _ _ => true
  | .feclr _ _ => true
  | .feset _ _ => true
  | .pwait _ _ _ => true
  | .amoadd _ order scope _ _ _ => orderScope order scope
  | .amomin _ order scope _ _ _ => orderScope order scope
  | .amomax _ order scope _ _ _ => orderScope order scope
  | .amominn _ order scope _ _ _ => orderScope order scope
  | .amomaxn _ order scope _ _ _ => orderScope order scope
  | .amoand _ order scope _ _ _ => orderScope order scope
  | .amoor _ order scope _ _ _ => orderScope order scope
  | .amoxor _ order scope _ _ _ => orderScope order scope
  | .amoswap _ order scope _ _ _ => orderScope order scope
  | .amocas _ order scope _ _ _ => orderScope order scope
  | .amofaddF32 order scope _ _ _ => orderScope order scope
  | .amofaddBf16 order scope _ _ _ => orderScope order scope
  | .beq _ _ _ => true
  | .bne _ _ _ => true
  | .blt _ _ _ => true
  | .bge _ _ _ => true
  | .bltn _ _ _ => true
  | .bgen _ _ _ => true
  | .j _ => true
  | .jl _ _ => true
  | .jr _ _ => true
  | .jlr _ _ _ => true
  | .loop _ _ _ => true
  | .emit _ _ _ _ => true
  | .emitw _ _ _ => true
  | .emitb _ _ => true
  | .rply _ => true
  | .eqwait _ => true
  | .qstat _ => true
  | .cpy _ _ _ _ => true
  | .cpyWith _ _ _ _ => true
  | .cpySetfull _ _ _ _ => true
  | .cpySetempty _ _ _ _ => true
  | .cpyBitsout _ _ _ _ => true
  | .cpyBitsin _ _ _ _ => true
  | .cpyMc _ _ _ _ _ => true
  | .cpyMcSetfull _ _ _ _ _ => true
  | .cpyRed ty _ _ _ _ => redTy ty
  | .cpyRedSetfull ty _ _ _ _ => redTy ty
  | .cpyw _ => true
  | .cpyq _ _ => true
  | .tileset ty sm sn sk => mmaTy ty && distinct sm sn && distinct sm sk && distinct sn sk
  | .ghint _ _ _ => true
  | .vnop => true
  | .vsetvl _ xd xs => xd != xs
  | .vsetrowsImm n => 1 ≤ n.val && n.val ≤ 32
  | .vsetrowsX _ => true
  | .vbstrip _ _ => true
  | .vbr m _ => m.val != 0
  | .vjoin => true
  | .vj _ => true
  | .vloop _ _ _ => true
  | .vbret => true
  | .vrep _ => true
  | .vextr _ _ _ _ => true
  | .vmvx _ _ => true
  | .blockCall _ => true
  | .vadd o => o.ty.isInt
  | .vsub o => o.ty.isInt
  | .vadds o => o.ty.isInt
  | .vsubs o => o.ty.isInt
  | .vmul o => o.ty.isInt
  | .vmulh o => o.ty.isInt
  | .vdiv o => o.ty.isInt
  | .vrem o => o.ty.isInt
  | .vmin o => o.ty.isInt
  | .vmax o => o.ty.isInt
  | .vand o => o.ty.isInt
  | .vor o => o.ty.isInt
  | .vxor o => o.ty.isInt
  | .vshl o => o.ty.isInt
  | .vshr o => o.ty.isInt
  | .vsra o => o.ty.isInt
  | .vabs o => o.ty.isInt
  | .vneg o => o.ty.isInt
  | .vclz o => o.ty.isInt
  | .vpopc o => o.ty.isInt
  | .vcmpeq o => o.ty.isInt && o.vd.val < 8
  | .vcmpne o => o.ty.isInt && o.vd.val < 8
  | .vcmplt o => o.ty.isInt && o.vd.val < 8
  | .vcmpge o => o.ty.isInt && o.vd.val < 8
  | .vfcmpeq _ o => o.ty.isFloat && o.vd.val < 8 && !o.third.isImm
  | .vfcmpne _ o => o.ty.isFloat && o.vd.val < 8 && !o.third.isImm
  | .vfcmplt _ o => o.ty.isFloat && o.vd.val < 8 && !o.third.isImm
  | .vfcmpge _ o => o.ty.isFloat && o.vd.val < 8 && !o.third.isImm
  | .vfcmple _ o => o.ty.isFloat && o.vd.val < 8 && !o.third.isImm
  | .vfcmpgt _ o => o.ty.isFloat && o.vd.val < 8 && !o.third.isImm
  | .vfcmpunord _ o => o.ty.isFloat && o.vd.val < 8 && !o.third.isImm
  | .vfcmpord _ o => o.ty.isFloat && o.vd.val < 8 && !o.third.isImm
  | .vsel o => o.msk.val != 0 && !o.third.isImm
  | .vfclass _ o => o.ty.isArithFloat
  | .vfadd _ o => o.ty.isArithFloat && o.third.fitsFloat o.ty
  | .vfsub _ o => o.ty.isArithFloat && o.third.fitsFloat o.ty
  | .vfmul _ o => o.ty.isArithFloat && o.third.fitsFloat o.ty
  | .vfdiv _ o => o.ty.isArithFloat && o.third.fitsFloat o.ty
  | .vfsqrt _ o => o.ty.isArithFloat
  | .vfmin _ o => o.ty.isArithFloat && o.third.fitsFloat o.ty
  | .vfmax _ o => o.ty.isArithFloat && o.third.fitsFloat o.ty
  | .vfabs _ o => o.ty.isArithFloat
  | .vfneg _ o => o.ty.isArithFloat
  | .vfma _ o => o.ty.isArithFloat && o.third.fitsFloat o.ty
  | .vfms _ o => o.ty.isArithFloat && o.third.fitsFloat o.ty
  | .vfnma _ o => o.ty.isArithFloat && o.third.fitsFloat o.ty
  | .vfnms _ o => o.ty.isArithFloat && o.third.fitsFloat o.ty
  | .vcvt dst _ o => o.ty != .cb4 && dst != .cb4 && o.ty != dst
  | .vqcvt dst _ cb _ o => o.ty.isArithFloat && scaleTarget dst && (dst == .cb4 || cb.val == 0)
  | .vcbd _ _ _ _ _ => true
  | .vcbe _ _ _ _ _ => true
  | .cbld _ _ => true
  | .vamax _ ty _ _ => ty.isFloat
  | .vamstep _ => true
  | .vqscale ty _ _ cb => scaleTarget ty && (ty == .cb4 || cb.val == 0)
  | .vbdot o => dotTy o.ty && (o.ty == .cb4 || (o.cba.val == 0 && o.cbb.val == 0))
  | .vpack dst o => packTy o.ty dst
  | .vunpack dst _ o => unpackTy o.ty dst
  | .vredsum rnd o => o.ty.isArithFloat || (o.ty.isInt && rnd.val == 0)
  | .vredmin rnd o => o.ty.isArithFloat || (o.ty.isInt && rnd.val == 0)
  | .vredmax rnd o => o.ty.isArithFloat || (o.ty.isInt && rnd.val == 0)
  | .vredand o => o.ty.isInt
  | .vredor o => o.ty.isInt
  | .vredxor o => o.ty.isInt
  | .vredso _ o => o.ty.isArithFloat
  | .vscansum rnd o => o.ty.isArithFloat || (o.ty.isInt && rnd.val == 0)
  | .vscanmin rnd o => o.ty.isArithFloat || (o.ty.isInt && rnd.val == 0)
  | .vscanmax rnd o => o.ty.isArithFloat || (o.ty.isInt && rnd.val == 0)
  | .vscanand o => o.ty.isInt
  | .vscanor o => o.ty.isInt
  | .vscanxor o => o.ty.isInt
  | .vscanexsum rnd o => o.ty.isArithFloat || (o.ty.isInt && rnd.val == 0)
  | .vscanexmin rnd o => o.ty.isArithFloat || (o.ty.isInt && rnd.val == 0)
  | .vscanexmax rnd o => o.ty.isArithFloat || (o.ty.isInt && rnd.val == 0)
  | .vscanexand o => o.ty.isInt
  | .vscanexor o => o.ty.isInt
  | .vscanexxor o => o.ty.isInt
  | .vslideup o => o.third.isSlide o.ty
  | .vslidedn o => o.third.isSlide o.ty
  | .vperm _ => true
  | .vcompress _ => true
  | .vexpand _ => true
  | .vbcast o => !o.third.isImm
  | .viota _ ty _ => ty.isInt
  | .vtrne _ => true
  | .vtrno _ => true
  | .vzipl _ => true
  | .vziph _ => true
  | .vld m _ stride => !(m.ty == .cb4 && stride.isSome)
  | .vldW _ m _ stride => !(m.ty == .cb4 && stride.isSome)
  | .vldC _ m _ stride => !(m.ty == .cb4 && stride.isSome)
  | .vldT _ m _ stride => !(m.ty == .cb4 && stride.isSome)
  | .vldx m _ _ => m.ty != .cb4
  | .vldxW _ m _ _ => m.ty != .cb4
  | .vldxC _ m _ _ => m.ty != .cb4
  | .vldxT _ m _ _ => m.ty != .cb4
  | .vldl m _ => m.ty != .cb4
  | .vldlW _ m _ => m.ty != .cb4
  | .vldlC _ m _ => m.ty != .cb4
  | .vldlT _ m _ => m.ty != .cb4
  | .vst m _ stride => !(m.ty == .cb4 && stride.isSome)
  | .vstF _ m _ stride => !(m.ty == .cb4 && stride.isSome)
  | .vstS _ m _ stride => !(m.ty == .cb4 && stride.isSome)
  | .vstx m _ _ => m.ty != .cb4
  | .vstxF _ m _ _ => m.ty != .cb4
  | .vstxS _ m _ _ => m.ty != .cb4
  | .vstl m _ => m.ty != .cb4
  | .vstlF _ m _ => m.ty != .cb4
  | .vstlS _ m _ => m.ty != .cb4
  | .vstn _ _ _ => true
  | .vstnF _ _ _ _ => true
  | .vstnS _ _ _ _ => true
  | .vamoadd order scope _ o => atomTy o.ty && orderScope order scope
  | .vamomin order scope _ o => atomTy o.ty && orderScope order scope
  | .vamomax order scope _ o => atomTy o.ty && orderScope order scope
  | .vamominn order scope _ o => atomTy o.ty && orderScope order scope
  | .vamomaxn order scope _ o => atomTy o.ty && orderScope order scope
  | .vamoand order scope _ o => atomTy o.ty && orderScope order scope
  | .vamoor order scope _ o => atomTy o.ty && orderScope order scope
  | .vamoxor order scope _ o => atomTy o.ty && orderScope order scope
  | .vamoswap order scope _ o => atomTy o.ty && orderScope order scope
  | .vamocas order scope _ o => atomTy o.ty && orderScope order scope
  | .vamofaddF32 order scope _ o => o.ty == .f32 && orderScope order scope
  | .vamofaddBf16 order scope _ o => o.ty == .bf16 && orderScope order scope
  | .vbupdadd _ ty _ _ => ty.isInt
  | .vbupdmin _ ty _ _ => ty.isInt
  | .vbupdmax _ ty _ _ => ty.isInt
  | .vbupdminn _ ty _ _ => ty.isInt
  | .vbupdmaxn _ ty _ _ => ty.isInt
  | .vbupdand _ ty _ _ => ty.isInt
  | .vbupdor _ ty _ _ => ty.isInt
  | .vbupdxor _ ty _ _ => ty.isInt
  | .vsend _ ty _ _ => msgTy ty
  | .mailboxArrival _ _ _ => true
  | .vmrecv _ ty _ => msgTy ty
  | .vlock _ ty _ _ => ty == .i64 || ty == .n64
  | .vunlock _ ty _ => ty == .i64 || ty == .n64
  | .farrive scope _ => scope != .st
  | .bwait _ => true
  | .bset _ n => 1 ≤ n.toNat && n.toNat ≤ 96
  | .ald _ ty _ _ _ _ => ty.isDev
  | .aldW _ _ ty _ _ _ _ => ty.isDev
  | .watchClose _ _ => true
  | .ast _ ty _ _ _ _ => ty.isDev
  | .astR _ _ ty _ _ _ _ => ty.isDev
  | .aadd _ _ _ o => o.ty.isDev
  | .asub _ _ _ o => o.ty.isDev
  | .amul _ _ _ o => o.ty.isDev
  | .axpand _ _ o => o.ty.isDev
  | .adif _ h o => o.ty.isDev && h.val != 0
  | .reancCentre _ o => o.ty.isDev
  | .reancWiden _ o => o.ty.isDev
  | .reancNarrow _ o => o.ty.isDev
  | .acvtFromanc _ plain o => o.ty.isDev && plain != .cb4
  | .acvtToanc _ plain o => o.ty.isDev && plain != .cb4
  | .amovkKv _ ty vd _ => ty.isDev && vd.val != 63
  | .amovkVk _ ty va _ => ty.isDev && va.val != 63
  | .asclPow2 _ o => o.ty.isDev && o.third.isSlotOr16
  | .asclScl _ o => o.ty.isDev && o.third.isSlotOr64
  | .mclaim w => 1 ≤ w.val && w.val ≤ 32
  | .mfree => true
  | .mclr _ => true
  | .mma _ ty _ _ _ _ _ cba cbb => mmaTy ty && (ty == .cb4 || (cba.val == 0 && cbb.val == 0))
  | .mopa _ ty _ _ _ cba cbb => mmaTy ty && (ty == .cb4 || (cba.val == 0 && cbb.val == 0))
  | .mrd _ ty _ _ _ => ty == .f32 || ty == .i32
  | .mwr _ ty _ _ _ => ty == .f32 || ty == .i32
  | .mld ty _ _ _ _ => ty == .f32 || ty == .i32
  | .mst ty _ _ _ _ => ty == .f32 || ty == .i32
  | .matrixWordRetire _ => true
  | .vhint _ _ _ => true
  | .storeBufferPerform _ => true
  | .waiterRecheck _ => true
  | .rejectRetry _ => true
  | .markAndRecheck _ => true
  | .park _ _ => true
  | .wake _ => true
  | .saveComplete _ => true
  | .combiningApply _ => true
  | .copyRetire _ _ => true
  | .takeTrap _ => true
  | .int _ _ => true
  | .preemptRequest _ => true
  | .premaxExpiry _ => true
  | .contextSave _ => true
  | .contextRestore _ => true
  | .hpWindowReset _ => true
  | .sample _ => true
  | .counterOverflow _ _ => true
  | .tlbiPage _ _ _ => true
  | .tlbiAll _ => true
  | .qupd _ _ => true
  | .pgwake _ _ _ => true
  | .hmaskWrite _ _ => true
  | .smpctlWrite _ _ => true
  | .evctlWrite _ _ => true
  | .pmcntWrite _ _ _ => true
  | .take _ _ => true
  | .nodeReady _ => true
  | .select _ => true
  | .age _ => true
  | .bind _ => true
  | .benchPreempt _ => true
  | .evict _ => true
  | .evictRestore _ => true
  | .nodeDone _ => true
  | .hint _ _ _ _ => true
  | .hintRowClose _ _ _ => true
  | .refresh _ _ _ => true
  | .activationAlert _ _ _ => true
  | .backoffEnd _ _ _ => true
  | .powerWindow _ => true
  | .thermalThreshold _ => true
  | .clockRaise => true
  | .undervoltReturn _ => true
  | .coreOutOfService _ => true
  | .linkRetry link _ => link.real
  | .tc0Window _ _ => true
  | .resetN => true
  | .pwrEn => true
  | .cltOkFall => true
  | .coolantTimeout => true
  | .attestationRequest _ => true
  | .mcRegisterWrite _ _ _ => true
  | .keyLoad _ _ => true
  | .partitionConfig _ => true
  | .ingressEntrySet _ _ => true
  | .remotePlainWrite _ => true
  | .remotePlainRead _ => true
  | .remoteAtomic _ => true
  | .remoteFill _ => true
  | .remoteSetFull _ => true
  | .remoteWaitingRead _ => true
  | .remoteConsumingRead _ => true
  | .remoteTryConsume _ => true
  | .remoteSetEmpty _ => true
  | .remoteTryFill _ => true
  | .remoteWaitExpiry _ => true
  | .gwAck _ _ => true
  | .gwTimeout _ => true
  | .portFrameRetry _ _ => true
  | .ptpMessage _ _ => true
  | .portLinkUp _ => true
  | .portLinkDown _ _ => true
  | .ptpLockLoss => true
  | .cltOkRise => true
  | .undervoltWindow _ _ => true
  | .predictiveFailure _ => true

end Sys2Proof
end

