-- ==== Sys2Proof/Decode.lean ====
section
/-!
DEFINITION. Decoding and encoding (spec 02 R46 to R65). An instruction is one number: its head in bits 15 to 0 and its
tails above it, T0 in bits 31 to 16 and so on, which is the order in which a line stores them (R43). `decodeGen` reads a
generator instruction and `decodeStream` a stream word; both refuse every reserved encoding by name. The encoder is
written from the same tables.
-/
namespace Sys2Proof

/-- The `n`-bit field of `w` whose lowest bit is `lo`. -/
def fld (w lo n : Nat) : Nat := w / 2 ^ lo % 2 ^ n

/-- A 5-bit register field. -/
def sregAt (w lo : Nat) : SReg := Fin.ofNat 32 (fld w lo 5)
/-- A 6-bit register field. -/
def vregAt (w lo : Nat) : VReg := Fin.ofNat 64 (fld w lo 6)
/-- A 4-bit register field. -/
def xregAt (w lo : Nat) : XReg := Fin.ofNat 16 (fld w lo 4)
/-- A 3-bit register field. -/
def mregAt (w lo : Nat) : MReg := Fin.ofNat 8 (fld w lo 3)
/-- A 2-bit register field. -/
def cbAt (w lo : Nat) : CbReg := Fin.ofNat 4 (fld w lo 2)

/-- The type of a TY code; 0xF is reserved (01 R20). -/
def Ty.ofCode : Nat → Option Ty
  | 0 => some .i8 | 1 => some .i16 | 2 => some .i32 | 3 => some .i64
  | 4 => some .n8 | 5 => some .n16 | 6 => some .n32 | 7 => some .n64
  | 8 => some .f64 | 9 => some .f32 | 10 => some .f16 | 11 => some .bf16
  | 12 => some .e4m3 | 13 => some .e5m2 | 14 => some .cb4
  | _ => none

/-- The type of a CVT code (R53). -/
def CvtTy.ofCode : Nat → CvtTy
  | 0 => .i32 | 1 => .i64 | 2 => .n32 | 3 => .n64 | 4 => .f32 | 5 => .f64 | 6 => .f16
  | _ => .bf16

/-- FN<5> of FP: 0 f64, 1 f32 (R52). -/
def SFmt.code : SFmt → Nat
  | .f64 => 0 | .f32 => 1
/-- The format of FN<5> (R52). -/
def SFmt.ofCode : Nat → SFmt
  | 0 => .f64
  | _ => .f32

/-- The size code of a load or store (R50). -/
def Size.code : Size → Nat
  | .b1 => 0 | .b2 => 1 | .b4 => 2 | .b8 => 3
/-- The size of a size code (R50). -/
def Size.ofCode : Nat → Size
  | 0 => .b1 | 1 => .b2 | 2 => .b4
  | _ => .b8

/-- T1<5:4> of an integer AMO (R54): 2 is 32 bits, 3 is 64. -/
def AmoSize.code : AmoSize → Nat
  | .w32 => 2 | .w64 => 3

/-- The scope code (17 R335). -/
def Scope.code : Scope → Nat
  | .st => 0 | .gr => 1 | .dv => 2 | .sy => 3
/-- The scope of a code (17 R335). -/
def Scope.ofCode : Nat → Scope
  | 0 => .st | 1 => .gr | 2 => .dv
  | _ => .sy

/-- The order code of an atomic (R54). -/
def Order.code : Order → Nat
  | .none => 0 | .acq => 1 | .rel => 2 | .ar => 3
/-- The order of a code (R54). -/
def Order.ofCode : Nat → Order
  | 0 => .none | 1 => .acq | 2 => .rel
  | _ => .ar

/-- The kind code of a FENCE (R55). -/
def FenceKind.code : FenceKind → Nat
  | .acq => 1 | .rel => 2 | .all => 3
/-- The kind of a FENCE; 0 is reserved (R55). -/
def FenceKind.ofCode : Nat → Option FenceKind
  | 1 => some .acq | 2 => some .rel | 3 => some .all
  | _ => none

/-- The halfword T2 of a scalar slot (R48). -/
def Slot.code : Slot → Nat
  | .x r => r
  | .xq => 0x8000

/-- The scalar slot in the halfword at `lo` (R48). -/
def slotAt (w lo : Nat) : Option Slot :=
  if fld w (lo + 15) 1 = 1 then (if fld w lo 15 = 0 then some .xq else none)
  else if fld w (lo + 4) 11 = 0 then some (.x (xregAt w lo)) else none

/-- An x register in the low four bits of the halfword at `lo`, the rest zero (R63). -/
def xtailAt (w lo : Nat) : Option XReg :=
  if fld w (lo + 4) 12 = 0 then some (xregAt w lo) else none

/-- Why an encoding is refused (R64). -/
inductive DecodeError where
  /-- The opcode is not in the map of its side. -/
  | reservedOp (op : Nat)
  /-- A form, tail count, must-be-zero field or reserved value of a known opcode. -/
  | reservedField (op : Nat)
  /-- A type, operand or value that the instruction does not accept. -/
  | illFormed (op : Nat)
  deriving DecidableEq, Repr

/-- Integer ALU functions with two sources (02 R51). -/
def aluOf : Nat → Option (SReg → SReg → SReg → Instr)
  | 0 => some .add
  | 1 => some .sub
  | 2 => some .and
  | 3 => some .or
  | 4 => some .xor
  | 5 => some .andn
  | 6 => some .orn
  | 7 => some .xnor
  | 8 => some .shl
  | 9 => some .shr
  | 10 => some .sra
  | 11 => some .rol
  | 12 => some .ror
  | 13 => some .slt
  | 14 => some .sltn
  | 15 => some .seq
  | 16 => some .min
  | 17 => some .max
  | 18 => some .minn
  | 19 => some .maxn
  | 20 => some .mul
  | 21 => some .mulh
  | 22 => some .mulhn
  | 23 => some .div
  | 24 => some .divn
  | 25 => some .rem
  | 26 => some .remn
  | _ => none

/-- Unary integer ALU functions (02 R51). -/
def aluUOf : Nat → Option (SReg → SReg → Instr)
  | 27 => some .clz
  | 28 => some .ctz
  | 29 => some .popc
  | 30 => some .brev
  | 31 => some .bswap
  | _ => none

/-- FP functions with two sources (02 R52). -/
def fpOf : Nat → Option (SFmt → SReg → SReg → SReg → Instr)
  | 0 => some .fadd
  | 1 => some .fsub
  | 2 => some .fmul
  | 3 => some .fdiv
  | 5 => some .fmin
  | 6 => some .fmax
  | 7 => some .feq
  | 8 => some .flt
  | 9 => some .fle
  | _ => none

/-- Unary FP functions (02 R52). -/
def fpUOf : Nat → Option (SFmt → SReg → SReg → Instr)
  | 4 => some .fsqrt
  | 10 => some .fclass
  | 11 => some .fneg
  | 12 => some .fabs
  | _ => none

/-- Integer AMO functions (02 R54). -/
def amoOf : Nat → Option (AmoSize → Order → Scope → SReg → SReg → SReg → Instr)
  | 0 => some .amoadd
  | 1 => some .amomin
  | 2 => some .amomax
  | 3 => some .amominn
  | 4 => some .amomaxn
  | 5 => some .amoand
  | 6 => some .amoor
  | 7 => some .amoxor
  | 8 => some .amoswap
  | 9 => some .amocas
  | _ => none

/-- Compare-branches (04 R130). -/
def branchOf : Nat → Option (SReg → SReg → BitVec 27 → Instr)
  | 0 => some .beq
  | 1 => some .bne
  | 2 => some .blt
  | 3 => some .bge
  | 4 => some .bltn
  | 5 => some .bgen
  | _ => none

/-- Immediate functions (02 R50). -/
def aluIOf : Nat → Option (SReg → SReg → BitVec 27 → Instr)
  | 0 => some .addi
  | 1 => some .andi
  | 2 => some .ori
  | 3 => some .xori
  | 7 => some .slti
  | 8 => some .sltni
  | _ => none

/-- Immediate shifts (02 R50). -/
def shiftIOf : Nat → Option (SReg → SReg → BitVec 6 → Instr)
  | 4 => some .shli
  | 5 => some .shri
  | 6 => some .srai
  | _ => none

/-- Generator load forms (02 R50). -/
def ldOf : Nat → Option (Size → Bool → SReg → SReg → BitVec 27 → Instr)
  | 0 => some .ld
  | 1 => some .ldW
  | 2 => some .ldC
  | _ => none

/-- Generator store forms (02 R50). -/
def stOf : Nat → Option (Size → SReg → SReg → BitVec 27 → Instr)
  | 0 => some .st
  | 1 => some .stF
  | 2 => some .stS
  | _ => none

/-- Modes of a plain copy (02 R54). -/
def cpyOf : Nat → Option (SReg → SReg → SReg → SReg → Instr)
  | 0 => some .cpy
  | 1 => some .cpyWith
  | 2 => some .cpySetfull
  | 3 => some .cpySetempty
  | 4 => some .cpyBitsout
  | 5 => some .cpyBitsin
  | _ => none

/-- Modes of a multicast copy (12 R274). -/
def cpyMcOf : Nat → Option (SReg → SReg → SReg → SReg → SReg → Instr)
  | 0 => some .cpyMc
  | 2 => some .cpyMcSetfull
  | _ => none

/-- Modes of a reducing copy (12 R274). -/
def cpyRedOf : Nat → Option (Ty → SReg → SReg → SReg → SReg → Instr)
  | 0 => some .cpyRed
  | 2 => some .cpyRedSetfull
  | _ => none

/-- VINT functions with a third operand (02 R58). -/
def vintOf : Nat → Option (Arith → Instr)
  | 0 => some .vadd
  | 1 => some .vsub
  | 2 => some .vadds
  | 3 => some .vsubs
  | 4 => some .vmul
  | 5 => some .vmulh
  | 6 => some .vdiv
  | 7 => some .vrem
  | 8 => some .vmin
  | 9 => some .vmax
  | 10 => some .vand
  | 11 => some .vor
  | 12 => some .vxor
  | 13 => some .vshl
  | 14 => some .vshr
  | 15 => some .vsra
  | _ => none

/-- Unary VINT functions (02 R58). -/
def vintUOf : Nat → Option (Unary → Instr)
  | 16 => some .vabs
  | 17 => some .vneg
  | 18 => some .vclz
  | 19 => some .vpopc
  | _ => none

/-- VCMP conditions (02 R60). -/
def vcmpOf : Nat → Option (Arith → Instr)
  | 0 => some .vcmpeq
  | 1 => some .vcmpne
  | 2 => some .vcmplt
  | 3 => some .vcmpge
  | _ => none

/-- VFCMP conditions (02 R60). -/
def vfcmpOf : Nat → Option (Fin 5 → Arith → Instr)
  | 0 => some .vfcmpeq
  | 1 => some .vfcmpne
  | 2 => some .vfcmplt
  | 3 => some .vfcmpge
  | 4 => some .vfcmple
  | 5 => some .vfcmpgt
  | 6 => some .vfcmpunord
  | 7 => some .vfcmpord
  | _ => none

/-- VFP functions with a third operand (02 R59). -/
def vfpOf : Nat → Option (Fin 5 → Arith → Instr)
  | 0 => some .vfadd
  | 1 => some .vfsub
  | 2 => some .vfmul
  | 3 => some .vfdiv
  | 5 => some .vfmin
  | 6 => some .vfmax
  | _ => none

/-- Unary VFP functions (02 R59). -/
def vfpUOf : Nat → Option (Fin 5 → Unary → Instr)
  | 4 => some .vfsqrt
  | 7 => some .vfabs
  | 8 => some .vfneg
  | _ => none

/-- VFMA functions (02 R59). -/
def vfmaOf : Nat → Option (Fin 5 → Arith → Instr)
  | 0 => some .vfma
  | 1 => some .vfms
  | 2 => some .vfnma
  | 3 => some .vfnms
  | _ => none

/-- VRED operations on integers and floats (02 R61). -/
def vredFOf : Nat → Option (Fin 5 → Unary → Instr)
  | 0 => some .vredsum
  | 1 => some .vredmin
  | 2 => some .vredmax
  | _ => none

/-- VRED operations on integers (02 R61). -/
def vredIOf : Nat → Option (Unary → Instr)
  | 3 => some .vredand
  | 4 => some .vredor
  | 5 => some .vredxor
  | _ => none

/-- VSCAN operations on integers and floats, FN<5> exclusive (02 R61). -/
def vscanFOf : Nat → Option (Fin 5 → Unary → Instr)
  | 0 => some .vscansum
  | 1 => some .vscanmin
  | 2 => some .vscanmax
  | 32 => some .vscanexsum
  | 33 => some .vscanexmin
  | 34 => some .vscanexmax
  | _ => none

/-- VSCAN operations on integers, FN<5> exclusive (02 R61). -/
def vscanIOf : Nat → Option (Unary → Instr)
  | 3 => some .vscanand
  | 4 => some .vscanor
  | 5 => some .vscanxor
  | 35 => some .vscanexand
  | 36 => some .vscanexor
  | 37 => some .vscanexxor
  | _ => none

/-- VTRN patterns (05 R167). -/
def vtrnOf : Nat → Option (Binary → Instr)
  | 0 => some .vtrne
  | 1 => some .vtrno
  | 2 => some .vzipl
  | 3 => some .vziph
  | _ => none

/-- Full/empty forms of VLD (02 R62). -/
def vldOf : Nat → Option (Scope → MemOps → Slot → Option XReg → Instr)
  | 1 => some .vldW
  | 2 => some .vldC
  | 3 => some .vldT
  | _ => none

/-- Full/empty forms of VLDX (02 R62). -/
def vldxOf : Nat → Option (Scope → MemOps → Slot → VReg → Instr)
  | 1 => some .vldxW
  | 2 => some .vldxC
  | 3 => some .vldxT
  | _ => none

/-- Full/empty forms of VLDL (02 R62). -/
def vldlOf : Nat → Option (Scope → MemOps → VReg → Instr)
  | 1 => some .vldlW
  | 2 => some .vldlC
  | 3 => some .vldlT
  | _ => none

/-- Full/empty forms of VST (02 R62). -/
def vstOf : Nat → Option (Scope → MemOps → Slot → Option XReg → Instr)
  | 1 => some .vstF
  | 2 => some .vstS
  | _ => none

/-- Full/empty forms of VSTX (02 R62). -/
def vstxOf : Nat → Option (Scope → MemOps → Slot → VReg → Instr)
  | 1 => some .vstxF
  | 2 => some .vstxS
  | _ => none

/-- Full/empty forms of VSTL (02 R62). -/
noncomputable def vstlOf : Nat → Option (Scope → MemOps → VReg → Instr)
  | 1 => some .vstlF
  | 2 => some .vstlS
  | _ => none

/-- Full/empty forms of VSTN (02 R62). -/
noncomputable def vstnOf : Nat → Option (Scope → MemOps → Slot → XReg → Instr)
  | 1 => some .vstnF
  | 2 => some .vstnS
  | _ => none

/-- VAMO functions (16 R326). -/
noncomputable def vamoOf : Nat → Option (Order → Scope → Slot → Binary → Instr)
  | 0 => some .vamoadd
  | 1 => some .vamomin
  | 2 => some .vamomax
  | 3 => some .vamominn
  | 4 => some .vamomaxn
  | 5 => some .vamoand
  | 6 => some .vamoor
  | 7 => some .vamoxor
  | 8 => some .vamoswap
  | 9 => some .vamocas
  | 10 => some .vamofaddF32
  | 11 => some .vamofaddBf16
  | _ => none

/-- VBUPD functions (16 R326). -/
noncomputable def vbupdOf : Nat → Option (MReg → Ty → VReg → Slot → Instr)
  | 0 => some .vbupdadd
  | 1 => some .vbupdmin
  | 2 => some .vbupdmax
  | 3 => some .vbupdminn
  | 4 => some .vbupdmaxn
  | 5 => some .vbupdand
  | 6 => some .vbupdor
  | 7 => some .vbupdxor
  | _ => none

/-- Anchored products and sums (07 R200). -/
noncomputable def aarithOf : Nat → Option (KReg → KReg → KReg → Binary → Instr)
  | 0 => some .aadd
  | 1 => some .asub
  | 2 => some .amul
  | _ => none

/-- REANC policies (07 R210). -/
noncomputable def reancOf : Nat → Option (KReg → Unary → Instr)
  | 0 => some .reancCentre
  | 1 => some .reancWiden
  | 2 => some .reancNarrow
  | _ => none

/-- A body under a condition. -/
def onlyIf (c : Bool) (i : Option Instr) : Option Instr := if c then i else none

/-- The instruction of a generator word, before the checks of `Instr.wf`: the tail count of its format and its zero
fields (R46, R50). -/
def genBody (w : Nat) : Option Instr :=
  let tl := fld w 0 3
  let op := fld w 3 7
  let a := fld w 10 6
  let a5 := fld w 15 1
  let sd := sregAt w 10
  let sa := sregAt w 16
  let sb := sregAt w 21
  let fn := fld w 26 6
  let imm : BitVec 27 := BitVec.ofNat 27 (fld w 21 27)
  let t1 := fld w 32 16
  let gi := tl == 2 && a5 == 0
  let gr := tl == 1 && a5 == 0
  if 32 ≤ op ∧ op ≤ 40 then
    match aluIOf (op - 32) with
    | some f => onlyIf gi (some (f sd sa imm))
    | none => onlyIf (gi && fld w 27 21 == 0) ((shiftIOf (op - 32)).map (fun f => f sd sa (BitVec.ofNat 6 (fld w 21 6))))
  else if 48 ≤ op ∧ op ≤ 59 then
    onlyIf (tl == 2) ((ldOf ((op - 48) / 4)).map (fun f => f (Size.ofCode (op % 4)) (a5 == 1) sd sa imm))
  else if 64 ≤ op ∧ op ≤ 75 then
    onlyIf gi ((stOf ((op - 64) / 4)).map (fun f => f (Size.ofCode (op % 4)) sd sa imm))
  else if 88 ≤ op ∧ op ≤ 93 then
    onlyIf gi ((branchOf (op - 88)).map (fun f => f sd sa imm))
  else if 120 ≤ op ∧ op ≤ 123 then
    onlyIf (tl ≤ 6) (some (.ghint (Fin.ofNat 4 (op - 120)) (Fin.ofNat 7 tl) (Fin.ofNat 64 a)))
  else match op with
  | 1 => onlyIf (tl == 0 && a == 0) (some .nop)
  | 2 => onlyIf (tl == 0 && a == 0) (some .endI)
  | 3 => onlyIf (tl == 0 && a == 0) (some .yield)
  | 4 => onlyIf (gi && sd == 0 && sa == 0 && fld w 37 11 == 0) (some (.trap (BitVec.ofNat 16 (fld w 21 16))))
  | 5 => onlyIf (tl == 0 && a == 0) (some .eret)
  | 6 => onlyIf (tl == 0 && fld w 14 2 == 0)
      ((FenceKind.ofCode (fld w 10 2)).map (fun k => .fence k (Scope.ofCode (fld w 12 2))))
  | 7 => onlyIf (tl == 0 && fld w 11 5 == 0) (some (if fld w 10 1 = 0 then .vfenceSv else .vfenceVs))
  | 8 => onlyIf (gi && sa == 0 && fld w 33 15 == 0) (some (.sysr sd (Fin.ofNat 4096 (fld w 21 12))))
  | 9 => onlyIf (gi && sa == 0 && fld w 33 15 == 0) (some (.sysw sd (Fin.ofNat 4096 (fld w 21 12))))
  | 10 => onlyIf gi (some (.iclk sd sa imm))
  | 11 => onlyIf (gi && sd == 0) (some (.icunl sa imm))
  | 12 => onlyIf (gr && fn == 0) (some (.launch sd sa sb))
  | 16 => onlyIf gr (match aluOf fn with
      | some f => some (f sd sa sb)
      | none => onlyIf (sb == 0) ((aluUOf fn).map (fun f => f sd sa)))
  | 17 => onlyIf gr (match fpOf (fn % 32) with
      | some f => some (f (SFmt.ofCode (fn / 32)) sd sa sb)
      | none => onlyIf (sb == 0) ((fpUOf (fn % 32)).map (fun f => f (SFmt.ofCode (fn / 32)) sd sa)))
  | 18 => onlyIf (gr && sb.val < 5)
      (some (.cvt (CvtTy.ofCode (fn % 8)) (CvtTy.ofCode (fn / 8)) (Fin.ofNat 5 sb.val) sd sa))
  | 41 => onlyIf (gi && sa == 0) (some (.lpc sd imm))
  | 42 => onlyIf (tl == 4 && a5 == 0) (some (.li sd (BitVec.ofNat 64 (fld w 16 64))))
  | 60 => onlyIf gi (some (.ldct sd sa imm))
  | 61 => onlyIf gi (some (.feget sd sa imm))
  | 76 => onlyIf (gi && sd == 0) (some (.feclr sa imm))
  | 77 => onlyIf (gi && sd == 0) (some (.feset sa imm))
  | 78 => onlyIf gi (some (.pwait sd sa imm))
  | 80 => onlyIf (tl == 2 && a5 == 0 && fld w 38 10 == 0)
      (let o := Order.ofCode (fld w 32 2)
       let sc := Scope.ofCode (fld w 34 2)
       match fn, fld w 36 2 with
       | 10, 2 => some (.amofaddF32 o sc sd sa sb)
       | 11, 1 => some (.amofaddBf16 o sc sd sa sb)
       | n, 2 => (amoOf n).map (fun f => f .w32 o sc sd sa sb)
       | n, 3 => (amoOf n).map (fun f => f .w64 o sc sd sa sb)
       | _, _ => none)
  | 94 => onlyIf (gi && sd == 0 && sa == 0) (some (.j imm))
  | 95 => onlyIf (gi && sa == 0) (some (.jl sd imm))
  | 96 => onlyIf (gi && sd == 0) (some (.jr sa imm))
  | 97 => onlyIf gi (some (.jlr sd sa imm))
  | 98 => onlyIf (gi && sa.val < 2) (some (.loop sd (Fin.ofNat 2 sa.val) imm))
  | 100 => onlyIf (tl == 2 && a5 == 0 && fn == 0 && t1 < 256) (some (.emit (Fin.ofNat 256 t1) sd sa sb))
  | 101 => onlyIf (gr && fn == 0) (some (.emitw sd sa sb))
  | 102 => onlyIf (gr && fn == 0 && sb == 0) (some (.emitb sd sa))
  | 103 => onlyIf (tl == 0 && a5 == 0) (some (.rply sd))
  | 104 => onlyIf (tl == 0) (some (.eqwait (Fin.ofNat 64 a)))
  | 105 => onlyIf (tl == 0 && a5 == 0) (some (.qstat sd))
  | 108 => onlyIf (tl == 2 && a5 == 0 && fld w 46 2 == 0 && fld w 31 1 == 0)
      (let len := sregAt w 32
       let mask := sregAt w 37
       let ty := fld w 42 4
       match fn / 8 % 4 with
       | 0 => onlyIf (mask == 0 && ty == 0) ((cpyOf (fn % 8)).map (fun f => f sd sa sb len))
       | 1 => onlyIf (ty == 0) ((cpyMcOf (fn % 8)).map (fun f => f sd sa sb len mask))
       | 2 => onlyIf (mask == 0) ((cpyRedOf (fn % 8)).bind (fun f => (Ty.ofCode ty).map (fun t => f t sd sa sb len)))
       | _ => none)
  | 109 => onlyIf (gr && sd == 0 && sb == 0 && fn == 0) (some (.cpyw sa))
  | 110 => onlyIf (gr && sb == 0 && fn == 0) (some (.cpyq sd sa))
  | 111 => onlyIf (gr && fn < 16) ((Ty.ofCode fn).map (fun t => .tileset t sd sa sb))
  | _ => none

/-- The generator opcodes of R50. -/
def genOp (op : Nat) : Bool :=
  (1 ≤ op && op ≤ 12) || (16 ≤ op && op ≤ 18) || (32 ≤ op && op ≤ 42) || (48 ≤ op && op ≤ 61) ||
  (64 ≤ op && op ≤ 78) || op == 80 || (88 ≤ op && op ≤ 98) || (100 ≤ op && op ≤ 105) ||
  (108 ≤ op && op ≤ 111) || (120 ≤ op && op ≤ 123)

/-- The generator instruction of a word, or why there is none (R64, R65). -/
def decodeGen (w : Nat) : Except DecodeError Instr :=
  match genBody w with
  | some i => if i.wf then .ok i else .error (.illFormed (fld w 3 7))
  | none => .error (if genOp (fld w 3 7) then .reservedField (fld w 3 7) else .reservedOp (fld w 3 7))

/-! ## Stream words -/

/-- The third operand by FORM and TL (R48): FORM 00 with TL 2, FORM 01 with TL 3, FORM 10 with TL 3, 4 or 6. -/
def thirdAt (w : Nat) : Option Third :=
  match fld w 10 2, fld w 0 3 with
  | 0, 2 => some (.v (vregAt w 32))
  | 1, 3 => if fld w 32 6 = 0 then (slotAt w 48).map .s else none
  | 2, 3 => if fld w 32 6 = 0 then some (.i16 (BitVec.ofNat 16 (fld w 48 16))) else none
  | 2, 4 => if fld w 32 6 = 0 then some (.i32 (BitVec.ofNat 32 (fld w 48 32))) else none
  | 2, 6 => if fld w 32 6 = 0 then some (.i64 (BitVec.ofNat 64 (fld w 48 64))) else none
  | _, _ => none

/-- Operands of an arithmetic word (R47, R48). -/
def arithAt (w : Nat) : Option Arith :=
  (Ty.ofCode (fld w 28 4)).bind fun ty =>
  (thirdAt w).map fun t => { msk := mregAt w 12, ty := ty, vd := vregAt w 16, va := vregAt w 22, third := t }

/-- Operands of a unary word: VV, TL 2, vb zero. -/
def unaryAt (w : Nat) : Option Unary :=
  if fld w 10 2 = 0 ∧ fld w 0 3 = 2 ∧ fld w 32 6 = 0 then
    (Ty.ofCode (fld w 28 4)).map fun ty => { msk := mregAt w 12, ty := ty, vd := vregAt w 16, va := vregAt w 22 }
  else none

/-- Operands of a word with two vector sources: VV and the given TL. -/
def binaryAt (w tl : Nat) : Option Binary :=
  if fld w 10 2 = 0 ∧ fld w 0 3 = tl then
    (Ty.ofCode (fld w 28 4)).map fun ty =>
      { msk := mregAt w 12, ty := ty, vd := vregAt w 16, va := vregAt w 22, vb := vregAt w 32 }
  else none

/-- Operands of a vector load (`ld`) or store: the other T0 register field is zero (06 R173). -/
def memOpsAt (w : Nat) (ld : Bool) : Option MemOps :=
  if fld w (if ld then 22 else 16) 6 = 0 then
    (Ty.ofCode (fld w 28 4)).map fun ty =>
      { msk := mregAt w 12, ty := ty, v := vregAt w (if ld then 16 else 22), hint := Fin.ofNat 16 (fld w 38 4) }
  else none

/-- Rounding 0 to 4 of X4 (R49, 05 R148). -/
def rnd5 (x4 : Nat) : Option (Fin 5) := if x4 < 5 then some (Fin.ofNat 5 x4) else none

/-- A bit that must be zero. -/
def zero? (n : Nat) : Option Unit := if n = 0 then some () else none

/-- A stream word in unit or stride mode (R63, 06 R173). -/
def memSAt (w : Nat) (ld : Bool) (plain : MemOps → Slot → Option XReg → Instr)
    (forms : Nat → Option (Scope → MemOps → Slot → Option XReg → Instr)) : Option Instr :=
  (memOpsAt w ld).bind fun m => (slotAt w 48).bind fun b =>
  (if fld w 10 2 = 1 ∧ fld w 32 6 = 0 then
    (match fld w 42 1, fld w 0 3 with
      | 0, 3 => some none
      | 1, 4 => (xtailAt w 64).map some
      | _, _ => none)
   else none).bind fun st =>
  if fld w 45 3 = 0 then (if fld w 43 2 = 0 then some (plain m b st) else none)
  else (forms (fld w 45 3)).map fun f => f (Scope.ofCode (fld w 43 2)) m b st

/-- A stream word in index mode. -/
def memXAt (w : Nat) (ld : Bool) (plain : MemOps → Slot → VReg → Instr)
    (forms : Nat → Option (Scope → MemOps → Slot → VReg → Instr)) : Option Instr :=
  (memOpsAt w ld).bind fun m => (slotAt w 48).bind fun b =>
  if fld w 10 2 = 1 ∧ fld w 0 3 = 3 ∧ fld w 42 1 = 0 then
    (if fld w 45 3 = 0 then (if fld w 43 2 = 0 then some (plain m b (vregAt w 32)) else none)
     else (forms (fld w 45 3)).map fun f => f (Scope.ofCode (fld w 43 2)) m b (vregAt w 32))
  else none

/-- A stream word in the lane view (12 R273). -/
def memLAt (w : Nat) (ld : Bool) (plain : MemOps → VReg → Instr)
    (forms : Nat → Option (Scope → MemOps → VReg → Instr)) : Option Instr :=
  (memOpsAt w ld).bind fun m =>
  if fld w 10 2 = 0 ∧ fld w 0 3 = 2 ∧ fld w 42 1 = 0 then
    (if fld w 45 3 = 0 then (if fld w 43 2 = 0 then some (plain m (vregAt w 32)) else none)
     else (forms (fld w 45 3)).map fun f => f (Scope.ofCode (fld w 43 2)) m (vregAt w 32))
  else none

/-- Control words, OP 0x01 to 0x0C, and the words of 0x4D to 0x4F and 0x60 to 0x62, which carry no type (R56, R63). -/
noncomputable def ctlBody (w : Nat) : Option Instr :=
  let tl := fld w 0 3
  let op := fld w 3 7
  let form := fld w 10 2
  let msk := fld w 12 3
  let x0 := xregAt w 16
  let off : BitVec 16 := BitVec.ofNat 16 (fld w 16 16)
  let off1 : BitVec 16 := BitVec.ofNat 16 (fld w 32 16)
  let is (t : Nat) : Bool := tl == t && form == 0 && msk == 0
  match op with
  | 1 => onlyIf (is 0) (some .vnop)
  | 2 => onlyIf (is 1 && fld w 24 4 == 0) ((Ty.ofCode (fld w 28 4)).map fun ty => .vsetvl ty x0 (xregAt w 20))
  | 3 =>
    if form = 0 then onlyIf (is 1 && fld w 22 10 == 0) (some (.vsetrowsImm (Fin.ofNat 64 (fld w 16 6))))
    else onlyIf (tl == 1 && form == 1 && msk == 0 && fld w 20 12 == 0) (some (.vsetrowsX x0))
  | 4 => onlyIf (is 2 && fld w 20 12 == 0) (some (.vbstrip x0 off1))
  | 5 => onlyIf (tl == 1 && form == 0) (some (.vbr (mregAt w 12) off))
  | 6 => onlyIf (is 0) (some .vjoin)
  | 7 => onlyIf (is 1) (some (.vj off))
  | 8 => onlyIf (is 2 && fld w 21 11 == 0) (some (.vloop (Fin.ofNat 2 (fld w 16 1)) (xregAt w 17) off1))
  | 9 => onlyIf (is 0) (some .vbret)
  | 10 => onlyIf (is 1 && fld w 20 12 == 0) (some (.vrep x0))
  | 11 => onlyIf (tl == 3 && form == 1 && msk == 0 && fld w 20 2 == 0 && fld w 32 16 == 0)
      ((Ty.ofCode (fld w 28 4)).bind fun ty => (slotAt w 48).map fun s => .vextr ty x0 (vregAt w 22) s)
  | 12 => onlyIf (tl == 3 && form == 1 && msk == 0 && fld w 20 12 == 0 && fld w 32 16 == 0)
      ((slotAt w 48).map fun s => .vmvx x0 s)
  | 77 => onlyIf (is 1 && fld w 22 10 == 0)
      (some (.farrive (Scope.ofCode (fld w 20 2)) (Fin.ofNat 16 (fld w 16 4))))
  | 78 => onlyIf (is 1 && fld w 20 12 == 0) (some (.bwait (Fin.ofNat 16 (fld w 16 4))))
  | 79 => onlyIf (is 2 && fld w 20 12 == 0) (some (.bset (Fin.ofNat 16 (fld w 16 4)) off1))
  | 96 => onlyIf (is 1 && fld w 22 10 == 0) (some (.mclaim (Fin.ofNat 64 (fld w 16 6))))
  | 97 => onlyIf (is 0) (some .mfree)
  | 98 => onlyIf (is 1 && fld w 24 8 == 0) (some (.mclr (BitVec.ofNat 8 (fld w 16 8))))
  | _ => none

/-- The computational words, OP 0x10 to 0x3F (R57 to R61, 05). -/
def compBody (w : Nat) : Option Instr :=
  let op := fld w 3 7
  let fn := fld w 42 6
  let x4 := fld w 38 4
  let vd := vregAt w 16
  let va := vregAt w 22
  let vb := fld w 32 6
  let msk := mregAt w 12
  let vv := fld w 10 2 == 0 && fld w 0 3 == 2
  let vs := fld w 10 2 == 1 && fld w 0 3 == 3
  match op with
  | 16 => onlyIf (x4 == 0) (match vintOf fn with
      | some f => (arithAt w).map f
      | none => (vintUOf fn).bind fun f => (unaryAt w).map f)
  | 17 => onlyIf (x4 == 0) ((vcmpOf fn).bind fun f => (arithAt w).map f)
  | 18 => onlyIf (x4 == 0 && fn == 0) ((arithAt w).map .vsel)
  | 24 => (rnd5 x4).bind fun r => (match vfpOf fn with
      | some f => (arithAt w).map (f r)
      | none => (vfpUOf fn).bind fun f => (unaryAt w).map (f r))
  | 25 => (rnd5 x4).bind fun r => (vfmaOf fn).bind fun f => (arithAt w).map (f r)
  | 26 => (rnd5 x4).bind fun r => (vfcmpOf fn).bind fun f => (arithAt w).map (f r)
  | 27 => onlyIf (fn == 0) ((rnd5 x4).bind fun r => (unaryAt w).map (.vfclass r))
  | 32 => onlyIf (fn < 16 && x4 < 6) ((Ty.ofCode fn).bind fun d => (unaryAt w).map (.vcvt d (Fin.ofNat 6 x4)))
  | 33 => onlyIf (vs && vb == 0 && x4 < 6) ((Ty.ofCode (fn % 16)).bind fun d => (slotAt w 48).bind fun s =>
      (Ty.ofCode (fld w 28 4)).map fun ty =>
        .vqcvt d (Fin.ofNat 6 x4) (Fin.ofNat 4 (fn / 16)) s { msk := msk, ty := ty, vd := vd, va := va })
  | 34 => onlyIf (vv && vb == 0 && fn < 4 && fld w 28 4 == 14) ((rnd5 x4).map fun r => .vcbd msk (cbAt w 42) r vd va)
  | 35 => onlyIf (vv && vb == 0 && fn < 4 && fld w 28 4 == 11) ((rnd5 x4).map fun r => .vcbe msk (cbAt w 42) r vd va)
  | 36 => onlyIf (vs && msk == 0 && fld w 18 30 == 0) ((slotAt w 48).map fun s => .cbld (cbAt w 16) s)
  | 37 => onlyIf (vv && vd == 0 && vb == 0 && fn < 4 && x4 == 0)
      ((Ty.ofCode (fld w 28 4)).map fun ty => .vamax msk ty (cbAt w 42) va)
  | 38 => onlyIf (vv && msk == 0 && fld w 20 8 == 0 && vb == 0 && fn < 4 && x4 < 4)
      ((Ty.ofCode (fld w 28 4)).map fun ty => .vqscale ty (xregAt w 16) (cbAt w 42) (cbAt w 38))
  | 39 => onlyIf (vv && msk == 0 && fld w 16 16 == 0 && vb == 0 && fn < 4 && x4 == 0) (some (.vamstep (cbAt w 42)))
  | 40 => onlyIf (fld w 10 2 == 0 && fld w 0 3 == 4 && fn == 0 && fld w 61 3 == 0 && fld w 72 8 == 0)
      ((Ty.ofCode (fld w 28 4)).map fun ty => .vbdot
        { msk := msk, ty := ty, vd := vd, va := va, vb := vregAt w 32, vsa := vregAt w 48, vsb := vregAt w 54,
          xta := xregAt w 64, xtb := xregAt w 68, cba := cbAt w 38, cbb := cbAt w 40, fin := fld w 60 1 == 1 })
  | 41 => onlyIf (fn < 16 && x4 == 0) ((Ty.ofCode fn).bind fun d => (binaryAt w 2).map (.vpack d))
  | 42 => onlyIf (vv && fn < 16 && x4 == 0 && vb < 2) ((Ty.ofCode fn).bind fun d => (Ty.ofCode (fld w 28 4)).map fun ty =>
      .vunpack d (vb == 1) { msk := msk, ty := ty, vd := vd, va := va })
  | 48 => match vredFOf fn with
      | some f => (rnd5 x4).bind fun r => (unaryAt w).map (f r)
      | none => onlyIf (x4 == 0) ((vredIOf fn).bind fun f => (unaryAt w).map f)
  | 49 => onlyIf (fn == 0) ((rnd5 x4).bind fun r => (unaryAt w).map (.vredso r))
  | 50 => match vscanFOf fn with
      | some f => (rnd5 x4).bind fun r => (unaryAt w).map (f r)
      | none => onlyIf (x4 == 0) ((vscanIOf fn).bind fun f => (unaryAt w).map f)
  | 56 => onlyIf (fn == 0 && x4 == 0) ((arithAt w).map .vslideup)
  | 57 => onlyIf (fn == 0 && x4 == 0) ((arithAt w).map .vslidedn)
  | 58 => onlyIf (fn == 0 && x4 == 0) ((binaryAt w 2).map .vperm)
  | 59 => onlyIf (fn == 0 && x4 == 0) ((unaryAt w).map .vcompress)
  | 60 => onlyIf (fn == 0 && x4 == 0) ((unaryAt w).map .vexpand)
  | 61 => onlyIf (fn == 0 && x4 == 0) ((arithAt w).map .vbcast)
  | 62 => onlyIf (vv && fn == 0 && x4 == 0 && va == 0 && vb == 0)
      ((Ty.ofCode (fld w 28 4)).map fun ty => .viota msk ty vd)
  | 63 => onlyIf (x4 == 0) ((vtrnOf fn).bind fun f => (binaryAt w 2).map f)
  | _ => none

/-- The memory, message, anchored and matrix words (R62, R63). -/
noncomputable def memBody (w : Nat) : Option Instr :=
  let op := fld w 3 7
  let form := fld w 10 2
  let tl := fld w 0 3
  let fn := fld w 42 6
  let x4 := fld w 38 4
  let vdn := fld w 16 6
  let van := fld w 22 6
  let vbn := fld w 32 6
  let vd := vregAt w 16
  let va := vregAt w 22
  let vb := vregAt w 32
  let msk := mregAt w 12
  let k : KReg := xregAt w 38
  let sc := Scope.ofCode (fld w 43 2)
  let vv (t : Nat) : Bool := form == 0 && tl == t
  let vs (t : Nat) : Bool := form == 1 && tl == t
  let ty := Ty.ofCode (fld w 28 4)
  match op with
  | 64 => memSAt w true .vld vldOf
  | 65 => memXAt w true .vldx vldxOf
  | 66 => memLAt w true .vldl vldlOf
  | 67 => memSAt w false .vst vstOf
  | 68 => memXAt w false .vstx vstxOf
  | 69 => memLAt w false .vstl vstlOf
  | 70 => onlyIf (vs 4 && vbn == 0 && fld w 42 1 == 0)
      ((memOpsAt w false).bind fun m => (slotAt w 48).bind fun b => (xtailAt w 64).bind fun p =>
        if fld w 45 3 = 0 then onlyIf (fld w 43 2 == 0) (some (.vstn m b p))
        else (vstnOf (fld w 45 3)).map fun f => f sc m b p)
  | 71 => onlyIf (vs 4 && x4 == 0 && fld w 66 14 == 0)
      ((vamoOf (fn % 16)).bind fun f => ty.bind fun t => (slotAt w 48).map fun b =>
        f (Order.ofCode (fn / 16)) (Scope.ofCode (fld w 64 2)) b { msk := msk, ty := t, vd := vd, va := va, vb := vb })
  | 72 => onlyIf (vs 3 && x4 == 0 && vdn == 0 && vbn == 0)
      ((vbupdOf fn).bind fun f => ty.bind fun t => (slotAt w 48).map fun b => f msk t va b)
  | 73 => onlyIf (vv 2 && fn == 0 && x4 == 0 && vdn == 0) (ty.map fun t => .vsend msk t va vb)
  | 74 => onlyIf (vv 2 && fn == 0 && x4 == 0 && van == 0 && vbn == 0) (ty.map fun t => .vmrecv msk t vd)
  | 75 => onlyIf (vv 2 && fn == 0 && x4 == 0 && vbn == 0 && vdn < 8) (ty.map fun t => .vlock msk t (mregAt w 16) va)
  | 76 => onlyIf (vv 2 && fn == 0 && x4 == 0 && vbn == 0 && vdn == 0) (ty.map fun t => .vunlock msk t va)
  | 80 => onlyIf (vs 4 && van == 0 && vbn == 0 && fld w 42 1 == 0)
      (ty.bind fun t => (slotAt w 48).bind fun b => (xtailAt w 64).bind fun xa =>
        match fld w 45 3, fld w 43 2 with
        | 0, 0 => some (.ald msk t vd k b xa)
        | 1, _ => some (.aldW sc msk t vd k b xa)
        | _, _ => none)
  | 81 => onlyIf (vs 4 && vdn == 0 && vbn == 0 && fld w 42 1 == 0)
      (ty.bind fun t => (slotAt w 48).bind fun b => (xtailAt w 64).bind fun xa =>
        match fld w 45 3, fld w 43 2 with
        | 0, 0 => some (.ast msk t va k b xa)
        | 1, _ => some (.astR sc msk t va k b xa)
        | _, _ => none)
  | 82 | 83 | 84 => onlyIf (fn < 16) ((aarithOf (op - 82)).bind fun f => (binaryAt w 3).bind fun o =>
      (xtailAt w 48).map fun kd => f k (Fin.ofNat 16 fn) kd o)
  | 85 => onlyIf (fn < 16 && fld w 48 16 == 0) ((binaryAt w 3).map fun o => .axpand k (Fin.ofNat 16 fn) o)
  | 86 => onlyIf (fn < 32) ((unaryAt w).map fun o => .adif k (Fin.ofNat 32 fn) o)
  | 87 => onlyIf (fn < 4) ((reancOf fn).bind fun f => (unaryAt w).map fun o => f k o)
  | 88 => onlyIf (fn < 32) ((Ty.ofCode (fn % 16)).bind fun p => (unaryAt w).map fun o =>
      if fn / 16 = 0 then .acvtFromanc k p o else .acvtToanc k p o)
  | 89 => onlyIf (vv 2 && vbn == 0) (ty.bind fun t => match fn with
      | 0 => onlyIf (van == 0) (some (.amovkKv msk t vd k))
      | 1 => onlyIf (vdn == 0) (some (.amovkVk msk t va k))
      | _ => none)
  | 90 => match fn with
      | 0 => (arithAt w).map fun o => .asclPow2 k o
      | 1 => (arithAt w).map fun o => .asclScl k o
      | _ => none
  | 99 => onlyIf (vv 3 && vdn < 8 && fn < 32 && fld w 53 11 == 0)
      (ty.map fun t => .mma msk t (mregAt w 16) va vb (Fin.ofNat 32 fn) (Fin.ofNat 32 (fld w 48 5)) (cbAt w 38) (cbAt w 40))
  | 100 => onlyIf (vv 2 && vdn < 8 && fn == 0)
      (ty.map fun t => .mopa msk t (mregAt w 16) va vb (cbAt w 38) (cbAt w 40))
  | 101 => onlyIf (vv 2 && van < 8 && fn < 32 && x4 == 0 && vbn == 0)
      (ty.map fun t => .mrd msk t (mregAt w 22) vd (Fin.ofNat 32 fn))
  | 102 => onlyIf (vv 2 && vdn < 8 && fn < 32 && x4 == 0 && vbn == 0)
      (ty.map fun t => .mwr msk t (mregAt w 16) va (Fin.ofNat 32 fn))
  | 103 => onlyIf (vs 3 && msk == 0 && vdn < 8 && van == 0 && fn == 0 && vbn < 16)
      (ty.bind fun t => (slotAt w 48).map fun b => .mld t (mregAt w 16) (Fin.ofNat 16 x4) b (xregAt w 32))
  | 104 => onlyIf (vs 3 && msk == 0 && vdn < 8 && van == 0 && fn == 0 && vbn < 16)
      (ty.bind fun t => (slotAt w 48).map fun b => .mst t (mregAt w 16) (Fin.ofNat 16 x4) b (xregAt w 32))
  | _ => none

/-- The stream opcodes of R56, R57 and R63. -/
def streamOp (op : Nat) : Bool :=
  (1 ≤ op && op ≤ 12) || (16 ≤ op && op ≤ 18) || (24 ≤ op && op ≤ 27) || (32 ≤ op && op ≤ 42) ||
  (48 ≤ op && op ≤ 50) || (56 ≤ op && op ≤ 90) || (96 ≤ op && op ≤ 104) || (112 ≤ op && op ≤ 119)

/-- The word of a stream encoding, before the checks of `Instr.wf`. RSVZ must be zero on every word (R47, R64). -/
noncomputable def streamBody (w : Nat) : Option Instr :=
  let op := fld w 3 7
  if fld w 15 1 = 1 then none
  else if 112 ≤ op ∧ op ≤ 119 then
    onlyIf (fld w 0 3 ≤ 6) (some (.vhint (Fin.ofNat 8 (op - 112)) (Fin.ofNat 7 (fld w 0 3)) (Fin.ofNat 32 (fld w 10 5))))
  else if op ≤ 12 ∨ (77 ≤ op ∧ op ≤ 79) ∨ (96 ≤ op ∧ op ≤ 98) then ctlBody w
  else if op < 64 then compBody w
  else memBody w

/-- The stream word of an encoding, or why there is none (R64, R65). -/
noncomputable def decodeStream (w : Nat) : Except DecodeError Instr :=
  match streamBody w with
  | some i => if i.wf then .ok i else .error (.illFormed (fld w 3 7))
  | none => .error (if streamOp (fld w 3 7) then .reservedField (fld w 3 7) else .reservedOp (fld w 3 7))

/-- The bits of an instruction of `TL + 1` halfwords; bits above its last tail are ignored (R47). -/
def trimWord (w : Nat) : Nat := w % 2 ^ (16 * (fld w 0 3 + 1))

/-- The instruction whose bits are `w`, as spec/opcode_table.json numbers them: bits 15 to 0 are the head and the tails
follow, every bit above `nbits` zero. A generator's encoding and a stream word's can be the same bits, told apart by who
fetches them (R44); the generator's reading is tried first. -/
noncomputable def decodeTableWord (nbits w : Nat) : Option Instr :=
  match decodeGen (trimWord (w % 2 ^ nbits)) with
  | .ok i => some i
  | .error _ => (decodeStream (trimWord (w % 2 ^ nbits))).toOption

/-! ## The encoder -/

/-- A GN instruction (R46). -/
def gn (op a : Nat) : Nat := 8 * op + 1024 * a
/-- A GR instruction: A, sa, sb, FN (R46). -/
def gr (op a sa sb fn : Nat) : Nat := 1 + 8 * op + 1024 * a + 65536 * (sa + 32 * sb + 1024 * fn)
/-- A GI, GB or GS instruction: A, the register of the tail, imm27 (R46). -/
def gi (op a r imm : Nat) : Nat := 2 + 8 * op + 1024 * a + 65536 * (r + 32 * imm)
/-- A GX or GE instruction: A, sa, sb, FN, T1 (R46). -/
def gx (op a sa sb fn t1 : Nat) : Nat :=
  2 + 8 * op + 1024 * a + 65536 * (sa + 32 * sb + 1024 * fn) + 4294967296 * t1

/-- The number of a generator instruction. -/
def encodeGen : Instr → Option Nat
  | .nop  => some (gn 1 0)
  | .endI  => some (gn 2 0)
  | .yield  => some (gn 3 0)
  | .trap code => some (gi 4 0 0 code.toNat)
  | .eret  => some (gn 5 0)
  | .fence k sc => some (gn 6 (k.code + 4 * sc.code))
  | .vfenceSv  => some (gn 7 0)
  | .vfenceVs  => some (gn 7 1)
  | .sysr sd n => some (gi 8 sd 0 n)
  | .sysw src n => some (gi 9 src 0 n)
  | .iclk sd sa i => some (gi 10 sd sa i.toNat)
  | .icunl sa i => some (gi 11 0 sa i.toNat)
  | .launch sd sa sb => some (gr 12 sd sa sb 0)
  | .add sd sa sb => some (gr 16 sd sa sb 0)
  | .sub sd sa sb => some (gr 16 sd sa sb 1)
  | .and sd sa sb => some (gr 16 sd sa sb 2)
  | .or sd sa sb => some (gr 16 sd sa sb 3)
  | .xor sd sa sb => some (gr 16 sd sa sb 4)
  | .andn sd sa sb => some (gr 16 sd sa sb 5)
  | .orn sd sa sb => some (gr 16 sd sa sb 6)
  | .xnor sd sa sb => some (gr 16 sd sa sb 7)
  | .shl sd sa sb => some (gr 16 sd sa sb 8)
  | .shr sd sa sb => some (gr 16 sd sa sb 9)
  | .sra sd sa sb => some (gr 16 sd sa sb 10)
  | .rol sd sa sb => some (gr 16 sd sa sb 11)
  | .ror sd sa sb => some (gr 16 sd sa sb 12)
  | .slt sd sa sb => some (gr 16 sd sa sb 13)
  | .sltn sd sa sb => some (gr 16 sd sa sb 14)
  | .seq sd sa sb => some (gr 16 sd sa sb 15)
  | .min sd sa sb => some (gr 16 sd sa sb 16)
  | .max sd sa sb => some (gr 16 sd sa sb 17)
  | .minn sd sa sb => some (gr 16 sd sa sb 18)
  | .maxn sd sa sb => some (gr 16 sd sa sb 19)
  | .mul sd sa sb => some (gr 16 sd sa sb 20)
  | .mulh sd sa sb => some (gr 16 sd sa sb 21)
  | .mulhn sd sa sb => some (gr 16 sd sa sb 22)
  | .div sd sa sb => some (gr 16 sd sa sb 23)
  | .divn sd sa sb => some (gr 16 sd sa sb 24)
  | .rem sd sa sb => some (gr 16 sd sa sb 25)
  | .remn sd sa sb => some (gr 16 sd sa sb 26)
  | .clz sd sa => some (gr 16 sd sa 0 27)
  | .ctz sd sa => some (gr 16 sd sa 0 28)
  | .popc sd sa => some (gr 16 sd sa 0 29)
  | .brev sd sa => some (gr 16 sd sa 0 30)
  | .bswap sd sa => some (gr 16 sd sa 0 31)
  | .fadd f sd sa sb => some (gr 17 sd sa sb (0 + 32 * f.code))
  | .fsub f sd sa sb => some (gr 17 sd sa sb (1 + 32 * f.code))
  | .fmul f sd sa sb => some (gr 17 sd sa sb (2 + 32 * f.code))
  | .fdiv f sd sa sb => some (gr 17 sd sa sb (3 + 32 * f.code))
  | .fmin f sd sa sb => some (gr 17 sd sa sb (5 + 32 * f.code))
  | .fmax f sd sa sb => some (gr 17 sd sa sb (6 + 32 * f.code))
  | .feq f sd sa sb => some (gr 17 sd sa sb (7 + 32 * f.code))
  | .flt f sd sa sb => some (gr 17 sd sa sb (8 + 32 * f.code))
  | .fle f sd sa sb => some (gr 17 sd sa sb (9 + 32 * f.code))
  | .fsqrt f sd sa => some (gr 17 sd sa 0 (4 + 32 * f.code))
  | .fclass f sd sa => some (gr 17 sd sa 0 (10 + 32 * f.code))
  | .fneg f sd sa => some (gr 17 sd sa 0 (11 + 32 * f.code))
  | .fabs f sd sa => some (gr 17 sd sa 0 (12 + 32 * f.code))
  | .cvt src dst r sd sa => some (gr 18 sd sa r (src.code + 8 * dst.code))
  | .addi sd sa i => some (gi (32 + 0) sd sa i.toNat)
  | .andi sd sa i => some (gi (32 + 1) sd sa i.toNat)
  | .ori sd sa i => some (gi (32 + 2) sd sa i.toNat)
  | .xori sd sa i => some (gi (32 + 3) sd sa i.toNat)
  | .slti sd sa i => some (gi (32 + 7) sd sa i.toNat)
  | .sltni sd sa i => some (gi (32 + 8) sd sa i.toNat)
  | .shli sd sa i => some (gi (32 + 4) sd sa i.toNat)
  | .shri sd sa i => some (gi (32 + 5) sd sa i.toNat)
  | .srai sd sa i => some (gi (32 + 6) sd sa i.toNat)
  | .lpc sd i => some (gi 41 sd 0 i.toNat)
  | .li sd i => some (4 + 8 * 42 + 1024 * sd.val + 65536 * i.toNat)
  | .ld sz x sd sa i => some (gi (48 + 4 * 0 + sz.code) (sd + 32 * x.toNat) sa i.toNat)
  | .ldW sz x sd sa i => some (gi (48 + 4 * 1 + sz.code) (sd + 32 * x.toNat) sa i.toNat)
  | .ldC sz x sd sa i => some (gi (48 + 4 * 2 + sz.code) (sd + 32 * x.toNat) sa i.toNat)
  | .ldct sd sa i => some (gi 60 sd sa i.toNat)
  | .feget sd sa i => some (gi 61 sd sa i.toNat)
  | .st sz src b i => some (gi (64 + 4 * 0 + sz.code) src b i.toNat)
  | .stF sz src b i => some (gi (64 + 4 * 1 + sz.code) src b i.toNat)
  | .stS sz src b i => some (gi (64 + 4 * 2 + sz.code) src b i.toNat)
  | .feclr b i => some (gi 76 0 b i.toNat)
  | .feset b i => some (gi 77 0 b i.toNat)
  | .pwait src b i => some (gi 78 src b i.toNat)
  | .amoadd sz o sc sd sa sb => some (gx 80 sd sa sb 0 (o.code + 4 * sc.code + 16 * sz.code))
  | .amomin sz o sc sd sa sb => some (gx 80 sd sa sb 1 (o.code + 4 * sc.code + 16 * sz.code))
  | .amomax sz o sc sd sa sb => some (gx 80 sd sa sb 2 (o.code + 4 * sc.code + 16 * sz.code))
  | .amominn sz o sc sd sa sb => some (gx 80 sd sa sb 3 (o.code + 4 * sc.code + 16 * sz.code))
  | .amomaxn sz o sc sd sa sb => some (gx 80 sd sa sb 4 (o.code + 4 * sc.code + 16 * sz.code))
  | .amoand sz o sc sd sa sb => some (gx 80 sd sa sb 5 (o.code + 4 * sc.code + 16 * sz.code))
  | .amoor sz o sc sd sa sb => some (gx 80 sd sa sb 6 (o.code + 4 * sc.code + 16 * sz.code))
  | .amoxor sz o sc sd sa sb => some (gx 80 sd sa sb 7 (o.code + 4 * sc.code + 16 * sz.code))
  | .amoswap sz o sc sd sa sb => some (gx 80 sd sa sb 8 (o.code + 4 * sc.code + 16 * sz.code))
  | .amocas sz o sc sd sa sb => some (gx 80 sd sa sb 9 (o.code + 4 * sc.code + 16 * sz.code))
  | .amofaddF32 o sc sd sa sb => some (gx 80 sd sa sb 10 (o.code + 4 * sc.code + 32))
  | .amofaddBf16 o sc sd sa sb => some (gx 80 sd sa sb 11 (o.code + 4 * sc.code + 16))
  | .beq sa sb i => some (gi (88 + 0) sa sb i.toNat)
  | .bne sa sb i => some (gi (88 + 1) sa sb i.toNat)
  | .blt sa sb i => some (gi (88 + 2) sa sb i.toNat)
  | .bge sa sb i => some (gi (88 + 3) sa sb i.toNat)
  | .bltn sa sb i => some (gi (88 + 4) sa sb i.toNat)
  | .bgen sa sb i => some (gi (88 + 5) sa sb i.toNat)
  | .j i => some (gi 94 0 0 i.toNat)
  | .jl sd i => some (gi 95 sd 0 i.toNat)
  | .jr sa i => some (gi 96 0 sa i.toNat)
  | .jlr sd sa i => some (gi 97 sd sa i.toNat)
  | .loop n c i => some (gi 98 n c i.toNat)
  | .emit t s1 s2 s3 => some (gx 100 s1 s2 s3 0 t)
  | .emitw c lo hi => some (gr 101 c lo hi 0)
  | .emitb c a => some (gr 102 c a 0 0)
  | .rply sd => some (gn 103 sd)
  | .eqwait n => some (gn 104 n)
  | .qstat sd => some (gn 105 sd)
  | .cpy sd d s l => some (gx 108 sd d s 0 l)
  | .cpyWith sd d s l => some (gx 108 sd d s 1 l)
  | .cpySetfull sd d s l => some (gx 108 sd d s 2 l)
  | .cpySetempty sd d s l => some (gx 108 sd d s 3 l)
  | .cpyBitsout sd d s l => some (gx 108 sd d s 4 l)
  | .cpyBitsin sd d s l => some (gx 108 sd d s 5 l)
  | .cpyMc sd d s l m => some (gx 108 sd d s (8 + 0) (l + 32 * m))
  | .cpyMcSetfull sd d s l m => some (gx 108 sd d s (8 + 2) (l + 32 * m))
  | .cpyRed ty sd d s l => some (gx 108 sd d s (16 + 0) (l + 1024 * ty.code))
  | .cpyRedSetfull ty sd d s l => some (gx 108 sd d s (16 + 2) (l + 1024 * ty.code))
  | .cpyw sa => some (gr 109 0 sa 0 0)
  | .cpyq sd sa => some (gr 110 sd sa 0 0)
  | .tileset ty m n k => some (gr 111 m n k ty.code)
  | .ghint k tl a => some (tl + 8 * (120 + k) + 1024 * a)
  | _ => none

/-- A stream head: OP, TL, FORM, MSK (R47). -/
def ctl (op tl form msk : Nat) : Nat := tl + 8 * op + 1024 * form + 4096 * msk
/-- T0 in its place. -/
def t0w (t : Nat) : Nat := 65536 * t
/-- T1 in its place. -/
def t1w (t : Nat) : Nat := 4294967296 * t
/-- T2 in its place. -/
def t2w (t : Nat) : Nat := 281474976710656 * t
/-- T3 in its place. -/
def t3w (t : Nat) : Nat := 18446744073709551616 * t

/-- A stream word with the standard T0 and T1 (R47). -/
def vw (op tl form msk : Nat) (ty : Ty) (va vd fn x4 vb : Nat) : Nat :=
  ctl op tl form msk + t0w (vd + 64 * va + 4096 * ty.code) + t1w (vb + 64 * x4 + 1024 * fn)

/-- An arithmetic word (R48). -/
def arith (op fn x4 : Nat) (o : Arith) : Nat :=
  match o.third with
  | .v r => vw op 2 0 o.msk o.ty o.va o.vd fn x4 r
  | .s s => vw op 3 1 o.msk o.ty o.va o.vd fn x4 0 + t2w s.code
  | .i16 i => vw op 3 2 o.msk o.ty o.va o.vd fn x4 0 + t2w i.toNat
  | .i32 i => vw op 4 2 o.msk o.ty o.va o.vd fn x4 0 + t2w i.toNat
  | .i64 i => vw op 6 2 o.msk o.ty o.va o.vd fn x4 0 + t2w i.toNat

/-- A unary word. -/
def unary (op fn x4 : Nat) (o : Unary) : Nat := vw op 2 0 o.msk o.ty o.va o.vd fn x4 0
/-- A word with two vector sources. -/
def binary (op fn x4 : Nat) (o : Binary) : Nat := vw op 2 0 o.msk o.ty o.va o.vd fn x4 o.vb

/-- A unit or stride access. -/
def memS (op fn : Nat) (m : MemOps) (b : Slot) (st : Option XReg) (ld : Bool) : Nat :=
  let va := if ld then 0 else m.v.val
  let vd := if ld then m.v.val else 0
  match st with
  | none => vw op 3 1 m.msk m.ty va vd fn m.hint 0 + t2w b.code
  | some x => vw op 4 1 m.msk m.ty va vd (fn + 1) m.hint 0 + t2w b.code + t3w x
/-- An index access. -/
def memX (op fn : Nat) (m : MemOps) (b : Slot) (vb : VReg) (ld : Bool) : Nat :=
  vw op 3 1 m.msk m.ty (if ld then 0 else m.v.val) (if ld then m.v.val else 0) fn m.hint vb + t2w b.code
/-- A lane-view access. -/
def memL (op fn : Nat) (m : MemOps) (vb : VReg) (ld : Bool) : Nat :=
  vw op 2 0 m.msk m.ty (if ld then 0 else m.v.val) (if ld then m.v.val else 0) fn m.hint vb

/-- The number of a stream word. -/
def encodeStream : Instr → Option Nat
  | .vnop  => some (ctl 1 0 0 0)
  | .vsetvl ty xd xs => some (ctl 2 1 0 0 + t0w (xd + 16 * xs + 4096 * ty.code))
  | .vsetrowsImm n => some (ctl 3 1 0 0 + t0w n)
  | .vsetrowsX x => some (ctl 3 1 1 0 + t0w x)
  | .vbstrip x off => some (ctl 4 2 0 0 + t0w x + t1w off.toNat)
  | .vbr m off => some (ctl 5 1 0 m + t0w off.toNat)
  | .vjoin  => some (ctl 6 0 0 0)
  | .vj off => some (ctl 7 1 0 0 + t0w off.toNat)
  | .vloop c x off => some (ctl 8 2 0 0 + t0w (c + 2 * x) + t1w off.toNat)
  | .vbret  => some (ctl 9 0 0 0)
  | .vrep x => some (ctl 10 1 0 0 + t0w x)
  | .vextr ty xd va i => some (ctl 11 3 1 0 + t0w (xd + 64 * va + 4096 * ty.code) + t2w i.code)
  | .vmvx xd v => some (ctl 12 3 1 0 + t0w xd + t2w v.code)
  | .vadd o => some (arith 16 0 0 o)
  | .vsub o => some (arith 16 1 0 o)
  | .vadds o => some (arith 16 2 0 o)
  | .vsubs o => some (arith 16 3 0 o)
  | .vmul o => some (arith 16 4 0 o)
  | .vmulh o => some (arith 16 5 0 o)
  | .vdiv o => some (arith 16 6 0 o)
  | .vrem o => some (arith 16 7 0 o)
  | .vmin o => some (arith 16 8 0 o)
  | .vmax o => some (arith 16 9 0 o)
  | .vand o => some (arith 16 10 0 o)
  | .vor o => some (arith 16 11 0 o)
  | .vxor o => some (arith 16 12 0 o)
  | .vshl o => some (arith 16 13 0 o)
  | .vshr o => some (arith 16 14 0 o)
  | .vsra o => some (arith 16 15 0 o)
  | .vabs o => some (unary 16 16 0 o)
  | .vneg o => some (unary 16 17 0 o)
  | .vclz o => some (unary 16 18 0 o)
  | .vpopc o => some (unary 16 19 0 o)
  | .vcmpeq o => some (arith 17 0 0 o)
  | .vcmpne o => some (arith 17 1 0 o)
  | .vcmplt o => some (arith 17 2 0 o)
  | .vcmpge o => some (arith 17 3 0 o)
  | .vfcmpeq r o => some (arith 26 0 r o)
  | .vfcmpne r o => some (arith 26 1 r o)
  | .vfcmplt r o => some (arith 26 2 r o)
  | .vfcmpge r o => some (arith 26 3 r o)
  | .vfcmple r o => some (arith 26 4 r o)
  | .vfcmpgt r o => some (arith 26 5 r o)
  | .vfcmpunord r o => some (arith 26 6 r o)
  | .vfcmpord r o => some (arith 26 7 r o)
  | .vsel o => some (arith 18 0 0 o)
  | .vfclass r o => some (unary 27 0 r o)
  | .vfadd r o => some (arith 24 0 r o)
  | .vfsub r o => some (arith 24 1 r o)
  | .vfmul r o => some (arith 24 2 r o)
  | .vfdiv r o => some (arith 24 3 r o)
  | .vfmin r o => some (arith 24 5 r o)
  | .vfmax r o => some (arith 24 6 r o)
  | .vfsqrt r o => some (unary 24 4 r o)
  | .vfabs r o => some (unary 24 7 r o)
  | .vfneg r o => some (unary 24 8 r o)
  | .vfma r o => some (arith 25 0 r o)
  | .vfms r o => some (arith 25 1 r o)
  | .vfnma r o => some (arith 25 2 r o)
  | .vfnms r o => some (arith 25 3 r o)
  | .vcvt d r o => some (unary 32 d.code r o)
  | .vqcvt d r cb sc o => some (vw 33 3 1 o.msk o.ty o.va o.vd (d.code + 16 * cb) r 0 + t2w sc.code)
  | .vcbd m cb r vd va => some (vw 34 2 0 m .cb4 va vd cb r 0)
  | .vcbe m cb r vd va => some (vw 35 2 0 m .bf16 va vd cb r 0)
  | .cbld cb b => some (vw 36 3 1 0 .i8 0 cb 0 0 0 + t2w b.code)
  | .vamax m ty h va => some (vw 37 2 0 m ty va 0 h 0 0)
  | .vamstep h => some (vw 39 2 0 0 .i8 0 0 h 0 0)
  | .vqscale ty xd h cb => some (vw 38 2 0 0 ty 0 xd h cb 0)
  | .vbdot o => some (vw 40 4 0 o.msk o.ty o.va o.vd 0 (o.cba + 4 * o.cbb) o.vb + t2w (o.vsa + 64 * o.vsb + 4096 * o.fin.toNat) + t3w (o.xta + 16 * o.xtb))
  | .vpack d o => some (binary 41 d.code 0 o)
  | .vunpack d hi o => some (vw 42 2 0 o.msk o.ty o.va o.vd d.code 0 hi.toNat)
  | .vredsum r o => some (unary 48 0 r o)
  | .vredmin r o => some (unary 48 1 r o)
  | .vredmax r o => some (unary 48 2 r o)
  | .vredand o => some (unary 48 3 0 o)
  | .vredor o => some (unary 48 4 0 o)
  | .vredxor o => some (unary 48 5 0 o)
  | .vredso r o => some (unary 49 0 r o)
  | .vscansum r o => some (unary 50 0 r o)
  | .vscanmin r o => some (unary 50 1 r o)
  | .vscanmax r o => some (unary 50 2 r o)
  | .vscanexsum r o => some (unary 50 32 r o)
  | .vscanexmin r o => some (unary 50 33 r o)
  | .vscanexmax r o => some (unary 50 34 r o)
  | .vscanand o => some (unary 50 3 0 o)
  | .vscanor o => some (unary 50 4 0 o)
  | .vscanxor o => some (unary 50 5 0 o)
  | .vscanexand o => some (unary 50 35 0 o)
  | .vscanexor o => some (unary 50 36 0 o)
  | .vscanexxor o => some (unary 50 37 0 o)
  | .vslideup o => some (arith (56 + 0) 0 0 o)
  | .vslidedn o => some (arith (56 + 1) 0 0 o)
  | .vperm o => some (binary 58 0 0 o)
  | .vcompress o => some (unary (59 + 0) 0 0 o)
  | .vexpand o => some (unary (59 + 1) 0 0 o)
  | .vbcast o => some (arith 61 0 0 o)
  | .viota m ty vd => some (vw 62 2 0 m ty 0 vd 0 0 0)
  | .vtrne o => some (binary 63 0 0 o)
  | .vtrno o => some (binary 63 1 0 o)
  | .vzipl o => some (binary 63 2 0 o)
  | .vziph o => some (binary 63 3 0 o)
  | .vld m b st => some (memS 64 0 m b st true)
  | .vldW sc m b st => some (memS 64 (8 * 1 + 2 * sc.code) m b st true)
  | .vldC sc m b st => some (memS 64 (8 * 2 + 2 * sc.code) m b st true)
  | .vldT sc m b st => some (memS 64 (8 * 3 + 2 * sc.code) m b st true)
  | .vldx m b vb => some (memX 65 0 m b vb true)
  | .vldxW sc m b vb => some (memX 65 (8 * 1 + 2 * sc.code) m b vb true)
  | .vldxC sc m b vb => some (memX 65 (8 * 2 + 2 * sc.code) m b vb true)
  | .vldxT sc m b vb => some (memX 65 (8 * 3 + 2 * sc.code) m b vb true)
  | .vldl m vb => some (memL 66 0 m vb true)
  | .vldlW sc m vb => some (memL 66 (8 * 1 + 2 * sc.code) m vb true)
  | .vldlC sc m vb => some (memL 66 (8 * 2 + 2 * sc.code) m vb true)
  | .vldlT sc m vb => some (memL 66 (8 * 3 + 2 * sc.code) m vb true)
  | .vst m b st => some (memS 67 0 m b st false)
  | .vstF sc m b st => some (memS 67 (8 * 1 + 2 * sc.code) m b st false)
  | .vstS sc m b st => some (memS 67 (8 * 2 + 2 * sc.code) m b st false)
  | .vstx m b vb => some (memX 68 0 m b vb false)
  | .vstxF sc m b vb => some (memX 68 (8 * 1 + 2 * sc.code) m b vb false)
  | .vstxS sc m b vb => some (memX 68 (8 * 2 + 2 * sc.code) m b vb false)
  | .vstl m vb => some (memL 69 0 m vb false)
  | .vstlF sc m vb => some (memL 69 (8 * 1 + 2 * sc.code) m vb false)
  | .vstlS sc m vb => some (memL 69 (8 * 2 + 2 * sc.code) m vb false)
  | .vstn m b p => some (vw 70 4 1 m.msk m.ty m.v 0 0 m.hint 0 + t2w b.code + t3w p)
  | .vstnF sc m b p => some (vw 70 4 1 m.msk m.ty m.v 0 (8 * 1 + 2 * sc.code) m.hint 0 + t2w b.code + t3w p)
  | .vstnS sc m b p => some (vw 70 4 1 m.msk m.ty m.v 0 (8 * 2 + 2 * sc.code) m.hint 0 + t2w b.code + t3w p)
  | .vamoadd od sc b o => some (vw 71 4 1 o.msk o.ty o.va o.vd (0 + 16 * od.code) 0 o.vb + t2w b.code + t3w sc.code)
  | .vamomin od sc b o => some (vw 71 4 1 o.msk o.ty o.va o.vd (1 + 16 * od.code) 0 o.vb + t2w b.code + t3w sc.code)
  | .vamomax od sc b o => some (vw 71 4 1 o.msk o.ty o.va o.vd (2 + 16 * od.code) 0 o.vb + t2w b.code + t3w sc.code)
  | .vamominn od sc b o => some (vw 71 4 1 o.msk o.ty o.va o.vd (3 + 16 * od.code) 0 o.vb + t2w b.code + t3w sc.code)
  | .vamomaxn od sc b o => some (vw 71 4 1 o.msk o.ty o.va o.vd (4 + 16 * od.code) 0 o.vb + t2w b.code + t3w sc.code)
  | .vamoand od sc b o => some (vw 71 4 1 o.msk o.ty o.va o.vd (5 + 16 * od.code) 0 o.vb + t2w b.code + t3w sc.code)
  | .vamoor od sc b o => some (vw 71 4 1 o.msk o.ty o.va o.vd (6 + 16 * od.code) 0 o.vb + t2w b.code + t3w sc.code)
  | .vamoxor od sc b o => some (vw 71 4 1 o.msk o.ty o.va o.vd (7 + 16 * od.code) 0 o.vb + t2w b.code + t3w sc.code)
  | .vamoswap od sc b o => some (vw 71 4 1 o.msk o.ty o.va o.vd (8 + 16 * od.code) 0 o.vb + t2w b.code + t3w sc.code)
  | .vamocas od sc b o => some (vw 71 4 1 o.msk o.ty o.va o.vd (9 + 16 * od.code) 0 o.vb + t2w b.code + t3w sc.code)
  | .vamofaddF32 od sc b o => some (vw 71 4 1 o.msk o.ty o.va o.vd (10 + 16 * od.code) 0 o.vb + t2w b.code + t3w sc.code)
  | .vamofaddBf16 od sc b o => some (vw 71 4 1 o.msk o.ty o.va o.vd (11 + 16 * od.code) 0 o.vb + t2w b.code + t3w sc.code)
  | .vbupdadd m ty va b => some (vw 72 3 1 m ty va 0 0 0 0 + t2w b.code)
  | .vbupdmin m ty va b => some (vw 72 3 1 m ty va 0 1 0 0 + t2w b.code)
  | .vbupdmax m ty va b => some (vw 72 3 1 m ty va 0 2 0 0 + t2w b.code)
  | .vbupdminn m ty va b => some (vw 72 3 1 m ty va 0 3 0 0 + t2w b.code)
  | .vbupdmaxn m ty va b => some (vw 72 3 1 m ty va 0 4 0 0 + t2w b.code)
  | .vbupdand m ty va b => some (vw 72 3 1 m ty va 0 5 0 0 + t2w b.code)
  | .vbupdor m ty va b => some (vw 72 3 1 m ty va 0 6 0 0 + t2w b.code)
  | .vbupdxor m ty va b => some (vw 72 3 1 m ty va 0 7 0 0 + t2w b.code)
  | .vsend m ty va vb => some (vw 73 2 0 m ty va 0 0 0 vb)
  | .vmrecv m ty vd => some (vw 74 2 0 m ty 0 vd 0 0 0)
  | .vlock m ty md va => some (vw 75 2 0 m ty va md 0 0 0)
  | .vunlock m ty va => some (vw 76 2 0 m ty va 0 0 0 0)
  | .farrive sc b => some (ctl 77 1 0 0 + t0w (b + 16 * sc.code))
  | .bwait b => some (ctl 78 1 0 0 + t0w b)
  | .bset b n => some (ctl 79 2 0 0 + t0w b + t1w n.toNat)
  | .ald m ty v k b xa => some (vw 80 4 1 m ty 0 v 0 k 0 + t2w b.code + t3w xa)
  | .aldW sc m ty v k b xa => some (vw 80 4 1 m ty 0 v (8 + 2 * sc.code) k 0 + t2w b.code + t3w xa)
  | .ast m ty v k b xa => some (vw 81 4 1 m ty v 0 0 k 0 + t2w b.code + t3w xa)
  | .astR sc m ty v k b xa => some (vw 81 4 1 m ty v 0 (8 + 2 * sc.code) k 0 + t2w b.code + t3w xa)
  | .aadd ka kb kd o => some (vw (82 + 0) 3 0 o.msk o.ty o.va o.vd kb ka o.vb + t2w kd)
  | .asub ka kb kd o => some (vw (82 + 1) 3 0 o.msk o.ty o.va o.vd kb ka o.vb + t2w kd)
  | .amul ka kb kd o => some (vw (82 + 2) 3 0 o.msk o.ty o.va o.vd kb ka o.vb + t2w kd)
  | .axpand ka kb o => some (vw 85 3 0 o.msk o.ty o.va o.vd kb ka o.vb)
  | .adif k h o => some (unary 86 h k o)
  | .reancCentre k o => some (unary 87 0 k o)
  | .reancWiden k o => some (unary 87 1 k o)
  | .reancNarrow k o => some (unary 87 2 k o)
  | .acvtFromanc k p o => some (unary 88 (p.code + 16 * 0) k o)
  | .acvtToanc k p o => some (unary 88 (p.code + 16 * 1) k o)
  | .amovkKv m ty vd k => some (vw 89 2 0 m ty 0 vd 0 k 0)
  | .amovkVk m ty va k => some (vw 89 2 0 m ty va 0 1 k 0)
  | .asclPow2 k o => some (arith 90 0 k o)
  | .asclScl k o => some (arith 90 1 k o)
  | .mclaim w => some (ctl 96 1 0 0 + t0w w)
  | .mfree  => some (ctl 97 0 0 0)
  | .mclr z => some (ctl 98 1 0 0 + t0w z.toNat)
  | .mma m ty zd va vb m1 n1 ca cb => some (vw 99 3 0 m ty va zd m1 (ca + 4 * cb) vb + t2w n1)
  | .mopa m ty zd va vb ca cb => some (vw 100 2 0 m ty va zd 0 (ca + 4 * cb) vb)
  | .mrd m ty z v r => some (vw 101 2 0 m ty z v r 0 0)
  | .mwr m ty z v r => some (vw 102 2 0 m ty v z r 0 0)
  | .mld ty z h b xs => some (vw (103 + 0) 3 1 0 ty 0 z 0 h xs + t2w b.code)
  | .mst ty z h b xs => some (vw (103 + 1) 3 1 0 ty 0 z 0 h xs + t2w b.code)
  | .vhint k tl a => some (tl + 8 * (112 + k) + 1024 * a)
  | _ => none

/-- The halfwords of a number: its head and as many tails as its head names (R43). -/
def halvesOf (w : Nat) : List Half :=
  (List.range (fld w 0 3 + 1)).map fun i => BitVec.ofNat 16 (fld w (16 * i) 16)

/-- The words of an instruction: its head and tails. Block-call words (04 R138) and the machine's own steps have none. -/
def encode (i : Instr) : Option (List Half) :=
  ((encodeGen i).orElse fun _ => encodeStream i).map halvesOf

/-- The number of a list of halfwords, the head lowest. -/
def wordOf : List Half → Nat
  | [] => 0
  | h :: t => h.toNat + 65536 * wordOf t

end Sys2Proof
end

