-- ==== Sys2Proof/Machine/Operands.lean ====
section
/-!
DEFINITION. The operands of stream words: elements of the register files (01 R10, 03 R74), with the dirty tags of the save engine
(13 R286) and the portable register backing (20 R390, R392), masks, scalar slots and immediates (02 R48, 05 R145), and anchor
entries (01 R22).
-/
namespace Sys2Proof.Machine

/-! ## Vector registers -/

/-- Bits of a vector register that the lanes hold. -/
def Strand.phys (st : Strand) : Nat := st.lanes * 64

/-- Key of byte `o` of the strand's portable register backing (20 R392). -/
def Strand.backKey (st : Strand) (o : Nat) : Nat := scratchKey st.coreNo ((lpBacking st.half st.stratB).1 + o)

/-- Backing bytes of register `v` begin here. -/
def Strand.backReg (st : Strand) (v : Nat) : Nat := v * ((16384 - st.phys) / 8)

/-- Element `i` of width `w` of register `v`. -/
def State.vGet (s : State) (v w i : Nat) : Nat :=
  if s.cur.lp && s.cur.phys ≤ w * i then
    Memory.value s.mem (s.cur.backKey (s.cur.backReg v + (w * i - s.cur.phys) / 8)) (w / 8)
  else elemGet (vget s.cur.files.v v) w i

/-- Files with vector register `v` written at element group `g`: dirty, and VLT raised (13 R286). -/
def Files.markV (f : Files) (v g lanes : Nat) : Files :=
  { f with dirty := f.dirty ||| (1#104 <<< v), vlt := vset f.vlt v (max (vget f.vlt v) (min (g + 1) lanes)) }

/-- Files with the dirty tag of bit `n` set. -/
def Files.mark (f : Files) (n : Nat) : Files := { f with dirty := f.dirty ||| (1#104 <<< n) }

/-- Writes element `i` of width `w` of register `v`. -/
def State.vPut (s : State) (v w i x : Nat) : State :=
  if s.cur.lp && s.cur.phys ≤ w * i then
    { s with mem := Memory.setMany s.mem (s.cur.backKey (s.cur.backReg v + (w * i - s.cur.phys) / 8)) (leBytes x (w / 8))
             cur := { s.cur with files := s.cur.files.markV v (w * i / 64) s.cur.lanes } }
  else
    s.onCur fun st =>
      { st with files := ({ st.files with v := vset st.files.v v (elemSet (vget st.files.v v) w i x) }).markV v (w * i / 64) st.lanes }

/-! ## Masks -/

/-- The upper half of a mask of a half-shape LP strand lives in the backing at this offset. -/
def backMask (m : Nat) : Nat := 0x1C000 + 64 * m

/-- A mask register as the strand sees it. -/
def State.maskReg (s : State) (m : Nat) : BitVec 1024 :=
  if s.cur.lp && s.cur.half then
    setField (vget s.cur.files.m m) 512 512 (Memory.value s.mem (s.cur.backKey (backMask m)) 64)
  else vget s.cur.files.m m

/-- Writes bit `i` of a mask register. -/
def State.maskPut (s : State) (m i : Nat) (b : Bool) : State :=
  let v := if b then 1 else 0
  if s.cur.lp && s.cur.half && 512 ≤ i then
    let k := s.cur.backKey (backMask m + (i - 512) / 8)
    let old := (Memory.get s.mem k).toNat
    { s with mem := Memory.set s.mem k (BitVec.ofNat 8 (putBits old (i % 8) 1 v))
             cur := { s.cur with files := s.cur.files.mark (64 + m) } }
  else s.onCur fun st => { st with files := { st.files with m := vset st.files.m m (setField (vget st.files.m m) i 1 v) }.mark (64 + m) }

/-- The elements that a word acts on: its mask, as it stands before the word, and the fragment mask (05 R145, 06 R194). -/
def State.activeMask (s : State) (msk : Nat) : BitVec 1024 :=
  (if msk == 0 then BitVec.allOnes 1024 else s.maskReg msk) &&& s.cur.block.fm

/-! ## Scalars and immediates -/

/-- An x register. -/
def Strand.xGet (st : Strand) (r : XReg) : Word := st.files.x[r]

def State.xPut (s : State) (r : XReg) (v : Word) : State := s.onCur fun st => { st with files := { st.files with x := st.files.x.set r v } }

/-- The carried scalar of the word in progress (03 R90, 06 R187). -/
def Strand.carried (st : Strand) : Word := match st.cur with | some c => c.e.carried | none => 0

/-- The scalar slot (02 R48). -/
def Strand.slot (st : Strand) : Slot → Word
  | .x r => st.xGet r
  | .xq => st.carried

/-- An integer immediate, sign-extended for i types (02 R48), as the low `w` bits; a floating-point immediate holds the
element's bits. -/
def immElem (ty : Ty) (n imm : Nat) : Nat :=
  if ty.signed then (signedOf n imm % (2 ^ ty.width : Nat)).toNat else imm % 2 ^ ty.width

/-- Element `i` of the third operand in row `r` (02 R48, 05 R145). -/
def State.third (s : State) (ty : Ty) (t : Third) (r i : Nat) : Nat :=
  match t with
  | .v b => s.vGet (b.val + r) ty.width i
  | .s x => (s.cur.slot x).toNat % 2 ^ ty.width
  | .i16 imm => immElem ty 16 imm.toNat
  | .i32 imm => immElem ty 32 imm.toNat
  | .i64 imm => immElem ty 64 imm.toNat

/-- Vector groups that a third operand names. -/
def thirdGroups : Third → List Nat
  | .v b => [b.val]
  | _ => []

/-! ## Anchors, tiles and codebooks -/

/-- Entry `j` of an anchor register; a half-shape register has 32 entries (03 R74). -/
def Strand.kGet (st : Strand) (k j : Nat) : Anchor := vget (vget st.files.k k) j

def Strand.kPut (st : Strand) (k j : Nat) (a : Anchor) : Strand :=
  { st with files := ({ st.files with k := vset st.files.k k (vset (vget st.files.k k) j a) }).mark (72 + k) }

/-- Element (m, n) of an accumulator tile (11 R247). -/
def Strand.zGet (st : Strand) (z m n : Nat) : Nat := elemGet (vget st.files.z z) 32 (32 * m + n)

def Strand.zPut (st : Strand) (z m n v : Nat) : Strand :=
  { st with files := ({ st.files with z := vset st.files.z z (elemSet (vget st.files.z z) 32 (32 * m + n) v) }).mark (88 + z) }

/-- Entry `j` of a codebook, a bf16 (01 R18). -/
def Strand.cbGet (st : Strand) (c j : Nat) : Nat := elemGet (vget st.files.cb c) 16 j

end Sys2Proof.Machine
end

