-- ==== Sys2Proof/Machine/Sweep.lean ====
section
/-!
DEFINITION. The execution of a stream word: issue and its checks (05 R144, 08 R236, 13 R292), the sweep of element-wise words over
pods (03 R82 to R85), aligned words (05 R147), stops (08 R231), steps (13 R290), and retirement.
-/
namespace Sys2Proof.Machine

/-! ## The word in progress -/

/-- A word in progress that nothing has been said about: exec of a stream word at a state without one acts on it. -/
def Cur.fresh (e : Entry) : Cur :=
  { e := e, blk := false, spc := 0, nspc := 0, w := e.bits, unfetched := false, issued := false, checked := false, skipBrk := false, masked := false, mask := 0
    pods := [], due := none, brk := [], won := false, pinEnd := 0, pins := [], run := Run.none, staged := [], stage := 0, watch := none, vms := ⟨[], 0, 0, 0⟩ }

/-- The entry of a word that was not pushed. -/
def Strand.nullEntry (st : Strand) : Entry :=
  { call := false, bits := 0, carried := 0, prov := st.gen.pc, seq := st.nseq, ord := st.nord, succ := st.gen.pc }

def Strand.word (st : Strand) : Cur := st.cur.getD (Cur.fresh st.nullEntry)

def State.onWord (s : State) (f : Cur → Cur) : State := s.onCur fun st => { st with cur := some (f st.word) }

/-- The stream stalls: the word keeps its progress. -/
def waitWord (s : State) (why : Nat) : Res := .next (s.onCur fun st => { st with sstall := why })

/-! ## Retirement -/

/-- End tests of the stream loops at a block word that retires in sequence, or a taken transfer (06 R193): the generator's rules
on the stream's registers. -/
def Block.advance (b : Block) (nspc : Word) (target : Option Word) : Block :=
  let g : Gen := { Gen.reset with npc := nspc, lc0 := b.vlc0, lc1 := b.vlc1, lbeg0 := b.vlbeg0, lend0 := b.vlend0
                                  lbeg1 := b.vlbeg1, lend1 := b.vlend1, lctl := b.vlctl }
  let st : Strand := { Strand.reset with gen := g }
  let (pc, ws) := st.advance target
  let g := (ws.foldl (fun st w => st.put w.1 w.2) st).gen
  { b with spc := pc, vlc0 := g.lc0, vlc1 := g.lc1, vlctl := g.lctl }

/-- The strand once the word in progress has retired: its run is merged, and what only a fault of it could undo is dropped
(03 R95). A block word goes on at its successor, or at the target of a taken transfer. -/
def Strand.finish (st : Strand) (target : Option Word) : Strand :=
  let c := st.word
  let st := st.merge c.run false
  { st with cur := none, sstall := wNone
            hist := if c.blk && st.block.call.isSome then st.hist else st.hist.filter fun h => c.e.ord < h.ord
            block := if c.blk then st.block.advance c.nspc target else st.block }

def State.finishTo (s : State) (target : Option Word) : State := (s.onCur fun st => st.finish target).count 0x03 1

def State.finishWord (s : State) : State := s.finishTo none

/-- Retires the word in progress. -/
def retireWord (s : State) : Res := .next s.finishWord

/-! ## Where pods start (03 R83, R85) -/

/-- First element of pod `p` in pass `q` of a row. -/
def Strand.podBase (st : Strand) (w p q : Nat) : Nat := 64 / w * (q * st.lanes + 8 * p)

/-- The place of pod `p` at or after element `idx` of a row: its first element there below VL, else in the next row; a pod with
nothing left stands at (ROWS, 0). -/
def Strand.podNorm (st : Strand) (w p row idx : Nat) : Nat × Nat :=
  if st.rows ≤ row then (st.rows, 0)
  else
    let q := idx / (64 / w * st.lanes)
    let lo := st.podBase w p q
    let i := if idx < lo then lo else if idx < lo + 8 * (64 / w) then idx else st.podBase w p (q + 1)
    if i < st.vl then (row, i)
    else if row + 1 < st.rows && st.podBase w p 0 < st.vl then (row + 1, st.podBase w p 0)
    else (st.rows, 0)

/-- A pod that starts an access afresh at a place (14 R306). -/
def Strand.podAt (st : Strand) (pos : Nat × Nat) : Pod :=
  { row := pos.1, idx := pos.2, done := [], budget := fieldOf st.ctl.febudget 0 32, waiter := none, exhausted := false, gw := none, halt := false }

/-- Pod 0 of the word in progress, where a single access keeps its budget and its remote request. -/
def Strand.pod0 (st : Strand) : Pod := st.word.pods.headD (st.podAt (0, 0))

/-- The pods at the start of the word, or normalised where a re-issue has placed them. -/
def Strand.startPods (st : Strand) (w : Nat) : List Pod :=
  (List.range st.pods).map fun p => match st.word.pods[p]? with
    | some q => st.podAt (st.podNorm w p q.row q.idx)
    | none => st.podAt (st.podNorm w p 0 0)

/-- The element width of a word that sweeps pods on their own, by its opcode and its types (05 R147); none for every other word.
A conversion does so when its two widths agree. -/
def sweepWidth (w : Nat) : Option Nat :=
  let op := bits w 3 7
  let ty := (Ty.ofCode (bits w 28 4)).map Ty.width
  if (16 ≤ op && op ≤ 18) || (24 ≤ op && op ≤ 27) || (64 ≤ op && op ≤ 72) || op == 74 || op == 82 || op == 83 || op == 90 then ty
  else if op == 32 || op == 33 then (if (Ty.ofCode (bits w 42 6 % 16)).map Ty.width == ty then ty else none)
  else none

/-- The pods that the stop record shows: those of a word that stops before it has placed any stand at their starts, where a pod that
holds no element below VL has completed (R85). DEDUCED (24). -/
def Strand.stopPods (st : Strand) (c : Cur) : List Pod :=
  if c.pods.isEmpty then (match sweepWidth c.w with | some w => st.startPods w | none => []) else c.pods

/-! ## Stops -/

/-- Whether an access of pod `p` is where no stop takes it out: at a remote node, or in the combining store of a bank (06 R179, 16 R327). -/
def State.podOut (s : State) (st : Strand) (p : Nat) : Bool :=
  (st.word.pods[p]?).any fun q => !q.halt && (q.gw.isSome || s.chains.any fun c => c.src == .pod st.id p)

/-- Whether pod `p` of a word that is to stop goes on to its next boundary (06 R179): an access of it is out, or it is within an element group
that it can finish. -/
def State.podGoes (s : State) (st : Strand) (p : Nat) : Bool :=
  s.podOut st p || match sweepWidth st.word.w, st.word.pods[p]? with
    | some w, some q =>
      !q.halt && q.waiter.isNone && q.row < st.rows && q.row * st.vl + q.idx < st.word.pinEnd && (q.idx % (64 / w) != 0 || !q.done.isEmpty)
    | _, _ => false

/-- Whether a pod of the word in progress goes on to its boundary. -/
def State.podsGo (s : State) (st : Strand) : Bool := (List.range st.word.pods.length).any fun p => s.podGoes st p

/-- Whether the word in progress is to stop: a stop is due, or its strand is being saved and PREMAX lets the word go on no longer (13 R284). -/
def Strand.closed (st : Strand) : Bool := st.word.due.isSome || (st.status == .saving && !st.saveOpen)

/-- Whether a word that makes one access at a time begins no more of them: its wait was withdrawn, or it is to stop with none under way. -/
def Strand.halts (st : Strand) : Bool := st.pod0.halt || (st.closed && st.word.stage != 2 && st.pod0.gw.isNone)

/-- Whether the word of a strand must go on before a save: an AST.R or a lock word whose first try has performed (07 R217, 14 R315), or a pod
that goes on to its boundary. -/
def State.mustFinish (s : State) (st : Strand) : Bool := st.word.stage == 2 || s.podsGo st

/-- The stop that is reported among those of pods that stop together: the lowest place (08 R231). -/
def lowestStop : Option Stop → Option Stop → Option Stop
  | some a, some b => if posLt b.row b.idx a.row a.idx then some b else some a
  | some a, none => some a
  | none, b => b

/-- A stop that no later issue of the word meets again. -/
def Stop.once (p : Stop) : Bool := p.cause == cBRK || p.cause == cSTEP || p.cause == cSHD

/-- Stops the word: every pod first comes to its boundary (06 R179, 08 R231); then what it covered is merged (01 R30), and the fault is reported
(03 R96). While its strand is being saved the word just stops (13 R284): its next issue meets the fault again, or is told of what it would not
meet. -/
def stopWord (s : State) (p : Stop) : Res :=
  let c := s.cur.word
  let p := (lowestStop c.due (some p)).getD p
  if s.cur.status == .saving then
    .next (s.onCur fun st => { st with saveOpen := false, cur := some { c with due := if p.once then some p else none } })
  else if s.podsGo s.cur then waitWord (s.onWord fun c => { c with due := some p }) wMEMLAT
  else
    let pods := s.cur.stopPods c
    streamFault (s.onCur fun st => { st.merge c.run true with cur := some { c with run := Run.none, pods := pods, due := none } }) p.cause p.val

/-- An ILL of a stream word (02 R65). -/
def State.headStop (s : State) : Stop := ⟨cILL, BitVec.ofNat 64 (s.cur.word.w % 2 ^ 16), 0, 0⟩

def wordIll (s : State) : Res := stopWord (s.onWord id) s.headStop

/-- A fault of a word before any element performs. -/
def wordFault (s : State) (cause : Nat) (val : Word) : Res := stopWord (s.onWord id) ⟨cause, val, 0, 0⟩

/-! ## Issue -/

/-- The PC or sequence-number breakpoint that the word in progress meets at issue (13 R292). -/
def Strand.wordBreak (st : Strand) (c : Cur) : Option Nat :=
  if c.skipBrk then none
  else (List.range 4).find? fun i =>
    let ctl := vget st.bpctl i
    let v := (vget st.bpval i).toNat
    ctl.getLsbD 0 && (match fieldOf ctl 1 2 with
      | 1 => c.blk && v / 2 == c.spc.toNat / 2
      | 2 => !c.blk && v % 2 ^ 48 == c.e.seq.toNat
      | _ => false)

/-- Whether the next issued word is checked (08 R236). -/
def Strand.isChecked (st : Strand) : Bool :=
  match fieldOf st.ctl.chkctl 0 2 with
  | 1 => st.chkcnt.toNat % 2 ^ fieldOf st.ctl.chkctl 4 4 == 0
  | 2 => true
  | _ => false

/-- Whether an issue of the word is checked: one that SHD has stopped is checked again (08 R237) while CHKCTL.MODE is not 0. -/
def Strand.checks (st : Strand) (c : Cur) : Bool := st.isChecked || (c.checked && fieldOf st.ctl.chkctl 0 2 != 0)

/-- Runs the word in progress: at its issue the breakpoints, then `ok` (every other check), then the count of issued words; then,
and whenever it goes on, `body`. The active elements are those of its first issue (05 R145). A word other than a matrix word first waits for the
captured matrix words (11 R249). With a stop due the word goes on only to its boundary. -/
def issueWord (s : State) (msk : Nat) (matrix ok : Bool) (body : State → Res) : Res :=
  if !matrix && !s.cur.captured.isEmpty then waitWord (s.onWord id) wMATRIX
  else match s.cur.word.due with
  | some p => if s.cur.word.issued && s.mustFinish s.cur then body s else stopWord s p
  | none =>
  if s.cur.word.issued then body s
  else match s.cur.wordBreak s.cur.word with
    | some n => wordFault s cBRK (BitVec.ofNat 64 n)
    | none =>
      if !ok then wordIll s
      else body ((s.onWord fun c => { c with issued := true, checked := s.cur.checks c, masked := true
                                             mask := if c.masked then c.mask else s.activeMask msk }).onCur fun st =>
        { st with chkcnt := st.chkcnt + 1 })

/-- Types narrower than 16 bits lie outside the LP set (20 R390). -/
def lpTys (tys : List Ty) : Bool := tys.all fun t => 16 ≤ t.width

/-- The issue checks of a computational or memory word (05 R144): the types it names with its index widths, its vector groups,
its mask groups, and what else it requires. -/
def Strand.issueOk (st : Strand) (tys : List Ty) (iw groups masks : List Nat) : Bool :=
  let w := ((tys.map Ty.width) ++ iw).foldl max 1
  (!st.lp || lpTys tys) && st.vl ≤ st.vlmax w && groups.all (fun g => g + st.rows ≤ 64) && masks.all fun m => m + st.rows ≤ 8

/-- Runs a word whose VL, groups and masks are checked at issue. -/
def vecWord (s : State) (msk : Nat) (tys : List Ty) (iw groups masks : List Nat) (extra : Bool) (body : State → Res) : Res :=
  issueWord s msk false (s.cur.issueOk tys iw groups masks && extra) body

/-! ## Pods (03 R83 to R85) -/

/-- Steps that a pod has completed (03 R84), a pass counting as one (20 R391). -/
def Strand.podSteps (st : Strand) (w : Nat) (p : Pod) : Nat :=
  let perPass := 64 / w * st.lanes
  p.row * ((st.vl + perPass - 1) / perPass) + p.idx / perPass

/-- What one element raised. -/
structure Raised where
  idx : Nat
  flags : Flags
  consult : Bool := false
  deriving DecidableEq, Repr

/-- What performing elements of one element group comes to. -/
inductive UnitOut where
  | did (out : List Raised)
  | part (els : List Nat) (out : List Raised)
  | wait
  | fault (cause : Nat) (val : Word) (idx : Nat)
  deriving DecidableEq, Repr

/-- Performs the given active elements of row `r` for pod `p`. -/
abbrev PodUnit := State → (p r : Nat) → (els : List Nat) → State × UnitOut

def Run.raiseAll (r : Run) (row : Nat) (out : List Raised) : Run := out.foldl (fun r o => r.raise row o.idx o.flags o.consult) r

/-- Changes pod `p` of the word in progress. -/
def State.onPod (s : State) (p : Nat) (f : Pod → Pod) : State := s.onWord fun c => { c with pods := c.pods.modify p f }

/-- A shadow mismatch that the environment brings to an element group (08 R236, log entry 14): how often it persists. -/
def State.shadowAt (s : State) (row group : Nat) : Option Nat :=
  if !s.cur.word.checked then none
  else s.upsets.findSome? fun u => match u with
    | .shadow sid r g n => if sid == s.cur.id && r == row && g == group then some n else none
    | _ => none

def State.dropShadow (s : State) (row group : Nat) : State :=
  { s with upsets := s.upsets.filter fun u => match u with
    | .shadow sid r g _ => !(sid == s.cur.id && r == row && g == group)
    | _ => true }

/-- Shadow mismatches that the environment brings to the checked word in progress, by row and element group. -/
def State.shadows (s : State) : List (Nat × Nat) :=
  if !s.cur.word.checked then []
  else s.upsets.filterMap fun u => match u with | .shadow sid r g _ => if sid == s.cur.id then some (r, g) else none | _ => none

/-- Physical lane of a strand's element group (01 R10, 11 R246). -/
def Strand.laneOf (st : Strand) (group : Nat) : Nat := group % st.lanes + (if st.half && st.stratB then 32 else 0)

/-- Meets a shadow mismatch of an element group (08 R236 to R238): agreement within two retries counts one correction, and the group's results
are those of its execution; a third mismatch raises SHD, with the lanes as the strand numbers them (03 R73). -/
def State.meetShadow (s : State) (row group idx : Nat) : State × Option Stop :=
  match s.shadowAt row group with
  | none => (s, none)
  | some n =>
    let s := s.dropShadow row group
    if n == 0 then (s, none)
    else if n < 3 then
      let p := s.curPart
      ((s.putPart { p with shdcor := satInc p.shdcor 1 }).count 0x0C 1, none)
    else
      let lane (g : Nat) : Nat := g % s.cur.lanes
      let l := s.cur.laneOf group
      let c := s.core s.cur.coreNo
      let s := if c.shdLanes.contains l then s.due (.coreOutOfService c.id) else s.putCore { c with shdLanes := insNat l c.shdLanes }
      (s, some ⟨cSHD, BitVec.ofNat 64 (lane group + lane (group + 1) * 2 ^ 8), row, idx⟩)

/-- What a unit of a pod leaves: an element group completed, part of one, or a pod that cannot go on. -/
inductive Went where
  | whole | part | blocked
  deriving DecidableEq, Repr

/-- The sweep position of an element (06 R169). -/
def State.pos (s : State) (r i : Nat) : Nat := r * s.cur.vl + i

/-- Whether a place lies at or after the end of the pin set in force, where pods wait (06 R171); no other word has pin sets. -/
def State.beyondPins (s : State) (r i : Nat) : Bool := s.cur.word.pinEnd != 0 && decide (s.cur.word.pinEnd ≤ s.pos r i)

/-- One unit of pod `p`: what it does at its place, and a stop that it raises. A unit that has moved its pod further (06 R174) leaves it there. -/
def podUnit (u : PodUnit) (w p : Nat) (s : State) : State × Option Stop × Went :=
  match s.cur.word.pods[p]? with
  | none => (s, none, .blocked)
  | some pod =>
    let k := 64 / w
    let g := pod.idx / k
    let els := (List.range k).filterMap fun j =>
      let i := g * k + j
      if pod.idx ≤ i && i < s.cur.vl && s.cur.word.mask.getLsbD i && !pod.done.contains i then some i else none
    let next := s.cur.podNorm w p pod.row ((g + 1) * k)
    let finish (s : State) (out : List Raised) : State × Option Stop × Went :=
      let place := if s.cur.word.pods[p]?.all fun q => q.row == pod.row && q.idx == pod.idx then next
        else (s.cur.word.pods[p]?.map fun q => (q.row, q.idx)).getD next
      let s := (s.onWord fun c => { c with run := c.run.raiseAll pod.row out, pods := c.pods.set p (s.cur.podAt place) }).count 0x04 1
      match s.cur.word.brk.find? fun b => b.2 == p with
      | some (n, _) => (s, some ⟨cBRK, BitVec.ofNat 64 n, pod.row, pod.idx⟩, .whole)
      | none => (s, none, .whole)
    let halt (s : State) : State := s.onPod p fun q => { q with halt := true }
    if pod.halt || s.beyondPins pod.row pod.idx || (s.cur.closed && !s.podGoes s.cur p) then (s, none, .blocked)
    else match s.meetShadow pod.row g pod.idx with
    | (s, some st) => (halt s, some st, .whole)
    | (s, none) =>
      if els.isEmpty then finish s []
      else match u s p pod.row els with
        | (s, .did out) => finish s out
        | (s, .part ds out) =>
          let left := els.filter fun i => !ds.contains i
          (match left with
            | [] => finish s out
            | i :: _ => (s.onWord fun c =>
                { c with run := c.run.raiseAll pod.row out
                         pods := c.pods.set p { s.cur.podAt (pod.row, i) with done := (pod.done ++ ds).filter (i < ·) } }, none, .part))
        | (s, .wait) => (if s.cur.closed && !s.podOut s.cur p then halt s else s, none, .blocked)
        | (s, .fault cause val idx) => (halt s, some ⟨cause, val, pod.row, idx⟩, .whole)

/-- The steps by which a pod lags at the start of a word: at most the slip limit of 03 R84 (log entry 5). -/
def State.lag (s : State) (p : Nat) : Nat := 8 * min 3 (vget s.podLag p)

/-- Pods that may perform a unit: not finished, not blocked, and within the slip limit; in sequence, only the pod with the lowest
place. -/
def State.eligible (s : State) (seq : Bool) (w t : Nat) (blocked : List Nat) : List Nat :=
  let pods := s.cur.word.pods
  let open' := (List.range pods.length).filter fun p => match pods[p]? with | some q => decide (q.row < s.cur.rows) | none => false
  let steps (p : Nat) : Nat := match pods[p]? with | some q => s.cur.podSteps w q | none => 0
  let least := open'.foldl (fun m p => min m (steps p)) (2 ^ 32)
  if seq then
    let place (p : Nat) : Nat := match pods[p]? with | some q => q.row * 2 ^ 16 + q.idx | none => 0
    let low := open'.foldl (fun m p => min m (place p)) (2 ^ 64)
    open'.filter fun p => place p == low && !blocked.contains p
  else open'.filter fun p => !blocked.contains p && s.lag p ≤ t && steps p < least + 3

/-- Runs the pods until all have finished, every other pod is blocked, or one stops. Each round performs a unit in every pod that
may go on. -/
def sweepRounds (u : PodUnit) (seq step : Bool) (w : Nat) : Nat → Nat → List Nat → State → State × Option Stop
  | 0, _, _, s => (s, none)
  | fuel + 1, t, blocked, s =>
    let el := s.eligible seq w t blocked
    if el.isEmpty && (seq || 24 ≤ t) then (s, none)
    else
      let (s, st, blocked, whole) := el.foldl (fun (a : State × Option Stop × List Nat × Bool) p =>
        match podUnit u w p a.1 with
        | (s, st, g) => (s, lowestStop a.2.1 st, if g == .blocked then p :: a.2.2.1 else a.2.2.1, a.2.2.2 || g == .whole))
        (s, none, blocked, false)
      match st with
      | some x => (s, some x)
      | none => if step && whole then (s, some ⟨cSTEP, 0, 0, 0⟩) else sweepRounds u seq step w fuel (t + 1) blocked s

/-- Whether the strand steps its words (13 R290). -/
def Strand.stepping (st : Strand) : Bool := st.dbgctl.getLsbD 0 && !st.handling

/-- Every pod has completed the word. -/
def Strand.podsDone (st : Strand) : Bool := st.word.pods.all fun p => st.rows ≤ p.row

/-- Places the pods when the word starts. -/
def State.startSweep (s : State) (w : Nat) : State :=
  if s.cur.word.pods.length == s.cur.pods && s.cur.word.stage == 1 then s
  else s.onWord fun c => { c with pods := s.cur.startPods w, stage := 1 }

/-- Performs rounds of an element-wise word over its pods, from round `t`. A pod that waits at a home blocks until its waiter is gone. -/
def sweepFrom (rounds t : Nat) (s : State) (w : Nat) (seq : Bool) (why : State → Nat) (u : PodUnit) (fin : State → Res) : Res :=
  let s := s.startSweep w
  if s.cur.podsDone && s.cur.word.due.isNone then fin s
  else
    let blocked := (List.range s.cur.pods).filter fun p => match s.cur.word.pods[p]? with
      | some q => q.waiter.isSome
      | none => false
    match sweepRounds u (seq || s.cur.stepping) s.cur.stepping w rounds t blocked s with
    | (s, some st) => stopWord s st
    | (s, none) => match s.cur.word.due with
      | some st => stopWord s st
      | none => if s.cur.podsDone then fin s else waitWord s (why s)

/-- Rounds in which every pod finishes. -/
def Strand.allRounds (st : Strand) : Nat := st.rows * st.vl + 64

/-- Performs an element-wise word over its pods (05 R146): `seq` keeps the elements in ascending order across pods; `fin` ends
the word. -/
def sweep (s : State) (w : Nat) (seq : Bool) (u : PodUnit) (fin : State → Res) : Res :=
  sweepFrom s.cur.allRounds 0 s w seq (fun _ => wOTHER) u fin

/-! ## Element-wise words of registers -/

/-- Collects what the elements of a group raise; an enabled flag makes the group stop (01 R27). -/
def Ctl.groupFault (c : Ctl) (out : List Raised) : Option UnitOut :=
  match out.find? fun o => c.fpx o.flags with
  | some o => some (.fault cFPX ((out.foldl (fun (f : Flags) (x : Raised) => f ||| x.flags) 0).setWidth 64) o.idx)
  | none => none

/-- The unit of a word that computes each element alone: `op` gives the element's result and flags, `put` stores it. -/
def elemUnit (op : State → (r i : Nat) → Nat × Flags) (put : State → (r i v : Nat) → State) : PodUnit := fun s _ r els =>
  let res := els.map fun i => (i, op s r i)
  let out := res.map fun x => (⟨x.1, x.2.2, false⟩ : Raised)
  match s.cur.ctl.groupFault out with
  | some f => (s, f)
  | none => (res.foldl (fun s x => put s r x.1 x.2.1) s, .did out)

/-- An element-wise word that writes vector elements of its own type. -/
def elemWord (s : State) (w : Nat) (vd : Nat) (op : State → (r i : Nat) → Nat × Flags) (fin : State → Res) : Res :=
  sweep s w false (elemUnit op fun s r i v => s.vPut (vd + r) w i v) fin

/-! ## Aligned words (05 R147) -/

/-- What a unit of an aligned word comes to: a row, a block, or one element. A unit that cannot go on has set the stall reason. -/
inductive RowOut where
  | did (out : List Raised)
  | wait
  | fault (cause : Nat) (val : Word) (idx : Nat)
  deriving DecidableEq, Repr

abbrev RowUnit := State → (r i : Nat) → State × RowOut

/-- Puts every pod at one place (03 R85). -/
def State.allPods (s : State) (pos : Nat × Nat) : State :=
  s.onWord fun c => { c with pods := (List.range s.cur.pods).map fun _ => s.cur.podAt pos, stage := 1 }

/-- Shadow mismatches of the groups that `f` holds of, in a unit that begins at element `i` of row `r`. -/
def State.meetWhere (s : State) (r i : Nat) (f : Nat × Nat → Bool) : State × Option Stop :=
  (s.shadows.filter f).foldl (fun (a : State × Option Stop) x => match a.2 with
    | some _ => a
    | none => match a.1.meetShadow x.1 x.2 i with | (s, st) => (s, st.map fun t => { t with row := r })) (s, none)

/-- A shadow mismatch anywhere in `n` elements of a row, a unit of an aligned word. -/
def State.meetShadows (s : State) (r i n w : Nat) : State × Option Stop :=
  s.meetWhere r i fun x => x.1 == r && decide (i < x.2 * (64 / w) + 64 / w) && decide (x.2 * (64 / w) < i + n)

/-- A shadow mismatch anywhere in a word that acts as a whole. -/
def State.meetUnit (s : State) : State × Option Stop := s.meetWhere 0 0 fun _ => true

/-- The place after `n` elements of an aligned word, or after the row when `n` is 0. -/
def Strand.nextPlace (st : Strand) (n row idx : Nat) : Nat × Nat :=
  let next := if n == 0 || st.vl ≤ idx + n then (row + 1, 0) else (row, idx + n)
  if st.rows ≤ next.1 then (st.rows, 0) else next

/-- Performs the units of an aligned word in order, `n` elements each (a row when `n` is 0), from the common place of the pods. DESIGN CHOICE (18):
a unit that stops with FPX merges nothing, its event record included, until it is performed (01 R27, R30; 05 R147). -/
def rowLoop (u : RowUnit) (n w : Nat) (step : Bool) : Nat → State → State × Option Stop
  | 0, s => (s, none)
  | fuel + 1, s =>
    match s.cur.word.pods.head? with
    | none => (s, none)
    | some p =>
      if s.cur.rows ≤ p.row then (s, none)
      else
        let size := if n == 0 then s.cur.vl else n
        match (if s.upsets.isEmpty then (s, none) else s.meetShadows p.row p.idx size w) with
        | (s, some st) => (s, some st)
        | (s, none) =>
          match u s p.row p.idx with
          | (s, .fault c v i) => (s, some ⟨c, v, p.row, i⟩)
          | (s, .wait) => (s, none)
          | (s, .did out) =>
            let next := s.cur.nextPlace n p.row p.idx
            let done := if next.1 == p.row then next.2 * w / 64 else (s.cur.vl * w + 63) / 64
            let s := ((s.onWord fun c => { c with run := c.run.raiseAll p.row out }).allPods next).count 0x04 (done - p.idx * w / 64)
            match s.cur.word.brk.head? with
            | some (b, _) => (s, some ⟨cBRK, BitVec.ofNat 64 b, p.row, p.idx⟩)
            | none => if step then (s, some ⟨cSTEP, 0, 0, 0⟩) else rowLoop u n w step fuel s

/-- Places the pods of an aligned word when it starts; with VL = 0 it has nothing to do. A word that is under way keeps its progress. -/
def State.startRows (s : State) : State :=
  if s.cur.word.stage != 0 then s
  else s.allPods (match s.cur.word.pods.head? with
    | some p => if s.cur.rows ≤ p.row then (s.cur.rows, 0) else (p.row, p.idx)
    | none => if s.cur.vl == 0 then (s.cur.rows, 0) else (0, 0))

/-- Performs an aligned word whose units are steps (13 R290): rows or blocks. -/
def rowWord (s : State) (n w : Nat) (u : RowUnit) (fin : State → Res) : Res :=
  match rowLoop u n w s.cur.stepping (s.cur.rows * (s.cur.vl + 1)) s.startRows with
  | (s, some st) => stopWord s st
  | (s, none) => if s.cur.podsDone then fin s else .next s

/-- Performs a word that goes element by element in order but is one step as a whole (13 R290). -/
def seqWord (s : State) (w : Nat) (u : RowUnit) (fin : State → Res) : Res :=
  let s := s.startRows
  if s.cur.podsDone then fin s
  else match rowLoop u 1 w false (s.cur.rows * (s.cur.vl + 1)) s with
    | (s, some st) => stopWord s st
    | (s, none) => if !s.cur.podsDone then .next s else if s.cur.stepping then stopWord s ⟨cSTEP, 0, 0, 0⟩ else fin s

/-- A unit's outcome from what its elements raised: an enabled flag makes it fault (01 R27). -/
def Ctl.rowOut (c : Ctl) (out : List Raised) : Option RowOut :=
  match c.groupFault out with
  | some (.fault a b i) => some (.fault a b i)
  | _ => none

/-- A row-atomic word: `op` gives the writes of a row and what it raises. -/
def rowUnit (op : State → (r : Nat) → List (Nat × Nat) × List Raised) (put : State → (r i v : Nat) → State) : RowUnit := fun s r _ =>
  let (ws, out) := op s r
  match s.cur.ctl.rowOut out with
  | some f => (s, f)
  | none => (ws.foldl (fun s x => put s r x.1 x.2) s, .did out)

/-- A word that was re-issued with every pod at its end performs nothing (08 R232). -/
def Strand.wordOver (st : Strand) : Bool := match st.word.pods.head? with | some p => decide (st.rows ≤ p.row) | none => false

/-- A word that acts as a whole, once the lanes have nothing to compare: with ESTEP it stops after it (13 R290). -/
def actWhole (s : State) (f : State → State) : Res :=
  if s.cur.wordOver then retireWord s
  else
    let s := f s
    if s.cur.stepping then stopWord (s.allPods (s.cur.rows, 0)) ⟨cSTEP, 0, 0, 0⟩ else retireWord s

/-- A word that acts as a whole, and is checked as one (08 R236). -/
def wholeWord (s : State) (f : State → State) : Res :=
  if s.cur.wordOver then retireWord s
  else match s.meetUnit with
  | (s, some st) => stopWord s st
  | (s, none) => actWhole s f

/-- The active elements of the word. -/
def Strand.active (st : Strand) : List Nat := (List.range st.vl).filter fun i => st.word.mask.getLsbD i

end Sys2Proof.Machine
end

