-- ==== Sys2Proof/Machine/VInt.lean ====
section
/-!
DEFINITION. Integer arithmetic, compares, selects and classification of the stream (05 R149 to R152).
-/
namespace Sys2Proof.Machine

/-! ## Element-wise words with a third operand -/

/-- An element-wise word of one type: `op` takes the first source, the third operand and the old destination. -/
def arithWord (s : State) (o : Arith) (op : State → (r i a b d : Nat) → Nat × Flags) : Res :=
  let w := o.ty.width
  vecWord s o.msk.val [o.ty] [] ([o.vd.val, o.va.val] ++ thirdGroups o.third) [] true fun s =>
    elemWord s w o.vd.val (fun s r i => op s r i (s.vGet (o.va.val + r) w i) (s.third o.ty o.third r i) (s.vGet (o.vd.val + r) w i))
      retireWord

/-- An element-wise word with one source. -/
def unaryWord (s : State) (o : Unary) (op : State → (a : Nat) → Nat × Flags) : Res :=
  let w := o.ty.width
  vecWord s o.msk.val [o.ty] [] [o.vd.val, o.va.val] [] true fun s =>
    elemWord s w o.vd.val (fun s r i => op s (s.vGet (o.va.val + r) w i)) retireWord

/-- A compare: bit i of mask md + r is the condition of element i (05 R150). -/
def compareWord (s : State) (o : Arith) (cond : (a b : Nat) → Bool × Flags) : Res :=
  let w := o.ty.width
  vecWord s o.msk.val [o.ty] [] ([o.va.val] ++ thirdGroups o.third) [o.vd.val] true fun s =>
    sweep s w false
      (elemUnit (fun s r i => let c := cond (s.vGet (o.va.val + r) w i) (s.third o.ty o.third r i); (if c.1 then 1 else 0, c.2))
        fun s r i v => s.maskPut (o.vd.val + r) i (v == 1)) retireWord

/-! ## Integer arithmetic (05 R149) -/

/-- An integer word on values read by the signedness of TY: the exact result wraps modulo 2^w. -/
def intWord (s : State) (o : Arith) (f : Int → Int → Int) : Res :=
  arithWord s o fun _ _ _ a b _ =>
    (intBits o.ty.width (f (bitsInt o.ty.width o.ty.signed a) (bitsInt o.ty.width o.ty.signed b)), 0)

/-- A saturating word: clamped, with SAT (01 R12). -/
def satWord (s : State) (o : Arith) (f : Int → Int → Int) : Res :=
  arithWord s o fun _ _ _ a b _ =>
    let w := o.ty.width
    let c := clampInt w o.ty.signed (f (bitsInt w o.ty.signed a) (bitsInt w o.ty.signed b))
    (intBits w c.1, flagIf c.2 fSAT)

/-- A word on the bits of its operands. -/
def bitWord (s : State) (o : Arith) (f : (w a b : Nat) → Nat) : Res := arithWord s o fun _ _ _ a b _ => (f o.ty.width a b, 0)

/-- Quotient toward zero; all bits set and DZ on division by zero (01 R12). -/
def intDiv (ty : Ty) (a b : Nat) : Nat × Flags :=
  if b == 0 then (2 ^ ty.width - 1, fDZ)
  else (intBits ty.width ((bitsInt ty.width ty.signed a).tdiv (bitsInt ty.width ty.signed b)), 0)

/-- Remainder with the dividend's sign; the dividend and DZ on division by zero (01 R12). -/
def intRem (ty : Ty) (a b : Nat) : Nat × Flags :=
  if b == 0 then (a, fDZ)
  else (intBits ty.width ((bitsInt ty.width ty.signed a).tmod (bitsInt ty.width ty.signed b)), 0)

/-- Shift right with copies of bit w−1. -/
def arithShift (w a n : Nat) : Nat := intBits w ((bitsInt w true a) / (2 ^ n : Nat))

/-- VADD (05 R149). -/
def execVadd (o : Arith) (s : State) : Res := intWord s o (· + ·)

/-- VSUB (05 R149). -/
def execVsub (o : Arith) (s : State) : Res := intWord s o (· - ·)

/-- VADDS (05 R149). -/
def execVadds (o : Arith) (s : State) : Res := satWord s o (· + ·)

/-- VSUBS (05 R149). -/
def execVsubs (o : Arith) (s : State) : Res := satWord s o (· - ·)

/-- VMUL (05 R149). -/
def execVmul (o : Arith) (s : State) : Res := intWord s o (· * ·)

/-- VMULH (05 R149): the high w bits of the product. -/
def execVmulh (o : Arith) (s : State) : Res := intWord s o fun a b => a * b / (2 ^ o.ty.width : Nat)

/-- VDIV (05 R149). -/
def execVdiv (o : Arith) (s : State) : Res := arithWord s o fun _ _ _ a b _ => intDiv o.ty a b

/-- VREM (05 R149). -/
def execVrem (o : Arith) (s : State) : Res := arithWord s o fun _ _ _ a b _ => intRem o.ty a b

/-- VMIN (05 R149). -/
def execVmin (o : Arith) (s : State) : Res := intWord s o fun a b => if a ≤ b then a else b

/-- VMAX (05 R149). -/
def execVmax (o : Arith) (s : State) : Res := intWord s o fun a b => if a ≤ b then b else a

/-- VAND (05 R149). -/
def execVand (o : Arith) (s : State) : Res := bitWord s o fun _ a b => a &&& b

/-- VOR (05 R149). -/
def execVor (o : Arith) (s : State) : Res := bitWord s o fun _ a b => a ||| b

/-- VXOR (05 R149). -/
def execVxor (o : Arith) (s : State) : Res := bitWord s o fun _ a b => a ^^^ b

/-- VSHL (05 R149): the amount is b modulo w. -/
def execVshl (o : Arith) (s : State) : Res := bitWord s o fun w a b => a * 2 ^ (b % w) % 2 ^ w

/-- VSHR (05 R149). -/
def execVshr (o : Arith) (s : State) : Res := bitWord s o fun w a b => a / 2 ^ (b % w)

/-- VSRA (05 R149). -/
def execVsra (o : Arith) (s : State) : Res := bitWord s o fun w a b => arithShift w a (b % w)

/-- Leading zero bits of the low `w` bits. -/
def leadingZeros (w a : Nat) : Nat := w - bitLen (a % 2 ^ w)

/-- One bits among the low `w` bits. -/
def onesIn (w a : Nat) : Nat := ((List.range w).filter fun i => a.testBit i).length

/-- VABS (05 R149): the signed minimum yields itself. -/
def execVabs (o : Unary) (s : State) : Res := unaryWord s o fun _ a => (if o.ty.signed then intBits o.ty.width (bitsInt o.ty.width true a).natAbs else a, 0)

/-- VNEG (05 R149). -/
def execVneg (o : Unary) (s : State) : Res := unaryWord s o fun _ a => (intBits o.ty.width (-(a : Int)), 0)

/-- VCLZ (05 R149). -/
def execVclz (o : Unary) (s : State) : Res := unaryWord s o fun _ a => (leadingZeros o.ty.width a, 0)

/-- VPOPC (05 R149). -/
def execVpopc (o : Unary) (s : State) : Res := unaryWord s o fun _ a => (onesIn o.ty.width a, 0)

/-! ## Compares (05 R150) -/

/-- An integer compare by the signedness of TY. -/
def intCompare (s : State) (o : Arith) (c : Int → Int → Bool) : Res :=
  compareWord s o fun a b => (c (bitsInt o.ty.width o.ty.signed a) (bitsInt o.ty.width o.ty.signed b), 0)

/-- VCMPEQ (05 R150). -/
def execVcmpeq (o : Arith) (s : State) : Res := intCompare s o fun a b => a == b

/-- VCMPNE (05 R150). -/
def execVcmpne (o : Arith) (s : State) : Res := intCompare s o fun a b => a != b

/-- VCMPLT (05 R150). -/
def execVcmplt (o : Arith) (s : State) : Res := intCompare s o fun a b => decide (a < b)

/-- VCMPGE (05 R150). -/
def execVcmpge (o : Arith) (s : State) : Res := intCompare s o fun a b => decide (b ≤ a)

/-- A floating-point compare: with a NaN operand the condition is `nan`, and NV is set for a signalling NaN, or for any NaN when
`quiet` is false (05 R150). -/
def fpCompare (s : State) (o : Arith) (nan quiet : Bool) (c : FVal → FVal → Bool) : Res :=
  compareWord s o fun a b =>
    let x := (fmtOf o.ty).decode a
    let y := (fmtOf o.ty).decode b
    if x.isNan || y.isNan then (nan, flagIf (!quiet || x.isSnan || y.isSnan) fNV) else (c x y, 0)

/-- VFCMPEQ (05 R150). -/
def execVfcmpeq (_rnd : Fin 5) (o : Arith) (s : State) : Res := fpCompare s o false true fun x y => x.eqv y

/-- VFCMPNE (05 R150). -/
def execVfcmpne (_rnd : Fin 5) (o : Arith) (s : State) : Res := fpCompare s o true true fun x y => !x.eqv y

/-- VFCMPLT (05 R150). -/
def execVfcmplt (_rnd : Fin 5) (o : Arith) (s : State) : Res := fpCompare s o false false fun x y => x.ltv y

/-- VFCMPGE (05 R150). -/
def execVfcmpge (_rnd : Fin 5) (o : Arith) (s : State) : Res := fpCompare s o false false fun x y => !x.ltv y

/-- VFCMPLE (05 R150). -/
def execVfcmple (_rnd : Fin 5) (o : Arith) (s : State) : Res := fpCompare s o false false fun x y => !y.ltv x

/-- VFCMPGT (05 R150). -/
def execVfcmpgt (_rnd : Fin 5) (o : Arith) (s : State) : Res := fpCompare s o false false fun x y => y.ltv x

/-- VFCMPUNORD (05 R150). -/
def execVfcmpunord (_rnd : Fin 5) (o : Arith) (s : State) : Res := fpCompare s o true true fun _ _ => false

/-- VFCMPORD (05 R150). -/
def execVfcmpord (_rnd : Fin 5) (o : Arith) (s : State) : Res := fpCompare s o false true fun _ _ => true

/-! ## Select and classify -/

/-- VSEL (05 R151): the mask chooses the source; only the fragment mask limits the write. -/
def execVsel (o : Arith) (s : State) : Res :=
  let w := o.ty.width
  vecWord s 0 [o.ty] [] ([o.vd.val, o.va.val] ++ thirdGroups o.third) [] true fun s =>
    elemWord s w o.vd.val (fun s r i =>
      (if (s.maskReg o.msk.val).getLsbD i then s.vGet (o.va.val + r) w i else s.third o.ty o.third r i, 0)) retireWord

/-- VFCLASS (05 R152): the one-hot class of R117. -/
def execVfclass (_rnd : Fin 5) (o : Unary) (s : State) : Res := unaryWord s o fun _ a => ((fmtOf o.ty).classify a, 0)

end Sys2Proof.Machine
end

