-- ==== Sys2Proof/Machine/VFp.lean ====
section
/-!
DEFINITION. Floating-point arithmetic of the stream (05 R153).
-/
namespace Sys2Proof.Machine

/-- An element-wise floating-point word, rounded once by the mode of 01 R32. -/
def fpWord (s : State) (rnd : Fin 5) (o : Arith) (f : Fmt → Rm → (a b d : Nat) → Nat × Flags) : Res :=
  arithWord s o fun s _ _ a b d => f (fmtOf o.ty) (s.cur.ctl.mode rnd.val) a b d

/-- An element-wise floating-point word with one source. -/
def fpUnary (s : State) (rnd : Fin 5) (o : Unary) (f : Fmt → Rm → (a : Nat) → Nat × Flags) : Res :=
  unaryWord s o fun s a => f (fmtOf o.ty) (s.cur.ctl.mode rnd.val) a

/-- VFADD (05 R153). -/
def execVfadd (rnd : Fin 5) (o : Arith) (s : State) : Res := fpWord s rnd o fun f rm a b _ => f.addBits rm a b

/-- VFSUB (05 R153). -/
def execVfsub (rnd : Fin 5) (o : Arith) (s : State) : Res := fpWord s rnd o fun f rm a b _ => f.subBits rm a b

/-- VFMUL (05 R153). -/
def execVfmul (rnd : Fin 5) (o : Arith) (s : State) : Res := fpWord s rnd o fun f rm a b _ => f.mulBits rm a b

/-- VFDIV (05 R153). -/
def execVfdiv (rnd : Fin 5) (o : Arith) (s : State) : Res := fpWord s rnd o fun f rm a b _ => f.divBits rm a b

/-- VFSQRT (05 R153). -/
def execVfsqrt (rnd : Fin 5) (o : Unary) (s : State) : Res := fpUnary s rnd o fun f rm a => f.sqrtBits rm a

/-- VFMIN (05 R153, 04 R117): not rounded. -/
def execVfmin (rnd : Fin 5) (o : Arith) (s : State) : Res := fpWord s rnd o fun f _ a b _ => f.minMax false a b

/-- VFMAX (05 R153, 04 R117): not rounded. -/
def execVfmax (rnd : Fin 5) (o : Arith) (s : State) : Res := fpWord s rnd o fun f _ a b _ => f.minMax true a b

/-- VFABS (05 R153): the sign is cleared. -/
def execVfabs (rnd : Fin 5) (o : Unary) (s : State) : Res := fpUnary s rnd o fun f _ a => (a % 2 ^ (f.width - 1), 0)

/-- VFNEG (05 R153): the sign is inverted. -/
def execVfneg (rnd : Fin 5) (o : Unary) (s : State) : Res := fpUnary s rnd o fun f _ a => (a ^^^ 2 ^ (f.width - 1), 0)

/-- VFMA (05 R153): one rounding. -/
def execVfma (rnd : Fin 5) (o : Arith) (s : State) : Res := fpWord s rnd o fun f rm a b d => f.fmaBits rm false false a b d

/-- VFMS (05 R153): one rounding. -/
def execVfms (rnd : Fin 5) (o : Arith) (s : State) : Res := fpWord s rnd o fun f rm a b d => f.fmaBits rm false true a b d

/-- VFNMA (05 R153): one rounding. -/
def execVfnma (rnd : Fin 5) (o : Arith) (s : State) : Res := fpWord s rnd o fun f rm a b d => f.fmaBits rm true false a b d

/-- VFNMS (05 R153): one rounding. -/
def execVfnms (rnd : Fin 5) (o : Arith) (s : State) : Res := fpWord s rnd o fun f rm a b d => f.fmaBits rm true true a b d

end Sys2Proof.Machine
end

