-- ==== Sys2Proof/Machine/VQuant.lean ====
section
/-!
DEFINITION. Conversions, codebooks, the quantisation state, block-scaled dot products and packing (05 R154 to R163, 01 R33, R38 to
R41).
-/
namespace Sys2Proof.Machine

/-! ## Stochastic rounding (01 R33) -/

/-- The 16-bit draw of element (row, i). -/
def srDraw (seed : Word) (row i : Nat) : Nat :=
  let z : Word := seed + BitVec.ofNat 64 (row * 65536 + i + 1) * 0x9E3779B97F4A7C15
  let z := (z ^^^ (z >>> 30)) * 0xBF58476D1CE4E5B9
  let z := (z ^^^ (z >>> 27)) * 0x94D049BB133111EB
  let z := z ^^^ (z >>> 31)
  fieldOf z 48 16

/-- The mode of an element: 5 is SR with the element's own draw. -/
def Ctl.modeAt (c : Ctl) (rnd row i : Nat) : Rm := if rnd == 5 then .sr (srDraw c.srseed row i) else c.mode rnd

/-- Retires a word that may have selected SR: the seed advances once (01 R33). -/
def srDone (rnd : Nat) (s : State) : Res :=
  retireWord (if rnd == 5 then s.onCur fun st => { st with ctl := { st.ctl with srseed := st.ctl.srseed + 1 } } else s)

/-! ## Conversions -/

/-- A word that converts element i of va + r into element i of vd + r: element-wise when the widths agree, else aligned (05 R147). -/
def convWord (s : State) (msk : Nat) (src dst : Ty) (vd va : Nat) (op : State → (r i a : Nat) → Nat × Flags) (fin : State → Res) : Res :=
  vecWord s msk [src, dst] [] [vd, va] [] true fun s =>
    if src.width == dst.width then elemWord s dst.width vd (fun s r i => op s r i (s.vGet (va + r) src.width i)) fin
    else rowWord s 0 dst.width (rowUnit (fun s r =>
      let res := s.cur.active.map fun i => (i, op s r i (s.vGet (va + r) src.width i))
      (res.map fun x => (x.1, x.2.1), res.map fun x => ⟨x.1, x.2.2, false⟩)) fun s r i v => s.vPut (vd + r) dst.width i v) fin

/-- The conversion of one element (05 R154). -/
def convElem (src dst : Ty) (rm : Rm) (a : Nat) : Nat × Flags :=
  if src.isFloat then
    if dst.isFloat then fmtToFmt (fmtOf src) (fmtOf dst) rm a
    else valToInt rm dst.width dst.signed ((fmtOf src).decode a)
  else if dst.isFloat then intToFmt (fmtOf dst) rm (bitsInt src.width src.signed a)
  else (intBits dst.width (bitsInt src.width src.signed a), 0)

/-- VCVT (05 R154). -/
def execVcvt (dst : Ty) (rnd : Fin 6) (o : Unary) (s : State) : Res :=
  convWord s o.msk.val o.ty dst o.vd.val o.va.val (fun s r i a => convElem o.ty dst (s.cur.ctl.modeAt rnd.val r i) a) (srDone rnd.val)

/-! ## Codebooks (01 R18, 05 R155) -/

/-- A codebook entry as an operand: a NaN entry acts as a quiet NaN. -/
def cbVal (e : Nat) : FVal := match (fmtOf .bf16).decode e with | .nan _ => .nan false | v => v

/-- The entries of a codebook that are no NaN, with their codes, rising. -/
def Strand.cbEntries (st : Strand) (cb : Nat) : List (Nat × FVal) :=
  ((List.range 16).map fun c => (c, cbVal (st.cbGet cb c))).filter fun e => !e.2.isNan

/-- The lowest code of a NaN entry. -/
def Strand.cbNan (st : Strand) (cb : Nat) : Option Nat := (List.range 16).find? fun c => (cbVal (st.cbGet cb c)).isNan

/-- The entry that `better` prefers, the lowest code among equals. -/
def bestEntry (better : FVal → FVal → Bool) (l : List (Nat × FVal)) : Option (Nat × FVal) :=
  l.foldl (fun b e => match b with | none => some e | some x => if better e.2 x.2 then some e else b) none

/-- The magnitude of a value that is no NaN. -/
def FVal.mag : FVal → FVal
  | .inf _ => .inf false
  | .fin _ m e => .fin false m e
  | v => v

/-- Whether `y` is nearer `l` than `u`, or as near. DESIGN CHOICE (18): the spec gives no distance to an infinite entry; a finite entry is the
nearer one, and two infinite entries are as near. -/
def nearer (y l u : FVal) : Bool × Bool :=
  match l, u with
  | .inf _, .inf _ => (false, true)
  | .inf _, _ => (false, false)
  | _, .inf _ => (true, false)
  | _, _ =>
    let dl := y.dy.add l.dy.neg
    let du := u.dy.add y.dy.neg
    (dl.lt du, dl.eq du)

/-- The share of the way from `a` to `b` at which `y` stands, in 65536ths (01 R33). DESIGN CHOICE (18): between entries of opposite sign the
share is taken from the distances |y−a| and |b−a| too, and it is 0 where an entry is infinite; R33 states neither. -/
def srShare (y a b : FVal) : Nat :=
  match a, b with
  | .fin _ _ _, .fin _ _ _ =>
    let n := (y.dy.add a.dy.neg).abs
    let d := (b.dy.add a.dy.neg).abs
    let e := min n.e d.e
    (n.m * 2 ^ (n.e - e).toNat * 65536 / (d.m * 2 ^ (d.e - e).toNat)).toNat
  | _, _ => 0

/-- Encodes a value that is no NaN by a codebook (05 R155): its code and flags. -/
def cbEncode (es : List (Nat × FVal)) (rm : Rm) (y : FVal) : Nat × Flags :=
  if es.isEmpty then (0, fNV)
  else
    let same := es.filter fun e => e.2.eqv y
    let matching := if y.isZero then same.filter fun e => e.2.sign == y.sign else []
    match matching, same with
    | e :: _, _ => (e.1, 0)
    | [], e :: _ => (e.1, 0)
    | [], [] =>
      match bestEntry (fun a b => b.ltv a) (es.filter fun e => e.2.ltv y), bestEntry FVal.ltv (es.filter fun e => y.ltv e.2) with
      | some l, some u =>
        let toL := l.2.mag.ltv u.2.mag
        let toU := u.2.mag.ltv l.2.mag
        let near0 := if toL then l else if toU then u else if Config.openTie l.1 u.1 then u else l
        let far0 := if near0.1 == l.1 then u else l
        let pick := match rm with
          | .rne =>
            let (n, t) := nearer y l.2 u.2
            if t then (if l.1 < u.1 then l else u) else if n then l else u
          | .rtz => near0
          | .rup => u
          | .rdn => l
          | .sr d => if 65536 ≤ srShare y near0.2 far0.2 + d then far0 else near0
        (pick.1, fNX)
      | some l, none => (l.1, fSAT ||| fNX)
      | none, some u => (u.1, fSAT ||| fNX)
      | none, none => (0, fNV)

/-! ## VQCVT (01 R40) -/

/-- A finite value rounded into a float format that saturates at its largest finite value. -/
def Fmt.satFin (f : Fmt) (rm : Rm) (neg : Bool) (m : Nat) (e : Int) : Nat × Flags :=
  let q : Int := max (e + m.log2 - f.fb) (1 - f.bias - f.fb)
  let d := q - e
  let n := if d ≤ 0 then m * 2 ^ (-d).toNat else (roundShift rm neg m d.toNat).1
  let code := if n < 2 ^ f.fb then n else (q + f.fb + f.bias).toNat * 2 ^ f.fb + (n - 2 ^ f.fb)
  if f.maxCode < code then (f.signBit neg + f.maxCode, fSAT ||| fNX) else f.roundFin rm neg m e

/-- The delivered element of a scaled value `y`, which is no NaN. -/
def quantElem (dst : Ty) (es : List (Nat × FVal)) (rm : Rm) (y : FVal) : Nat × Flags :=
  if dst.isFloat then
    let f := fmtOf dst
    match y with
    | .fin n m e => if m == 0 then (f.signBit n, 0) else f.satFin rm n m e
    | v => (f.signBit v.sign + f.maxCode, fSAT ||| fNX)
  else if dst == .cb4 then cbEncode es rm y
  else
    let lo : Int := if dst.signed then -127 else 0
    let hi : Int := if dst.signed then 127 else 255
    match y with
    | .fin _ _ _ =>
      let r := y.dy.toInt rm 0
      if r.1 < lo then (intBits 8 lo, fSAT ||| fNX)
      else if hi < r.1 then (intBits 8 hi, fSAT ||| fNX)
      else (intBits 8 r.1, flagIf r.2 fNX)
    | v => (intBits 8 (if v.sign then lo else hi), fSAT ||| fNX)

/-- One element of VQCVT: `x` times the scale, exactly, rounded once (01 R40). DESIGN CHOICE (18): where `x` is no NaN and the product is invalid
(0 times infinity), the result is that of a NaN `x`, also for a cb4 target, with NV; the table of R40 names infinities, not their product with 0. -/
def quant (dst : Ty) (es : List (Nat × FVal)) (nanCode : Nat) (rm : Rm) (x scale : FVal) : Nat × Flags :=
  let nanRes := if dst.isFloat then (fmtOf dst).nan else 0
  if scale.isNan then (nanRes, fSCN)
  else
    let (y, fl) := x.mul scale
    if x.isNan || y.isNan then (if dst == .cb4 then nanCode else nanRes, fNV)
    else
      let (v, g) := quantElem dst es rm y
      (v, fl ||| g)

/-- VQCVT (05 R155, 01 R40). -/
def execVqcvt (dst : Ty) (rnd : Fin 6) (cb : CbReg) (scale : Slot) (o : Unary) (s : State) : Res :=
  let sc := (fmtOf .f32).decode ((s.cur.slot scale).toNat % 2 ^ 32)
  let es := s.cur.cbEntries cb.val
  let nc := (s.cur.cbNan cb.val).getD 0
  convWord s o.msk.val o.ty dst o.vd.val o.va.val
    (fun s r i a => quant dst es nc (s.cur.ctl.modeAt rnd.val r i) ((fmtOf o.ty).decode a) sc) (srDone rnd.val)

/-- VCBD (05 R156): decodes codes, exactly. DESIGN CHOICE (18): a NaN entry is copied bit for bit, payload and signalling bit with it, though 01 R15
makes every NaN of a conversion the generated one. -/
def execVcbd (msk : MReg) (cb : CbReg) (_rnd : Fin 5) (vd va : VReg) (s : State) : Res :=
  convWord s msk.val .cb4 .bf16 vd.val va.val (fun s _ _ a => (s.cur.cbGet cb.val a, 0)) retireWord

/-- One element of VCBE (05 R156). -/
def cbEncodeElem (es : List (Nat × FVal)) (nanCode : Option Nat) (rm : Rm) (x : FVal) : Nat × Flags :=
  if x.isNan then (match nanCode with | some c => (c, flagIf x.isSnan fNV) | none => (0, fNV)) else cbEncode es rm x

/-- VCBE (05 R156). -/
def execVcbe (msk : MReg) (cb : CbReg) (rnd : Fin 5) (vd va : VReg) (s : State) : Res :=
  let es := s.cur.cbEntries cb.val
  let nc := s.cur.cbNan cb.val
  convWord s msk.val .bf16 .cb4 vd.val va.val
    (fun s _ _ a => cbEncodeElem es nc (s.cur.ctl.mode rnd.val) ((fmtOf .bf16).decode a)) retireWord

/-! ## Amax history and scales (01 R38, R39) -/

/-- The amax slots of the window, and the current slot. -/
def Amh.current (a : Amh) (w : Nat) : Nat := a.ap.toNat % w

def Strand.putAmh (st : Strand) (h : Nat) (a : Amh) : Strand :=
  { st with files := ({ st.files with amh := vset st.files.amh h a }).mark (100 + h) }

/-- A magnitude as it enters the history: rounded toward +∞ into f32. -/
def amaxMag (ty : Ty) (a : Nat) : Nat := ((fmtOf .f32).encode .rup ((fmtOf ty).decode a).mag).1

/-- VAMAX (05 R158): folds |x| into the current slot; a NaN is skipped and sets NV. -/
def execVamax (msk : MReg) (ty : Ty) (h : AmhReg) (va : VReg) (s : State) : Res :=
  vecWord s msk.val [ty] [] [va.val] [] true fun s =>
    rowWord s 0 ty.width (rowUnit (fun s r =>
      let a := vget s.cur.files.amh h.val
      let cur := (vget a.slots (a.current s.cur.ctl.amaxWindow)).toNat
      let els := s.cur.active.map fun i => (i, s.vGet (va.val + r) ty.width i)
      let isNan (x : Nat × Nat) : Bool := ((fmtOf ty).decode x.2).isNan
      let m := (els.filter fun x => !isNan x).foldl (fun m x => max m (amaxMag ty x.2)) cur
      ([(0, m)], (els.filter isNan).map fun x => ⟨x.1, fNV, false⟩)) fun s _ _ v => s.onCur fun st =>
        let a := vget st.files.amh h.val
        st.putAmh h.val { a with slots := vset a.slots (a.current st.ctl.amaxWindow) (BitVec.ofNat 32 v) }) retireWord

/-- VAMSTEP (05 R159). -/
def execVamstep (h : AmhReg) (s : State) : Res :=
  issueWord s 0 false true fun s => wholeWord s fun s => s.onCur fun st =>
    let a := vget st.files.amh h.val
    let ap := (a.ap.toNat + 1) % st.ctl.amaxWindow
    st.putAmh h.val { slots := vset a.slots ap 0, ap := BitVec.ofNat 4 ap }

/-- floor(log2(f / m)) of two positive exact values. -/
def floorLog2Ratio (f m : Dy) : Int :=
  let k := (f.e + f.m.natAbs.log2) - (m.e + m.m.natAbs.log2)
  if f.lt (m.scale k) then k - 1 else k

/-- The largest finite magnitude of a target (01 R39); none where it is undefined. -/
def Strand.fmaxOf (st : Strand) (ty : Ty) (cb : Nat) : Option FVal :=
  match ty with
  | .i8 => some (.fin false 127 0)
  | .n8 => some (.fin false 255 0)
  | .cb4 => (bestEntry (fun a b => b.ltv a) ((st.cbEntries cb).map fun e => (e.1, e.2.mag))).map Prod.snd
  | t => some ((fmtOf t).decode (fmtOf t).maxCode)

/-- The scale of R39 for a history maximum. -/
def quantScale (fmax : Option FVal) (m : Nat) : Nat :=
  let mv := (fmtOf .f32).decode m
  match fmax with
  | none => 0x7FC00000
  | some f =>
    if f.isZero then 0x7FC00000
    else if mv.isZero then 0x3F800000
    else if !mv.isFin then 1 <<< 23
    else if !f.isFin then 254 <<< 23
    else
      let k := floorLog2Ratio f.dy mv.dy
      ((min (max k (-126)) 127 + 127).toNat) <<< 23

/-- VQSCALE (05 R160). -/
def execVqscale (ty : Ty) (xd : XReg) (h : AmhReg) (cb : CbReg) (s : State) : Res :=
  issueWord s 0 false (!s.cur.lp || 16 ≤ ty.width) fun s => wholeWord s fun s =>
    let a := vget s.cur.files.amh h.val
    let m := (List.range s.cur.ctl.amaxWindow).foldl (fun m i => max m (vget a.slots i).toNat) 0
    s.xPut xd (BitVec.ofNat 64 (quantScale (s.cur.fmaxOf ty cb.val) m))

/-! ## Block-scaled dot products (01 R41, 05 R161) -/

/-- An optional f32 sum with its flags: an absent operand passes its partner through. -/
def sumOpt (f : Fmt) (rm : Rm) (a b : Option Nat × Flags) : Option Nat × Flags :=
  match a.1, b.1 with
  | some x, some y => let r := f.addBits rm x y; (some r.1, a.2 ||| b.2 ||| r.2)
  | some x, none => (some x, a.2 ||| b.2)
  | none, y => (y, a.2 ||| b.2)

/-- One level of a pairwise tree. -/
def treeLevel (f : Fmt) (rm : Rm) : List (Option Nat × Flags) → List (Option Nat × Flags)
  | a :: b :: t => sumOpt f rm a b :: treeLevel f rm t
  | l => l

/-- A pairwise tree of `n` levels (01 R34, R41). -/
def treeSum (f : Fmt) (rm : Rm) : Nat → List (Option Nat × Flags) → List (Option Nat × Flags)
  | 0, l => l
  | n + 1, l => treeSum f rm n (treeLevel f rm l)

/-- An element that a word reads in a row whose destination is register `d`: what the row itself has written there is not read (05 R147); `s0` is
the state before the word, or before its re-issue. DEDUCED (32): there bytes 0 to 3 of a scale register that is the row's destination hold the running
value that the stop left. -/
def State.rowGet (s s0 : State) (d v w i : Nat) : Nat := if v == d then s0.vGet v w i else s.vGet v w i

/-- An element of a VBDOT operand. -/
def State.dotVal (s s0 : State) (d : Nat) (ty : Ty) (cb v i : Nat) : FVal :=
  let a := s.rowGet s0 d v ty.width i
  if ty == .cb4 then cbVal (s.cur.cbGet cb a) else (fmtOf ty).decode a

/-- An exact product rounded into f32, RNE. -/
def mulF32 (a b : FVal) : Nat × Flags :=
  let p := a.mul b
  let r := (fmtOf .f32).encode .rne p.1
  (r.1, p.2 ||| r.2)

/-- One block of a VBDOT row: the new running value and what it raises; none where no element is active. DESIGN CHOICE (18): what the block's steps
raise is recorded at element 8j also where that element is inactive, and beside what its product raises, so that one class can count twice there. -/
def State.dotBlock (s s0 : State) (o : Dot) (r i acc : Nat) : Option (Nat × List Raised) :=
  let els := (List.range 8).map fun k => i + k
  let on (k : Nat) : Bool := k < s.cur.vl && s.cur.word.mask.getLsbD k
  if !els.any on then none
  else
    let f := fmtOf .f32
    let d := o.vd.val + r
    let ps := els.map fun k =>
      if on k then some (mulF32 (s.dotVal s0 d o.ty o.cba.val (o.va.val + r) k) (s.dotVal s0 d o.ty o.cbb.val (o.vb.val + r) k)) else none
    let prodFlags := (els.zip ps).filterMap fun x => x.2.map fun p => (⟨x.1, p.2, false⟩ : Raised)
    let (sum, tf) := (treeSum f .rne 3 (ps.map fun p => (p.map Prod.fst, 0))).headD (none, 0)
    let sa := (fmtOf .e5m2).decode (s.rowGet s0 d (o.vsa.val + r) 8 (i / 8))
    let sb := (fmtOf .e5m2).decode (s.rowGet s0 d (o.vsb.val + r) 8 (i / 8))
    if sa.isNan || sb.isNan then some (f.nan, prodFlags ++ [⟨i, tf ||| fSCN, false⟩])
    else
      let sc := mulF32 sa sb
      let m := f.mulBits .rne (sum.getD 0) sc.1
      let a := f.addBits .rne acc m.1
      some (a.1, prodFlags ++ [⟨i, tf ||| sc.2 ||| m.2 ||| a.2, false⟩])

/-- The tensor scaling of a row that ends (01 R41 step 6). -/
def State.dotFinal (s : State) (o : Dot) (acc : Nat) : Nat × Flags :=
  let bf (x : XReg) : FVal := (fmtOf .bf16).decode ((s.cur.xGet x).toNat % 2 ^ 16)
  let t := mulF32 (bf o.xta) (bf o.xtb)
  let r := (fmtOf .f32).mulBits .rne acc t.1
  (r.1, t.2 ||| r.2)

/-- The running value of a sum of row `r` into element 0 of register `v`: where the fragment mask keeps that element, the sum runs on outside the
register and is dropped at the end (06 R194). -/
def State.redAcc (s : State) (v w r : Nat) : Nat :=
  match s.cur.word.staged.find? fun x => x.1 == r with
  | some x => x.2.toNat
  | none => s.vGet v w 0

/-- Gives the running value of a sum of row `r`: element 0 of register `v`, unless the fragment mask keeps it. DESIGN CHOICE (18): a sum that stops
there loses its running value, and its re-issue starts from the old element 0 (01 R37, 06 R194). -/
def State.redPut (s : State) (v w r x : Nat) : State :=
  if s.cur.block.fm.getLsbD 0 then s.vPut v w 0 x else s.onWord fun c => { c with staged := [(r, BitVec.ofNat 64 x)] }

/-- VBDOT (05 R161): rows of blocks, each of which may stop. DEDUCED (32): with VL = 0 it does nothing, the scaling of .fin included (03 R76). -/
def execVbdot (o : Dot) (s : State) : Res :=
  vecWord s o.msk.val [o.ty] [] [o.vd.val, o.va.val, o.vb.val, o.vsa.val, o.vsb.val] [] (!s.cur.lp) fun s0 =>
    rowWord s0 8 o.ty.width (fun s r i =>
      let acc := s.redAcc (o.vd.val + r) 32 r
      let (acc, out) := (s.dotBlock s0 o r i acc).getD (acc, [])
      let (acc, out) := if o.fin && s.cur.vl ≤ i + 8 then
          let x := s.dotFinal o acc
          (x.1, out ++ [⟨0, x.2, false⟩])
        else (acc, out)
      match s.cur.ctl.rowOut out with
      | some f => (s, f)
      | none => (s.redPut (o.vd.val + r) 32 r acc, .did out)) retireWord

/-! ## Packing -/

/-- Clamps a value to a pack destination (05 R162): cb4 to 0 to 15. -/
def packClamp (src dst : Ty) (a : Nat) : Nat × Bool :=
  let c := clampInt dst.width dst.signed (bitsInt src.width src.signed a)
  (intBits dst.width c.1, c.2)

/-- VPACK (05 R162): element i of each source to elements i and VL + i, as far as the fragment mask lets each be written (06 R194). -/
def execVpack (dst : Ty) (o : Binary) (s : State) : Res :=
  vecWord s o.msk.val [o.ty, dst] [] [o.vd.val, o.va.val, o.vb.val] [] (2 * s.cur.vl ≤ s.cur.vlmax dst.width) fun s =>
    rowWord s 0 o.ty.width (rowUnit (fun s r =>
      let els := s.cur.active.map fun i =>
        (i, packClamp o.ty dst (s.vGet (o.va.val + r) o.ty.width i), packClamp o.ty dst (s.vGet (o.vb.val + r) o.ty.width i))
      (els.flatMap fun x => (x.1, x.2.1.1) :: if s.cur.block.fm.getLsbD (s.cur.vl + x.1) then [(s.cur.vl + x.1, x.2.2.1)] else [],
       els.map fun x => ⟨x.1, flagIf (x.2.1.2 || x.2.2.2) fSAT, false⟩)) fun s r i v => s.vPut (o.vd.val + r) dst.width i v) retireWord

/-- VUNPACK (05 R163). -/
def execVunpack (dst : Ty) (hi : Bool) (o : Unary) (s : State) : Res :=
  vecWord s o.msk.val [o.ty, dst] [] [o.vd.val, o.va.val] [] (2 * s.cur.vl ≤ s.cur.vlmax o.ty.width) fun s =>
    rowWord s 0 dst.width (rowUnit (fun s r =>
      (s.cur.active.map fun i =>
        let a := s.vGet (o.va.val + r) o.ty.width (if hi then s.cur.vl + i else i)
        (i, intBits dst.width (bitsInt o.ty.width o.ty.signed a)), [])) fun s r i v => s.vPut (o.vd.val + r) dst.width i v) retireWord

end Sys2Proof.Machine
end

