-- ==== Sys2Proof/Machine/VRed.lean ====
section
/-!
DEFINITION. Reductions and scans of the stream (05 R164 to R166, 01 R34 to R37).
-/
namespace Sys2Proof.Machine

/-- The operations of reductions and scans (02 R61). -/
inductive RedOp where
  | sum | min | max | and | or | xor
  deriving DecidableEq, Repr

/-- Combines a running value with an element. -/
def RedOp.combine (op : RedOp) (ty : Ty) (rm : Rm) (a b : Nat) : Nat × Flags :=
  let w := ty.width
  match op with
  | .sum => if ty.isFloat then (fmtOf ty).addBits rm a b else ((a + b) % 2 ^ w, 0)
  | .min =>
    if ty.isFloat then (fmtOf ty).minMax false a b
    else (if bitsInt w ty.signed b < bitsInt w ty.signed a then b else a, 0)
  | .max =>
    if ty.isFloat then (fmtOf ty).minMax true a b
    else (if bitsInt w ty.signed a < bitsInt w ty.signed b then b else a, 0)
  | .and => (a &&& b, 0)
  | .or => (a ||| b, 0)
  | .xor => (a ^^^ b, 0)

/-- The identity of a scan (05 R166). -/
def RedOp.identity (op : RedOp) (ty : Ty) : Nat :=
  let w := ty.width
  let f := fmtOf ty
  match op with
  | .sum => if ty.isFloat then f.signBit true else 0
  | .min => if ty.isFloat then f.infCode else intBits w (intMax w ty.signed)
  | .max => if ty.isFloat then f.signBit true + f.infCode else intBits w (intMin w ty.signed)
  | .and => 2 ^ w - 1
  | .or => 0
  | .xor => 0

/-- The running value and flags of combining the active elements of a row in ascending order. DESIGN CHOICE (18): a signalling NaN that stands in
element 0 before a MIN or MAX raises NV at the first active element, where it enters the combination; R164 names no element for it. -/
def foldRow (op : RedOp) (ty : Ty) (rm : Rm) (init : Nat) (els : List (Nat × Nat)) : Nat × List Raised :=
  els.foldl (fun a x => let c := op.combine ty rm a.1 x.2; (c.1, a.2 ++ [⟨x.1, c.2, false⟩])) (init, [])

/-- A row-atomic reduction into element 0 of vd + r, which the fragment mask may keep (06 R194): the elements `els` of the row, and a function from the old value. -/
def redRows (s : State) (o : Unary) (f : State → Nat → List (Nat × Nat) → Nat × List Raised) : Res :=
  let w := o.ty.width
  rowWord s 0 w (rowUnit (fun s r =>
    let x := f s (s.vGet (o.vd.val + r) w 0) (s.cur.active.map fun i => (i, s.vGet (o.va.val + r) w i))
    ([(0, x.1)], x.2)) fun s r _ v => s.redPut (o.vd.val + r) w r v) retireWord

/-- A reduction whose result does not depend on order (05 R164). -/
def redWord (s : State) (rnd : Nat) (op : RedOp) (o : Unary) : Res :=
  vecWord s o.msk.val [o.ty] [] [o.vd.val, o.va.val] [] true fun s =>
    redRows s o fun s acc els => foldRow op o.ty (s.cur.ctl.mode rnd) acc els

/-- The canonical sum of one block of 32 elements and its addition to the running value (01 R34). DESIGN CHOICE (18): its flags are recorded at the
block's first element, as 05 R164 says, also where that element is inactive (01 R31). -/
def State.canonBlock (s : State) (rnd : Nat) (o : Unary) (r i acc : Nat) : Nat × List Raised :=
  let w := o.ty.width
  let f := fmtOf o.ty
  let rm := s.cur.ctl.mode rnd
  let level : List (Option Nat × Flags) := (List.range 32).map fun k =>
    (if i + k < s.cur.vl && s.cur.word.mask.getLsbD (i + k) then some (s.vGet (o.va.val + r) w (i + k)) else none, 0)
  match (treeSum f rm 5 level).headD (none, 0) with
  | (none, _) => (acc, [])
  | (some b, fl) =>
    let a := f.addBits rm acc b
    (a.1, [⟨i, fl ||| a.2, false⟩])

/-- The code of the mode in force: 1 RNE, 2 RTZ, 3 RUP, 4 RDN. -/
def Ctl.modeCode (c : Ctl) (rnd : Nat) : Fin 5 := Fin.ofNat 5 (if rnd == 0 then fieldOf c.fctl 0 2 + 1 else rnd)

/-- What the K5's own order of a sum depends on beside its data (01 R35). -/
def Strand.sumShape (st : Strand) : Config.SumShape := { half := st.half, stratB := st.stratB, lp := st.lp, vl := st.vl }

/-- The sum of a row in the K5's own order (01 R35): an open value of the type, with open arithmetic flags at active elements. -/
def openRow (sh : Config.SumShape) (c : Ctl) (ty : Ty) (rnd acc : Nat) (els : List (Nat × Nat)) : Nat × List Raised :=
  if els.isEmpty then (acc, [])
  else
    let l := els.map fun x => (x.1, BitVec.ofNat 64 x.2)
    let fl := Config.openSumFlags sh ty (c.modeCode rnd) (BitVec.ofNat 64 acc) l
    ((Config.openSum sh ty (c.modeCode rnd) (BitVec.ofNat 64 acc) l).toNat % 2 ^ ty.width,
     (fl.filter fun x => els.any fun e => e.1 == x.1).map fun x => ⟨x.1, x.2 &&& (fNV ||| fOF ||| fUF ||| fNX), false⟩)

/-- VREDSUM (05 R164): integers wrap; a floating-point sum is canonical, stopping at blocks, or in the K5's own order. -/
def execVredsum (rnd : Fin 5) (o : Unary) (s : State) : Res :=
  if !o.ty.isFloat then redWord s rnd.val .sum o
  else
    let w := o.ty.width
    vecWord s o.msk.val [o.ty] [] [o.vd.val, o.va.val] [] true fun s =>
      if s.cur.ctl.canon then
        rowWord s 32 w (fun s r i =>
          let x := s.canonBlock rnd.val o r i (s.redAcc (o.vd.val + r) w r)
          match s.cur.ctl.rowOut x.2 with
          | some f => (s, f)
          | none => (s.redPut (o.vd.val + r) w r x.1, .did x.2)) retireWord
      else redRows s o fun s acc els => openRow s.cur.sumShape s.cur.ctl o.ty rnd.val acc els

/-- VREDMIN (05 R164). -/
def execVredmin (rnd : Fin 5) (o : Unary) (s : State) : Res := redWord s rnd.val .min o

/-- VREDMAX (05 R164). -/
def execVredmax (rnd : Fin 5) (o : Unary) (s : State) : Res := redWord s rnd.val .max o

/-- VREDAND (05 R164). -/
def execVredand (o : Unary) (s : State) : Res := redWord s 0 .and o

/-- VREDOR (05 R164). -/
def execVredor (o : Unary) (s : State) : Res := redWord s 0 .or o

/-- VREDXOR (05 R164). -/
def execVredxor (o : Unary) (s : State) : Res := redWord s 0 .xor o

/-- VREDSO (05 R165, 01 R36): element by element, stopping at each; one step as a whole (13 R290). -/
def execVredso (rnd : Fin 5) (o : Unary) (s : State) : Res :=
  let w := o.ty.width
  vecWord s o.msk.val [o.ty] [] [o.vd.val, o.va.val] [] true fun s =>
    seqWord s w (fun s r i =>
      if !s.cur.word.mask.getLsbD i then (s, .did [])
      else
        let a := (fmtOf o.ty).addBits (s.cur.ctl.mode rnd.val) (s.redAcc (o.vd.val + r) w r) (s.vGet (o.va.val + r) w i)
        let out : List Raised := [⟨i, a.2, false⟩]
        match s.cur.ctl.rowOut out with
        | some f => (s, f)
        | none => (s.redPut (o.vd.val + r) w r a.1, .did out)) retireWord

/-! ## Scans (05 R166) -/

/-- The writes and flags of a scan of one row. -/
def scanRow (op : RedOp) (ex : Bool) (ty : Ty) (rm : Rm) (els : List (Nat × Nat)) : List (Nat × Nat) × List Raised :=
  let x := els.foldl (fun (a : Nat × List (Nat × Nat) × List Raised) e =>
    let c := op.combine ty rm a.1 e.2
    (c.1, a.2.1 ++ [(e.1, if ex then a.1 else c.1)], a.2.2 ++ [⟨e.1, c.2, false⟩])) (op.identity ty, [], [])
  x.2

/-- A scan, row-atomic. -/
def scanWord (s : State) (rnd : Nat) (op : RedOp) (ex : Bool) (o : Unary) : Res :=
  let w := o.ty.width
  vecWord s o.msk.val [o.ty] [] [o.vd.val, o.va.val] [] true fun s =>
    rowWord s 0 w (rowUnit (fun s r =>
      scanRow op ex o.ty (s.cur.ctl.mode rnd) (s.cur.active.map fun i => (i, s.vGet (o.va.val + r) w i)))
      fun s r i v => s.vPut (o.vd.val + r) w i v) retireWord

/-- VSCANSUM (05 R166). -/
def execVscansum (rnd : Fin 5) (o : Unary) (s : State) : Res := scanWord s rnd.val .sum false o

/-- VSCANMIN (05 R166). -/
def execVscanmin (rnd : Fin 5) (o : Unary) (s : State) : Res := scanWord s rnd.val .min false o

/-- VSCANMAX (05 R166). -/
def execVscanmax (rnd : Fin 5) (o : Unary) (s : State) : Res := scanWord s rnd.val .max false o

/-- VSCANAND (05 R166). -/
def execVscanand (o : Unary) (s : State) : Res := scanWord s 0 .and false o

/-- VSCANOR (05 R166). -/
def execVscanor (o : Unary) (s : State) : Res := scanWord s 0 .or false o

/-- VSCANXOR (05 R166). -/
def execVscanxor (o : Unary) (s : State) : Res := scanWord s 0 .xor false o

/-- VSCANEXSUM (05 R166). -/
def execVscanexsum (rnd : Fin 5) (o : Unary) (s : State) : Res := scanWord s rnd.val .sum true o

/-- VSCANEXMIN (05 R166). -/
def execVscanexmin (rnd : Fin 5) (o : Unary) (s : State) : Res := scanWord s rnd.val .min true o

/-- VSCANEXMAX (05 R166). -/
def execVscanexmax (rnd : Fin 5) (o : Unary) (s : State) : Res := scanWord s rnd.val .max true o

/-- VSCANEXAND (05 R166). -/
def execVscanexand (o : Unary) (s : State) : Res := scanWord s 0 .and true o

/-- VSCANEXOR (05 R166). -/
def execVscanexor (o : Unary) (s : State) : Res := scanWord s 0 .or true o

/-- VSCANEXXOR (05 R166). -/
def execVscanexxor (o : Unary) (s : State) : Res := scanWord s 0 .xor true o

end Sys2Proof.Machine
end

