-- ==== Sys2Proof/Machine/VPerm.lean ====
section
/-!
DEFINITION. Permutes of the stream (05 R167): aligned and row-atomic.
-/
namespace Sys2Proof.Machine

/-- A permute: `f` gives the writes of a row. -/
def permWord (s : State) (msk : MReg) (ty : Ty) (iw groups : List Nat) (vd : VReg) (ok : Bool) (f : State → Nat → List (Nat × Nat)) : Res :=
  vecWord s msk.val [ty] iw groups [] ok fun s =>
    rowWord s 0 ty.width (rowUnit (fun s r => (f s r, [])) fun s r i v => s.vPut (vd.val + r) ty.width i v) retireWord

/-- The amount of a slide: the unsigned scalar, or the zero-extended imm16. -/
def State.slideBy (s : State) : Third → Nat
  | .s x => (s.cur.slot x).toNat
  | .i16 imm => imm.toNat
  | _ => 0

/-- VSLIDEUP (05 R167). -/
def execVslideup (o : Arith) (s : State) : Res :=
  permWord s o.msk o.ty [] [o.vd.val, o.va.val] o.vd true fun s r =>
    let k := s.slideBy o.third
    (s.cur.active.filter fun i => k ≤ i).map fun i => (i, s.vGet (o.va.val + r) o.ty.width (i - k))

/-- VSLIDEDN (05 R167). -/
def execVslidedn (o : Arith) (s : State) : Res :=
  permWord s o.msk o.ty [] [o.vd.val, o.va.val] o.vd true fun s r =>
    let k := s.slideBy o.third
    s.cur.active.map fun i => (i, if i + k < s.cur.vl then s.vGet (o.va.val + r) o.ty.width (i + k) else 0)

/-- VPERM (05 R167): the indices are n16 elements. -/
def execVperm (o : Binary) (s : State) : Res :=
  permWord s o.msk o.ty [16] [o.vd.val, o.va.val, o.vb.val] o.vd true fun s r =>
    s.cur.active.map fun i =>
      let j := s.vGet (o.vb.val + r) 16 i
      (i, if j < s.cur.vl then s.vGet (o.va.val + r) o.ty.width j else 0)

/-- Elements below VL whose fragment-mask bit is 1. -/
def Strand.fragment (st : Strand) : List Nat := (List.range st.vl).filter fun i => st.block.fm.getLsbD i

/-- VCOMPRESS (05 R167, 06 R194): the mask chooses the source; only the fragment mask limits the writes. -/
def execVcompress (o : Unary) (s : State) : Res :=
  permWord s o.msk o.ty [] [o.vd.val, o.va.val] o.vd true fun s r =>
    let src := s.cur.active.map fun i => s.vGet (o.va.val + r) o.ty.width i
    s.cur.fragment.mapIdx fun n i => (i, src.getD n 0)

/-- VEXPAND (05 R167). -/
def execVexpand (o : Unary) (s : State) : Res :=
  permWord s o.msk o.ty [] [o.vd.val, o.va.val] o.vd true fun s r =>
    s.cur.active.mapIdx fun n i => (i, s.vGet (o.va.val + r) o.ty.width n)

/-- VBCAST (05 R167): one element of va + r, by the index in vb, or the scalar. -/
def execVbcast (o : Arith) (s : State) : Res :=
  match o.third with
  | .v n =>
    permWord s o.msk o.ty [] [o.vd.val, o.va.val] o.vd (n.val < s.cur.vlmax o.ty.width) fun s r =>
      s.cur.active.map fun i => (i, s.vGet (o.va.val + r) o.ty.width n.val)
  | t => permWord s o.msk o.ty [] [o.vd.val] o.vd true fun s r => s.cur.active.map fun i => (i, s.third o.ty t r i)

/-- VIOTA (05 R167). -/
def execViota (msk : MReg) (ty : Ty) (vd : VReg) (s : State) : Res :=
  permWord s msk ty [] [vd.val] vd true fun s _ => s.cur.active.map fun i => (i, i % 2 ^ ty.width)

/-- A VTRN pattern: `src` gives, for element i, the source register (false va, true vb) and its index. -/
def trnWord (s : State) (o : Binary) (src : (m i : Nat) → Bool × Nat) : Res :=
  permWord s o.msk o.ty [] [o.vd.val, o.va.val, o.vb.val] o.vd (s.cur.vl % 2 == 0) fun s r =>
    s.cur.active.map fun i =>
      let x := src (s.cur.vl / 2) i
      (i, s.vGet ((if x.1 then o.vb.val else o.va.val) + r) o.ty.width x.2)

/-- VTRNE (05 R167). -/
def execVtrne (o : Binary) (s : State) : Res := trnWord s o fun _ i => (i % 2 == 1, i / 2 * 2)

/-- VTRNO (05 R167). -/
def execVtrno (o : Binary) (s : State) : Res := trnWord s o fun _ i => (i % 2 == 1, i / 2 * 2 + 1)

/-- VZIPL (05 R167). -/
def execVzipl (o : Binary) (s : State) : Res := trnWord s o fun _ i => (i % 2 == 1, i / 2)

/-- VZIPH (05 R167). -/
def execVziph (o : Binary) (s : State) : Res := trnWord s o fun m i => (i % 2 == 1, m + i / 2)

end Sys2Proof.Machine
end

