-- ==== Sys2Proof/Machine/StreamCtl.lean ====
section
/-!
DEFINITION. Stream control (06 R182 to R196), strip-ahead (R192) with the placement of a line in its DRAM row (22 R406), block calls
(R186), and the hint space.
-/
namespace Sys2Proof.Machine

/-! ## Rows of DRAM (22 R406) -/

/-- XOR of the 6-bit fields of a number. -/
def fold6 (x : Nat) : Nat := (List.range 6).foldl (fun a i => a ^^^ bits x (6 * i) 6) 0

/-- The pseudo-channel, bank and row of a stack address under HMASK. -/
def dramRow (hmask : Word) (a : Nat) : Nat × Nat × Nat :=
  (bits a 7 6 ^^^ fold6 ((bits a 13 35 &&& hmask.toNat) <<< 0), bits a 16 4, bits a 20 16)

/-! ## Control words -/

/-- Addresses that follow a word in sequence (02 R45). -/
def plainNext (spc n : Word) : Bool := n == spc + 2 || n == (spc &&& ~~~63) + 66

/-- A control word (06 R188): it acts once, whatever VL is, and may name where the block goes on, or fault. With ESTEP it stops
after it has acted, and its re-issue only retires it (13 R290). -/
def ctlWord (s : State) (ok : Bool) (f : State → State × Except Stop (Option Word)) : Res :=
  issueWord s 0 false ok fun s =>
    let c := s.cur.word
    if s.cur.wordOver then .next (s.finishTo (if plainNext c.spc c.nspc then none else some c.nspc)) else go s
where
  go (s : State) : Res :=
    match f s with
    | (s, .error st) => stopWord s st
    | (s, .ok t) =>
      if s.cur.stepping then
        stopWord ((s.onWord fun c => { c with nspc := t.getD c.nspc }).allPods (s.cur.rows, 0)) ⟨cSTEP, 0, 0, 0⟩
      else .next (s.finishTo t)

/-- A control word that only runs inside a block (02 R56). -/
def blockCtl (s : State) (f : State → State × Except Stop (Option Word)) : Res := ctlWord s s.cur.word.blk f

/-- A control word without faults or transfers. -/
def plainCtl (s : State) (ok : Bool) (f : State → State) : Res := ctlWord s ok fun s => (f s, .ok none)

def State.onBlock (s : State) (f : Block → Block) : State := s.onCur fun st => { st with block := f st.block }

/-- VNOP (06 R189). -/
def execVnop (s : State) : Res := plainCtl s true id

/-- The stream's hint space (02 R63): executes as VNOP. -/
def execVhint (_k : Fin 8) (_tl : Fin 7) (_a : Fin 32) (s : State) : Res := plainCtl s true id

/-- VSETVL (06 R184): grants a row's elements and takes ROWS rows from the remaining count. -/
def execVsetvl (ty : Ty) (xd xs : XReg) (s : State) : Res :=
  plainCtl s (!s.cur.lp || 16 ≤ ty.width) fun s =>
    let n := (s.cur.xGet xs).toNat
    let g := min n (s.cur.vlmax ty.width)
    ((s.onCur fun st => { st with vl := g }).xPut xd (BitVec.ofNat 64 g)).xPut xs (BitVec.ofNat 64 (n - min n (g * s.cur.rows)))

/-- VSETROWS with an immediate (06 R185). -/
def execVsetrowsImm (n : Fin 64) (s : State) : Res :=
  plainCtl s (1 ≤ n.val && n.val ≤ 32) fun s => s.onCur fun st => { st with rows := n.val }

/-- VSETROWS from an x register (06 R185): an illegal value raises ILL with TVAL holding it. -/
def execVsetrowsX (xn : XReg) (s : State) : Res :=
  ctlWord s true fun s =>
    let v := s.cur.xGet xn
    if v.toNat == 0 || 32 < v.toNat then (s, .error ⟨cILL, v, 0, 0⟩)
    else (s.onCur fun st => { st with rows := v.toNat }, .ok none)

/-- VJ (06 R189). -/
def execVj (off : BitVec 16) (s : State) : Res := blockCtl s fun s => (s, .ok (some (s.cur.word.spc + halfOff off)))

/-- VREP (06 R189, 03 R91): a full reply queue raises EQX. -/
def execVrep (xs : XReg) (s : State) : Res :=
  ctlWord s true fun s =>
    if 16 ≤ s.cur.reply.length then (s, .error ⟨cEQX, 1, 0, 0⟩)
    else (s.onCur fun st => { st with reply := st.reply ++ [st.xGet xs] }, .ok none)

/-- VMVX (06 R182). -/
def execVmvx (xd : XReg) (val : Slot) (s : State) : Res := plainCtl s true fun s => s.xPut xd (s.cur.slot val)

/-- An element as an x register receives it: signed types sign-extended, others zero-extended. -/
def extendElem (ty : Ty) (v : Nat) : Word :=
  if ty.signed then BitVec.ofInt 64 (signedOf ty.width v) else BitVec.ofNat 64 v

/-- VEXTR (06 R183). -/
def execVextr (ty : Ty) (xd : XReg) (va : VReg) (idx : Slot) (s : State) : Res :=
  ctlWord s (!s.cur.lp || 16 ≤ ty.width) fun s =>
    match s.meetUnit with
    | (s, some st) => (s, .error st)
    | (s, none) =>
      let j := (s.cur.slot idx).toNat
      (s.xPut xd (if j < s.cur.vlmax ty.width then extendElem ty (s.vGet va.val ty.width j) else 0), .ok none)

/-! ## Strip-ahead (06 R192) -/

/-- Records a VLD that executes in a block: its base, step and VL · ROWS. -/
def Strand.noteStrip (st : Strand) (base step : Word) : Strand :=
  let c := st.word
  if !c.blk then st
  else
    let span := st.vl * st.rows
    if st.strips.any fun x => x.spc == c.spc then
      { st with strips := st.strips.map fun x =>
          if x.spc == c.spc then { x with base := base, step := step, span := span, seen := true } else x }
    else { st with strips := st.strips ++ [⟨c.spc, base, step, span, true, 0, 0, 0, false⟩] }

/-- The recognised words of the pass just ended. -/
def Strand.recognised (st : Strand) (head last : Word) : List Strip :=
  ((st.strips.filter fun x => x.seen && head.toNat ≤ x.spc.toNat && x.spc.toNat < last.toNat).take 4).filter fun x =>
    x.pseen && x.step == x.pstep && x.base == x.pbase + BitVec.ofNat 64 x.pspan * x.step

/-- The rows that the next strip of a word touches: translated through the TLBs only. -/
def State.stripRows (s : State) (x : Strip) : List (Nat × Nat × Nat × Nat) :=
  let n := s.cur.vl * s.cur.rows
  let p := s.curPart
  let lines := ((List.range n).map fun k => (x.base + BitVec.ofNat 64 (n + k) * x.step).toNat / 128).eraseDups
  (lines.filterMap fun l =>
    let va := l * 128
    let e := match tlbFind (s.core s.cur.coreNo).dtlb p.id va with
      | some e => some e
      | none => tlbFind (s.cluster s.cur.cluster).tlb p.id va
    match e with
    | none => none
    | some e => match leafLoc s p va e.leaf.toNat e.bits with
      | .ok loc => if loc.gw then none else
        let (ch, b, r) := dramRow p.hmask (loc.key % 2 ^ 36)
        some (stackOf loc.key, ch, b, r)
      | .error _ => none).eraseDups

/-- The end of a pass at a taken VBSTRIP: hints go to the base dies for the recognised words. -/
def State.stripAhead (s : State) (head last : Word) : State :=
  let rows := (s.cur.recognised head last).flatMap s.stripRows |>.eraseDups
  let s := s.onCur fun st => { st with strips := st.strips.map fun x =>
    { x with pbase := x.base, pstep := x.step, pspan := x.span, pseen := x.seen, seen := false } }
  rows.foldl (fun s r => s.due (.hint r.1 r.2.1 r.2.2.1 r.2.2.2)) s

/-! ## Block control -/

/-- VBSTRIP (06 R191): the loop goes on while the count is not 0; two passes without a decrease raise NPG. -/
def execVbstrip (xc : XReg) (off : BitVec 16) (s : State) : Res :=
  blockCtl s fun s =>
    let n := s.cur.xGet xc
    let spc := s.cur.word.spc
    let head := spc + halfOff off
    let b := s.cur.block
    let nd := b.stripct.getLsbD 1
    if n == 0 then (s.onBlock fun b => { b with stripct := b.stripct &&& 2 }, .ok none)
    else
      let same := b.stripct.getLsbD 0 && b.strippc == spc && !n.ult b.stripv
      if same && nd then (s.onBlock fun b => { b with stripct := b.stripct &&& 2 }, .error ⟨cNPG, head, 0, 0⟩)
      else
        let s := s.onBlock fun b => { b with stripv := n, strippc := spc, stripct := if same then 3 else 1 }
        (s.stripAhead head spc, .ok (some head))

/-- Bits below VL. -/
def Strand.vlBits (st : Strand) : BitVec 1024 := BitVec.ofNat 1024 (2 ^ st.vl - 1)

/-- VBR (06 R195): splits the fragment by a mask. -/
def execVbr (m : MReg) (off : BitVec 16) (s : State) : Res :=
  blockCtl s fun s =>
    let b := s.cur.block
    let target := s.cur.word.spc + halfOff off
    if 8 ≤ b.pfb.length then (s, .error ⟨cPFBO, 1, 0, 0⟩)
    else
      let e := b.fm &&& s.cur.vlBits
      let t := e &&& s.maskReg m.val
      if t == 0 then (s.onBlock fun b => { b with pfb := b.pfb ++ [⟨.uni, 0, 0, 0⟩] }, .ok none)
      else if t == e then (s.onBlock fun b => { b with pfb := b.pfb ++ [⟨.uni, 0, 0, 0⟩] }, .ok (some target))
      else (s.onBlock fun b => { b with pfb := b.pfb ++ [⟨.pend, s.cur.word.nspc, b.fm &&& ~~~t, b.fm⟩], fm := b.fm &&& ~~~(e &&& ~~~t) },
        .ok (some target))

/-- VJOIN (06 R196): acts on the newest entry of the pending-fragment buffer. -/
def execVjoin (s : State) : Res :=
  blockCtl s fun s =>
    match s.cur.block.pfb.getLast? with
    | none => (s, .error ⟨cPFBO, 0, 0, 0⟩)
    | some f =>
      let pop := s.cur.block.pfb.dropLast
      match f.kind with
      | .uni => (s.onBlock fun b => { b with pfb := pop }, .ok none)
      | .pend => (s.onBlock fun b => { b with pfb := pop ++ [{ f with kind := .res }], fm := f.fmn }, .ok (some f.pc))
      | .res => (s.onBlock fun b => { b with pfb := pop, fm := f.fmj }, .ok none)

/-- VLOOP (06 R193, 04 R133): starts a stream loop. -/
def execVloop (c : Fin 2) (xn : XReg) (off : BitVec 16) (s : State) : Res :=
  blockCtl s fun s =>
    let w := s.cur.word
    let n : BitVec 32 := (s.cur.xGet xn).setWidth 32
    let fin := w.spc + halfOff off
    if fin.toNat ≤ w.nspc.toNat then (s, .error s.headStop)
    else
      let bit : BitVec 3 := 1#3 <<< c.val
      if n == 0 then
        (s.onBlock fun b => { (if c = 0 then { b with vlc0 := 0 } else { b with vlc1 := 0 }) with vlctl := b.vlctl &&& ~~~bit }, .ok (some fin))
      else
        (s.onBlock fun b =>
          { (if c = 0 then { b with vlc0 := n, vlbeg0 := w.nspc, vlend0 := fin } else { b with vlc1 := n, vlbeg1 := w.nspc, vlend1 := fin }) with
            vlctl := ((b.vlctl ||| bit) &&& 3) ||| (if c = 0 then 0 else 4) }, .ok none)

/-- VBRET (06 R186, R189): ends the block; a fragment that still waits raises PFBO. -/
def execVbret (s : State) : Res :=
  blockCtl s fun s =>
    if !s.cur.block.pfb.isEmpty then (s, .error ⟨cPFBO, 2, 0, 0⟩) else (s.onBlock Block.leave, .ok none)

/-- A block-call word (04 R138, 06 R186): its address and first line are checked, and the stream enters the block. -/
def execBlockCall (addr : Word) (s : State) : Res :=
  issueWord s 0 false true fun s =>
    if addr.toNat % 64 != 0 then wordFault s cALIGN addr
    else match s.fetchLine addr (some true) with
      | (s, .error c) => wordFault s c addr
      | (s, .ok line) =>
        if !lineOk line 1 then wordFault s cILL addr
        else
          .next (s.onCur fun st =>
            { st with cur := none, sstall := wNone, strips := []
                      block := { st.block with call := some st.word.e, spc := addr + 2, fm := BitVec.allOnes 1024, pfb := [], vlctl := 0
                                               stripct := st.block.stripct &&& 2 } })

end Sys2Proof.Machine
end

