-- ==== Sys2Proof/Machine/Mem.lean ====
section
/-!
DEFINITION. How stream memory words reach memory (06 R168 to R181, 12 R270, R273): addresses, pin sets, full/empty forms by
element setts, and the accesses of one element group.
-/
namespace Sys2Proof.Machine

/-- The full/empty forms of stream words (06 R175). -/
inductive MForm where
  | plain | w | c | t | f | s
  deriving DecidableEq, Repr

/-- A memory word: `v` is the register group of its data, `addr` the address of an element, or its offset in the lane slice, `alloc` the L1
priority at which a load brings its lines in, if it does; with `each` every element that performs is an acquire (14 R314). -/
structure MemWord where
  load : Bool
  form : MForm
  scope : Scope
  ty : Ty
  v : Nat
  alloc : Option Bool
  lane : Bool
  prog : Option Word
  addr : State → (r i : Nat) → Word
  each : Bool := false

/-- Element width in bytes; a cb4 element lies in one byte. -/
def elemBytes (ty : Ty) : Nat := max 1 (ty.width / 8)

/-- The pod that holds an element. -/
def Strand.podOf (st : Strand) (w i : Nat) : Nat := i / (64 / w) % st.lanes / 8

/-- Whether an element has not completed. -/
def Strand.unfinished (st : Strand) (w r i : Nat) : Bool :=
  match st.word.pods[st.podOf w i]? with
  | some p => (posLt p.row p.idx r i || (p.row == r && p.idx == i)) && !(p.row == r && p.done.contains i)
  | none => false

/-- The active elements that have not completed, in ascending sweep position. -/
def State.leftOver (s : State) (w : Nat) : List (Nat × Nat) :=
  (List.range s.cur.rows).flatMap fun r => (s.cur.active.filter fun i => s.cur.unfinished w r i).map fun i => (r, i)

/-- The static checks of one address (06 R171): ALIGN, then translation and protection. -/
def State.checkAddr (s : State) (need : Need) (align : Nat) (va : Word) : State × Except Nat Loc :=
  if va.toNat % align != 0 then (s, .error cALIGN) else s.resolveStream need va.toNat

/-- The byte of the flat scratchpad view that lane slice `l` holds at offset `c` (12 R271). -/
def laneOffset (l c : Nat) : Nat := c / 8 * 512 + l * 8 + c % 8

/-- The location of an element of a memory word, with its static checks. -/
def State.elemLoc (s : State) (m : MemWord) (r i : Nat) : State × Except Nat Loc :=
  let need : Need := ⟨!m.load, m.form != .plain⟩
  let a := m.addr s r i
  if m.lane then
    let c := a.toNat
    if c % elemBytes m.ty != 0 then (s, .error cALIGN)
    else if 6144 < c + elemBytes m.ty then (s, .error cPROT)
    else (s, s.resolvePad (windowAddr (fieldOf s.cur.ident.core 0 6) (laneOffset (s.cur.laneOf (i / (64 / m.ty.width))) c)))
  else s.checkAddr need (elemBytes m.ty) a

/-! ## Pin sets (06 R171) -/

/-- Changes what samples report of the word in progress. -/
def State.onVms (s : State) (f : Vms → Vms) : State := s.onWord fun c => { c with vms := f c.vms }

/-- A translation of the word in progress that misses the DTLB is reported by samples (13 R297). -/
def State.noteMiss (s : State) (va : Nat) : State :=
  if (tlbFind (s.core s.cur.coreNo).dtlb s.cur.part va).isSome then s else s.onVms fun v => { v with misses := v.misses + 1 }

/-- The page of an address as a pin records it: its base, with the size in bits below; none for the scratchpad window. -/
def State.pageOf (s : State) (va : Word) : State × Option Word :=
  if inWindow va.toNat then (s, none)
  else match (s.noteMiss va.toNat).lookupVa s.cur.part s.cur.coreNo va.toNat with
    | (s, .ok (_, b)) => (s, some (BitVec.ofNat 64 (va.toNat / 2 ^ b * 2 ^ b + b)))
    | (s, .error _) => (s, some (BitVec.ofNat 64 (va.toNat / 2 ^ 16 * 2 ^ 16)))

/-- The word in progress pins the pages of a set, which ends at `hi`. -/
def State.pinSet (s : State) (hi : Nat) (pages : List Word) : State :=
  s.onWord fun c => { c with pinEnd := hi, pins := pages, vms := { c.vms with pages := (pages ++ c.vms.pages).eraseDups } }

/-- Takes elements into a pin set while its pages number at most 128: the pages, the position after the set, and the first
element that fails its static checks. -/
def pinLoop (m : MemWord) : List (Nat × Nat) → List Word → Option Stop → State → State × List Word × Option Nat × Option Stop
  | [], pages, bad, s => (s, pages, none, bad)
  | (r, i) :: t, pages, bad, s =>
    let a := m.addr s r i
    let (s, pg) := if m.lane then (s, none) else s.pageOf a
    let fits := match pg with | some x => pages.contains x || pages.length < 128 | none => true
    if !fits then (s, pages, some (s.pos r i), bad)
    else
      let pages := match pg with | some x => if pages.contains x then pages else x :: pages | none => pages
      let (s, bad) := if bad.isSome then (s, bad) else match s.elemLoc m r i with
        | (s, .ok _) => (s, none)
        | (s, .error c) => (s, some ⟨c, a, r, i⟩)
      pinLoop m t pages bad s

/-- The checks of a VSTN's progress word, made with the first pin set (06 R181). -/
def State.checkProgWord (s : State) (m : MemWord) : State × Option Stop :=
  match m.prog with
  | none => (s, none)
  | some a =>
    let bad (c : Nat) : Option Stop := some ⟨c, a, 0, 0⟩
    if a.toNat % 8 != 0 then (s, bad cALIGN)
    else if inWindow a.toNat then (s, bad cPROT)
    else match s.resolve ⟨true, false⟩ a.toNat with
      | (s, .error c) => (s, bad c)
      | (s, .ok l) => (s, if l.gw then bad cPROT else none)

/-- Where a pod stands when an element of the pin set from `lo` to `hi` fails its static checks: at its first element in that set, or
completed where it has none there (06 R171). -/
def State.failPlace (s : State) (w lo hi p : Nat) (pod : Pod) : Pod :=
  let (r, i) := if lo ≤ s.pos pod.row pod.idx then (pod.row, pod.idx) else s.cur.podNorm w p (lo / s.cur.vl) (lo % s.cur.vl)
  s.cur.podAt (if hi ≤ s.pos r i then (s.cur.rows, 0) else (r, i))

/-- The pages of a pin set with that of a VSTN's progress word, which is pinned too. -/
def State.withProg (s : State) (m : MemWord) (pages : List Word) : State × List Word :=
  match m.prog with
  | none => (s, pages)
  | some a => match s.pageOf a with
    | (s, some x) => (s, if pages.contains x then pages else x :: pages)
    | (s, none) => (s, pages)

/-- Pins the next set when every element of the one before has completed. DESIGN CHOICE (24): where the progress word of the first set fails
its checks too, that is reported. -/
def State.pinNext (s : State) (m : MemWord) : State × Option Stop :=
  let left := s.leftOver m.ty.width
  let lo := s.cur.word.pinEnd
  match left with
  | [] => (s.onWord fun c => { c with pinEnd := 2 ^ 32, pins := [] }, none)
  | (r, i) :: _ =>
    if s.pos r i < lo then (s, none)
    else
      let (s, bad) := if lo == 0 then s.checkProgWord m else (s, none)
      if bad.isSome then (s, bad)
      else
        let (s, pages, stop, bad) := pinLoop m left [] none s
        let hi := stop.getD (2 ^ 32)
        if bad.isSome then (s.onWord fun c => { c with pods := c.pods.mapIdx fun p q => s.failPlace m.ty.width lo hi p q }, bad)
        else
          let (s, pages) := s.withProg m pages
          (s.pinSet hi pages, none)

/-- The same, unless the word is only to come to its boundary. -/
def State.pinOpen (s : State) (m : MemWord) : State × Option Stop := if s.cur.closed then (s, none) else s.pinNext m

/-! ## Scratchpad banks (12 R272) -/

/-- The word of a scratchpad bank that an access of at most eight bytes touches. -/
def padWord (va : Word) : List Nat := if inWindow va.toNat then [va.toNat / 8 * 8] else []

/-- The bank of a word: its core's, by its low bits (12 R271). -/
def bankOf (word : Nat) : Nat × Nat := (bits word 19 6, bits word 3 6)

/-- The conflict cycles of a row that touches these words: the distinct words of its busiest bank, less one. -/
def conflicts (words : List Nat) : Nat :=
  let ws := words.eraseDups
  (ws.map fun x => (ws.filter fun y => bankOf y == bankOf x).length).foldl max 1 - 1

/-- A row of the word in progress begins: the conflict cycles of the words it touches are counted, once. -/
def State.enterRow (s : State) (r : Nat) (words : List Nat) : State :=
  if r < s.cur.word.vms.row then s
  else
    let n := conflicts words
    let s := s.onVms fun v => { v with row := r + 1, conf := v.conf + n }
    if n == 0 then s else s.count 0x08 n

/-- The words of banks that the unfinished active elements of a row touch; a lane-view word has no conflicts. -/
def State.rowWords (s : State) (m : MemWord) (r : Nat) : List Nat :=
  if m.lane then [] else (s.cur.active.filter fun i => s.cur.unfinished m.ty.width r i).flatMap fun i => padWord (m.addr s r i)

/-! ## Order against the strand's other accesses (12 R278, 17 R339, R345) -/

/-- Whether earlier accesses of the generator hold an access of the word in progress back: acquires, fences and SO accesses, and for a release
or an SO access every one. -/
def State.genHolds (s : State) (release : Bool) (l : Loc) : Bool :=
  let o := s.cur.word.e.ord
  let all := release || l.kind == .so
  (s.cur.sbuf.any fun e => e.ord ≤ o && (all || e.holdsLoads || (match e.kind with | .fence _ _ => true | _ => false))) ||
    (s.cur.pend.any fun p => p.ord ≤ o && p.target.isNone && (all || !p.plain || p.loc.kind == .so))

/-- What holds an access of the word in progress back, if anything does: a copy of an overlapping range, or the generator's accesses. FENCE is no
reason of the stream (13 R296). -/
def State.streamWhy (s : State) (release : Bool) (l : Loc) (n : Nat) : Option Nat :=
  if s.copyHolds l.va.toNat n fun c => c.ord ≤ s.cur.word.e.ord then some wSCOREBOARD
  else if s.genHolds release l then some wOTHER else none

/-- Whether an access of the word in progress is held back. -/
def State.streamHeld (s : State) (release : Bool) (l : Loc) (n : Nat) : Bool := (s.streamWhy release l n).isSome

/-- Notes a sett breakpoint that an access of pod `p` meets, from the bit before and after (13 R292). -/
def State.noteBits (s : State) (p : Nat) (l : Loc) (before after : Bool) : State :=
  if s.cur.word.brk.any fun b => b.2 == p then s
  else match s.cur.settBreak l.va before after with
    | some n => s.onWord fun c => { c with brk := c.brk ++ [(n, p)] }
    | none => s

/-- The same for an access at a home of the machine's own. -/
def State.noteBreak (s : State) (p : Nat) (l : Loc) (before : Bool) : State := s.noteBits p l before (s.full l.key)

/-! ## Plain accesses -/

/-- The bits of an element that a load delivers from the bytes of its access; substituted data is the NaN of the type or zero (01
R17). -/
def deliver (ty : Ty) (l : Loc) (nib : Bool) (r : Loaded) : Nat × Flags :=
  if r.sub then (if l.subk && ty.isFloat then (fmtOf ty).nan else 0, fSUB)
  else (if ty == .cb4 then bits r.val (if nib then 4 else 0) 4 else r.val, 0)

/-- The element whose nibble a plain cb4 store writes with that of element `i` of row `r`, where it lies in a later element group: the two form a
single write (06 R174). -/
def State.partner (s : State) (m : MemWord) (r i : Nat) : Option (Nat × Nat) :=
  let n := s.pos r i + 1
  let (r', i') := (n / s.cur.vl, n % s.cur.vl)
  if !m.load && m.form == .plain && m.ty == .cb4 && n % 2 == 1 && !(r' == r && i' / 16 == i / 16) && decide (r' < s.cur.rows) &&
    s.cur.word.mask.getLsbD i' && s.cur.unfinished 4 r' i' then some (r', i') else none

/-- The pod of that element stands after it. -/
def State.passPartner (s : State) (m : MemWord) (r i : Nat) : State :=
  match s.partner m r i with
  | some (r', i') =>
    let q := s.cur.podOf 4 i'
    s.onPod q fun _ => s.cur.podAt (s.cur.podNorm 4 q r' (i' + 1))
  | none => s

/-- The elements that one plain store writes: one, or with a partner two. -/
def State.storeCount (s : State) (m : MemWord) (r i : Nat) : Nat := if (s.partner m r i).isSome then 2 else 1

/-- A byte with the nibble of a partner over it. -/
def State.withPartner (s : State) (m : MemWord) (r i b : Nat) : Nat :=
  match s.partner m r i with
  | some (r', i') => putBits b 4 4 (s.vGet (m.v + r') 4 i')
  | none => b

/-- The bytes that an element stores over the byte or bytes it addresses. -/
def State.storeBytes (s : State) (m : MemWord) (l : Loc) (r i : Nat) : List Byte :=
  let v := s.vGet (m.v + r) m.ty.width i
  if m.ty == .cb4 then leBytes (s.withPartner m r i (putBits (s.valueAt l.key 1) (if s.pos r i % 2 == 1 then 4 else 0) 4 v)) 1
  else leBytes v (elemBytes m.ty)

/-- Adds to the progress word of a VSTN (06 R181). -/
def State.progAdd (s : State) (m : MemWord) (p n : Nat) : State :=
  match m.prog with
  | none => s
  | some a => match s.resolve ⟨true, false⟩ a.toNat with
    | (s, .ok l) =>
      let s := (s.noteProg l.key).hotAccess l
      let before := s.full l.key
      (s.storeVal l 8 ((s.valueAt l.key 8 + n) % 2 ^ 64)).noteBreak p l before
    | (s, .error _) => s

/-- What holds the count of a VSTN back, if anything does: it is kept after the strand's earlier accesses to its word (12 R278, 17 R342). -/
def State.progWhy (s : State) (m : MemWord) (release : Bool) : State × Option Nat :=
  match m.prog with
  | none => (s, none)
  | some a => match s.resolve ⟨true, false⟩ a.toNat with
    | (s, .ok l) => (s, s.streamWhy release l 8)
    | (s, .error _) => (s, none)

/-- The home of a VSTN's progress word finds the line uncorrectable: the element that would count there raises MEMUE (22 R412). -/
def State.progLost (s : State) (m : MemWord) : State × Option Word :=
  match m.prog with
  | none => (s, none)
  | some a => match s.resolve ⟨true, false⟩ a.toNat with
    | (s, .ok l) =>
      let s := s.touch l.key 8
      if s.lineRead l == .good then (s, none) else (s.countBadTag l, some a)
    | (s, .error _) => (s, none)

/-- What a plain access gives its element: its bits, its flags, and its line. -/
structure Got where
  idx : Nat
  val : Nat
  fl : Flags
  line : Nat

/-- One plain access of pod `p`: its data as loaded, or a fault, or none while something holds it back. -/
def State.plainElem (s : State) (m : MemWord) (p r i : Nat) (l : Loc) : State × Option (Except Nat Got) :=
  let n := elemBytes m.ty
  if s.streamHeld false l n then (s, none)
  else
    let before := s.full l.key
    if m.load then
      match s.loadPlain l n true m.alloc with
      | (s, .error c) => (s, some (.error c))
      | (s, .ok x) =>
        let (v, fl) := deliver m.ty l (s.pos r i % 2 == 1) x
        (s.noteBreak p l before, some (.ok ⟨i, v, fl, lineOf l.key⟩))
    else ((((s.storeCore l (s.storeBytes m l r i)).noteBreak p l before).progAdd m p (s.storeCount m r i)).passPartner m r i,
      some (.ok ⟨i, 0, 0, lineOf l.key⟩))

/-- The plain accesses of a group, one after the other: the values loaded so far, and how the last one ended. -/
def plainLoop (m : MemWord) (p r : Nat) : List Nat → List Got → State → State × List Got × Option (Nat × Word × Nat) × Bool
  | [], acc, s => (s, acc, none, false)
  | i :: t, acc, s =>
    match s.elemLoc m r i with
    | (s, .error c) => (s, acc, some (c, m.addr s r i, i), false)
    | (s, .ok l) => match s.plainElem m p r i l with
      | (s, none) => (s, acc, none, true)
      | (s, some (.error c)) => (s, acc, some (c, m.addr s r i, i), false)
      | (s, some (.ok x)) => plainLoop m p r t (acc ++ [x]) s

/-- Counts the lines whose data was substituted for the elements of one access, each once (22 R412; log entry 33). -/
def State.countSubs (s : State) (out : List Got) : State :=
  ((out.filter fun x => x.fl &&& fSUB != 0).map Got.line).eraseDups.foldl (fun s _ => s.countSub) s

/-- The unit of plain forms: a load that fails delivers nothing of its group (06 R179); stores that have performed count. -/
def plainUnit (m : MemWord) : PodUnit := fun s p r els =>
  match plainLoop m p r els [] s with
  | (s, acc, bad, held) =>
    let out := acc.map fun x => (⟨x.idx, x.fl, false⟩ : Raised)
    let ds := acc.map Got.idx
    if m.load then
      match bad with
      | some (c, a, i) => (s, .fault c a i)
      | none =>
        if held then (s, .wait)
        else (acc.foldl (fun s x => s.vPut (m.v + r) m.ty.width x.idx x.val) (s.countSubs acc), .did out)
    else match bad with
      | some (c, a, i) => if ds.isEmpty then (s, .fault c a i) else (s, .part ds out)
      | none => if held then (if ds.isEmpty then (s, .wait) else (s, .part ds out)) else (s, .did out)

/-! ## Full/empty accesses (06 R175, R176) -/

/-- The form of an access at its home. -/
def MForm.feForm (form : MForm) (data : List Byte) : FeForm :=
  match form with
  | .w => ⟨some true, none, none⟩
  | .c | .t => ⟨some true, none, some false⟩
  | .f => ⟨some false, some data, some true⟩
  | .s => ⟨none, some data, some true⟩
  | .plain => ⟨none, none, none⟩

/-- The form code of FEFORM (08 R226). -/
def MForm.code : MForm → Nat
  | .w => 1 | .c => 2 | .f => 3
  | _ => 0

/-- What a waiting form waits for. -/
def MForm.cond : MForm → Cond
  | .f => .empty
  | _ => .full

/-- The form of the extension header (25 R437). -/
def MForm.remote : MForm → Nat
  | .plain => gfPlain | .w => gfWait | .c => gfConsume | .t => gfTry | .f => gfFill | .s => gfSetFull

/-- The bit of a remote sett before and after an access of a form: `ok` says that a try has succeeded, `bit` is what the access does not tell. -/
def MForm.remoteBits (form : MForm) (ok bit : Bool) : Bool × Bool :=
  match form with
  | .plain => (bit, bit) | .w => (true, true) | .c => (true, false) | .t => (ok, false) | .f => (false, true) | .s => (bit, true)

/-- A form that is a release at its scope. -/
def MemWord.release (m : MemWord) : Bool := (m.form == .f || m.form == .s) && m.scope != .st

/-- A sett with the data of the elements of an access over it. -/
def State.settData (s : State) (m : MemWord) (sett r : Nat) (els : List (Nat × Loc)) : List Byte :=
  let v := els.foldl (fun v x =>
    let o := 8 * (x.2.key - sett) + (if m.ty == .cb4 && s.pos r x.1 % 2 == 1 then 4 else 0)
    putBits v o m.ty.width (s.vGet (m.v + r) m.ty.width x.1)) (s.valueAt sett 8)
  leBytes v 8

/-- Delivers the data of an access to its elements; with .t the bits of m[r] are written (06 R176). -/
def State.deliverSett (s : State) (m : MemWord) (base r val : Nat) (ok : Bool) (els : List (Nat × Loc)) : State :=
  els.foldl (fun s x =>
    let o := 8 * (x.2.key - base) + (if m.ty == .cb4 && s.pos r x.1 % 2 == 1 then 4 else 0)
    let s := if m.load && ok then s.vPut (m.v + r) m.ty.width x.1 (bits val o m.ty.width) else s
    if m.form == .t then s.maskPut r x.1 ok else s) s

/-- An access of pod `p` has performed, with the bit of its sett before and after: an acquire is noted for the end of the word, or discards at
once (12 R269), and a VSTN counts. -/
def State.settDone (s : State) (m : MemWord) (p n : Nat) (l : Loc) (bits : Bool × Bool) (ok : Bool) : State :=
  let s := if m.load && ok && m.scope != .st then s.onWord fun c => { c with won := true } else s
  let s := if m.each && ok then s.l1Invalidate s.cur.coreNo false else s
  (s.noteBits p l bits.1 bits.2).progAdd m p n

/-- A pod that stops at an access whose lowest element is `i`: the elements before it are done or inactive (06 R179). -/
def Pod.atAccess (q : Pod) (i : Nat) : Pod := { q with idx := i, done := q.done.filter (i < ·) }

/-- A fault of an access of pod `p`; a FEB is recorded (08 R226) and leaves the pod at the access's lowest element. -/
def State.podFault (s : State) (p : Nat) (form cause : Nat) (va : Word) (i : Nat) : State × UnitOut :=
  let v := faultVal cause va
  (if cause == cFEB then (s.onCur fun st => st.feRecord v p true form).onPod p fun q => q.atAccess i else s, .fault cause v i)

/-- The nibbles at which the elements of an access lie from `base`, as a mask: those that a store writes (06 R174, R175). -/
def State.accessNibs (s : State) (m : MemWord) (base r : Nat) (els : List (Nat × Loc)) : Nat :=
  els.foldl (fun v x =>
    v ||| (2 ^ max 1 (m.ty.width / 4) - 1) <<< (2 * (x.2.key - base) + (if m.ty == .cb4 && s.pos r x.1 % 2 == 1 then 1 else 0))) 0

/-- The data of the elements of an access, over zeros from `base`. -/
def State.accessData (s : State) (m : MemWord) (base r : Nat) (els : List (Nat × Loc)) : Nat :=
  els.foldl (fun v x =>
    putBits v (8 * (x.2.key - base) + (if m.ty == .cb4 && s.pos r x.1 % 2 == 1 then 4 else 0)) m.ty.width (s.vGet (m.v + r) m.ty.width x.1)) 0

/-- One access of pod `p` to a remote node (25 R437): the elements `els` at `l`, of one sett, or for a plain form of one address. The nibbles
that a store does not write keep their values at the remote home (log entry 17). -/
def State.remoteAccess (s : State) (m : MemWord) (p r : Nat) (l : Loc) (els : List (Nat × Loc)) (pod : Pod) : State × UnitOut :=
  let ids := els.map Prod.fst
  let at' := if m.form == .plain then l else l.sett
  let n := if m.form == .plain then elemBytes m.ty else 8
  let i := ids.headD 0
  let data := if m.load then [] else leBytes (s.withPartner m r i (s.accessData m at'.key r els)) n
  let nibs := if m.load then 0 else s.accessNibs m at'.key r els ||| (if (s.partner m r i).isSome then 2 else 0)
  match s.gwAccess pod.gw (.pod s.cur.id p) at' m.form.remote (m.form == .f || m.form == .s) n data 0 nibs with
  | (s, .waiting id) => (s.onPod p fun q => { q with gw := some id }, .wait)
  | (s, .answered x) =>
    let s := s.onPod p fun q => { q with gw := none }
    if x.reason != 0 then s.podFault p m.form.code x.reason.toNat l.va i
    else
      let ok := m.form != .t || x.status
      let n := ids.length + (s.storeCount m r i - 1)
      let s := s.deliverSett m at'.key r (leValue x.data) ok els
      ((s.settDone m p n l (m.form.remoteBits ok s.openBit) ok).passPartner m r i, .part ids [])

/-- One full/empty access of pod `p` to the sett of `l`. -/
def State.settAccess (s : State) (m : MemWord) (p r : Nat) (l : Loc) (els : List (Nat × Loc)) (pod : Pod) : State × UnitOut :=
  let ids := els.map Prod.fst
  let sett := settOf l.key
  let before := s.full sett
  match s.checkSett { l with key := sett } 8 (m.form.feForm (s.settData m sett r els)) with
  | (s, .memue) => (s, .fault cMEMUE l.va (ids.headD 0))
  | (s, .done v) => (s.deliverSett m sett r v true els |>.settDone m p ids.length l (before, s.full sett) true, .part ids [])
  | (s, .unmet) =>
    if m.form == .t then (s.deliverSett m sett r 0 false els |>.settDone m p 0 l (before, s.full sett) false, .part ids [])
    else
      let (s, b, w) := s.failCheck pod.budget sett m.form.cond (.pod s.cur.id p)
      (s.onPod p fun q => { q.atAccess (ids.headD 0) with budget := b, waiter := some w }, .wait)

/-- The elements of a group that share the first one's sett, or for a plain cb4 form its byte, with their locations; with another plain form,
the first alone. -/
def State.sameSett (s : State) (m : MemWord) (r : Nat) (l : Loc) : List Nat → State × List (Nat × Loc)
  | [] => (s, [])
  | i :: t =>
    match s.elemLoc m r i with
    | (s, .ok x) =>
      let (s, rest) := s.sameSett m r l t
      (s, if (if m.form == .plain then x.key == l.key else settOf x.key == settOf l.key) then (i, x) :: rest else rest)
    | (s, .error _) => s.sameSett m r l t

/-- The unit of full/empty forms, and of any access to a remote page: one access of the pod. -/
def settUnit (m : MemWord) : PodUnit := fun s p r els =>
  match els, s.cur.word.pods[p]? with
  | i :: _, some pod =>
    match s.elemLoc m r i with
    | (s, .error c) => (s, .fault c (m.addr s r i) i)
    | (s, .ok l) =>
      if pod.exhausted then s.podFault p m.form.code cFEB l.va i
      else if s.streamHeld m.release l 8 then (s, .wait)
      else
        let (s, same) := if m.form == .plain && m.ty != .cb4 then (s, [(i, l)]) else s.sameSett m r l els
        if l.gw then s.remoteAccess m p r l same pod
        else if m.form == .plain then
          (match plainUnit m s p r [i] with
            | (s, .did out) => (s, .part [i] out)
            | x => x)
        else s.settAccess m p r l same pod
  | _, _ => (s, .wait)

/-- Whether a group has an element on a remote page. -/
def State.anyGw (s : State) (m : MemWord) (r : Nat) (els : List Nat) : Bool :=
  els.any fun i => match (s.elemLoc m r i).2 with | .ok l => l.gw | .error _ => false

/-- The unit of a memory word: elements beyond the pin set wait. -/
def memUnit (m : MemWord) : PodUnit := fun s p r els =>
  let s := s.enterRow r (s.rowWords m r)
  let els' := els.filter fun i => s.pos r i < s.cur.word.pinEnd || s.podOut s.cur p
  match s.progWhy m m.release with
  | (s, why) =>
  if els'.isEmpty || why.isSome then (s, .wait)
  else match s.progLost m with
    | (s, some a) => (s, .fault cMEMUE a (els'.headD 0))
    | (s, none) =>
      let u := if m.form != .plain || s.anyGw m r els' then settUnit m else plainUnit m
      match u s p r els' with
      | (s, .did out) => (s, if els'.length == els.length then .did out else .part els' out)
      | x => x

/-- Why pod `p` of a memory word does not go on: `base` while an access is under way, and `rel` says that its accesses are releases. -/
def State.podWhy (s : State) (m : MemWord) (rel : Bool) (base p : Nat) : Nat :=
  match s.cur.word.pods[p]? with
  | some q =>
    if s.cur.rows ≤ q.row || s.beyondPins q.row q.idx then wNone
    else if q.waiter.isSome then wFEWAIT
    else if s.podOut s.cur p then base
    else match s.cur.active.find? fun i => s.cur.podOf m.ty.width i == p && decide (q.idx ≤ i) && !q.done.contains i with
      | some i => (match (s.elemLoc m q.row i).2 with
        | .ok l => min ((s.streamWhy rel l (if m.form == .plain then elemBytes m.ty else 8)).getD base) ((s.progWhy m rel).2.getD base)
        | .error _ => base)
      | none => base
  | none => wNone

/-- Why a memory word does not go on: the lowest code that holds (13 R296). -/
def State.memWhy (m : MemWord) (rel : Bool) (s : State) : Nat :=
  let base := if m.form == .w || m.form == .c || m.form == .f then wFEWAIT else wMEMLAT
  let why := ((List.range s.cur.pods).map (s.podWhy m rel base)).foldl min wNone
  if why == wNone then base else why

/-- The rounds of a turn of a memory word. Where something else is chosen to move next, a plain word gives way after one, since its accesses
take time (log entry 4). -/
def State.rounds (s : State) (m : MemWord) : Nat × Nat := if s.sched.isEmpty || m.form != .plain then (s.cur.allRounds, 0) else (1, 24)

/-- Runs a memory word: pins, sweeps, and ends as `fin` says. Words that write memory without waiting keep the ascending order of their
elements, so that a byte keeps the value of the higher one (06 R174). -/
def memRunTo (s : State) (m : MemWord) (fin : State → Res) : Res :=
  let s := s.startSweep m.ty.width
  if s.cur.podsDone && s.cur.word.due.isNone then fin s
  else match s.pinOpen m with
    | (s, some st) => stopWord s st
    | (s, none) =>
      sweepFrom (s.rounds m).1 (s.rounds m).2 s m.ty.width (!m.load && m.form != .f) (State.memWhy m m.release) (memUnit m) fin

/-- The end of a memory word: the last element of an acquire discards RC lines of the L1 (12 R269, 17 R339). -/
def acquireEnd (s : State) : Res := retireWord (if s.cur.word.won then s.l1Invalidate s.cur.coreNo false else s)

def memRun (s : State) (m : MemWord) : Res := memRunTo s m (if m.load && m.form != .plain && m.scope != .st then acquireEnd else retireWord)

end Sys2Proof.Machine
end

