-- ==== Sys2Proof/Machine/VMem.lean ====
section
/-!
DEFINITION. Loads and stores of the stream (06 R173 to R181), lane-view accesses (12 R273) and CBLD (05 R157).
-/
namespace Sys2Proof.Machine

/-- The priority at which a load brings its lines into the L1, if it does (06 R180, 12 R270): high by its hint, or by its footprint against
VBYP.THR. -/
def State.allocates (s : State) (hint : Fin 16) (footprint : Nat) : Option Bool :=
  match hint.val % 4 with
  | 1 => none
  | 2 => some true
  | _ => if footprint ≤ fieldOf s.cur.vbyp 0 24 then some true else none

/-- The step between sweep positions of a unit or stride word; a cb4 element steps half a byte and has no stride. -/
def State.stepOf (s : State) (ty : Ty) (stride : Option XReg) : Word :=
  match stride with
  | some x => s.cur.xGet x
  | none => BitVec.ofNat 64 (elemBytes ty)

/-- The address of an element in unit or stride mode (06 R169). -/
def State.unitAddr (s : State) (ty : Ty) (base : Slot) (stride : Option XReg) (r i : Nat) : Word :=
  let n := s.pos r i
  if ty == .cb4 then s.cur.slot base + BitVec.ofNat 64 (n / 2) else s.cur.slot base + BitVec.ofNat 64 n * s.stepOf ty stride

/-- The address of an element in index mode (06 R169). -/
def State.indexAddr (s : State) (base : Slot) (vb r i : Nat) : Word := s.cur.slot base + BitVec.ofNat 64 (s.vGet (vb + r) 64 i)

/-- The footprint of a unit or stride word (12 R270); of stride 0 it is 0, which no THR is below (DEDUCED, log entry 33). -/
def State.unitFootprint (s : State) (ty : Ty) (stride : Option XReg) : Nat :=
  s.cur.rows * s.cur.vl * (match stride with | some x => (s.cur.xGet x).toInt.natAbs | none => elemBytes ty)

/-- The footprint of an index word (12 R270). -/
def State.indexFootprint (s : State) (ty : Ty) (vb : Nat) : Nat :=
  let l := (List.range s.cur.rows).flatMap fun r =>
    ((List.range s.cur.vl).filter fun i => s.cur.word.mask.getLsbD i).map fun i => signedOf 64 (s.vGet (vb + r) 64 i)
  match l with
  | [] => 0
  | x :: t => (t.foldl max x - t.foldl min x).toNat + elemBytes ty

/-- Mask groups that a form writes (06 R176). -/
def formMasks : MForm → List Nat
  | .t => [0]
  | _ => []

/-- A unit or stride word. -/
def unitWord (s : State) (load : Bool) (form : MForm) (sc : Scope) (m : MemOps) (base : Slot) (stride : Option XReg) (prog : Option XReg) : Res :=
  vecWord s m.msk.val [m.ty] [] [m.v.val] (formMasks form) true fun s =>
    let s := if load && s.cur.word.stage == 0 && m.ty != .cb4 then
      s.onCur fun st => st.noteStrip (s.cur.slot base) (s.stepOf m.ty stride) else s
    memRun s { load := load, form := form, scope := sc, ty := m.ty, v := m.v.val, alloc := s.allocates m.hint (s.unitFootprint m.ty stride)
               lane := false, prog := prog.map s.cur.xGet, addr := fun s r i => s.unitAddr m.ty base stride r i }

/-- An index word. -/
def indexWord (s : State) (load : Bool) (form : MForm) (sc : Scope) (m : MemOps) (base : Slot) (vb : VReg) : Res :=
  vecWord s m.msk.val [m.ty] [64] [m.v.val, vb.val] (formMasks form) true fun s =>
    memRun s { load := load, form := form, scope := sc, ty := m.ty, v := m.v.val, alloc := s.allocates m.hint (s.indexFootprint m.ty vb.val)
               lane := false, prog := none, addr := fun s r i => s.indexAddr base vb.val r i }

/-- A lane-view word (12 R273): the offsets are n16 elements. -/
def laneWord (s : State) (load : Bool) (form : MForm) (sc : Scope) (m : MemOps) (vb : VReg) : Res :=
  vecWord s m.msk.val [m.ty] [16] [m.v.val, vb.val] (formMasks form) true fun s =>
    memRun s { load := load, form := form, scope := sc, ty := m.ty, v := m.v.val, alloc := none, lane := true, prog := none
               addr := fun s r i => BitVec.ofNat 64 (s.vGet (vb.val + r) 16 i) }

/-- VLD (06 R173 to R176). -/
def execVld (m : MemOps) (base : Slot) (stride : Option XReg) (s : State) : Res := unitWord s true .plain .st m base stride none

/-- VLDX (06 R173 to R176). -/
def execVldx (m : MemOps) (base : Slot) (vb : VReg) (s : State) : Res := indexWord s true .plain .st m base vb

/-- VLDL (12 R273). -/
def execVldl (m : MemOps) (vb : VReg) (s : State) : Res := laneWord s true .plain .st m vb

/-- VLD.w (06 R173 to R176). -/
def execVldW (scope : Scope) (m : MemOps) (base : Slot) (stride : Option XReg) (s : State) : Res := unitWord s true .w scope m base stride none

/-- VLDX.w (06 R173 to R176). -/
def execVldxW (scope : Scope) (m : MemOps) (base : Slot) (vb : VReg) (s : State) : Res := indexWord s true .w scope m base vb

/-- VLDL.w (12 R273). -/
def execVldlW (scope : Scope) (m : MemOps) (vb : VReg) (s : State) : Res := laneWord s true .w scope m vb

/-- VLD.c (06 R173 to R176). -/
def execVldC (scope : Scope) (m : MemOps) (base : Slot) (stride : Option XReg) (s : State) : Res := unitWord s true .c scope m base stride none

/-- VLDX.c (06 R173 to R176). -/
def execVldxC (scope : Scope) (m : MemOps) (base : Slot) (vb : VReg) (s : State) : Res := indexWord s true .c scope m base vb

/-- VLDL.c (12 R273). -/
def execVldlC (scope : Scope) (m : MemOps) (vb : VReg) (s : State) : Res := laneWord s true .c scope m vb

/-- VLD.t (06 R173 to R176). -/
def execVldT (scope : Scope) (m : MemOps) (base : Slot) (stride : Option XReg) (s : State) : Res := unitWord s true .t scope m base stride none

/-- VLDX.t (06 R173 to R176). -/
def execVldxT (scope : Scope) (m : MemOps) (base : Slot) (vb : VReg) (s : State) : Res := indexWord s true .t scope m base vb

/-- VLDL.t (12 R273). -/
def execVldlT (scope : Scope) (m : MemOps) (vb : VReg) (s : State) : Res := laneWord s true .t scope m vb

/-- VST (06 R173 to R176). -/
def execVst (m : MemOps) (base : Slot) (stride : Option XReg) (s : State) : Res := unitWord s false .plain .st m base stride none

/-- VSTX (06 R173 to R176). -/
def execVstx (m : MemOps) (base : Slot) (vb : VReg) (s : State) : Res := indexWord s false .plain .st m base vb

/-- VSTL (12 R273). -/
def execVstl (m : MemOps) (vb : VReg) (s : State) : Res := laneWord s false .plain .st m vb

/-- VST.f (06 R173 to R176). -/
def execVstF (scope : Scope) (m : MemOps) (base : Slot) (stride : Option XReg) (s : State) : Res := unitWord s false .f scope m base stride none

/-- VSTX.f (06 R173 to R176). -/
def execVstxF (scope : Scope) (m : MemOps) (base : Slot) (vb : VReg) (s : State) : Res := indexWord s false .f scope m base vb

/-- VSTL.f (12 R273). -/
def execVstlF (scope : Scope) (m : MemOps) (vb : VReg) (s : State) : Res := laneWord s false .f scope m vb

/-- VST.s (06 R173 to R176). -/
def execVstS (scope : Scope) (m : MemOps) (base : Slot) (stride : Option XReg) (s : State) : Res := unitWord s false .s scope m base stride none

/-- VSTX.s (06 R173 to R176). -/
def execVstxS (scope : Scope) (m : MemOps) (base : Slot) (vb : VReg) (s : State) : Res := indexWord s false .s scope m base vb

/-- VSTL.s (12 R273). -/
def execVstlS (scope : Scope) (m : MemOps) (vb : VReg) (s : State) : Res := laneWord s false .s scope m vb

/-- VSTN (06 R181): a store that counts into a progress word. -/
def execVstn (m : MemOps) (base : Slot) (prog : XReg) (s : State) : Res := unitWord s false .plain .st m base none (some prog)

/-- VSTN.f (06 R181): a store that counts into a progress word. -/
def execVstnF (scope : Scope) (m : MemOps) (base : Slot) (prog : XReg) (s : State) : Res := unitWord s false .f scope m base none (some prog)

/-- VSTN.s (06 R181): a store that counts into a progress word. -/
def execVstnS (scope : Scope) (m : MemOps) (base : Slot) (prog : XReg) (s : State) : Res := unitWord s false .s scope m base none (some prog)

/-- The codebook that 32 loaded bytes give; substituted entries are bf16 NaNs or zeros (01 R17). -/
def cbLoaded (l : Loc) (r : Loaded) : BitVec 256 :=
  if r.sub then (if l.subk then BitVec.ofNat 256 ((List.range 16).foldl (fun v i => v + 0x7FC0 * 2 ^ (16 * i)) 0) else 0)
  else BitVec.ofNat 256 r.val

/-- The codebook loaded, and what a substitution records. -/
def State.loadCb (s : State) (cb : CbReg) (l : Loc) (r : Loaded) : State :=
  let s := if r.sub then (s.onWord fun c => { c with run := c.run.raise 0 0 fSUB }).countSub else s
  s.onCur fun st => { st with files := ({ st.files with cb := vset st.files.cb cb.val (cbLoaded l r) }).mark (96 + cb.val) }

/-- CBLD (05 R157): a plain load of 32 bytes into a codebook register, once, without a cache hint (12 R270). A sett breakpoint stops the word with
nothing left to do (13 R292). -/
def execCbld (cb : CbReg) (base : Slot) (s : State) : Res :=
  issueWord s 0 false true fun s =>
    let a := s.cur.slot base
    if s.cur.wordOver then retireWord s
    else match s.checkAddr ⟨false, false⟩ 32 a with
      | (s, .error c) => wordFault s c a
      | (s, .ok l) =>
        if let some why := s.streamWhy false l 32 then waitWord s why
        else match s.meetUnit with
        | (s, some st) => stopWord s st
        | (s, none) =>
          if l.gw then
            match s.gwAccess s.cur.pod0.gw (.pod s.cur.id 0) l gfPlain false 32 [] 0 with
            | (s, .waiting id) => waitWord ((if s.cur.word.pods.isEmpty then s.allPods (0, 0) else s).onPod 0 fun q => { q with gw := some id }) wMEMLAT
            | (s, .answered x) =>
              let s := s.onPod 0 fun q => { q with gw := none }
              if x.reason == 0 then loaded l ⟨leValue x.data, false⟩ s else wordFault s x.reason.toNat (faultVal x.reason.toNat a)
          else
            match s.loadPlain l 32 true (s.allocates 0 32) with
            | (s, .error c) => wordFault s c a
            | (s, .ok r) => loaded l r s
where
  loaded (l : Loc) (r : Loaded) (s : State) : Res :=
    let s := s.loadCb cb l r
    match (settsOf l.key 32).findSome? fun k => s.cur.settBreak (l.va + BitVec.ofNat 64 (k - l.key)) (s.full k) (s.full k) with
    | none => wholeWord s id
    | some n => stopWord (s.allPods (s.cur.rows, 0)) ⟨cBRK, BitVec.ofNat 64 n, 0, 0⟩

end Sys2Proof.Machine
end

