-- ==== Sys2Proof/Machine/VAtomic.lean ====
section
/-!
DEFINITION. Atomics of the stream (16 R326, R327): VAMO and VBUPD.
-/
namespace Sys2Proof.Machine

/-- The old value of an atomic goes to element `i` of its destination group, if it has one. -/
def State.putOld (s : State) (vd : Option Nat) (w r i v : Nat) : State :=
  match vd with
  | some d => s.vPut (d + r) w i v
  | none => s

/-- The unit of an atomic word: one element at its home, computed as in R325. -/
def atomUnit (m : MemWord) (fn : AtomFn) (order : Order) (vd : Option Nat) : PodUnit := fun s p r els =>
  let n := elemBytes m.ty
  let w := m.ty.width
  let s := s.enterRow r (s.rowWords m r)
  match els.filter (fun i => s.pos r i < s.cur.word.pinEnd || s.podOut s.cur p), s.cur.word.pods[p]? with
  | i :: _, some pod =>
    (match s.elemLoc m r i with
      | (s, .error c) => (s, .fault c (m.addr s r i) i)
      | (s, .ok l) =>
        let src := WaitSrc.pod s.cur.id p
        if s.streamHeld (releases order && m.scope != .st) l n then (s, .wait)
        else
          let b := s.vGet (m.v + r) w i
          let cmp := match vd with | some d => s.vGet (d + r) w i | none => 0
          if l.gw then
            match s.gwAccess pod.gw src l gfPlain (releases order) n (leBytes b n ++ leBytes cmp n) (fn.code + 1) with
            | (s, .waiting id) => (s.onPod p fun q => { q with gw := some id }, .wait)
            | (s, .answered x) =>
              let s := s.onPod p fun q => { q with gw := none }
              if x.reason != 0 then (s, .fault x.reason.toNat (faultVal x.reason.toNat l.va) i)
              else ((s.putOld vd w r i (leValue x.data)).noteBits p l s.openBit s.openBit, .part [i] [⟨i, atomFlags fn n (leValue x.data) b cmp, false⟩])
          else
            let before := s.full l.key
            match s.chainOf src l fn b cmp with
            | some c =>
              (match c.result with
                | none => (s, .wait)
                | some (cause, old, fl) =>
                  let s := { s with chains := s.chains.erase c }
                  if cause != 0 then (s, .fault cause l.va i)
                  else ((s.putOld vd w r i old).noteBreak p l before, .part [i] [⟨i, fl, false⟩]))
            | none =>
            if s.chaining l then (s.chainJoin src l n fn b cmp, .wait)
            else match s.atomAt l n fn b cmp (faddOf fn) with
            | (s, .error c) => (s, .fault c l.va i)
            | (s, .ok (old, fl)) => ((s.putOld vd w r i old).noteBreak p l before, .part [i] [⟨i, fl, false⟩]))
  | _, _ => (s, .wait)

/-- Runs an atomic word: pins, sweeps, and at its end, if it acquires at a scope wider than the strand, discards RC lines (12
R269). -/
def atomRun (s : State) (m : MemWord) (fn : AtomFn) (order : Order) (vd : Option Nat) : Res :=
  let s := s.startSweep m.ty.width
  let fin (s : State) : Res :=
    retireWord (if acquires order && m.scope != .st then s.l1Invalidate s.cur.coreNo false else s)
  if s.cur.podsDone && s.cur.word.due.isNone then fin s
  else match s.pinOpen m with
    | (s, some st) => stopWord s st
    | (s, none) =>
      sweepFrom (s.rounds m).1 (s.rounds m).2 s m.ty.width false (State.memWhy m (releases order && m.scope != .st)) (atomUnit m fn order vd) fin

/-- A VAMO: index mode, with old values. -/
def vamo (s : State) (fn : AtomFn) (order : Order) (sc : Scope) (base : Slot) (o : Binary) : Res :=
  vecWord s o.msk.val [o.ty] [64] [o.vd.val, o.va.val, o.vb.val] [] true fun s =>
    atomRun s { load := false, form := .plain, scope := sc, ty := o.ty, v := o.va.val, alloc := none, lane := false, prog := none
                addr := fun s r i => s.indexAddr base o.vb.val r i } fn order (some o.vd.val)

/-- A VBUPD: unit mode, without old values, plain at strand scope. -/
def vbupd (s : State) (fn : AtomFn) (msk : MReg) (ty : Ty) (va : VReg) (base : Slot) : Res :=
  vecWord s msk.val [ty] [] [va.val] [] true fun s =>
    atomRun s { load := false, form := .plain, scope := .st, ty := ty, v := va.val, alloc := none, lane := false, prog := none
                addr := fun s r i => s.unitAddr ty base none r i } fn .none none

/-- VAMOADD (16 R326, R327). -/
def execVamoadd (order : Order) (scope : Scope) (base : Slot) (o : Binary) (s : State) : Res := vamo s .add order scope base o

/-- VAMOMIN (16 R326, R327). -/
def execVamomin (order : Order) (scope : Scope) (base : Slot) (o : Binary) (s : State) : Res := vamo s .min order scope base o

/-- VAMOMAX (16 R326, R327). -/
def execVamomax (order : Order) (scope : Scope) (base : Slot) (o : Binary) (s : State) : Res := vamo s .max order scope base o

/-- VAMOMINN (16 R326, R327). -/
def execVamominn (order : Order) (scope : Scope) (base : Slot) (o : Binary) (s : State) : Res := vamo s .minn order scope base o

/-- VAMOMAXN (16 R326, R327). -/
def execVamomaxn (order : Order) (scope : Scope) (base : Slot) (o : Binary) (s : State) : Res := vamo s .maxn order scope base o

/-- VAMOAND (16 R326, R327). -/
def execVamoand (order : Order) (scope : Scope) (base : Slot) (o : Binary) (s : State) : Res := vamo s .and order scope base o

/-- VAMOOR (16 R326, R327). -/
def execVamoor (order : Order) (scope : Scope) (base : Slot) (o : Binary) (s : State) : Res := vamo s .or order scope base o

/-- VAMOXOR (16 R326, R327). -/
def execVamoxor (order : Order) (scope : Scope) (base : Slot) (o : Binary) (s : State) : Res := vamo s .xor order scope base o

/-- VAMOSWAP (16 R326, R327). -/
def execVamoswap (order : Order) (scope : Scope) (base : Slot) (o : Binary) (s : State) : Res := vamo s .swap order scope base o

/-- VAMOCAS (16 R326, R327). -/
def execVamocas (order : Order) (scope : Scope) (base : Slot) (o : Binary) (s : State) : Res := vamo s .cas order scope base o

/-- VAMOFADD.f32 (16 R326, R327). -/
def execVamofaddF32 (order : Order) (scope : Scope) (base : Slot) (o : Binary) (s : State) : Res := vamo s .faddF32 order scope base o

/-- VAMOFADD.bf16 (16 R326, R327). -/
def execVamofaddBf16 (order : Order) (scope : Scope) (base : Slot) (o : Binary) (s : State) : Res := vamo s .faddBf16 order scope base o

/-- VBUPDADD (16 R326, R327). -/
def execVbupdadd (msk : MReg) (ty : Ty) (va : VReg) (base : Slot) (s : State) : Res := vbupd s .add msk ty va base

/-- VBUPDMIN (16 R326, R327). -/
def execVbupdmin (msk : MReg) (ty : Ty) (va : VReg) (base : Slot) (s : State) : Res := vbupd s .min msk ty va base

/-- VBUPDMAX (16 R326, R327). -/
def execVbupdmax (msk : MReg) (ty : Ty) (va : VReg) (base : Slot) (s : State) : Res := vbupd s .max msk ty va base

/-- VBUPDMINN (16 R326, R327). -/
def execVbupdminn (msk : MReg) (ty : Ty) (va : VReg) (base : Slot) (s : State) : Res := vbupd s .minn msk ty va base

/-- VBUPDMAXN (16 R326, R327). -/
def execVbupdmaxn (msk : MReg) (ty : Ty) (va : VReg) (base : Slot) (s : State) : Res := vbupd s .maxn msk ty va base

/-- VBUPDAND (16 R326, R327). -/
def execVbupdand (msk : MReg) (ty : Ty) (va : VReg) (base : Slot) (s : State) : Res := vbupd s .and msk ty va base

/-- VBUPDOR (16 R326, R327). -/
def execVbupdor (msk : MReg) (ty : Ty) (va : VReg) (base : Slot) (s : State) : Res := vbupd s .or msk ty va base

/-- VBUPDXOR (16 R326, R327). -/
def execVbupdxor (msk : MReg) (ty : Ty) (va : VReg) (base : Slot) (s : State) : Res := vbupd s .xor msk ty va base

end Sys2Proof.Machine
end

