-- ==== Sys2Proof/Machine/Cluster.lean ====
section
/-!
DEFINITION. The cluster (ch. 14): mailboxes (R311 to R314), locks (R315) and barriers (R316, R317).
-/
namespace Sys2Proof.Machine

/-- A location of the cluster's own homes: a scratchpad or barrier sett, named by its window address. -/
def clusterLoc (cluster va : Nat) : Loc :=
  { key := padKey va cluster, va := BitVec.ofNat 64 va, kind := .rc, fev := true, wr := true, tol := false, subk := false
    gw := false, enc := 0, pad := true, cls := 0 }

/-- A failed check of an aligned or single access: its waiter and budget stand with pod 0. -/
def State.failPod (s : State) (key : Nat) (cond : Cond) : State :=
  match s.cur.word.pods[0]? with
  | some pod =>
    let (s, b, w) := s.failCheck pod.budget key cond (.pod s.cur.id 0)
    s.onPod 0 fun q => { q with budget := b, waiter := some w }
  | none => s

/-! ## Mailboxes (R311 to R314) -/

/-- The core and half of the strand with an SIDX in the acting strand's group (R298). -/
def Strand.memberPlace (st : Strand) (sidx : Nat) : Nat × Nat :=
  let cores := setBits st.ident.gcores.toNat 48
  if st.half then (cores.getD (sidx / 2) 0, sidx % 2) else (cores.getD sidx 0, 0)

/-- Window address of slot `t` of a mailbox (R311). -/
def mailSlot (core half t : Nat) : Nat := windowAddr core (0x5F000 + 0x800 * half + 8 * (t % 256))

def CoreSt.tail (c : CoreSt) (half : Nat) : BitVec 8 := if half == 0 then c.tailA else c.tailB

def CoreSt.setTail (c : CoreSt) (half : Nat) (t : BitVec 8) : CoreSt := if half == 0 then { c with tailA := t } else { c with tailB := t }

/-- What one try of an arrival comes to. -/
inductive Tried where
  | done | unmet | memue
  deriving DecidableEq, Repr

/-- Applies the oldest arrival `a` of a mailbox, sent by the acting strand, as one filling store at its slot (R313). -/
def State.applyArrival (s : State) (coreNo : Nat) (a : Arrival) : State × Tried :=
  let c := s.core coreNo
  let t := c.tail a.half
  let l := clusterLoc (coreNo / 48) (mailSlot (coreNo % 48) a.half t.toNat)
  let before := s.full l.key
  match s.checkSett l 8 ⟨some false, some (leBytes a.data.toNat 8), some true⟩ with
  | (s, .memue) => (s, .memue)
  | (s, .unmet) => (s.failPod l.key .empty, .unmet)
  | (s, .done _) =>
    let c := s.core coreNo
    let rest := c.arrivals.filter fun b => !(b.half == a.half && b.sid == a.sid)
    let s := s.putCore { c.setTail a.half (t + 1) with arrivals := rest }
    let s := if rest.any fun b => b.half == a.half then s.due (.mailboxArrival (coreNo / 48) (coreNo % 48) a.half) else s
    (s.noteBreak 0 l before, .done)

/-- The receivers' check of VSEND (R313): the first active element whose index is GSIZE or above. -/
def State.badReceiver (s : State) (vb : Nat) : Option Stop :=
  let p := s.cur.pod0
  (List.range s.cur.rows).findSome? fun r => s.cur.active.findSome? fun i =>
    let x := s.vGet (vb + r) 64 i
    if !posLt r i p.row p.idx && s.cur.ident.gsize.toNat ≤ x then some ⟨cPROT, BitVec.ofNat 64 x, r, i⟩ else none

/-- The unit of VSEND: the delivery of one element. -/
def sendUnit (va vb : Nat) : RowUnit := fun s r i =>
  if !s.cur.word.mask.getLsbD i then (s, .did [])
  else
    let hold (s : State) (why : Nat) : State × RowOut := (s.onCur fun st => { st with sstall := why }, .wait)
    let (core, half) := s.cur.memberPlace (s.vGet (vb + r) 64 i)
    let coreNo := s.cur.cluster * 48 + core
    let slot (s : State) : Loc := clusterLoc s.cur.cluster (mailSlot core half ((s.core coreNo).tail half).toNat)
    let pod := s.cur.pod0
    if pod.exhausted then
      let va := (slot s).va
      (s.onCur fun st => st.feRecord va (st.podOf 64 i) true 3, .fault cFEB va i)
    else if pod.waiter.isSome || pod.halt then hold s wFEWAIT
    else if let some why := s.streamWhy true (slot s) 8 then hold s why
    else
      let c := s.core coreNo
      let a : Arrival := ⟨half, s.cur.id, BitVec.ofNat 64 (s.vGet (va + r) 64 i)⟩
      let s := if c.arrivals.any fun b => b.sid == a.sid then s else s.putCore { c with arrivals := c.arrivals ++ [a] }
      let first := (s.core coreNo).arrivals.find? fun b => b.half == half
      if first.map Arrival.sid != some s.cur.id then hold s wFEWAIT
      else match s.applyArrival coreNo a with
        | (s, .done) => (s, .did [])
        | (s, .memue) => (s, .fault cMEMUE (slot s).va i)
        | (s, .unmet) => hold s wFEWAIT

/-- VSEND (R312, R313): delivers its active elements one at a time, in ascending order. -/
def execVsend (msk : MReg) (ty : Ty) (va vb : VReg) (s : State) : Res :=
  vecWord s msk.val [ty] [] [va.val, vb.val] [] true fun s =>
    let fresh := s.cur.word.stage == 0
    let s := s.startRows
    match (if fresh then s.badReceiver vb.val else none) with
    | some st => stopWord s st
    | none => seqWord s 64 (sendUnit va.val vb.val) retireWord

/-- MAILBOX_ARRIVAL (R313): the port applies its oldest arrival for a mailbox; the sender goes on at its next element. -/
def execMailboxArrival (cluster core half : Nat) (s : State) : Res :=
  let coreNo := cluster * 48 + core
  match (s.core coreNo).arrivals.find? fun a => a.half == half with
  | none => .next s
  | some a =>
    .next (s.asStrand a.sid fun s =>
      let p := s.cur.pod0
      if s.cur.id != a.sid || s.cur.cur.isNone || p.waiter.isSome || p.exhausted then s
      else match s.applyArrival coreNo a with
        | (s, .done) => s.allPods (s.cur.nextPlace 1 p.row p.idx)
        | (_, .memue) => s
        | (s, .unmet) => s)

/-- Active elements of VMRECV below (r, i) (R314). -/
def State.below (s : State) (r i : Nat) : Nat :=
  r * s.cur.active.length + (s.cur.active.filter fun j => j < i).length

/-- VMRECV (R314): each active element consumes its own slot of the strand's mailbox, and is an acquire of its own (12 R269). -/
def execVmrecv (msk : MReg) (ty : Ty) (vd : VReg) (s : State) : Res :=
  vecWord s msk.val [ty] [] [vd.val] [] true fun s =>
    let core := fieldOf s.cur.ident.core 0 6
    let half := fieldOf s.cur.ident.core 6 1
    memRunTo s { load := true, form := .c, scope := .gr, ty := ty, v := vd.val, alloc := none, lane := false, prog := none, each := true
                 addr := fun s r i => BitVec.ofNat 64 (mailSlot core half (s.cur.ident.mbxhead.toNat + s.below r i)) } fun s =>
      retireWord (s.onCur fun st =>
        { st with ident := { st.ident with mbxhead := st.ident.mbxhead + BitVec.ofNat 8 (st.rows * st.active.length) } })

/-! ## Locks (R315) -/

/-- The distinct addresses of the active elements of a row, rising. -/
def State.lockAddrs (s : State) (va r : Nat) : List Nat :=
  (s.cur.active.map fun i => s.vGet (va + r) 64 i).foldl (fun l a => insNat a l) []

/-- What acting on one address comes to: the bit it gives, or a fault, or a remote try that has no answer yet. -/
inductive LockOut where
  | bit (b : Bool)
  | fault (cause : Nat)
  | remote
  deriving DecidableEq, Repr

/-- Acts on one lock (R315): a try to consume, or a set. A remote request stands with pod 0. -/
def State.lockOne (s : State) (lock : Bool) (a : Nat) : State × LockOut :=
  if lock && 64 ≤ s.cur.ident.locks.length then (s, .bit false)
  else
    let va : Word := BitVec.ofNat 64 a
    let note (s : State) (ok : Bool) : State :=
      s.onCur fun st => { st with ident := { st.ident with locks :=
        if lock then (if ok then st.ident.locks ++ [va] else st.ident.locks) else st.ident.locks.erase va } }
    match s.checkAddr ⟨false, true⟩ 8 va with
    | (s, .error c) => (s, .fault c)
    | (s, .ok l) =>
      if l.gw then
        match s.gwAccess s.cur.pod0.gw (.pod s.cur.id 0) l (if lock then gfTry else gfSetFull) (!lock) 8 [] 0 with
        | (s, .waiting id) => (s.onPod 0 fun q => { q with gw := some id }, .remote)
        | (s, .answered x) =>
          let s := s.onPod 0 fun q => { q with gw := none }
          if x.reason != 0 then (s, .fault x.reason.toNat)
          else
            let bits := if lock then (x.status, false) else (s.openBit, true)
            ((note (if lock && x.status then s.l1Invalidate s.cur.coreNo false else s) x.status).noteBits 0 l bits.1 bits.2, .bit x.status)
      else
        let before := s.full l.key
        match s.checkSett l 8 ⟨if lock then some true else none, none, some (!lock)⟩ with
        | (s, .memue) => (s, .fault cMEMUE)
        | (s, .unmet) => (s.noteBreak 0 l before, .bit false)
        | (s, .done _) =>
          let s := if lock then s.l1Invalidate s.cur.coreNo false else s
          ((note s true).noteBreak 0 l before, .bit true)

/-- The failure that a lock word has met after its first try, kept beside the addresses done: the cause and the address. -/
def Cur.lockFail (c : Cur) : Option (Nat × Word) :=
  (c.staged.find? fun x => 2 ^ 64 ≤ x.1).map fun x => (x.1 - 2 ^ 64, x.2)

/-- Acts on the addresses of a row in rising order. Those done are kept in `staged`, so that a remote try does not repeat
them. After the first try the word runs on past a failure, whose elements get bit 0; it is reported at the end (R315; log entry 24). -/
def lockRow (lock : Bool) (md va r : Nat) : List Nat → State → State × RowOut
  | [], s => (s.onWord fun c => { c with staged := c.staged.filter fun x => 2 ^ 64 ≤ x.1 }, .did [])
  | a :: t, s =>
    if s.cur.word.staged.any fun x => x.1 == a then lockRow lock md va r t s
    else
      let els := s.cur.active.filter fun i => s.vGet (va + r) 64 i == a
      match s.lockOne lock a with
      | (s, .remote) => (s.onCur fun st => { st with sstall := wMEMLAT }, .wait)
      | (s, .fault cause) =>
        if s.cur.word.stage != 2 then (s, .fault cause (BitVec.ofNat 64 a) (els.headD 0))
        else
          let bad := if s.cur.word.lockFail.isSome then [] else [(2 ^ 64 + cause, BitVec.ofNat 64 a)]
          lockRow lock md va r t ((give s els false).onWord fun c => { c with staged := c.staged ++ (a, 0) :: bad })
      | (s, .bit b) =>
        lockRow lock md va r t ((give s els b).onWord fun c => { c with staged := c.staged ++ [(a, 0)], stage := 2 })
where
  give (s : State) (els : List Nat) (b : Bool) : State := if lock then els.foldl (fun s i => s.maskPut (md + r) i b) s else s

/-- The static checks of every element, in ascending order (R315, 06 R171): the first that fails. -/
def State.lockCheck (s : State) (va : Nat) : List (Nat × Nat) → State × Option Stop
  | [] => (s, none)
  | (r, i) :: t =>
    let a : Word := BitVec.ofNat 64 (s.vGet (va + r) 64 i)
    match s.checkAddr ⟨false, true⟩ 8 a with
    | (s, .error c) => (s, some ⟨c, a, r, i⟩)
    | (s, .ok _) => s.lockCheck va t

/-- What holds an address of the word back, if anything does. -/
def State.lockWhy (s : State) (lock : Bool) (va : Nat) (els : List (Nat × Nat)) : Option Nat :=
  els.findSome? fun x => match (s.checkAddr ⟨false, true⟩ 8 (BitVec.ofNat 64 (s.vGet (va + x.1) 64 x.2))).2 with
    | .ok l => s.streamWhy (!lock) l 8
    | .error _ => none

/-- A row of a lock word begins: its words of scratchpad banks are met (12 R272). -/
def State.enterLocks (s : State) (va r : Nat) : State := s.enterRow r ((s.lockAddrs va r).flatMap fun a => padWord (BitVec.ofNat 64 a))

/-- The pages of the elements of a lock word are pinned before its first try (06 R171). -/
def State.lockPins (s : State) (va : Nat) (els : List (Nat × Nat)) : State :=
  let (s, pages) := els.foldl (fun (a : State × List Word) x =>
    match a.1.pageOf (BitVec.ofNat 64 (a.1.vGet (va + x.1) 64 x.2)) with
    | (s, some p) => (s, if a.2.contains p then a.2 else p :: a.2)
    | (s, none) => (s, a.2)) (s, [])
  s.onWord fun c => { c with pins := pages }

/-- VLOCK and VUNLOCK: once the first try has performed, the word runs to completion before a step or a breakpoint stops it. -/
def lockWord (s : State) (lock : Bool) (msk : Nat) (ty : Ty) (md va : Nat) : Res :=
  vecWord s msk [ty] [] [va] (if lock then [md] else []) true fun s =>
    let fresh := s.cur.word.stage == 0
    let s := s.startRows
    let els := s.leftOver 64
    match (if fresh then s.lockCheck va els else (s, none)) with
    | (s, some st) => stopWord s st
    | (s, none) =>
      if let some why := if fresh then s.lockWhy lock va els else none then waitWord (s.onWord fun c => { c with stage := 0 }) why
      else match (if fresh then s.meetUnit else (s, none)) with
      | (s, some st) => stopWord s st
      | (s, none) =>
        match go s.cur.rows (if fresh then s.lockPins va els else s) with
        | (s, some st) => stopWord s st
        | (s, none) => if s.cur.podsDone then finish s else .next s
where
  finish (s : State) : Res :=
    match s.cur.word.lockFail, s.cur.word.brk.head? with
    | some (cause, v), _ => stopWord s ⟨cause, v, s.cur.rows, 0⟩
    | none, some (b, _) => stopWord s ⟨cBRK, BitVec.ofNat 64 b, s.cur.rows, 0⟩
    | none, none => if s.cur.stepping then stopWord s ⟨cSTEP, 0, 0, 0⟩ else retireWord s
  go : Nat → State → State × Option Stop
    | 0, s => (s, none)
    | n + 1, s =>
      let p := s.cur.pod0
      if s.cur.rows ≤ p.row then (s, none)
      else match lockRow lock md va p.row (s.lockAddrs va p.row) (s.enterLocks va p.row) with
        | (s, .fault c v i) => (s, some ⟨c, v, p.row, i⟩)
        | (s, .wait) => (s, none)
        | (s, .did _) =>
          let stage := s.cur.word.stage
          go n ((s.allPods (s.cur.nextPlace 0 p.row 0)).onWord fun c => { c with stage := stage })

/-- VLOCK (R315). -/
def execVlock (msk : MReg) (ty : Ty) (md : MReg) (va : VReg) (s : State) : Res := lockWord s true msk.val ty md.val va.val

/-- VUNLOCK (R315). -/
def execVunlock (msk : MReg) (ty : Ty) (va : VReg) (s : State) : Res := lockWord s false msk.val ty 0 va.val

/-! ## Barriers (R316, R317) -/

/-- The physical barrier that a barrier number of the acting strand's group names. -/
def State.physBarrier (s : State) (b : Nat) : Option Nat := (s.group s.cur.gid).bind fun g => g.bars[b]?

/-- A release sett of a barrier, as the strand names it and under its park key (R307, R316). -/
def State.releaseSett (s : State) (b phys p : Nat) : Loc :=
  { clusterLoc s.cur.cluster (0xFFFFFFFFFFF80000 + 16 * b + 8 * p) with key := barrierKey s.cur.cluster phys p }

/-- A barrier word: a number at or above the group's count raises PROT at issue. -/
def barrierWord (s : State) (b : Fin 16) (body : State → (phys : Nat) → Res) : Res :=
  issueWord s 0 false true fun s =>
    match s.physBarrier b.val with
    | none => wordFault s cPROT (BitVec.ofNat 64 b.val)
    | some p => body s p

/-- One arrival at a barrier (R317): the last one starts the next phase. -/
def State.arrive (s : State) (b phys : Nat) : State :=
  let cl := s.cluster s.cur.cluster
  let bar := vget cl.barriers phys
  let p : Nat := if bar.ph then 1 else 0
  let s := s.onCur fun st => { st with ident := { st.ident with barph := setField st.ident.barph b 1 p } }
  if bar.arr + 1 == bar.cnt then
    let s := s.putCluster { cl with barriers := vset cl.barriers phys { bar with arr := 0, ph := !bar.ph } }
    (s.setFull (barrierKey s.cur.cluster phys (1 - p)) false).setFull (barrierKey s.cur.cluster phys p) true
  else s.putCluster { cl with barriers := vset cl.barriers phys { bar with arr := bar.arr + 1 } }

/-- FARRIVE (R317): arrives once every earlier access has performed at its scope. -/
def execFarrive (_scope : Scope) (b : Fin 16) (s : State) : Res :=
  barrierWord s b fun s phys =>
    if !s.cur.wordOver && s.streamHeld true Loc.nowhere 0 then waitWord s wBARRIER else wholeWord s fun s => s.arrive b.val phys

/-- BWAIT (R317): a waiting load of the release sett of the strand's last arrival, an acquire at group scope. -/
def execBwait (b : Fin 16) (s : State) : Res :=
  barrierWord s b fun s phys =>
    if s.cur.wordOver then retireWord s
    else
      let s := if s.cur.word.pods.isEmpty || s.cur.word.stage == 0 then s.allPods (0, 0) else s
      let l := s.releaseSett b.val phys (fieldOf s.cur.ident.barph b.val 1)
      let pod := s.cur.pod0
      if pod.exhausted then stopWord (s.onCur fun st => st.feRecord l.va 0 true 1) ⟨cFEB, l.va, 0, 0⟩
      else if pod.waiter.isSome || pod.halt || s.streamHeld false l 8 then waitWord s wBARRIER
      else
        let before := s.full l.key
        match s.checkSett l 8 ⟨some true, none, none⟩ with
        | (s, .memue) => stopWord s ⟨cMEMUE, l.va, 0, 0⟩
        | (s, .unmet) => waitWord (s.failPod l.key .full) wBARRIER
        | (s, .done _) =>
          let s := (s.l1Invalidate s.cur.coreNo false).noteBreak 0 l before
          match s.cur.word.brk.head? with
          | some (n, _) => stopWord (s.allPods (s.cur.rows, 0)) ⟨cBRK, BitVec.ofNat 64 n, 0, 0⟩
          | none => if s.cur.stepping then stopWord (s.allPods (s.cur.rows, 0)) ⟨cSTEP, 0, 0, 0⟩ else retireWord s

/-- BSET (R317): a plain step at the barrier home, kept after earlier acquires and fences as a plain write is (04 R142). -/
def execBset (b : Fin 16) (n : BitVec 16) (s : State) : Res :=
  barrierWord s b fun s phys =>
    if !s.cur.wordOver && s.streamHeld false Loc.nowhere 0 then waitWord s wOTHER else wholeWord s fun s =>
      let cl := s.cluster s.cur.cluster
      let s := s.putCluster { cl with barriers := vset cl.barriers phys ⟨n.toNat, 0, false⟩ }
      (s.setFull (barrierKey s.cur.cluster phys 0) false).setFull (barrierKey s.cur.cluster phys 1) true

end Sys2Proof.Machine
end

