-- ==== Sys2Proof/Machine/Anchored.lean ====
section
/-!
DEFINITION. Anchored words (ch. 07): exact residual arithmetic (R201, R202), the execution classes of R203, the arithmetic words
(R204 to R212) and ALD and AST (R213 to R219).
-/
namespace Sys2Proof.Machine

/-! ## Cells and blocks (R198) -/

/-- Cells of a block. -/
def Strand.ablk (st : Strand) : Nat := 2 ^ fieldOf st.ctl.ablk 0 4

/-- Entries of an anchor register. -/
def Strand.nent (st : Strand) : Nat := if st.half then 32 else 64

/-- Cells of a word. -/
def Strand.cells (st : Strand) : Nat := st.rows * st.vl

/-- Blocks of a word. -/
def Strand.blocks (st : Strand) : Nat := (st.cells + st.ablk - 1) / st.ablk

/-- The block of a cell. -/
def Strand.blockOf (st : Strand) (n : Nat) : Nat := n / st.ablk

/-- Every cell of a block, rising. -/
def Strand.blockCells (st : Strand) (q : Nat) : List Nat :=
  ((List.range st.ablk).map fun j => q * st.ablk + j).filter fun n => n < st.cells

/-- Whether a cell is active. -/
def Strand.cellOn (st : Strand) (n : Nat) : Bool := st.word.mask.getLsbD (n % st.vl)

/-- The active cells of a block, rising. -/
def Strand.activeCells (st : Strand) (q : Nat) : List Nat := (st.blockCells q).filter st.cellOn

/-- The blocks that hold an active cell. -/
def Strand.activeBlocks (st : Strand) : List Nat := (List.range st.blocks).filter fun q => !(st.activeCells q).isEmpty

/-- The issue checks of an anchored word: `wide` is the widest element it names (R198); LP strands have none (20 R390). -/
def anchWord (s : State) (msk : Nat) (ty : Ty) (wide : Nat) (groups : List Nat) (extra : Bool) (body : State → Res) : Res :=
  vecWord s msk [ty] [wide] groups [] (!s.cur.lp && s.cur.blocks ≤ s.cur.nent && extra) body

/-! ## Values -/

/-- The deviation of a cell. -/
def State.dev (s : State) (ty : Ty) (v n : Nat) : Int := signedOf ty.width (s.vGet (v + n / s.cur.vl) ty.width (n % s.cur.vl))

/-- The exact value d · 2^e. -/
def devDy (d : Int) (e : Int) : Dy := ⟨d, e⟩

/-- The step of an entry. -/
def Anchor.step (a : Anchor) : Int := a.e.toInt

/-- The anchor of an entry. -/
def Anchor.val (a : Anchor) : FVal := (fmtOf .f64).decode a.a.toNat

/-- A step clamped to its range. -/
def clampStep (e : Int) : Int := max (-32768) (min 32767 e)

def stepOk (e : Int) : Bool := -32768 ≤ e && e ≤ 32767

/-- A new anchor (R201): its bits, its flags, and its residual, absent when it is not finite. -/
structure NewA where
  bits : Nat
  flags : Flags
  rho : Option Dy
  step : Int

/-- Rounds an exact anchor: RNE, its residual carried; only an overflow or an invalid operation raises a flag. -/
def roundAnchor (v : FVal × Flags) (step : Int) : NewA :=
  let (b, f) := (fmtOf .f64).encode .rne v.1
  let a := (fmtOf .f64).decode b
  { bits := b, flags := (v.2 &&& fNV) ||| (f &&& fOF), rho := if a.isFin && v.1.isFin then some (v.1.dy.add a.dy.neg) else none
    step := step }

/-- The entry that a block receives: a step outside its range is stored clamped. -/
def NewA.entry (a : NewA) : Anchor := ⟨BitVec.ofNat 64 a.bits, BitVec.ofInt 16 (clampStep a.step)⟩

/-- A deviation at a step (R201, R202): its bits and flags. One that does not fit, or a step out of range, is DOV, and clamped. -/
def Ctl.devCell (c : Ctl) (ty : Ty) (x : Dy) (step : Int) : Nat × Flags :=
  let (q, nx) := x.toInt c.rm (clampStep step)
  let (v, cl) := clampInt ty.width true q
  if stepOk step && !cl then (intBits ty.width v, flagIf nx fNX)
  else (intBits ty.width v, if c.dovSat then fDOV ||| fNX else fDOV)

/-- A cell of a block under its new anchor; one of a block without a finite anchor receives 0 (R201). -/
def NewA.cell (a : NewA) (c : Ctl) (ty : Ty) (x : Dy → Dy) : Nat × Flags :=
  match a.rho with
  | none => (0, 0)
  | some ρ => c.devCell ty (x ρ) a.step

/-- The stop that a stopping unit's cells raise (R202): DOV first, then an enabled flag. A cell with DOV raises no other flag. DESIGN CHOICE (18):
at an FPX stop TVAL holds the flags and EIDX merges nothing (01 R27, R30), so that no register names the raising cell of a word that stops as
a whole (R207). -/
def Ctl.cellStop (c : Ctl) (vl : Nat) (out : List (Nat × Flags)) : Option Stop :=
  let dov := if c.dovSat then none else out.find? fun o => o.2.getLsbD 6
  match dov with
  | some o => some ⟨cDOV, BitVec.ofNat 64 o.1, o.1 / vl, o.1 % vl⟩
  | none => match out.find? fun o => c.fpx o.2 with
    | some o => some ⟨cFPX, (out.foldl (fun (f : Flags) x => f ||| x.2) 0).setWidth 64, o.1 / vl, o.1 % vl⟩
    | none => none

/-- The flags of a cell with those of its block's anchor, if it is the block's lowest active one. -/
def NewA.flagsAt (a : NewA) (st : Strand) (n : Nat) (f : Flags) : Flags :=
  if !st.ctl.dovSat && f.getLsbD 6 then f else if (st.activeCells (st.blockOf n)).head? == some n then f ||| a.flags else f

/-! ## Element-wise words (R204, R205) -/

/-- The unit of an element-wise anchored word: `na` gives a block's new anchor, `x` a cell's exact value from the residual. -/
def anchUnit (ty : Ty) (vd : Nat) (na : State → (q : Nat) → NewA) (cell : State → NewA → (q n : Nat) → Nat × Flags) : PodUnit :=
  fun s _ r els =>
    let res := els.map fun i =>
      let n := s.pos r i
      let q := s.cur.blockOf n
      let a := na s q
      let (v, f) := cell s a q n
      (n, v, a.flagsAt s.cur n f)
    match s.cur.ctl.cellStop s.cur.vl (res.map fun x => (x.1, x.2.2)) with
    | some st => (s, .fault st.cause st.val st.idx)
    | none => (res.foldl (fun s x => s.vPut (vd + r) ty.width (x.1 % s.cur.vl) x.2.1) s,
        .did (res.map fun x => ⟨x.1 % s.cur.vl, x.2.2, false⟩))

/-- Writes the entries of the blocks that hold an active cell, at completion (R203). -/
def State.putEntries (s : State) (kd : Nat) (na : State → (q : Nat) → NewA) : State :=
  s.cur.activeBlocks.foldl (fun t q => t.onCur fun st => st.kPut kd q (na s q).entry) s

/-- An element-wise anchored word. -/
def anchElem (s : State) (ty : Ty) (vd kd : Nat) (na : State → (q : Nat) → NewA)
    (cell : State → NewA → (q n : Nat) → Nat × Flags) : Res :=
  sweep s ty.width false (anchUnit ty vd na cell) fun s => retireWord (s.putEntries kd na)

/-- AADD and ASUB. -/
def anchSum (s : State) (ka kb kd : KReg) (o : Binary) (neg : Bool) : Res :=
  anchWord s o.msk.val o.ty 0 [o.vd.val, o.va.val, o.vb.val] true fun s =>
    let ent (s : State) (q : Nat) : Anchor × Anchor := (s.cur.kGet ka.val q, s.cur.kGet kb.val q)
    anchElem s o.ty o.vd.val kd.val
      (fun s q =>
        let (a, b) := ent s q
        roundAnchor (a.val.add .rne (if neg then b.val.negate else b.val)) (max a.step b.step))
      (fun s n q m =>
        let (a, b) := ent s q
        let db := s.dev o.ty o.vb.val m
        n.cell s.cur.ctl o.ty fun ρ =>
          ((devDy (s.dev o.ty o.va.val m) a.step).add (devDy (if neg then -db else db) b.step)).add ρ)

/-- AADD (R204). -/
def execAadd (ka kb kd : KReg) (o : Binary) (s : State) : Res := anchSum s ka kb kd o false

/-- ASUB (R204). -/
def execAsub (ka kb kd : KReg) (o : Binary) (s : State) : Res := anchSum s ka kb kd o true

/-- ASCL by a factor, with the change of the step; a zero factor gives deviations 0. Beyond 2^17 either way a power of two acts
alike: every step is then out of range. -/
def anchScale (s : State) (k : KReg) (o : Arith) (factor : State → FVal × Int) : Res :=
  anchWord s o.msk.val o.ty 0 [o.vd.val, o.va.val] true fun s =>
    anchElem s o.ty o.vd.val k.val
      (fun s q =>
        let a := s.cur.kGet k.val q
        let (c, t) := factor s
        roundAnchor (a.val.mul c) (a.step + t))
      (fun s n q m =>
        let (c, _) := factor s
        if c.isZero then (0, 0)
        else n.cell s.cur.ctl o.ty fun ρ => ((devDy (s.dev o.ty o.va.val m) (s.cur.kGet k.val q).step).mul c.dy).add ρ)

/-- The 64 bits of ASCL's operand: the scalar, or its immediate. -/
def Strand.sclOperand (st : Strand) : Third → Word
  | .s x => st.slot x
  | .i16 imm => imm.signExtend 64
  | .i64 imm => imm
  | .i32 imm => imm.signExtend 64
  | .v _ => 0

/-- ASCL in power-of-two mode (R205). -/
def execAsclPow2 (k : KReg) (o : Arith) (s : State) : Res :=
  anchScale s k o fun s =>
    let t := max (-131072) (min 131072 (s.cur.sclOperand o.third).toInt)
    (.fin false 1 t, t)

/-- ASCL in scalar mode (R205). -/
def execAsclScl (k : KReg) (o : Arith) (s : State) : Res :=
  anchScale s k o fun s =>
    let c := (fmtOf .f64).decode (s.cur.sclOperand o.third).toNat
    (c, match c with | .fin _ m e => if m = 0 then 0 else e + bitLen m | _ => 0)

/-! ## Word-atomic words (R203) -/

/-- What a word-atomic word does: the writes (register, width, element, value), what its cells raise, and the entries. -/
structure AtomicOut where
  puts : List (Nat × Nat × Nat × Nat)
  outs : List (Nat × Flags × Bool)
  ents : List (Nat × Anchor)

/-- Performs a word-atomic word of element width `w`: a stop leaves every destination unchanged. -/
def wordAtomic (s : State) (w kd : Nat) (f : State → AtomicOut) : Res :=
  let s := s.startRows
  if s.cur.podsDone then retireWord s
  else
    match (if s.upsets.isEmpty then (s, none) else (List.range s.cur.rows).foldl (fun (a : State × Option Stop) r =>
        if a.2.isSome then a else a.1.meetShadows r 0 s.cur.vl w) (s, none)) with
    | (s, some st) => stopWord s st
    | (s, none) =>
      let o := f s
      match s.cur.ctl.cellStop s.cur.vl (o.outs.map fun x => (x.1, x.2.1)) with
      | some st => stopWord s st
      | none =>
        let vl := s.cur.vl
        let s := o.puts.foldl (fun s x => s.vPut x.1 x.2.1 x.2.2.1 x.2.2.2) s
        let s := o.ents.foldl (fun s x => s.onCur fun st => st.kPut kd x.1 x.2) s
        let s := s.onWord fun c => { c with run := o.outs.foldl (fun r x => r.raise (x.1 / vl) (x.1 % vl) x.2.1 x.2.2) c.run }
        let s := (s.allPods (s.cur.rows, 0)).count 0x04 (s.cur.rows * ((vl * w + 63) / 64))
        if s.cur.stepping then stopWord s ⟨cSTEP, 0, 0, 0⟩ else retireWord s

/-- Joins what the blocks do. -/
def AtomicOut.join (l : List AtomicOut) : AtomicOut :=
  { puts := l.flatMap AtomicOut.puts, outs := l.flatMap AtomicOut.outs, ents := l.flatMap AtomicOut.ents }

/-- The least step at which a value, rounded, lies in [−2^h, 2^h − 1]; none for 0, which fits at any. -/
def leastStep (rm : Rm) (h : Nat) (x : Dy) : Option Int :=
  if x.m = 0 then none
  else
    let c : Int := bitLen x.m.natAbs + x.e - (h + 1)
    let fits (e : Int) : Bool := let q := (x.toInt rm e).1; -(2 ^ h) ≤ q && q ≤ 2 ^ h - 1
    some (if fits c then c else if fits (c + 1) then c + 1 else c + 2)

/-- The least step from `e` on at which every value fits. -/
def leastSteps (rm : Rm) (h : Nat) (e : Int) (xs : List Dy) : Int :=
  xs.foldl (fun m x => match leastStep rm h x with | some l => max m l | none => m) e

/-- A write of a cell. -/
def cellPut (vl vd w n v : Nat) : Nat × Nat × Nat × Nat := (vd + n / vl, w, n % vl, v)

/-- AMUL (R206). -/
def execAmul (ka kb kd : KReg) (o : Binary) (s : State) : Res :=
  anchWord s o.msk.val o.ty 0 [o.vd.val, o.va.val, o.vb.val] true fun s =>
    wordAtomic s o.ty.width kd.val fun s => AtomicOut.join (s.cur.activeBlocks.map fun q =>
      let st := s.cur
      let a := st.kGet ka.val q
      let b := st.kGet kb.val q
      let base := max (a.step + b.step) (-32768)
      let n0 := roundAnchor (a.val.mul b.val) base
      let cells := st.activeCells q
      let xs := cells.map fun n =>
        let da := s.dev o.ty o.va.val n
        let db := s.dev o.ty o.vb.val n
        (n, ((a.val.dy.mul (devDy db b.step)).add (b.val.dy.mul (devDy da a.step))).add
          ((devDy (da * db) (a.step + b.step)).add (n0.rho.getD Dy.zero)))
      let na := { n0 with step := if n0.rho.isSome then leastSteps st.ctl.rm (o.ty.width - 1) base (xs.map Prod.snd) else base }
      let out := xs.map fun x =>
        let (v, f) := na.cell st.ctl o.ty fun _ => x.2
        (x.1, v, na.flagsAt st x.1 f)
      { puts := out.map fun x => cellPut st.vl o.vd.val o.ty.width x.1 x.2.1
        outs := out.map fun x => (x.1, x.2.2, false), ents := [(q, na.entry)] })

/-- AXPAND (R207): the four terms of the product, each rounded once by FCTL.RM. DESIGN CHOICE (18): the flags of a cell's terms join to one event
per cell and class in EIDX. -/
def execAxpand (ka kb : KReg) (o : Binary) (s : State) : Res :=
  anchWord s o.msk.val o.ty 64 [o.va.val, o.vb.val] (o.vd.val + 4 * s.cur.rows ≤ 64) fun s =>
    wordAtomic s 64 0 fun s => AtomicOut.join (s.cur.activeBlocks.map fun q =>
      let st := s.cur
      let a := st.kGet ka.val q
      let b := st.kGet kb.val q
      let term (v : FVal × Flags) : Nat × Flags := let (c, f) := (fmtOf .f64).encode st.ctl.rm v.1; (c, v.2 ||| f)
      let out := (st.activeCells q).map fun n =>
        let da := s.dev o.ty o.va.val n
        let db := s.dev o.ty o.vb.val n
        (n, [term (a.val.mul b.val), term (a.val.mul (FVal.ofDy (devDy db b.step) false)),
          term (b.val.mul (FVal.ofDy (devDy da a.step) false)), term (FVal.ofDy (devDy (da * db) (a.step + b.step)) false, 0)])
      { puts := out.flatMap fun x => x.2.mapIdx fun t y => (o.vd.val + t * st.rows + x.1 / st.vl, 64, x.1 % st.vl, y.1)
        outs := out.map fun x => (x.1, x.2.foldl (fun f y => f ||| y.2) 0, false), ents := [] })

/-- ADIF (R208, R209): a centred difference, which consults the anchors of two blocks only where they differ. -/
def execAdif (k : KReg) (h : Fin 32) (o : Unary) (s : State) : Res :=
  anchWord s o.msk.val o.ty 0 [o.vd.val, o.va.val]
      (o.vd.val + s.cur.rows ≤ o.va.val || o.va.val + s.cur.rows ≤ o.vd.val) fun s =>
    wordAtomic s o.ty.width k.val fun s =>
      let st := s.cur
      let out := ((List.range st.cells).filter fun n => st.cellOn n && h.val ≤ n && n + h.val < st.cells).map fun n =>
        let (bu, bl) := (st.blockOf (n + h.val), st.blockOf (n - h.val))
        let (eu, el) := (st.kGet k.val bu, st.kGet k.val bl)
        let (du, dl) := (s.dev o.ty o.va.val (n + h.val), s.dev o.ty o.va.val (n - h.val))
        let step := (st.kGet k.val (st.blockOf n)).step
        if bu == bl then
          let (v, f) := st.ctl.devCell o.ty (devDy (du - dl) eu.step) step
          (n, v, f, false)
        else
          let consult := eu.val.isNan || el.val.isNan || !eu.val.eqv el.val
          if !(eu.val.isFin && el.val.isFin) then (n, 0, fNV, consult)
          else
            let x := ((devDy du eu.step).add (devDy (-dl) el.step)).add (eu.val.dy.add el.val.dy.neg)
            let (v, f) := st.ctl.devCell o.ty x step
            (n, v, f, consult)
      { puts := out.map fun x => cellPut st.vl o.vd.val o.ty.width x.1 x.2.1, outs := out.map fun x => (x.1, x.2.2.1, x.2.2.2), ents := [] }

/-- log₂ of the headroom H of REANC (R210): H is 32 for i8, and 2^(w−2) for the wider types. -/
def headroom (ty : Ty) : Nat := if ty.width == 8 then 5 else ty.width - 2

/-- RoundHalfEven(n / 2). -/
def halfEven (n : Int) : Int := if n % 2 == 0 then n / 2 else if n / 2 % 2 == 0 then n / 2 else n / 2 + 1

/-- REANC: recentres each block that holds an active cell, with a new step from the exact values of all its cells. Every cell is rewritten,
active or not; DEDUCED (18): but for those whose fragment mask bit is 0, which limits every element write (06 R194). -/
def reanc (s : State) (k : KReg) (o : Unary) (policy : Rm → (e : Int) → List Dy → Int) : Res :=
  anchWord s o.msk.val o.ty 0 [o.vd.val, o.va.val] true fun s =>
    wordAtomic s o.ty.width k.val fun s =>
      AtomicOut.join ((s.cur.activeBlocks.filter fun q => (s.cur.kGet k.val q).val.isFin).map fun q =>
        let st := s.cur
        let a := st.kGet k.val q
        let ds := (st.blockCells q).map fun n => (n, s.dev o.ty o.va.val n)
        let d0 := (ds.headD (0, 0)).2
        let m := halfEven ((ds.foldl (fun m x => min m x.2) d0) + (ds.foldl (fun m x => max m x.2) d0))
        let n0 := roundAnchor (a.val.add .rne (FVal.ofDy (devDy m a.step) false)) a.step
        let ys := ds.map fun x => (x.1, (devDy (x.2 - m) a.step).add (n0.rho.getD Dy.zero))
        let na := { n0 with step := if n0.rho.isSome then policy st.ctl.rm a.step (ys.map Prod.snd) else a.step }
        let out := ys.map fun y =>
          let (v, f) := na.cell st.ctl o.ty fun _ => y.2
          (y.1, v, na.flagsAt st y.1 f)
        { puts := (out.filter fun x => st.block.fm.getLsbD (x.1 % st.vl)).map fun x => cellPut st.vl o.vd.val o.ty.width x.1 x.2.1
          outs := (out.filter fun x => st.cellOn x.1).map fun x => (x.1, x.2.2, false), ents := [(q, na.entry)] })

/-- REANC with policy CENTRE (R210). -/
def execReancCentre (k : KReg) (o : Unary) (s : State) : Res := reanc s k o fun _ e _ => e

/-- REANC with policy WIDEN (R210). -/
def execReancWiden (k : KReg) (o : Unary) (s : State) : Res := reanc s k o fun rm e ys => leastSteps rm (headroom o.ty) e ys

/-- REANC with policy NARROW (R210). -/
def execReancNarrow (k : KReg) (o : Unary) (s : State) : Res := reanc s k o fun rm _ ys => leastSteps rm (headroom o.ty) (-32768) ys

/-! ## ACVT and AMOVK (R211, R212) -/

/-- ACVT, row by row: `f` gives the result of a cell from its entry and source bits. -/
def acvt (s : State) (o : Unary) (plain src dst : Ty) (k : KReg) (f : Ctl → Anchor → Nat → Nat × Flags) : Res :=
  anchWord s o.msk.val o.ty plain.width [o.vd.val, o.va.val] true fun s =>
    rowWord s 0 (max plain.width o.ty.width) (fun s r _ =>
      let st := s.cur
      let out := st.active.map fun i =>
        let n := s.pos r i
        let (v, fl) := f st.ctl (st.kGet k.val (st.blockOf n)) (s.vGet (o.va.val + r) src.width i)
        (n, i, v, fl)
      match st.ctl.cellStop st.vl (out.map fun x => (x.1, x.2.2.2)) with
      | some p => (s, .fault p.cause p.val p.idx)
      | none => (out.foldl (fun s x => s.vPut (o.vd.val + r) dst.width x.2.1 x.2.2.1) s,
          .did (out.map fun x => ⟨x.2.1, x.2.2.2, false⟩))) retireWord

/-- ACVT from anchored (R211): A + d · 2^e, rounded once into the plain type. -/
def execAcvtFromanc (k : KReg) (plain : Ty) (o : Unary) (s : State) : Res :=
  acvt s o plain o.ty plain k fun c a b =>
    let (v, f) := a.val.add c.rm (FVal.ofDy (devDy (signedOf o.ty.width b) a.step) false)
    if plain.isInt then let (x, g) := valToInt c.rm plain.width plain.signed v; (x, f ||| g)
    else let (x, g) := (fmtOf plain).encode c.rm v; (x, f ||| g)

/-- ACVT to anchored (R211): x − A at the step of the entry. -/
def execAcvtToanc (k : KReg) (plain : Ty) (o : Unary) (s : State) : Res :=
  acvt s o plain plain o.ty k fun c a b =>
    let x := if plain.isInt then FVal.ofDy (Dy.ofInt (bitsInt plain.width plain.signed b)) false else (fmtOf plain).decode b
    if !(x.isFin && a.val.isFin) then (0, fNV) else c.devCell o.ty (x.dy.add a.val.dy.neg) a.step

/-- Entries whose mask bit is active. -/
def Strand.entriesOn (st : Strand) : List Nat := (List.range st.nent).filter fun j => st.word.mask.getLsbD j

/-- AMOVK from k to v (R212): VL and ROWS play no part. -/
def execAmovkKv (msk : MReg) (_ty : Ty) (vd : VReg) (k : KReg) (s : State) : Res :=
  issueWord s msk.val false (!s.cur.lp) fun s => wholeWord s fun s =>
    s.cur.entriesOn.foldl (fun s j =>
      let a := s.cur.kGet k.val j
      (s.vPut vd.val 64 j a.a.toNat).vPut (vd.val + 1) 64 j (a.e.signExtend 64).toNat) s

/-- AMOVK from v to k (R212). -/
def execAmovkVk (msk : MReg) (_ty : Ty) (va : VReg) (k : KReg) (s : State) : Res :=
  issueWord s msk.val false (!s.cur.lp) fun s => wholeWord s fun s =>
    s.cur.entriesOn.foldl (fun s j =>
      let a : Anchor := ⟨BitVec.ofNat 64 (s.vGet va.val 64 j), BitVec.ofNat 16 (s.vGet (va.val + 1) 64 j)⟩
      s.onCur fun st => st.kPut k.val j a) s

/-! ## ALD and AST (R213 to R219) -/

/-- An anchored load or store: `fe` marks ALD.W and AST.R. -/
structure AncMem where
  load : Bool
  fe : Bool
  scope : Scope
  ty : Ty
  v : Nat
  k : Nat
  dbase : Word
  abase : Word

/-- One access of a block: its number in the block, address, bytes and cell. -/
structure AncAcc where
  key : Nat
  va : Word
  n : Nat
  cell : Nat

/-- The address of a block's header sett. -/
def AncMem.header (m : AncMem) (q : Nat) : Word := m.abase + BitVec.ofNat 64 (16 * q)

/-- The accesses of a block: the header sett, the step sett, and the active cells' deviations. -/
def State.ancAccs (s : State) (m : AncMem) (q : Nat) : List AncAcc :=
  let cells := s.cur.activeCells q
  let n0 := cells.headD 0
  ⟨0, m.header q, 8, n0⟩ :: ⟨1, m.header q + 8, 8, n0⟩ ::
    cells.mapIdx fun j n => ⟨2 + j, m.dbase + BitVec.ofNat 64 (n * (elemBytes m.ty)), elemBytes m.ty, n⟩

/-- The location of an access, with its static checks (06 R171): an entry is 16-byte aligned, and its header needs FEV for a full/empty
form. A watch has no remote form: the header of an ALD.W on a GW page raises PROT. -/
def State.ancLoc (s : State) (m : AncMem) (a : AncAcc) : State × Except Nat Loc :=
  let base := if a.key == 1 then a.va - 8 else a.va
  match s.checkAddr ⟨!m.load, m.fe && a.key == 0⟩ (if a.key < 2 then 16 else a.n) base with
  | (s, .error c) => (s, .error c)
  | (s, .ok l) =>
    if l.gw && m.load && m.fe && a.key == 0 then (s, .error cPROT)
    else if a.key == 1 then (s, .ok { l with key := l.key + 8, va := a.va }) else (s, .ok l)

/-- The pages and the first failing check of a block's accesses. -/
def ancCheck (m : AncMem) : List AncAcc → List Word → State → State × List Word × Option Stop
  | [], pages, s => (s, pages, none)
  | a :: t, pages, s =>
    match s.pageOf a.va with
    | (s, pg) =>
      let pages := match pg with | some x => if pages.contains x then pages else x :: pages | none => pages
      match s.ancLoc m a with
      | (s, .error c) => (s, pages, some ⟨c, if a.key == 1 then a.va - 8 else a.va, a.cell / s.cur.vl, a.cell % s.cur.vl⟩)
      | (s, .ok _) => ancCheck m t pages s

/-- Takes blocks into a pin set, which ends only between blocks (R213): the block after the set, its pages, and a failing check. -/
def ancPin (m : AncMem) : List Nat → List Word → Option Stop → State → State × List Word × Option Nat × Option Stop
  | [], pages, bad, s => (s, pages, none, bad)
  | q :: t, pages, bad, s =>
    match ancCheck m (s.ancAccs m q) pages s with
    | (s, pages', b) =>
      if 128 < pages'.length && !pages.isEmpty then (s, pages, some q, bad)
      else ancPin m t pages' (bad <|> b) s

/-- How an access of a block ends. -/
inductive AncOut where
  | done (val : Nat) (sub : Bool)
  | wait (why : Nat)
  | fault (cause : Nat)

/-- The bit of a remote sett before and after a form; `bit` is what the form does not tell. -/
def formBits (form : Nat) (bit : Bool) : Bool × Bool :=
  if form == gfConsume then (true, false) else if form == gfSetFull then (bit, true) else (bit, bit)

/-- A remote access of the word (25 R437); the request stands with pod 0. -/
def State.ancRemote (s : State) (l : Loc) (form : Nat) (rel : Bool) (n : Nat) (data : List Byte) : State × AncOut :=
  match s.gwAccess s.cur.pod0.gw (.pod s.cur.id 0) l form rel n data 0 with
  | (s, .waiting id) => (s.onPod 0 fun q => { q with gw := some id }, .wait wMEMLAT)
  | (s, .answered x) =>
    let s := s.onPod 0 fun q => { q with gw := none }
    let bits := formBits form s.openBit
    if x.reason != 0 then (s, .fault x.reason.toNat) else (s.noteBits 0 l bits.1 bits.2, .done (leValue x.data) false)

/-- A plain access of a block: substituted data is the NaN of f64 for A and zero for integers (R214). DEDUCED (33): X4 of ALD and AST is k (02 R63), so
that they have no hint, and the default of 12 R270 holds. -/
def State.ancPlain (s : State) (m : AncMem) (a : AncAcc) (l : Loc) (data : Nat) : State × AncOut :=
  if let some why := s.streamWhy false l a.n then (s, .wait why)
  else if l.gw then s.ancRemote l gfPlain false a.n (if m.load then [] else leBytes data a.n)
  else
    let before := s.full l.key
    if m.load then
      match s.loadPlain l a.n true (if s.cur.cells * elemBytes m.ty ≤ fieldOf s.cur.vbyp 0 24 then some true else none) with
      | (s, .error c) => (s, .fault c)
      | (s, .ok x) =>
        (s.noteBreak 0 l before, .done (deliver (if a.key == 0 then .f64 else m.ty) l false x).1 x.sub)
    else ((s.storeCore l (leBytes data a.n)).noteBreak 0 l before, .done 0 false)

/-- Step 1 of ALD.W (R215) or AST.R (R216) at the header's home. -/
def State.ancHead (s : State) (m : AncMem) (l : Loc) : State × AncOut :=
  let pod := s.cur.pod0
  if pod.exhausted then (s, .fault cFEB)
  else if pod.waiter.isSome then (s, .wait wFEWAIT)
  else if let some why := s.streamWhy (!m.load && m.scope != .st) l 8 then (s, .wait why)
  else if l.gw then
    match s.ancRemote l gfConsume false 8 [] with
    | (s, .done v x) => ((if m.scope != .st then s.l1Invalidate s.cur.coreNo false else s).onWord fun c => { c with stage := 2 }, .done v x)
    | x => x
  else if m.load && s.full l.key && 64 ≤ s.homeLoad l.key then (s.failPod l.key .full, .wait wFEWAIT)
  else
    match s.checkSett l 8 ⟨some true, none, if m.load then none else some false⟩ with
    | (s, .memue) => (s, .fault cMEMUE)
    | (s, .unmet) => (s.failPod l.key .full, .wait wFEWAIT)
    | (s, .done v) =>
      let s := if m.scope != .st then s.l1Invalidate s.cur.coreNo false else s
      let s := s.noteBreak 0 l true
      if m.load then
        let id := s.nextWaiter
        let w : Waiter := { id := id, key := settOf l.key, cond := .full, src := .pod s.cur.id 0, watch := true, changed := false
                            cancelled := false, rejected := false, spent := false }
        let s := { s with waiters := s.waiters ++ [w], nextWaiter := id + 1 }
        (s.onWord fun c => { c with watch := some id }, .done v false)
      else (s.onWord fun c => { c with stage := 2 }, .done v false)

/-- The number under which a block's close, and the fill of AST.R, stand among what it has done. -/
def closeKey : Nat := 2 ^ 20

/-- The number under which stands that the block's close is on its way. -/
def closeSent : Nat := 2 ^ 20 + 1

/-- The number under which a substitution stands, with its line. -/
def subKey : Nat := 2 ^ 21

/-- What the word has done in its block. -/
def Cur.has (c : Cur) (k : Nat) : Option Word := (c.staged.find? fun x => x.1 == k).map Prod.snd

def State.stageOne (s : State) (k v : Nat) : State := s.onWord fun c => { c with staged := c.staged ++ [(k, BitVec.ofNat 64 v)] }

/-- The data that AST stores in an access. -/
def State.ancData (s : State) (m : AncMem) (q : Nat) (a : AncAcc) : Nat :=
  let e := s.cur.kGet m.k q
  if a.key == 0 then e.a.toNat else if a.key == 1 then e.e.toNat else s.vGet (m.v + a.cell / s.cur.vl) m.ty.width (a.cell % s.cur.vl)

/-- A stop of an access that the word has met after the consume of an AST.R: the block runs through its fill first (R217). -/
def State.ancDefer (s : State) (key : Nat) (p : Stop) : State :=
  (s.onWord fun c => { c with due := lowestStop c.due (some p) }).stageOne key 0

/-- What holds a later access `t` of an AST.R block back as its consume `a` comes: steps 2 and 3 hold no wait (R217). -/
def State.ancHeld (s : State) (m : AncMem) (a : AncAcc) (t : List AncAcc) : Option Nat :=
  if m.fe && !m.load && a.key == 0 then
    t.findSome? fun b => match (s.ancLoc m b).2 with
      | .ok l => s.streamWhy false l b.n
      | .error _ => none
  else none

/-- Performs the accesses of a block that it has not done yet. With a schedule to follow, the word gives way after the first. -/
def ancLoop (m : AncMem) (q : Nat) : List AncAcc → State → State × Option (Sum Nat Stop)
  | [], s => (s, none)
  | a :: t, s =>
    if (s.cur.word.has a.key).isSome then ancLoop m q t s
    else if s.cur.halts then (s, some (.inl wOTHER))
    else if let some why := s.ancHeld m a t then (s, some (.inl why))
    else
      let stop (c : Nat) : Stop := ⟨c, a.va, a.cell / s.cur.vl, a.cell % s.cur.vl⟩
      match s.ancLoc m a with
      | (s, .error c) => if s.cur.word.stage == 2 then ancLoop m q t (s.ancDefer a.key (stop c)) else (s, some (.inr (stop c)))
      | (s, .ok l) =>
        match (if m.fe && a.key == 0 then s.ancHead m l else s.ancPlain m a l (s.ancData m q a)) with
        | (s, .wait why) => (s, some (.inl why))
        | (s, .fault c) =>
          let s := if c == cFEB then s.onCur fun st => st.feRecord a.va (st.podOf m.ty.width (a.cell % st.vl)) true (if m.load then 5 else 6) else s
          if s.cur.word.stage == 2 then ancLoop m q t (s.ancDefer a.key (stop c)) else (s, some (.inr (stop c)))
        | (s, .done v sub) =>
          let s := s.stageOne a.key v
          let s := if sub then s.stageOne (subKey + a.key) (lineOf l.key) else s
          if m.fe && a.key == 0 && !s.sched.isEmpty then (s, some (.inl wMEMLAT)) else ancLoop m q t s

/-- The close of an ALD.W at the header's home (R215): whether no cancelling event was applied since the watch. A cancelled close
discards the staged data and counts one failed check. -/
def State.watchClose (s : State) : State :=
  match s.cur.word.watch with
  | none => s
  | some id =>
    let bad := match findBy Waiter.id id s.waiters with | some w => w.cancelled | none => true
    let s := { s with waiters := dropBy Waiter.id id s.waiters }
    let s := s.onWord fun c => { c with watch := none }
    if bad then (s.onWord fun c => { c with staged := [] }).onPod 0 fun p => { p with budget := p.budget - 1 }
    else s.stageOne closeKey 1

/-- A block of a load completes: its staged data is written (R215). -/
def State.ancWrite (s : State) (m : AncMem) (q : Nat) (accs : List AncAcc) : State :=
  if !m.load then s
  else
    let c := s.cur.word
    let got (k : Nat) : Word := (c.has k).getD 0
    let s := s.onCur fun st => st.kPut m.k q ⟨got 0, (got 1).setWidth 16⟩
    (accs.drop 2).foldl (fun s a => s.vPut (m.v + a.cell / s.cur.vl) m.ty.width (a.cell % s.cur.vl) (got a.key).toNat) s

/-- What the substitutions of a block raise; SUBCNT counts each of their lines once (22 R412; log entry 33). -/
def State.ancRaise (s : State) (accs : List AncAcc) : State :=
  let vl := s.cur.vl
  let lines := (accs.filterMap fun a => s.cur.word.has (subKey + a.key)).eraseDups
  (lines.foldl (fun s _ => s.countSub) s).onWord fun c =>
    let subs := accs.filter fun a => (c.has (subKey + a.key)).isSome
    { c with run := subs.foldl (fun r a => r.raise (a.cell / vl) (a.cell % vl) fSUB) c.run }

/-- The place of block `q`: its first cell. -/
def Strand.blockPlace (st : Strand) (q : Nat) : Nat × Nat :=
  let n := q * st.ablk
  if st.cells ≤ n then (st.rows, 0) else (n / st.vl, n % st.vl)

/-- How the blocks of a word end. -/
inductive AncEnd where
  | done
  | wait (why : Nat)
  | stop (st : Stop)

/-- Performs one block that is pinned: none when it is complete. The fill of an AST.R cannot fail (R217): the header is filled also where its
line has been poisoned since the consume (log entry 24). -/
def ancBlock (m : AncMem) (q : Nat) (s : State) : State × Option (Sum Nat Stop) :=
  let accs := s.ancAccs m q
  match ancLoop m q accs s with
  | (s, some x) => (s, some x)
  | (s, none) =>
    if m.load && m.fe then
      if (s.cur.word.has closeKey).isSome then (s, none)
      else if !s.sched.isEmpty && (s.cur.word.has closeSent).isNone then
        ((s.stageOne closeSent 1).due (.watchClose s.cur.id q), some (.inl wMEMLAT))
      else
        let s := s.watchClose
        if (s.cur.word.has closeKey).isSome then (s, none) else (s, some (.inl wFEWAIT))
    else if m.fe then
      -- the fill of AST.R: as ST.s
      match s.ancLoc m ⟨0, m.header q, 8, 0⟩ with
      | (s, .error c) => (s, some (.inr ⟨c, m.header q, 0, 0⟩))
      | (s, .ok l) =>
        let a := (s.cur.kGet m.k q).a.toNat
        if l.gw then
          match s.ancRemote l gfSetFull true 8 (leBytes a 8) with
          | (s, .done _ _) => (s, none)
          | (s, .wait w) => (s, some (.inl w))
          | (s, .fault c) => (s, some (.inr ⟨c, m.header q, 0, 0⟩))
        else
          let before := s.full l.key
          let s := match s.checkSett l 8 ⟨none, some (leBytes a 8), some true⟩ with
            | (s, .memue) => (s.storeVal l 8 a).fillAt l true
            | (s, _) => s
          (s.noteBreak 0 l before, none)
    else (s, none)

/-- The words of banks that row `r` touches from block `q` on (12 R272): its active cells, and the entries of the blocks whose first active
cell lies in it. -/
def State.ancWords (s : State) (m : AncMem) (q r : Nat) : List Nat :=
  (s.cur.activeBlocks.filter fun b => q ≤ b).flatMap fun b =>
    let first := (s.cur.activeCells b).headD 0
    (s.ancAccs m b).flatMap fun a => if (if a.key < 2 then first else a.cell) / s.cur.vl == r then padWord a.va else []

/-- The rows of a block begin. -/
def State.enterBlock (s : State) (m : AncMem) (q : Nat) : State :=
  ((s.cur.activeCells q).map fun n => n / s.cur.vl).eraseDups.foldl (fun s r => s.enterRow r (s.ancWords m q r)) s

/-- A shadow mismatch of a block that has begun nothing (08 R236). -/
def State.meetBlock (s : State) (m : AncMem) (q : Nat) : State × Option Stop :=
  let p := s.cur.pod0
  let hit (x : Nat × Nat) : Bool := (s.cur.activeCells q).any fun n => n / s.cur.vl == x.1 && n % s.cur.vl / (64 / m.ty.width) == x.2
  if s.cur.word.stage == 2 || !s.cur.word.staged.isEmpty then (s, none) else s.meetWhere p.row p.idx hit

/-- Performs the blocks of a word in ascending order (R203, R216). -/
def ancBlocks (m : AncMem) : Nat → State → State × AncEnd
  | 0, s => (s, .wait wFEWAIT)
  | fuel + 1, s =>
    let p := s.cur.pod0
    let q := s.cur.blockOf (s.pos p.row p.idx)
    if s.cur.rows ≤ p.row then (s, .done)
    else if s.cur.halts && s.cur.word.staged.isEmpty then (s, .wait wOTHER)
    else if (s.cur.activeCells q).isEmpty then ancBlocks m fuel (s.allPods (s.cur.blockPlace (q + 1)))
    else
      let (s, bad) :=
        if s.cur.word.pinEnd ≤ q then
          let (s, pages, stop, bad) := ancPin m (s.cur.activeBlocks.filter fun b => q ≤ b) [] none s
          (s.pinSet (stop.getD (2 ^ 32)) pages, bad)
        else (s, none)
      match (match bad with | some st => (s, some st) | none => s.meetBlock m q) with
      | (s, some st) => (s, .stop st)
      | (s, none) =>
        match ancBlock m q (s.enterBlock m q) with
        | (s, some (.inl w)) => if w == wFEWAIT && s.cur.pod0.waiter.isNone && !s.cur.pod0.exhausted then ancBlocks m fuel s else (s, .wait w)
        | (s, some (.inr st)) => (s.onWord fun c => { c with staged := [], stage := 1 }, .stop st)
        | (s, none) =>
          if let some st := s.cur.word.due then (s.onWord fun c => { c with staged := [], stage := 1 }, .stop st) else
          let accs := s.ancAccs m q
          let s := (s.ancWrite m q accs).ancRaise accs
          let s := ((s.onWord fun c => { c with staged := [], stage := 1 }).allPods (s.cur.blockPlace (q + 1))).count 0x04
            ((accs.length - 2) * m.ty.width / 64)
          match s.cur.word.brk.head? with
          | some (n, _) => (s, .stop ⟨cBRK, BitVec.ofNat 64 n, p.row, p.idx⟩)
          | none => if s.cur.stepping then (s, .stop ⟨cSTEP, 0, 0, 0⟩) else ancBlocks m fuel s

/-- Runs an anchored load or store. -/
def ancRun (s : State) (m : AncMem) : Res :=
  let s := s.startRows
  match ancBlocks m (2 * s.cur.blocks + 2) s with
  | (s, .done) => retireWord s
  | (s, .wait w) => waitWord s w
  | (s, .stop st) => stopWord s st

/-- ALD and AST in their forms. -/
def anchMem (s : State) (load fe : Bool) (sc : Scope) (msk : MReg) (ty : Ty) (v : VReg) (k : KReg) (base : Slot) (xa : XReg) : Res :=
  anchWord s msk.val ty 0 [v.val] true fun s =>
    ancRun s { load := load, fe := fe, scope := sc, ty := ty, v := v.val, k := k.val, dbase := s.cur.slot base, abase := s.cur.xGet xa }

/-- ALD (R213, R214). -/
def execAld (msk : MReg) (ty : Ty) (v : VReg) (k : KReg) (base : Slot) (xa : XReg) (s : State) : Res :=
  anchMem s true false .st msk ty v k base xa

/-- ALD.W (R215). -/
def execAldW (scope : Scope) (msk : MReg) (ty : Ty) (v : VReg) (k : KReg) (base : Slot) (xa : XReg) (s : State) : Res :=
  anchMem s true true scope msk ty v k base xa

/-- AST (R213, R214). -/
def execAst (msk : MReg) (ty : Ty) (v : VReg) (k : KReg) (base : Slot) (xa : XReg) (s : State) : Res :=
  anchMem s false false .st msk ty v k base xa

/-- AST.R (R216). -/
def execAstR (scope : Scope) (msk : MReg) (ty : Ty) (v : VReg) (k : KReg) (base : Slot) (xa : XReg) (s : State) : Res :=
  anchMem s false true scope msk ty v k base xa

/-- WATCH_CLOSE (R215): the close of a block whose word has sent it. -/
def execWatchClose (sid blk : Nat) (s : State) : Res :=
  .next (s.asStrand sid fun s =>
    let p := s.cur.pod0
    if s.cur.id == sid && s.cur.cur.isSome && (s.cur.word.has closeSent).isSome && s.cur.blockOf (s.pos p.row p.idx) == blk then s.watchClose
    else s)

end Sys2Proof.Machine
end

