-- ==== Sys2Proof/Machine/GenBranch.lean ====
section
/-!
DEFINITION. Branches, jumps and hardware loops of the generator (04 R130 to R134), and its no-ops (R104).
-/
namespace Sys2Proof.Machine

/-- NOP (04 R104). -/
def execNop (s : State) : Res := retire s [] none

/-- The hint opcodes 0x78 to 0x7B (04 R104): they only advance the PC. -/
def execGhint (_k : Fin 4) (_tl : Fin 7) (_a : Fin 64) (s : State) : Res := retire s [] none

/-- A compare-branch (04 R130). -/
def branch (s : State) (sa sb : SReg) (imm : BitVec 27) (cond : Word → Word → Bool) : Res :=
  withRegs s [sa, sb] fun s =>
    retire s [] (if cond (s.cur.gen.read sa) (s.cur.gen.read sb) then some (s.cur.gen.pc + halfOff imm) else none)

/-- BEQ (04 R130). -/
def execBeq (sa sb : SReg) (imm : BitVec 27) (s : State) : Res := branch s sa sb imm fun a b => a == b

/-- BNE (04 R130). -/
def execBne (sa sb : SReg) (imm : BitVec 27) (s : State) : Res := branch s sa sb imm fun a b => a != b

/-- BLT (04 R130). -/
def execBlt (sa sb : SReg) (imm : BitVec 27) (s : State) : Res := branch s sa sb imm fun a b => a.slt b

/-- BGE (04 R130). -/
def execBge (sa sb : SReg) (imm : BitVec 27) (s : State) : Res := branch s sa sb imm fun a b => !a.slt b

/-- BLTN (04 R130). -/
def execBltn (sa sb : SReg) (imm : BitVec 27) (s : State) : Res := branch s sa sb imm fun a b => a.ult b

/-- BGEN (04 R130). -/
def execBgen (sa sb : SReg) (imm : BitVec 27) (s : State) : Res := branch s sa sb imm fun a b => !a.ult b

/-- J (04 R130): always jumps. -/
def execJ (imm : BitVec 27) (s : State) : Res := retire s [] (some (s.cur.gen.pc + halfOff imm))

/-- JL (04 R131): links and jumps. -/
def execJl (sd : SReg) (imm : BitVec 27) (s : State) : Res :=
  withRegs s [sd] fun s => retire s [(.s sd, s.cur.gen.npc)] (some (s.cur.gen.pc + halfOff imm))

/-- JR (04 R131): the immediate is a byte offset. -/
def execJr (sa : SReg) (imm : BitVec 27) (s : State) : Res :=
  withRegs s [sa] fun s => retire s [] (some (s.cur.gen.read sa + imm64 imm))

/-- JLR (04 R131): reads sa before it writes sd. -/
def execJlr (sd sa : SReg) (imm : BitVec 27) (s : State) : Res :=
  withRegs s [sd, sa] fun s => retire s [(.s sd, s.cur.gen.npc)] (some (s.cur.gen.read sa + imm64 imm))

/-- What LOOP writes (04 R133): lc, LBEG, LEND and LCTL of loop `c`; with a count of 0 the loop is inactive. -/
def loopWrites (g : Gen) (c n : Nat) (fin : Word) : List (HistTarget × Word) :=
  if n == 0 then [(.loop (0x50 + c), 0), (.loop 0x56, g.deact c)]
  else [(.loop (0x50 + c), BitVec.ofNat 64 n), (.loop (0x52 + 2 * c), g.npc), (.loop (0x53 + 2 * c), fin),
        (.loop 0x56, ((g.lctl ||| (1#3 <<< c)) &&& 3 ||| (if c == 1 then 4 else 0)).setWidth 64)]

/-- LOOP (04 R133): a body must follow; a count of 0 skips it. -/
def execLoop (cnt : SReg) (c : Fin 2) (imm : BitVec 27) (s : State) : Res :=
  withRegs s [cnt] fun s =>
    let g := s.cur.gen
    let n := fieldOf (g.read cnt) 0 32
    let fin := g.pc + halfOff imm
    if fin ≤ g.npc then genIll s
    else retire s (loopWrites g c.val n fin) (if n == 0 then some fin else none)

end Sys2Proof.Machine
end

