-- ==== Sys2Proof/Machine/GenEmit.lean ====
section
/-!
DEFINITION. Emitting words (04 R135 to R138), the queues (04 R139 to R141, 03 R91, R92), TILESET (11 R251), and the copy
instructions of the generator (12 R274, R275, R279, R280).
-/
namespace Sys2Proof.Machine

/-! ## EMIT -/

/-- Width of the field of a descriptor (20 R380): register of 6 or 4 bits, immediates, scalar slot, TY. -/
def Desc.width (d : Desc) : Nat :=
  match d.kind with
  | 1 => 6 | 2 => 4 | 3 => 16 | 4 => 32 | 5 => 64 | 6 => 16 | 7 => 4
  | _ => 0

/-- The word and carried scalar with the fields of one $j filled from a register's value (04 R136). -/
def fillFields (ds : List Desc) (v : Word) (wc : Nat × Word) : Nat × Word :=
  ds.foldl (fun wc d =>
    let lo := 16 * d.hw + d.low
    if d.kind == 0 then wc
    else if d.kind == 6 then (putBits wc.1 lo 16 0x8000, v)
    else (putBits wc.1 lo d.width v.toNat, wc.2)) wc

/-- The registers of an EMIT that its template uses. -/
def Tmpl.uses (t : Tmpl) (s1 s2 s3 : SReg) : List SReg :=
  (if t.d1.isEmpty then [] else [s1]) ++ (if t.d2.isEmpty then [] else [s2]) ++ (if t.d3.isEmpty then [] else [s3])

/-- EMIT (04 R136): pushes a template with its fields filled; an invalid entry raises ILL before any wait. -/
def execEmit (tmpl : Fin 256) (s1 s2 s3 : SReg) (s : State) : Res :=
  match findBy Tmpl.num tmpl.val s.cur.tmpl with
  | none => genIll s
  | some t =>
    withRegs s (t.uses s1 s2 s3) fun s =>
      let g := s.cur.gen
      let (w, c) := fillFields t.d3 (g.read s3) (fillFields t.d2 (g.read s2) (fillFields t.d1 (g.read s1) (t.word, 0)))
      push s false w c

/-- A raw word without the bits above its last tail (04 R137). A head with TL = 7 keeps seven halfwords. -/
def cutWord (w : Nat) : Nat := w % 2 ^ (16 * (min (w % 8) 6 + 1))

/-- EMITW (04 R137): pushes a raw word. -/
def execEmitw (carried lo hi : SReg) (s : State) : Res :=
  withRegs s [carried, lo, hi] fun s =>
    let g := s.cur.gen
    push s false (cutWord ((g.read lo).toNat + (g.read hi).toNat * 2 ^ 64)) (g.read carried)

/-- EMITB (04 R138): pushes a block-call word. -/
def execEmitb (carried addr : SReg) (s : State) : Res :=
  withRegs s [carried, addr] fun s => push s true (s.cur.gen.read addr).toNat (s.cur.gen.read carried)

/-! ## Queues -/

/-- RPLY (04 R139, 03 R91): pops the oldest reply entry, waits for one, or raises NOREPLY when none can come. -/
def execRply (sd : SReg) (s : State) : Res :=
  withRegs s [sd] fun s =>
    match s.cur.reply with
    | [] => if s.cur.idle then genFault s cNOREPLY 0 else stall s wREPLY
    | v :: rest =>
      if s.cur.histRoom [(.s sd, v)] none then
        retire (s.onCur fun st => { st.recordOld .reply with reply := rest }) [(.s sd, v)] none
      else stall s wSCOREBOARD

/-- EQWAIT (04 R140): waits until at most `n` of the words pushed before it have not retired. The stream is idle where only words that the
matrix engine has captured are left (03 R88, 11 R249). -/
def execEqwait (n : Fin 64) (s : State) : Res :=
  if s.cur.outstanding ≤ n.val then retire s [] none
  else stall s (if s.cur.streamEmpty then wEQEMPTY else wFENCE)

/-- EQSTAT (03 R92); RN reports at most 16 (log entry 29). -/
def Strand.eqstat (st : Strand) : Word := BitVec.ofNat 64 (st.nseq.toNat * 2 ^ 16 + min st.reply.length 16 * 2 ^ 8 + st.qn)

/-- QSTAT (04 R141). -/
def execQstat (sd : SReg) (s : State) : Res := withRegs s [sd] fun s => retireS s sd s.cur.eqstat

/-! ## TILESET -/

/-- TILESET (11 R251): each register holds a remainder and receives the granted size. -/
def execTileset (ty : Ty) (sm sn sk : SReg) (s : State) : Res :=
  withRegs s [sm, sn, sk] fun s =>
    let g := s.cur.gen
    let cap (r : SReg) (n : Nat) : HistTarget × Word := (.s r, BitVec.ofNat 64 (min (g.read r).toNat n))
    retire s [cap sm 32, cap sn 32, cap sk (s.cur.vlmax ty.width)] none

/-! ## Copies -/

/-- Entries of the core's range scoreboard in use (12 R278). -/
def State.scoreboard (s : State) : Nat :=
  ((s.strands.filter fun t => t.id == s.cur.id || (t.coreNo == s.cur.coreNo && t.onCore)).map fun t =>
    (t.copies.filter fun c => c.st != .retired && c.len != 0).length).sum

/-- Lengths of the destination and source ranges of a copy (12 R276). -/
def copyLens (mode : CopyMode) (len : Nat) : Nat × Nat :=
  match mode with
  | .bitsOut => (len / 64, len)
  | .bitsIn => (len, len / 64)
  | _ => (len, len)

/-- The checks of a CPY before translation (12 R275), in the order of 04 R102, and those of one cause in the order of the table of R275. -/
def copyCheck (kind : CopyKind) (mode : CopyMode) (dst src len : Word) : Option (Nat × Word) :=
  let (nd, ns) := copyLens mode len.toNat
  let lenAlign := if mode == .bitsOut || mode == .bitsIn then 512 else 8
  if dst.toNat % 8 != 0 then some (cALIGN, dst)
  else if src.toNat % 8 != 0 then some (cALIGN, src)
  else if len.toNat % lenAlign != 0 then some (cALIGN, len)
  else if 2 ^ 64 < dst.toNat + nd || 2 ^ 64 < src.toNat + ns then some (cPROT, dst)
  else if overlap dst.toNat nd src.toNat ns then some (cPROT, dst)
  else match kind with
    | .mc mask =>
      if !inWindow dst.toNat || 0x60000 < bits dst.toNat 0 19 + nd then some (cPROT, dst)
      else if mask.toNat == 0 || 2 ^ 48 ≤ mask.toNat then some (cPROT, mask) else none
    | _ => none

/-- Copies that may reach a GW page with their source, or with their destination (25 R437): PLAIN and SETFULL copies and reductions, but not
.mc. DEDUCED (17): no form of a request adds to a sett and sets it full, so that a reduction in SETFULL mode has no remote destination. -/
def copyGw (kind : CopyKind) (mode : CopyMode) (dst : Bool) : Bool :=
  (mode == .plain || mode == .setFull) && (match kind with | .mc _ => false | .red _ => !dst || mode == .plain | .copy => true)

/-- A CPY (12 R275): checked, entered in the scoreboard and put into the store buffer. The first byte of each range is checked, the
destination of .mc included. -/
def copy (s : State) (kind : CopyKind) (mode : CopyMode) (sd rd rs rl : SReg) : Res :=
  let g := s.cur.gen
  let (dst, src, len) := (g.read rd, g.read rs, g.read rl)
  match copyCheck kind mode dst src len with
  | some (c, v) => genFault s c v
  | none =>
    let first (s : State) (n : Need) (va : Word) (k : State → Res) : Res :=
      match s.resolveStream n va.toNat with
      | (s, .error c) => genFault s c va
      | (s, .ok l) => if l.gw && !copyGw kind mode n.write then genFault s cPROT va else k s
    let go (s : State) : Res :=
      if len != 0 && 16 ≤ s.scoreboard then stall s wSCOREBOARD
      else
        let st := s.cur
        let c : Copy := { handle := st.nextCopy, st := .waiting, kind := kind, mode := mode, dst := dst, src := src, len := len
                          done := [], gw := none, buf := none, err := 0, flg := 0, ord := st.nord, id := st.nextId }
        enterBuf (s.onCur fun st => { st with copies := putBy Copy.handle c st.copies, nextCopy := st.nextCopy + 1 })
          (.cpy sd c) Loc.nowhere
    if 32 ≤ s.cur.sbuf.length then stall s wFENCE
    else withRoom s [] fun s =>
      if len == 0 then go s
      else first s ⟨false, false⟩ src fun s => first s ⟨true, false⟩ dst go

/-- CPY of a kind and mode over its registers. -/
def copyRegs (s : State) (kind : CopyKind) (mode : CopyMode) (sd dst src len : SReg) : Res :=
  withRegs s [sd, dst, src, len] fun s => copy s kind mode sd dst src len

/-- CPY (12 R275, R276). -/
def execCpy (sd dst src len : SReg) (s : State) : Res := copyRegs s .copy .plain sd dst src len

/-- CPY.with (12 R276). -/
def execCpyWith (sd dst src len : SReg) (s : State) : Res := copyRegs s .copy .withBits sd dst src len

/-- CPY.setfull (12 R276). -/
def execCpySetfull (sd dst src len : SReg) (s : State) : Res := copyRegs s .copy .setFull sd dst src len

/-- CPY.setempty (12 R276). -/
def execCpySetempty (sd dst src len : SReg) (s : State) : Res := copyRegs s .copy .setEmpty sd dst src len

/-- CPY.bitsout (12 R276). -/
def execCpyBitsout (sd dst src len : SReg) (s : State) : Res := copyRegs s .copy .bitsOut sd dst src len

/-- CPY.bitsin (12 R276). -/
def execCpyBitsin (sd dst src len : SReg) (s : State) : Res := copyRegs s .copy .bitsIn sd dst src len

/-- CPY.mc (12 R277). -/
def execCpyMc (sd dst src len mask : SReg) (s : State) : Res :=
  withRegs s [sd, dst, src, len, mask] fun s => copy s (.mc (s.cur.gen.read mask)) .plain sd dst src len

/-- CPY.mc.setfull (12 R277). -/
def execCpyMcSetfull (sd dst src len mask : SReg) (s : State) : Res :=
  withRegs s [sd, dst, src, len, mask] fun s => copy s (.mc (s.cur.gen.read mask)) .setFull sd dst src len

/-- CPY.red (12 R277). -/
def execCpyRed (ty : Ty) (sd dst src len : SReg) (s : State) : Res := copyRegs s (.red ty) .plain sd dst src len

/-- CPY.red.setfull (12 R277). -/
def execCpyRedSetfull (ty : Ty) (sd dst src len : SReg) (s : State) : Res := copyRegs s (.red ty) .setFull sd dst src len

/-- The lowest copy of the strand among `p` that retired with an error not yet reported. -/
def Strand.badCopy (st : Strand) (p : Copy → Bool) : Option Copy := st.copies.find? fun c => c.st == .retired && c.err != 0 && p c

/-- SCB for a failed copy (12 R279): its report is consumed as the fault is delivered. -/
def reportCopy (s : State) (c : Copy) : Res :=
  if !s.cur.idle || !s.cur.drained then stall s wFENCE
  else genFault (s.onCur fun st => { st with copies := dropBy Copy.handle c.handle st.copies }) cSCB (BitVec.ofNat 64 c.handle)

/-- CPYW (12 R279): waits for one copy, or for every copy of the strand. -/
def execCpyw (sa : SReg) (s : State) : Res :=
  withRegs s [sa] fun s =>
    let h := (s.cur.gen.read sa).toNat
    let mine (c : Copy) : Bool := sa == 0 || c.handle == h
    if s.cur.copies.any fun c => mine c && c.st != .retired then stall s wSCOREBOARD
    else match s.cur.badCopy mine with
      | some c => reportCopy s c
      | none => retire s [] none

/-- The status of a copy (12 R280). -/
def Copy.status (c : Copy) : Word :=
  BitVec.ofNat 64 ((match c.st with | .waiting => 1 | .running => 2 | .retired => 3) + c.err.toNat * 2 ^ 8 + c.flg.toNat * 2 ^ 16)

/-- CPYQ (12 R280). -/
def execCpyq (sd sa : SReg) (s : State) : Res :=
  withRegs s [sd, sa] fun s =>
    retireS s sd (match findBy Copy.handle (s.cur.gen.read sa).toNat s.cur.copies with | some c => c.status | none => 0)

end Sys2Proof.Machine
end

