-- ==== Sys2Proof/Machine/Matrix.lean ====
section
/-!
DEFINITION. The matrix engine (ch. 11): the claim (R252 to R254), tile products (R255 to R259) as words that the engine captures and
retires (R249), and the moves of tiles (R260, R261).
-/
namespace Sys2Proof.Machine

/-! ## MCTL (R248) -/

/-- The strand holds a claim. -/
def Strand.mact (st : Strand) : Bool := st.mctl.getLsbD 8

/-- The tile width of the claim. -/
def Strand.mvl (st : Strand) : Nat := fieldOf st.mctl 0 6

/-- A claim set or given up; ROT stands (R248). DEDUCED (24): also where R266 says that its run ends with MCTL = 0, though its products are
checked and advance ROT. -/
def Strand.setClaim (st : Strand) (act : Bool) (w : Nat) : Strand :=
  { st with mctl := BitVec.ofNat 64 (fieldOf st.mctl 9 5 * 2 ^ 9 + (if act then 2 ^ 8 else 0) + w) }

/-- ROT advances (R264). -/
def Strand.rotate (st : Strand) : Strand := { st with mctl := setField st.mctl 9 5 (fieldOf st.mctl 9 5 + 1) }

/-- A tile that the strand has: z4 to z7 are absent in half shape (03 R73). -/
def Strand.hasTile (st : Strand) (z : Nat) : Bool := !st.half || z < 4

/-- Every element of a tile +0. -/
def Strand.clearTile (st : Strand) (z : Nat) : Strand := { st with files := ({ st.files with z := vset st.files.z z 0 }).mark (88 + z) }

/-- A matrix word other than MMA and MOPA: its encoding checks, then the claim (R250), then its tile range. -/
def matrixWord (s : State) (msk : Nat) (ok claim rows : Bool) (body : State → Res) : Res :=
  issueWord s msk false ok fun s =>
    if claim && !s.cur.mact then wordFault s cMAT 1
    else if !rows then wordFault s cMAT 2
    else body s

/-- MCLAIM (R252): VL and ROWS play no part. -/
def execMclaim (w : Fin 64) (s : State) : Res :=
  matrixWord s 0 true false true fun s => wholeWord s fun s => s.onCur fun st => st.setClaim true w.val

/-- MFREE (R253): with a claim, every tile becomes +0 and the claim ends. -/
def execMfree (s : State) : Res :=
  matrixWord s 0 true false true fun s => wholeWord s fun s =>
    if s.cur.mact then s.onCur fun st => ((List.range (if st.half then 4 else 8)).foldl Strand.clearTile st).setClaim false 0 else s

/-- MCLR (R254). -/
def execMclr (tiles : BitVec 8) (s : State) : Res :=
  matrixWord s 0 (!s.cur.half || tiles.toNat < 16) true true fun s => wholeWord s fun s =>
    s.onCur fun st => (setBits tiles.toNat 8).foldl Strand.clearTile st

/-! ## Products (R256, R258) -/

/-- What the engine adds to one tile element over a block: the exact sum of products, and whether its operations are invalid. -/
def blockSum (ps : List (FVal × FVal)) : FVal × Flags :=
  let prods : List (FVal × Flags) := ps.map fun p => p.1.mul p.2
  let nv := prods.any fun p => p.2.getLsbD 0
  let infs (n : Bool) : Bool := prods.any fun p => p.1 == .inf n
  let both := infs true && infs false
  let v := if both || prods.any fun p => p.1.isNan then FVal.nan false
    else if infs true then .inf true
    else if infs false then .inf false
    else match prods with
      | [] => .fin false 0 0
      | p :: t => (t.foldl (fun (a : FVal × Flags) q => a.1.add .rne q.1) (p.1, 0)).1
  (v, flagIf (nv || both) fNV)

/-- One addition into a tile element, RNE in f32. A NaN there stays the generated NaN and sets no flag of its own. -/
def tileAdd (z : Nat) (s : FVal × Flags) : Nat × Flags :=
  let f := fmtOf .f32
  let zv := f.decode z
  if zv.isNan then (f.nan, s.2)
  else
    let r := zv.add .rne s.1
    let o := f.encode .rne r.1
    (o.1, s.2 ||| r.2 ||| o.2)

/-- The value of a captured operand. -/
def Captured.val (c : Captured) (x : Word) : FVal := (fmtOf c.ty).decode x.toNat

/-- Row `i` of captured operands, with the numbers of its elements. -/
def capRow (l : List Word) (k i : Nat) : List Word := (l.drop (i * k)).take k

/-- The new value of a tile element and its flags (R256, R258). -/
def Captured.elem (c : Captured) (z m n : Nat) : Nat × Flags :=
  let pairs := ((capRow c.a c.k m).zip (capRow c.b c.k n)).zip c.kOn
  if c.ty.isInt then
    let sum : Int := pairs.foldl (fun (acc : Int) (p : (Word × Word) × Bool) =>
      if p.2 then acc + bitsInt 8 c.ty.signed p.1.1.toNat * bitsInt 8 c.ty.signed p.1.2.toNat else acc) (z : Int)
    (intBits 32 sum, 0)
  else
    (List.range ((c.k + 31) / 32)).foldl (fun (acc : Nat × Flags) b =>
      let ps := ((pairs.drop (32 * b)).take 32).filterMap fun p => if p.2 then some (c.val p.1.1, c.val p.1.2) else none
      if ps.isEmpty then acc
      else
        let r := tileAdd acc.1 (blockSum ps)
        (r.1, acc.2 ||| r.2)) (z, 0)

/-- A captured word applied to its tile, and what it raises: element (m, n) is recorded with ROW m and IDX n. DESIGN CHOICE (35): it counts one event
of each class, though several blocks of 32 raise it. -/
def Captured.apply (c : Captured) (st : Strand) : Strand × Run :=
  let rows := (List.range c.m).filter fun m => c.mOn.getD m false
  let els := rows.flatMap fun m => (List.range c.n).map fun n => (m, n)
  els.foldl (fun (a : Strand × Run) x =>
    let r := c.elem (st.zGet c.tile x.1 x.2) x.1 x.2
    (a.1.zPut c.tile x.1 x.2 r.1, a.2.raise x.1 x.2 r.2)) (st, Run.none)

/-- Multiply-accumulates of a captured word (13 R293). -/
def Captured.macs (c : Captured) : Nat := c.m * c.n * c.k

/-- The engine finishes the oldest captured word of the acting strand: it writes the tile, and the word retires (R249). -/
def State.engineRetire (s : State) : State :=
  match s.cur.captured with
  | [] => s
  | c :: rest =>
    let s := s.onCur fun st =>
      let (st, run) := c.apply { st with captured := rest }
      let st := st.merge run false
      { st with hist := if st.block.call.isSome then st.hist else st.hist.filter fun h => c.ord < h.ord }
    (s.count 0x03 1).count 0x05 c.macs

/-- MATRIX_WORD_RETIRE (R249). -/
def execMatrixWordRetire (sid : Nat) (s : State) : Res :=
  .next (s.asStrand sid fun s => if s.cur.id == sid then s.engineRetire else s)

/-- An operand as the engine captures it: cb4 codes by their codebook entries, whose NaNs are quiet (01 R18). -/
def State.capture (s : State) (ty : Ty) (cb v i : Nat) : Word :=
  let a := s.vGet v ty.width i
  if ty == .cb4 then
    let e := s.cur.cbGet cb a
    BitVec.ofNat 64 (if ((fmtOf .bf16).decode e).isNan then (fmtOf .bf16).nan else e)
  else BitVec.ofNat 64 a

/-- What the engine keeps of the word in progress. -/
def State.capturing (s : State) : Captured :=
  let c := s.cur.word
  { ord := c.e.ord, prov := c.e.prov, seq := c.e.seq, spc := if c.blk then some c.spc else none, ty := .i32, tile := 0, m := 0, n := 0, k := 0
    a := [], b := [], mOn := [], kOn := [] }

/-- A mismatch of the rotated-row check that the environment brings to the word in progress (log entry 14). -/
def State.rotatedUpset (s : State) : Option Nat :=
  if !s.cur.word.checked then none
  else s.upsets.findSome? fun u => match u with | .rotated sid n => if sid == s.cur.id then some n else none | _ => none

/-- The rotated-row check of a checked word (R264): ROT advances; agreement within two retries counts one correction, and a third
mismatch raises SHD. -/
def State.rotatedCheck (s : State) (rows : Nat) : State × Option Stop :=
  if !s.cur.word.checked then (s, none)
  else
    let m := fieldOf s.cur.mctl 9 5 % rows
    let up := s.rotatedUpset
    let s := { s.onCur Strand.rotate with upsets := s.upsets.filter fun u => match u with | .rotated sid _ => sid != s.cur.id | _ => true }
    match up with
    | none => (s, none)
    | some n =>
      if n == 0 then (s, none)
      else if n < 3 then
        let p := s.curPart
        ((s.putPart { p with shdcor := satInc p.shdcor 1 }).count 0x0C 1, none)
      else (s, some ⟨cSHD, BitVec.ofNat 64 (2 ^ 63 + m + (m + 1) % 32 * 2 ^ 8), 0, 0⟩)

/-- The word in progress leaves the stream as the engine captures it; a block goes on. -/
def Strand.leave (st : Strand) (cap : Captured) : Strand :=
  let c := st.word
  { st with cur := none, sstall := wNone, captured := st.captured ++ [cap]
            block := if c.blk then st.block.advance c.nspc none else st.block }

/-- MMA and MOPA: issued and captured when fewer than two words of the strand are in the engine. Where the word would fault or step, it waits
until the engine has finished (R249). `idle` says that it has nothing to do. -/
def tileWord (s : State) (msk : Nat) (ok : Bool) (idle : State → Bool) (rows : State → Nat) (cap : State → Captured) : Res :=
  let stops := !ok || !s.cur.mact || s.cur.stepping || !s.upsets.isEmpty || (s.cur.wordBreak s.cur.word).isSome
  if 2 ≤ s.cur.captured.length then waitWord (s.onWord id) wMATRIX
  else issueWord s msk (!stops) ok fun s =>
    if !s.cur.mact then wordFault s cMAT 1
    else if s.cur.wordOver || idle s then
      if s.cur.captured.isEmpty then actWhole s id else waitWord s wMATRIX
    else match s.rotatedCheck (rows s) with
      | (s, some st) => stopWord s st
      | (s, none) =>
        let c := cap s
        if s.cur.stepping then
          let (st, run) := c.apply s.cur
          let s := { s with cur := st }.count 0x05 c.macs
          stopWord ((s.onWord fun w => { w with run := run }).allPods (s.cur.rows, 0)) ⟨cSTEP, 0, 0, 0⟩
        else .next ((s.onCur fun st => st.leave c).due (.matrixWordRetire s.cur.id))

/-- Encoding checks of a product word: the tile, and no narrow type under LP words (20 R390). -/
def Strand.productOk (st : Strand) (ty : Ty) (zd : Nat) : Bool := st.hasTile zd && (!st.lp || 16 ≤ ty.width)

/-- The element type that captured operands have. -/
def capTy (ty : Ty) : Ty := if ty == .cb4 then .bf16 else ty

/-- MMA (R255 to R258): the operands are rows of registers, VL is K, and the mask governs k. -/
def execMma (msk : MReg) (ty : Ty) (zd : ZReg) (va vb : VReg) (m1 n1 : Fin 32) (cba cbb : CbReg) (s : State) : Res :=
  let m := m1.val + 1
  let n := n1.val + 1
  tileWord s msk.val (s.cur.productOk ty zd.val && s.cur.vl ≤ s.cur.vlmax ty.width && va.val + m ≤ 64 && vb.val + n ≤ 64)
    (fun s => s.cur.vl == 0) (fun _ => m) fun s =>
      let ks := List.range s.cur.vl
      { s.capturing with
        ty := capTy ty, tile := zd.val, m := m, n := n, k := s.cur.vl
        a := (List.range m).flatMap fun r => ks.map fun k => s.capture ty cba.val (va.val + r) k
        b := (List.range n).flatMap fun r => ks.map fun k => s.capture ty cbb.val (vb.val + r) k
        mOn := List.replicate m true, kOn := ks.map fun k => s.cur.word.mask.getLsbD k }

/-- MOPA (R259): an outer product over the tile width, whose mask governs rows; VL and ROWS play no part. -/
def execMopa (msk : MReg) (ty : Ty) (zd : ZReg) (va vb : VReg) (cba cbb : CbReg) (s : State) : Res :=
  tileWord s msk.val (s.cur.productOk ty zd.val) (fun _ => false) (fun s => s.cur.mvl) fun s =>
    let w := s.cur.mvl
    { s.capturing with
      ty := capTy ty, tile := zd.val, m := w, n := w, k := 1
      a := (List.range w).map fun i => s.capture ty cba.val va.val i
      b := (List.range w).map fun i => s.capture ty cbb.val vb.val i
      mOn := (List.range w).map fun i => s.cur.word.mask.getLsbD i, kOn := [true] }

/-! ## Moves (R260, R261) -/

/-- The elements of the rows that MRD or MWR moves: (row, column). -/
def State.moved (s : State) : List (Nat × Nat) :=
  (List.range s.cur.rows).flatMap fun j => ((List.range s.cur.mvl).filter fun n => s.cur.word.mask.getLsbD n).map fun n => (j, n)

/-- MRD (R260): tile rows to vector registers. -/
def execMrd (msk : MReg) (_ty : Ty) (z : ZReg) (v : VReg) (row : Fin 32) (s : State) : Res :=
  matrixWord s msk.val (s.cur.hasTile z.val && v.val + s.cur.rows ≤ 64) true (row.val + s.cur.rows ≤ 32) fun s =>
    wholeWord s fun s => s.moved.foldl (fun s x => s.vPut (v.val + x.1) 32 x.2 (s.cur.zGet z.val (row.val + x.1) x.2)) s

/-- MWR (R260): vector registers to tile rows. -/
def execMwr (msk : MReg) (_ty : Ty) (z : ZReg) (v : VReg) (row : Fin 32) (s : State) : Res :=
  matrixWord s msk.val (s.cur.hasTile z.val && v.val + s.cur.rows ≤ 64) true (row.val + s.cur.rows ≤ 32) fun s =>
    wholeWord s fun s => s.moved.foldl (fun s x =>
      s.onCur fun st => st.zPut z.val (row.val + x.1) x.2 (s.vGet (v.val + x.1) 32 x.2)) s

/-- A tile load or store: row stride and base. -/
structure TileMem where
  load : Bool
  ty : Ty
  z : Nat
  alloc : Option Bool
  base : Word
  stride : Word

/-- The address of element `n` of the tile in sweep order (R261). -/
def State.tileAddr (s : State) (m : TileMem) (n : Nat) : Word :=
  let w := s.cur.mvl
  m.base + BitVec.ofNat 64 (n / w) * m.stride + BitVec.ofNat 64 (4 * (n % w))

/-- Takes elements into a pin set while its pages number at most 128 (06 R171): the position after it, and a failing check. -/
def tilePin (m : TileMem) : Nat → Nat → List Word → Option Stop → State → State × List Word × Nat × Option Stop
  | 0, n, pages, bad, s => (s, pages, n, bad)
  | fuel + 1, n, pages, bad, s =>
    let a := s.tileAddr m n
    let (s, pg) := s.pageOf a
    let fits := match pg with | some x => pages.contains x || pages.length < 128 | none => true
    if !fits then (s, pages, n, bad)
    else
      let pages := match pg with | some x => if pages.contains x then pages else x :: pages | none => pages
      match s.checkAddr ⟨!m.load, false⟩ 4 a with
      | (s, .error c) => tilePin m fuel (n + 1) pages (bad <|> some ⟨c, a, n / s.cur.mvl, n % s.cur.mvl⟩) s
      | (s, .ok _) => tilePin m fuel (n + 1) pages bad s

/-- Pins the sets that cover the elements below `upto`; the first failing check stops the word. -/
def State.tilePins (s : State) (m : TileMem) (upto : Nat) : Nat → State × Option Stop
  | 0 => (s, none)
  | fuel + 1 =>
    let from' := s.cur.word.pinEnd
    if upto ≤ from' then (s, none)
    else
      let (s, pages, e, bad) := tilePin m (s.cur.mvl * s.cur.mvl - from') from' [] none s
      let s := s.pinSet e pages
      if bad.isSome then (s, bad) else s.tilePins m upto fuel

/-- One plain access of a tile element. -/
def State.tileElem (s : State) (m : TileMem) (n : Nat) : State × AncOut :=
  let a := s.tileAddr m n
  let r := n / s.cur.mvl
  match (s.enterRow r ((List.range s.cur.mvl).flatMap fun j => padWord (s.tileAddr m (r * s.cur.mvl + j)))).checkAddr ⟨!m.load, false⟩ 4 a with
  | (s, .error c) => (s, .fault c)
  | (s, .ok l) =>
    let data := if m.load then [] else leBytes (s.cur.zGet m.z (n / s.cur.mvl) (n % s.cur.mvl)) 4
    if let some why := s.streamWhy false l 4 then (s, .wait why)
    else if l.gw then s.ancRemote l gfPlain false 4 data
    else
      let before := s.full l.key
      if m.load then
        match s.loadPlain l 4 true m.alloc with
        | (s, .error c) => (s, .fault c)
        | (s, .ok x) =>
          let s := if x.sub then s.stageOne (subKey + n) (lineOf l.key) else s
          (s.noteBreak 0 l before, .done (deliver m.ty l false x).1 x.sub)
      else ((s.storeCore l data).noteBreak 0 l before, .done 0 false)

/-- Performs the accesses of a list of elements that are not yet done. -/
def tileLoop (m : TileMem) : List Nat → State → State × Option (Sum Nat Stop)
  | [], s => (s, none)
  | n :: t, s =>
    if (s.cur.word.has n).isSome then tileLoop m t s
    else if s.cur.halts then (s, some (.inl wOTHER))
    else match s.tileElem m n with
      | (s, .wait w) => (s, some (.inl w))
      | (s, .fault c) => (s, some (.inr ⟨c, s.tileAddr m n, n / s.cur.mvl, n % s.cur.mvl⟩))
      | (s, .done v _) => tileLoop m t (s.stageOne n v)

/-- A sett breakpoint or a step stops a tile word that has done its unit. -/
def unitStop (s : State) : Option Stop :=
  match s.cur.word.brk.head? with
  | some (n, _) => some ⟨cBRK, BitVec.ofNat 64 n, 0, 0⟩
  | none => if s.cur.stepping then some ⟨cSTEP, 0, 0, 0⟩ else none

/-- MLD: word-atomic. Every element is loaded before the tile is written. -/
def mldRun (s : State) (m : TileMem) : Res :=
  if s.cur.wordOver then retireWord s
  else
    let s := if s.cur.word.stage == 1 then s else s.allPods (0, 0)
    let w := s.cur.mvl
    let all := List.range (w * w)
    match (match s.tilePins m (w * w) (w * w) with | (s, some st) => (s, some st) | (s, none) => s.meetUnit) with
    | (s, some st) => stopWord (s.onWord fun c => { c with staged := [] }) st
    | (s, none) =>
      match tileLoop m all s with
      | (s, some (.inl why)) => waitWord s why
      | (s, some (.inr st)) => stopWord (s.onWord fun c => { c with staged := [] }) st
      | (s, none) =>
        let c := s.cur.word
        let s := all.foldl (fun s n => s.onCur fun st => st.zPut m.z (n / w) (n % w) ((c.has n).getD 0).toNat) s
        let subs := all.filter fun n => (c.has (subKey + n)).isSome
        let s := (subs.filterMap fun n => c.has (subKey + n)).eraseDups.foldl (fun s _ => s.countSub) s
        let s := s.onWord fun c => { c with run := subs.foldl (fun r n => r.raise (n / w) (n % w) fSUB) c.run }
        match unitStop s with
        | some st => stopWord (s.allPods (s.cur.rows, 0)) st
        | none => retireWord s

/-- MST: rows in ascending order; a stop falls between rows, with STARTIX at the first row not stored. -/
def mstRun (s : State) (m : TileMem) : Res :=
  if s.cur.word.stage == 1 then go (s.cur.mvl + 1) s
  else
    let r := s.cur.pod0.row
    go (s.cur.mvl + 1) ((s.allPods (r, 0)).onWord fun c => { c with pinEnd := r * s.cur.mvl })
where
  go : Nat → State → Res
    | 0, s => .next s
    | fuel + 1, s =>
      let w := s.cur.mvl
      let r := s.cur.pod0.row
      if w ≤ r then retireWord s
      else match (match s.tilePins m ((r + 1) * w) (w * w) with
          | (s, some st) => (s, some st)
          | (s, none) => if s.cur.word.staged.isEmpty then s.meetWhere r 0 fun x => x.1 == r else (s, none)) with
        | (s, some st) => stopWord s st
        | (s, none) =>
          match tileLoop m ((List.range w).map fun n => r * w + n) s with
          | (s, some (.inl why)) => waitWord s why
          | (s, some (.inr st)) => stopWord s st
          | (s, none) =>
            let s := (s.onWord fun c => { c with staged := [] }).allPods (r + 1, 0)
            match unitStop s with
            | some st => stopWord s st
            | none => go fuel s

/-- MLD and MST: checked, then run. -/
def tileMem (s : State) (load : Bool) (ty : Ty) (z : ZReg) (hint : Fin 16) (base : Slot) (xs : XReg) (run : State → TileMem → Res) : Res :=
  matrixWord s 0 (s.cur.hasTile z.val) true true fun s =>
    run s { load := load, ty := ty, z := z.val, alloc := s.allocates hint (4 * s.cur.mvl * s.cur.mvl), base := s.cur.slot base
            stride := s.cur.xGet xs }

/-- MLD (R261). -/
def execMld (ty : Ty) (z : ZReg) (hint : Fin 16) (base : Slot) (xs : XReg) (s : State) : Res := tileMem s true ty z hint base xs mldRun

/-- MST (R261). -/
def execMst (ty : Ty) (z : ZReg) (hint : Fin 16) (base : Slot) (xs : XReg) (s : State) : Res := tileMem s false ty z hint base xs mstRun

end Sys2Proof.Machine
end

