-- ==== Sys2Proof/Machine/Copies.lean ====
section
/-!
DEFINITION. The copy engine (12 R276 to R279): the destination setts of a copy, each written in one operation, and its retirement.
-/
namespace Sys2Proof.Machine

/-- Destination setts of a copy. -/
def Copy.setts (c : Copy) : Nat := (copyLens c.mode c.len.toNat).1 / 8

/-- How one sett of a copy ends. -/
inductive SettOut where
  | done
  | wait
  | err (cause : Nat)
  deriving DecidableEq, Repr

/-- The copy `handle` of the acting strand changed. -/
def State.onCopy (s : State) (handle : Nat) (f : Copy → Copy) : State :=
  s.onCur fun st => { st with copies := st.copies.map fun c => if c.handle == handle then f c else c }

/-- Copies that may substitute data of a TOL page (R279). -/
def Copy.maySub (c : Copy) : Bool :=
  (match c.kind with | .red _ => true | _ => false) || c.mode == .plain || c.mode == .setFull || c.mode == .setEmpty

/-- What a copy puts in place of a substituted sett: zero bytes, or R17 by its type for .red. -/
def Copy.subst (c : Copy) (l : Loc) : Nat :=
  match c.kind with
  | .red ty =>
    let v := if l.subk && ty.isFloat then (fmtOf ty).nan else 0
    (List.range (64 / ty.width)).foldl (fun a i => a + v * 2 ^ (ty.width * i)) 0
  | _ => 0

/-- What a copy reads of a source sett. -/
inductive SrcOut where
  | data (v : Nat) (full : Bool)
  | wait
  | err (cause : Nat)

/-- Reads the 8 bytes of one source sett. A substitution counts once for each line. -/
def State.copyRead (s : State) (c : Copy) (j : Nat) : State × SrcOut :=
  let va := c.src.toNat + 8 * j
  match c.buf with
  | some v => (s, .data v.toNat true)
  | none =>
    match s.resolveStream ⟨false, c.mode != .plain⟩ va with
    | (s, .error e) => (s, .err e)
    | (s, .ok l) =>
      let s := s.hotAccess l
      if l.gw && !copyGw c.kind c.mode false then (s, .err cPROT)
      else if l.gw then
        match s.gwAccess c.gw (.copy s.cur.id c.handle) l gfPlain false 8 [] 0 with
        | (s, .waiting id) => (s.onCopy c.handle fun c => { c with gw := some id }, .wait)
        | (s, .answered r) =>
          let s := s.onCopy c.handle fun c => { c with gw := none, buf := some (BitVec.ofNat 64 (leValue r.data)) }
          (s, if r.reason == 0 then .data (leValue r.data) true else .err r.reason.toNat)
      else
        let f := s.full l.key
        match s.readHome { l with tol := l.tol && c.maySub } 8 true with
        | (s, .error e) => (s, .err e)
        | (s, .ok r) =>
          if r.sub then (if j == 0 || l.key % 128 == 0 then s.countSub else s, .data (c.subst l) f) else (s, .data r.val f)

/-- The sum of two setts of elements, and the flags of its floating-point additions, RNE (R277). -/
def redSum (ty : Ty) (a b : Nat) : Nat × Flags :=
  (List.range (64 / ty.width)).foldl (fun acc i =>
    let x := bits a (ty.width * i) ty.width
    let y := bits b (ty.width * i) ty.width
    let r : Nat × Flags := if ty.isInt then ((x + y) % 2 ^ ty.width, 0) else (fmtOf ty).addBits .rne x y
    (acc.1 + r.1 * 2 ^ (ty.width * i), acc.2 ||| r.2)) (0, 0)

/-- The bit that a copy leaves in a destination sett, from the source's; none leaves it as it is (R276). -/
def Copy.bitAfter (c : Copy) (src : Bool) : Option Bool :=
  match c.mode with
  | .withBits => some src
  | .setFull => some true
  | .setEmpty => some false
  | _ => none

/-- Writes one destination sett at its home with its bit; the L1's copy of the line follows both (12 R268). -/
def State.copyPut (s : State) (c : Copy) (l : Loc) (v : Nat) (bit : Option Bool) : State :=
  let s := match c.mode with
    | .bitsIn => (s.hotAccess l).demand l.key
    | _ => s.storeCore l (leBytes v 8)
  match bit with
  | some b => (s.fillAt l b).l1Refresh s.cur.coreNo l.key
  | none => s

/-- The window address of a destination sett in a member core of a multicast. -/
def Copy.memberAddr (c : Copy) (core j : Nat) : Nat := windowAddr core (bits c.dst.toNat 0 19 + 8 * j)

/-- Writes a destination sett of a multicast in every member core, in ascending order; one out of reach ends it with PROT. -/
def copyMembers (c : Copy) (j v : Nat) (bit : Option Bool) : List Nat → State → State × SettOut
  | [], s => (s, .done)
  | k :: t, s =>
    match s.resolvePad (c.memberAddr k j) with
    | .error e => (s, .err e)
    | .ok l => copyMembers c j v bit t (s.copyPut c l v bit)

/-- The bits of 64 source setts from sett `j`: each sett's line is readable, or MEMUE. -/
def copyBits (c : Copy) : Nat → Nat → State → State × Except Nat Nat
  | 0, _, s => (s, .ok 0)
  | n + 1, j, s =>
    match s.copyRead { c with buf := none } j with
    | (s, .err e) => (s, .error e)
    | (s, .wait) => (s, .error cPROT)
    | (s, .data _ f) =>
      match copyBits c n (j + 1) s with
      | (s, .ok v) => (s, .ok ((if f then 1 else 0) + 2 * v))
      | r => r

/-- What a destination sett `j` receives: data and bit. -/
def State.copyData (s : State) (c : Copy) (j : Nat) : State × SrcOut :=
  match c.mode with
  | .bitsOut => match copyBits c 64 (64 * j) s with
    | (s, .ok v) => (s, .data v true)
    | (s, .error e) => (s, .err e)
  | .bitsIn => match s.copyRead c (j / 64) with
    | (s, .data v _) => (s, .data v (v.testBit (j % 64)))
    | r => r
  | _ => s.copyRead c j

/-- A copy that has written the whole of a destination line in a mode with bits clears its poison (22 R412). -/
def State.copyLine (s : State) (c : Copy) (l : Loc) (j : Nat) : State :=
  let first := (l.key % 128) / 8
  let setts := (List.range 16).map fun i => j + i - first
  if isHbm l.key && first ≤ j && j - first + 16 ≤ c.setts && setts.all (fun k => k == j || c.done.contains k) &&
    (c.mode == .withBits || c.mode == .setFull || c.mode == .setEmpty) && (match c.kind with | .copy => true | _ => false)
  then s.lineRenewed l else s

/-- Performs destination sett `j` of a copy of the acting strand (R276, R277). -/
def State.copySett (s : State) (c : Copy) (j : Nat) : State × SettOut :=
  match s.copyData c j with
  | (s, .wait) => (s, .wait)
  | (s, .err e) => (s, .err e)
  | (s, .data v f) =>
    let bit := if c.mode == .bitsIn then some f else c.bitAfter f
    let fin (s : State) : State := s.onCopy c.handle fun c => { c with gw := none, buf := none, done := insNat j c.done }
    match c.kind with
    | .mc mask => match copyMembers c j v bit (setBits mask.toNat 48) s with
      | (s, .done) => (fin s, .done)
      | r => r
    | kind =>
      match s.resolveStream ⟨true, c.mode != .plain⟩ (c.dst.toNat + 8 * j) with
      | (s, .error e) => (s, .err e)
      | (s, .ok l) =>
        if l.gw && !copyGw c.kind c.mode true then (s, .err cPROT)
        else if l.gw then
          let fn := match kind with | .red ty => 0x80 + ty.code | _ => 0
          let sent := if c.buf.isSome then c.gw else none
          let s := s.onCopy c.handle fun c => { c with buf := some (BitVec.ofNat 64 v) }
          match s.gwAccess sent (.copy s.cur.id c.handle) l (if c.mode == .setFull then gfSetFull else gfPlain) (c.mode == .setFull) 8 (leBytes v 8) fn with
          | (s, .waiting id) => (s.onCopy c.handle fun c => { c with gw := some id }, .wait)
          | (s, .answered r) => if r.reason == 0 then (fin s, .done) else (s, .err r.reason.toNat)
        else
          match kind with
          | .red ty =>
            match (s.touch l.key 8).lineRead l with
            | .good =>
              let r := redSum ty (s.valueAt l.key 8) v
              let s := s.copyPut c l r.1 bit
              (fin (s.onCopy c.handle fun c => { c with flg := c.flg ||| r.2.setWidth 5 }), .done)
            | _ => ((s.touch l.key 8).countBadTag l, .err cMEMUE)
          | _ => (fin ((s.copyPut c l v bit).copyLine c l j), .done)

/-- Performs the setts of a copy that are left, in ascending order: the cause of an error, or none while a remote node answers. -/
def copyLoop (handle : Nat) : Nat → Nat → State → State × SettOut
  | 0, _, s => (s, .done)
  | n + 1, j, s =>
    match findBy Copy.handle handle s.cur.copies with
    | none => (s, .wait)
    | some c =>
      if c.done.contains j then copyLoop handle n (j + 1) s
      else match s.copySett c j with
        | (s, .done) => copyLoop handle n (j + 1) s
        | r => r

/-- A copy of the acting strand retires, with an error or none (R279). -/
def State.copyEnd (s : State) (handle err : Nat) : State :=
  let len := match findBy Copy.handle handle s.cur.copies with | some c => c.len.toNat | none => 0
  (s.onCopy handle fun c => { c with st := .retired, done := [], gw := none, buf := none, err := BitVec.ofNat 8 err }).count 0x0D (len / 64)

/-- The rest of a running copy of the acting strand. -/
def State.copyRun (s : State) (handle : Nat) : State :=
  match findBy Copy.handle handle s.cur.copies with
  | none => s
  | some c =>
    if c.st != .running then s
    else match copyLoop handle c.setts 0 s with
      | (s, .done) => s.copyEnd handle 0
      | (s, .err e) => s.copyEnd handle e
      | (s, .wait) => s

/-- COPY_RETIRE (R279): the writes that are left are made, and the copy retires; it waits while a remote node has not answered.
A save that waits for it goes on (R282). A partition that has lost a stack moves nothing (22 R401). -/
def execCopyRetire (sid handle : Nat) (s : State) : Res :=
  .next (s.asStrand sid fun s =>
    if s.cur.id == sid && !s.lost s.cur.part then
      let s := s.copyRun handle
      if s.cur.status == .saving then s.due (.contextSave sid) else s
    else s)

/-- One sett of a running copy, ahead of the others: different setts are written in no stated order (R276). -/
def State.copyOne (s : State) (handle j : Nat) : State :=
  match findBy Copy.handle handle s.cur.copies with
  | none => s
  | some c =>
    if c.st != .running || s.lost s.cur.part || c.gw.isSome || c.buf.isSome || c.done.contains j || c.setts ≤ j then s
    else match s.copySett c j with
      | (s, .err e) => s.copyEnd handle e
      | (s, _) => s

end Sys2Proof.Machine
end

