-- ==== Sys2Proof/Machine/Remote.lean ====
section
/-!
DEFINITION. Remote operations that arrive at a port (25 R434 to R436, R442): their checks, order, waits and answers; and the answers to
requests of this package (R437).
-/
namespace Sys2Proof.Machine

/-! ## Digests (R442) -/

/-- CRC-64/ECMA-182 of bytes, continued from nothing. -/
def crc64 (bs : List Byte) : BitVec 64 :=
  bs.foldl (fun (c : BitVec 64) b => (List.range 8).foldl (fun (c : BitVec 64) _ =>
    if c.msb then (c <<< 1) ^^^ 0x42F0E1EBA9EA3693#64 else c <<< 1) (c ^^^ BitVec.ofNat 64 (b.toNat * 2 ^ 56))) 0#64

/-- CRC-32 of IEEE 802.3. -/
def crc32 (bs : List Byte) : BitVec 32 :=
  ~~~ bs.foldl (fun c b => (List.range 8).foldl (fun c _ =>
    if c.getLsbD 0 then (c >>> 1) ^^^ 0xEDB88320 else c >>> 1) (c ^^^ b.setWidth 32)) (0xFFFFFFFF : BitVec 32)

/-- What kind of UET operation carries a header. -/
inductive OpKind where
  | write | read | atomic
  deriving DecidableEq, Repr

def OpKind.number : OpKind → Nat
  | .write => 0 | .read => 1 | .atomic => 2

/-- A port folds an accepted packet, of an operation number, into its digest. -/
def State.digestAs (s : State) (number : Nat) (op : RemoteOp) : State :=
  let rec' := leBytes op.pdc.toNat 4 ++ leBytes op.psn.toNat 4 ++ [Config.packetOp number, op.form, 0, 0] ++ leBytes op.addr.toNat 8 ++
    leBytes op.len 4 ++ leBytes op.job.toNat 4 ++ leBytes 0 4
  let dig := crc64 (leBytes (vget s.pkg.pdig op.port).toNat 8 ++ rec' ++ leBytes (crc32 op.data).toNat 4)
  { s with pkg := { s.pkg with pdig := vset s.pkg.pdig op.port dig
                               pdcnt := vset s.pkg.pdcnt op.port (vget s.pkg.pdcnt op.port + 1) } }

/-- A port accepts a remote operation. -/
def State.digest (s : State) (k : OpKind) (op : RemoteOp) : State := s.digestAs k.number op

/-- A port accepts a packet that is no operation on this package: an answer, or a request for an attestation report. Which port that is, and the
fields that the model does not hold, are left free (log entry 13). -/
def State.digestOther (s : State) (number : Nat) (form : BitVec 8) (addr : Word) (payload : List Byte) : State :=
  let free (i : Nat) : Nat := (Config.freeWord s.tick (16 + i)).toNat
  s.digestAs number
    { port := free 0 % 52, pdc := BitVec.ofNat 32 (free 1), psn := BitVec.ofNat 32 (free 2), ordered := false, job := BitVec.ofNat 32 (free 3)
      form := form, flags := 0, wait := 0, rsv := 0, addr := addr, len := payload.length, data := payload, fn := 0, size := 0 }

/-! ## Contexts (R435, R444) -/

/-- Packet sequence numbers compared as serial numbers. -/
def psnLt (a b : BitVec 32) : Bool := (a - b).msb

/-- Whether a packet of a context has arrived. -/
def Pdc.seen (p : Pdc) (psn : BitVec 32) : Bool := psnLt psn p.next || p.late.contains psn

/-- Numbers that have arrived out of turn are passed as their turn comes. -/
def Pdc.absorb : Nat → Pdc → Pdc
  | 0, p => p
  | n + 1, p => if p.late.contains p.next then Pdc.absorb n { p with next := p.next + 1, late := p.late.erase p.next } else p

/-- A packet of a context arrives. -/
def Pdc.take (p : Pdc) (psn : BitVec 32) : Pdc :=
  if psn == p.next then Pdc.absorb p.late.length { p with next := p.next + 1 }
  else if psnLt p.next psn then { p with late := psn :: p.late } else p

/-- A context as the package knows it; before its first packet, by the number that it begins with (log entry 41). -/
def State.pdc (s : State) (id : BitVec 32) : Pdc := (s.pkg.pdcs.find? fun p => p.id == id).getD ⟨id, Config.firstPsn id, []⟩

/-- Whether an operation is a packet that has come before: it is dropped, so that each is applied once (R442, R444). -/
def State.repeated (s : State) (op : RemoteOp) : Bool := (s.pkg.pdcs.any fun p => p.id == op.pdc) && (s.pdc op.pdc).seen op.psn

/-- The context of an operation notes its arrival. -/
def State.notePsn (s : State) (op : RemoteOp) : State :=
  { s with pkg := { s.pkg with pdcs := (s.pdc op.pdc).take op.psn :: s.pkg.pdcs.filter fun p => p.id != op.pdc } }

/-! ## Checks (R434, R436) -/

/-- The function of a UET atomic (02 R54) whose size matches. -/
def atomOf (fn size : Nat) : Option AtomFn :=
  let f : Option AtomFn := match fn with
    | 0 => some .add | 1 => some .min | 2 => some .max | 3 => some .minn | 4 => some .maxn | 5 => some .and | 6 => some .or
    | 7 => some .xor | 8 => some .swap | 9 => some .cas | 10 => some .faddF32 | 11 => some .faddBf16 | _ => none
  let ok := if fn == 10 then size == 4 else if fn == 11 then size == 2 else size == 4 || size == 8
  if ok then f else none

/-- The type of the non-fetching element adds that a CPY.RED sends (R437): functions 0x80 + TY. -/
def redOf (fn : Nat) : Option Ty :=
  [Ty.i32, .i64, .n32, .n64, .f32, .f64, .bf16].find? fun t => fn == 0x80 + t.code

/-- A reserved FORM or byte, or a shape that R434 forbids. -/
def opIll (k : OpKind) (op : RemoteOp) : Bool :=
  let f := op.form.toNat
  8 ≤ f || op.flags.toNat / 2 != 0 || op.rsv != 0 ||
    (match k with
      | .write => f == 3 || f == 4 || f == 5
      | .read => f == 1 || f == 2 || f == 6 || f == 7
      | .atomic => f != 0 || ((atomOf op.fn op.size).isNone && !((redOf op.fn).isSome && op.size == 8))) ||
    (f != 0 && (op.len % 8 != 0 || 4096 < op.len)) || ((f == 5 || f == 7) && op.len != 8)

/-- The rights that an operation needs. -/
def ingressAllows (g : Ingress) (k : OpKind) (op : RemoteOp) : Bool :=
  (match k with | .write => g.write | .read => g.read | .atomic => g.atomic) && (op.form == 0 || g.fe)

/-- The ingress entry of a job identifier. -/
def State.ingressOf (s : State) (job : BitVec 32) : Option Ingress := s.pkg.ingress.toList.findSome? fun e =>
  match e with | some g => if g.job == job then some g else none | none => none

/-- Bytes that an operation covers. -/
def opSpan (op : RemoteOp) (k : OpKind) : Nat := match k with | .atomic => op.size | _ => op.len

/-- First addresses of the lines that `n` bytes from `va` touch, each with its bytes there. -/
def linePieces (va n : Nat) : List (Nat × Nat) :=
  (List.range ((va % 128 + n + 127) / 128)).map fun i =>
    let a := if i == 0 then va else va / 128 * 128 + 128 * i
    (a, min (va + n) ((a / 128 + 1) * 128) - a)

/-- The translation of an address at a port: by its TLB, or a walk (16 R331, R440). -/
def State.portLookup (s : State) (p : Part) (port va : Nat) : Except Nat (Nat × Nat) :=
  match tlbFind (vget s.pkg.ptlb port) p.id va with
  | some e => .ok (e.leaf.toNat, e.bits)
  | none => walk s p va

/-- The TLB of a port, of 1,024 entries, comes to hold the translation of an address, by a walk if it does not yet. -/
def State.portFetch (s : State) (p : Part) (port va : Nat) : State :=
  if inWindow va || !canonical va || (tlbFind (vget s.pkg.ptlb port) p.id va).isSome then s
  else
    let s := s.walked p va
    match walk s p va with
    | .error _ => s
    | .ok (leaf, b) =>
      { s with pkg := { s.pkg with ptlb := vset s.pkg.ptlb port (tlbPut (vget s.pkg.ptlb port) 1024 ⟨p.id, va, b, BitVec.ofNat 64 leaf⟩) } }

/-- The translations that an operation needs. -/
def State.portFetches (s : State) (pid : Nat) (k : OpKind) (op : RemoteOp) : State :=
  (linePieces op.addr.toNat (opSpan op k)).foldl (fun (s : State) (x : Nat × Nat) => s.portFetch (s.part pid) op.port x.1) s

/-- The location of an address for a remote operation: through the tables of its partition, PAGE or PROT. -/
def State.remoteLoc (s : State) (p : Part) (k : OpKind) (op : RemoteOp) (va : Nat) : Except Nat Loc :=
  if inWindow va then .error cPROT
  else if !canonical va then .error cPAGE
  else match s.portLookup p op.port va with
    | .error c => .error c
    | .ok (leaf, b) =>
      if leaf.testBit 11 then .error cPROT
      else match leafLoc s p va leaf b with
      | .error c => .error c
      | .ok l =>
        let writes := match k with | .read => false | _ => true
        if (writes && !l.wr) || (op.form != 0 && !l.fev) then .error cPROT else .ok l

/-- The checks of an operation before anything is applied: its partition, or the first reason. -/
def State.remoteCheck (s : State) (k : OpKind) (op : RemoteOp) : Except Nat Nat :=
  if opIll k op then .error cILL
  else match s.ingressOf op.job with
    | none => .error cPRIV
    | some g =>
      if !ingressAllows g k op then .error cPRIV
      else if (op.form != 0 && op.addr.toNat % 8 != 0) || (k == .atomic && op.addr.toNat % op.size != 0) then .error cALIGN
      else
        let rs := (linePieces op.addr.toNat (opSpan op k)).map fun x => s.remoteLoc (s.part g.part) k op x.1
        let meets (c : Nat) : Bool := rs.any fun r => match r with | .error d => d == c | .ok _ => false
        if meets cPAGE then .error cPAGE else if meets cPROT then .error cPROT else if meets cMEMUE then .error cMEMUE else .ok g.part

/-! ## Application at the homes -/

/-- How an operation stands. -/
inductive ServeOut where
  | done (reason : Nat)
  | wait

/-- Writes the data of a plain write, line by line. -/
def plainWrite (p : Part) (op : RemoteOp) : List (Nat × Nat) → State → State × ServeOut
  | [], s => (s, .done 0)
  | (a, n) :: t, s =>
    match s.remoteLoc p .write op a with
    | .error c => (s, .done c)
    | .ok l =>
      let bs := (op.data.drop (a - op.addr.toNat)).take n
      let s := s.touch l.key n
      plainWrite p op t (if n == 128 then (s.storeAt l bs).lineStored l else s.storeAt l bs)

/-- Reads the data of a plain read, line by line (22 R412). -/
def plainRead (p : Part) (op : RemoteOp) : List (Nat × Nat) → State → List Byte → State × ServeOut × List Byte
  | [], s, acc => (s, .done 0, acc)
  | (a, n) :: t, s, acc =>
    match s.remoteLoc p .read op a with
    | .error c => (s, .done c, acc)
    | .ok l => match s.readHome l n true with
      | (s, .error c) => (s, .done c, acc)
      | (s, .ok r) =>
        let s := if r.sub then s.putPart { s.part p.id with subcnt := satInc (s.part p.id).subcnt 1 } else s
        plainRead p op t s (acc ++ leBytes r.val n)

/-- Full/empty form of one sett of an operation (R434). A set-full without data changes the bit alone. -/
def opForm (op : RemoteOp) (j : Nat) : FeForm :=
  let d := (op.data.drop j).take 8
  match op.form.toNat with
  | 1 | 7 => ⟨some false, some d, some true⟩
  | 2 => ⟨none, if op.data.isEmpty then none else some d, some true⟩
  | 3 => ⟨some true, none, none⟩
  | 4 | 5 => ⟨some true, none, some false⟩
  | _ => ⟨none, none, some false⟩

/-- The entry of a remote operation changed. -/
def State.putRemote (s : State) (w : RemoteWait) : State :=
  { s with remotes := s.remotes.map fun x => if x.rid == w.rid then w else x }

/-- A waiter of a remote operation at the home of a sett; it counts no budget (R434). A full home rejects it (14 R305). -/
def State.plainWaiter (s : State) (key : Nat) (cond : Cond) (src : WaitSrc) : State × Nat :=
  let id := s.nextWaiter
  let rejected := 64 ≤ s.homeLoad key
  let w : Waiter := { id := id, key := settOf key, cond := cond, src := src, watch := false, changed := false, cancelled := false
                      rejected := rejected, spent := false }
  let s := { s with waiters := s.waiters ++ [w], nextWaiter := id + 1 }
  (if rejected then s.due (.rejectRetry id) else s, id)

/-- Serves the setts of a full/empty operation that are left, in ascending order. Each is an access with a wait of its own (R434). -/
def feServe (p : Part) : Nat → RemoteWait → State → State × ServeOut
  | 0, _, s => (s, .done 0)
  | fuel + 1, w, s =>
    let op := w.op
    if op.len ≤ w.next then (s, .done 0)
    else match s.remoteLoc p (match op.form.toNat with | 3 | 4 | 5 => .read | _ => .write) op (op.addr.toNat + w.next) with
      | .error c => (s, .done c)
      | .ok l =>
        let f := opForm op w.next
        let tries := op.form == 5 || op.form == 7
        let reads := op.form == 3 || op.form == 4 || op.form == 5
        match s.homeCheck l 8 f with
        | (s, .memue) => (s, .done cMEMUE)
        | (s, .done v) =>
          let w := { w with next := w.next + 8, deadline := 0, read := if reads then w.read ++ leBytes v 8 else w.read
                            status := if tries then w.status ++ [op.form == 5] else w.status }
          feServe p fuel w (s.putRemote w)
        | (s, .unmet) =>
          if tries then
            let w := { w with next := w.next + 8, read := if reads then w.read ++ leBytes 0 8 else w.read, status := w.status ++ [op.form == 7] }
            feServe p fuel w (s.putRemote w)
          else if op.wait == 0 then (s, .done cFEB)
          else
            let (s, id) := s.plainWaiter l.key (if f.need == some true then .full else .empty) (.remote w.rid)
            (s.putRemote { w with waiter := some id, deadline := if w.deadline == 0 then s.pkg.time + 1000 * op.wait.toNat else w.deadline }, .wait)

/-- Applies an operation, or as much of it as can be. -/
def State.remoteServe (s : State) (k : OpKind) (w : RemoteWait) : State × ServeOut :=
  let p := s.part w.part
  let op := w.op
  if op.form != 0 then feServe p (op.len / 8 + 1) w s
  else match k with
    | .write => plainWrite p op (linePieces op.addr.toNat op.len) s
    | .read =>
      let (s, o, d) := plainRead p op (linePieces op.addr.toNat op.len) s []
      (s.putRemote { w with read := d }, o)
    | .atomic =>
      match s.remoteLoc p .atomic op op.addr.toNat with
      | .error c => (s, .done c)
      | .ok l =>
        if s.chaining l then (s, .wait)
        else match atomOf op.fn op.size, redOf op.fn with
        | some f, _ =>
          match s.homeAtom l op.size f (leValue (op.data.take op.size)) (leValue (op.data.drop op.size)) (faddOf f) with
          | (s, .error c) => (s, .done c)
          | (s, .ok (old, _)) => (s.putRemote { w with read := leBytes old op.size }, .done 0)
        | none, some ty =>
          let s := s.touch l.key 8
          (match s.lineRead l with
            | .good => (s.storeVal l 8 (redSum ty (s.valueAt l.key 8) (leValue (op.data.take 8))).1, .done 0)
            | _ => (s.countBadTag l, .done cMEMUE))
        | none, none => (s, .done cILL)

/-! ## Order and answers (R435) -/

/-- Whether `v`, not yet applied, must be applied before `op`: of the same context with a lower number, when `op` has REL, or when
both touch one sett on an ordered context. The ports that they come by play no part: a context is sprayed over them (R432). -/
def mustPrecede (op v : RemoteOp) : Bool :=
  v.pdc == op.pdc && psnLt v.psn op.psn &&
    (op.flags.getLsbD 0 || (op.ordered &&
      overlap (op.addr.toNat / 8 * 8) (op.addr.toNat % 8 + max op.len op.size + 7) (v.addr.toNat / 8 * 8) (v.addr.toNat % 8 + max v.len v.size + 7)))

/-- Whether an operation waits for one of its context with a lower number, which may not have arrived yet. -/
def State.remoteBlocked (s : State) (w : RemoteWait) : Bool :=
  (s.remotes.any fun v => v.rid != w.rid && mustPrecede w.op v.op) ||
    ((w.op.flags.getLsbD 0 || w.op.ordered) && psnLt (s.pdc w.op.pdc).next w.op.psn)

/-- The answer of an operation leaves its port (R435, R436). -/
def State.remoteAck (s : State) (op : RemoteOp) (reason : Nat) (data : List Byte) (status : List Bool) : State :=
  { s with pkg := { s.pkg with out := s.pkg.out ++ [.ack op.port op.psn (BitVec.ofNat 8 reason) data status] } }

/-- The kind of a waiting operation: its form tells reads from writes; a plain one that waits is told by its size. -/
def RemoteWait.kind (w : RemoteWait) : OpKind :=
  match w.op.form.toNat with
  | 3 | 4 | 5 => .read
  | 0 => if w.op.size != 0 then .atomic else if w.op.data.isEmpty then .read else .write
  | _ => .write

/-- Goes on with an operation that may go on; at its end its answer leaves, and those of its context that waited for it go on. -/
def remoteAdvance : Nat → Nat → State → State
  | 0, _, s => s
  | fuel + 1, rid, s =>
    match findBy RemoteWait.rid rid s.remotes with
    | none => s
    | some w =>
      if w.waiter.isSome || s.lost w.part || s.remoteBlocked w then s
      else match (s.portFetches w.part w.kind w.op).remoteServe w.kind w with
        | (s, .wait) => s
        | (s, .done c) =>
          let w := (findBy RemoteWait.rid rid s.remotes).getD w
          let s := { s with remotes := dropBy RemoteWait.rid rid s.remotes }.remoteAck w.op c w.read w.status
          (s.remotes.filter fun v => v.op.pdc == w.op.pdc).foldl (fun s v => remoteAdvance fuel v.rid s) s

/-- Every operation that may go on does. -/
def State.remoteAll (s : State) : State := s.remotes.foldl (fun s v => remoteAdvance (s.remotes.length + 1) v.rid s) s

/-- An operation arrives: the port counts it, its checks are made, and it is applied or waits (R434 to R436, R442); one that has come before is
dropped. Nothing reaches a partition
that is out of service (22 R401), and an operation on it gets no answer. -/
def State.remoteArrive (s : State) (k : OpKind) (op : RemoteOp) : State :=
  let op : RemoteOp := match k with
    | .atomic => { op with len := op.size }
    | .write => { op with size := 0, len := if op.form == 0 then op.data.length else op.len }
    | .read => { op with size := 0, data := [] }
  if s.repeated op then s
  else
  let s := (s.digest k op).notePsn op
  let s := match s.ingressOf op.job with
    | some g => s.portFetches g.part k op
    | none => s
  match s.remoteCheck k op with
  | .error c => (s.remoteAck op c [] []).remoteAll
  | .ok pid =>
    let w : RemoteWait := { rid := s.nextRemote, op := op, part := pid, next := 0, read := [], status := []
                            deadline := 0, waiter := none }
    let s := { s with remotes := s.remotes ++ [w], nextRemote := s.nextRemote + 1 }
    (remoteAdvance (s.remotes.length + 1) w.rid s).remoteAll

/-- REMOTE_PLAIN_WRITE (R436). -/
def execRemotePlainWrite (op : RemoteOp) (s : State) : Res := .next (s.remoteArrive .write op)

/-- REMOTE_PLAIN_READ (R436). -/
def execRemotePlainRead (op : RemoteOp) (s : State) : Res := .next (s.remoteArrive .read op)

/-- REMOTE_ATOMIC (R432, R436): every function of 02 R54. -/
def execRemoteAtomic (op : RemoteOp) (s : State) : Res := .next (s.remoteArrive .atomic op)

/-- REMOTE_FILL (R434), as ST.f. -/
def execRemoteFill (op : RemoteOp) (s : State) : Res := .next (s.remoteArrive .write { op with form := 0x01 })

/-- REMOTE_SET_FULL (R434), as ST.s. -/
def execRemoteSetFull (op : RemoteOp) (s : State) : Res := .next (s.remoteArrive .write { op with form := 0x02 })

/-- REMOTE_WAITING_READ (R434), as LD.w. -/
def execRemoteWaitingRead (op : RemoteOp) (s : State) : Res := .next (s.remoteArrive .read { op with form := 0x03 })

/-- REMOTE_CONSUMING_READ (R434), as LD.c. -/
def execRemoteConsumingRead (op : RemoteOp) (s : State) : Res := .next (s.remoteArrive .read { op with form := 0x04 })

/-- REMOTE_TRY_CONSUME (R434), as LDCT. -/
def execRemoteTryConsume (op : RemoteOp) (s : State) : Res := .next (s.remoteArrive .read { op with form := 0x05 })

/-- REMOTE_SET_EMPTY (R434), as FECLR. -/
def execRemoteSetEmpty (op : RemoteOp) (s : State) : Res := .next (s.remoteArrive .write { op with form := 0x06 })

/-- REMOTE_TRY_FILL (R434), as LAUNCH. -/
def execRemoteTryFill (op : RemoteOp) (s : State) : Res := .next (s.remoteArrive .write { op with form := 0x07 })

/-- A waiting remote operation whose sett has changed checks again (R434). -/
def State.remoteRecheck (s : State) (rid : Nat) : State :=
  match findBy RemoteWait.rid rid s.remotes with
  | none => s
  | some w => remoteAdvance (s.remotes.length + 1) rid (s.putRemote { w with waiter := none })

/-- REMOTE_WAIT_EXPIRY (R434): a wait that has lasted WAIT µs is withdrawn, and the operation ends with FEB. -/
def execRemoteWaitExpiry (rid : Nat) (s : State) : Res :=
  match findBy RemoteWait.rid rid s.remotes with
  | none => .next s
  | some w =>
    if w.waiter.isNone then .next s
    else
      let s := s.dropWaiters fun x => x.src == .remote rid
      .next (({ s with remotes := dropBy RemoteWait.rid rid s.remotes }.remoteAck w.op cFEB w.read w.status).remoteAll)

/-! ## Answers to requests of this package (R437) -/

/-- An answer with a reason of the table of R436; any other is left free (log entry 13). -/
def withReason (r : GwReply) (tick : Nat) : GwReply :=
  if r.reason.toNat < 8 then r else { r with reason := BitVec.ofNat 8 (openCause (Config.freeWord tick 10)) }

/-- A request has its answer: what waits for it goes on. -/
def State.gwAnswered (s : State) (id : Nat) (r : GwReply) : State :=
  match findBy GwReq.id id s.gwReqs with
  | none => s
  | some q =>
    if q.reply.isSome then s
    else
      let s := { s with gwReqs := s.gwReqs.map fun x => if x.id == id then { x with reply := some (withReason r s.tick) } else x }
      match q.src with
      | .load sid i => s.asStrand sid fun s =>
        match s.cur.pend.find? fun p => p.id == i with
        | some p => if s.cur.id == sid && p.target.isNone then s.attemptLoad p else s
        | none => s
      | .buf sid _ => s.due (.storeBufferPerform sid)
      | .pod sid _ =>
        let s := { s with sched := .focus sid :: .stream :: s.sched }
        if (s.strand sid).any fun t => t.status == .saving then s.due (.contextSave sid) else s
      | .copy sid h => s.due (.copyRetire sid h)
      | .node nid => (s.due (.nodeReady nid)).due (.nodeDone nid)
      | .remote _ | .queue _ _ => s

/-- GW_ACK (R437): the acknowledgement of a remote node arrives, and the port that it comes to counts it (R442). -/
def execGwAck (gid : Nat) (reply : GwReply) (s : State) : Res :=
  match findBy GwReq.id gid s.gwReqs with
  | none => .next s
  | some q => .next (if q.reply.isSome then s else (s.digestOther 3 q.form q.addr reply.data).gwAnswered gid reply)

/-- GW_TIMEOUT (R437): no acknowledgement has come in time, and the access raises MEMUE. -/
def execGwTimeout (gid : Nat) (s : State) : Res := .next (s.gwAnswered gid { reason := BitVec.ofNat 8 cMEMUE, data := [], status := false })

end Sys2Proof.Machine
end

