-- ==== Sys2Proof/Machine/SysRegs.lean ====
section
/-!
DEFINITION. The system registers (01 R23 to R29, 03 R76 to R92, 04 R101, R116, R132, 06 R190, R193, 08 R222 to R228, R235, 11 R245, R248, 12 R270,
13 R283 to R295, 14 R300 to R307, 16 R328, R334, 19 R357, R375, 20 R386, R389, 22 R402 to R413, 24 R424, 25 R433): their numbers, levels and
writable bits, and the one home of each.
-/
namespace Sys2Proof.Machine

/-- How a register answers to SYSR and SYSW. -/
structure RegInfo where
  rd : Level                 -- least level that reads it
  wr : Option Level          -- least level that writes it; none where every field is RO or RSV
  mask : Nat := 2 ^ 64 - 1   -- its writable bits
  w1c : Nat := 0             -- bits of which each written 1 clears
  waitR : Bool := false      -- a SYSR waits for every word emitted before it
  waitW : Bool := false      -- so does a SYSW
  wo : Bool := false         -- reads as zero

def roReg (rd : Level) : RegInfo := { rd := rd, wr := none }

/-- The system register with a number, if it names one. -/
def regInfo (n : Nat) : Option RegInfo :=
  let all := 2 ^ 64 - 1
  let kk (mask : Nat) : Option RegInfo := some { rd := .k, wr := some .k, mask := mask }
  let ks (mask : Nat) : Option RegInfo := some { rd := .k, wr := some .s, mask := mask }
  let ss (mask : Nat) : Option RegInfo := some { rd := .s, wr := some .s, mask := mask }
  let stream (mask : Nat) : Option RegInfo := some { rd := .k, wr := some .k, mask := mask, waitR := true, waitW := true }
  let ro (b : Bool) : Option RegInfo := if b then some (roReg .k) else none
  if 0x018 ≤ n ∧ n ≤ 0x01F then stream 0xFFFFFFFFC01FFFFF
  else if 0x030 ≤ n ∧ n ≤ 0x039 then ro true
  else if 0x040 ≤ n ∧ n ≤ 0x047 then kk 0x3FFFFF
  else if 0x048 ≤ n ∧ n ≤ 0x04F then ss 0x3FFFFF
  else if 0x050 ≤ n ∧ n ≤ 0x051 then kk 0xFFFFFFFF
  else if 0x052 ≤ n ∧ n ≤ 0x055 then kk (all - 1)
  else if 0x058 ≤ n ∧ n ≤ 0x059 then stream 0xFFFFFFFF
  else if 0x05A ≤ n ∧ n ≤ 0x05D then stream (all - 1)
  else if 0x0E0 ≤ n ∧ n ≤ 0x0E3 then kk 0x37
  else if 0x0E4 ≤ n ∧ n ≤ 0x0E7 then kk all
  else if 0x108 ≤ n ∧ n ≤ 0x11A then ks all
  else if 0x120 ≤ n ∧ n ≤ 0x126 then ks all
  else if 0x140 ≤ n ∧ n ≤ 0x173 then ro true
  else if 0x180 ≤ n ∧ n ≤ 0x1B3 then ks all
  else if 0x1C0 ≤ n ∧ n ≤ 0x1F3 then ks all
  else if 0x200 ≤ n ∧ n ≤ 0x20F then kk 0xFFF
  else if 0x210 ≤ n ∧ n ≤ 0x21F then kk 0xFFFFFFFFFFFF
  else match n with
    | 0x010 => kk 0xF0F
    | 0x011 => stream 0x1FF
    | 0x012 => kk 0x13F
    | 0x013 => kk all
    | 0x014 => kk 0x1F
    | 0x020 => stream 0x7FF
    | 0x021 => stream 0x3F
    | 0x022 => ro true
    | 0x023 => kk 0xF
    | 0x024 => ro true
    | 0x026 => stream all
    | 0x027 => stream (all - 1)
    | 0x028 => stream 3
    | 0x056 => kk 7
    | 0x05E => stream 7
    | 0x060 | 0x061 | 0x063 | 0x064 | 0x065 | 0x066 | 0x06A | 0x06C | 0x06D => ro true
    | 0x062 | 0x067 | 0x068 | 0x069 => kk all
    | 0x06E => ks 0x3F
    | 0x06F => ks (all - 1)
    | 0x070 | 0x071 | 0x073 | 0x074 | 0x075 | 0x076 | 0x07A => some (roReg .s)
    | 0x072 | 0x077 | 0x078 | 0x079 => ss all
    | 0x07C => ss (all - 1)
    | 0x07D => ks 0xF3
    | 0x07E => kk all
    | 0x0C0 => ks 1
    | 0x0C1 => some { rd := .k, wr := none, waitR := true }
    | 0x0C2 => kk 0xFFFFFF
    | 0x0C3 | 0x0C4 | 0x0C5 => ro true
    | 0x0C8 => ks 1
    | 0x0C9 => ks 0xFFFFFFFF
    | 0x0D0 => ks 0xFFFF
    | 0x0D8 => ks 1
    | 0x0F0 => ss (all - 0x7FFF)
    | 0x0F1 => ks 0xFFFFFFFFF000
    | 0x0F2 | 0x0FC | 0x0FD => some { rd := .s, wr := some .s, wo := true }
    | 0x0F3 => ks 0xFFFFFFFFFFF0
    | 0x0F4 => ks 0xFFFF
    | 0x0F5 => ss (all - 0x7FF)
    | 0x0F6 => ss (all - 0x1FFFF)
    | 0x0F7 => ss all
    | 0x0F8 => ss 0xFFFFFFFF3F
    | 0x0F9 => ss (all - 0xFFF)
    | 0x0FA => ss 0xFF
    | 0x0FB => some { rd := .s, wr := some .s, mask := 0, w1c := all }
    | 0x0FE => ss (all - 0x7FFFF)
    | 0x0FF => ss 0xFFFF
    | 0x100 => ks 0x7FFFFFFFF
    | 0x101 => ks all
    | 0x102 | 0x103 | 0x127 | 0x130 | 0x131 | 0x132 => ro true
    | 0x104 => ks (all - 1)
    | 0x220 => some { rd := .k, wr := some .k, mask := 0, w1c := 0xFFFF }
    | 0x221 => kk 0xFFFFFFFF
    | 0x228 => some { rd := .k, wr := some .k, mask := 0x3F01, w1c := 0xC000 }
    | 0x229 => kk (all - 0x3F)
    | 0x22A => kk (all - 0xFFF)
    | 0x22B => kk (all - 0x3F)
    | 0x230 => some { rd := .k, wr := some .s, mask := 1, w1c := 0xC000 }
    | 0x231 => ks (all - 0x1F)
    | 0x232 => ks (all - 0xFFF)
    | 0x233 => ks (all - 0x1F)
    | _ => none

/-- What a register holds after a SYSW of `v` where it held `old`: RO and RSV bits are kept (R7, R101). SMPCTL and EVCTL keep a bit
14 or 15 to which a 0 is written. -/
def RegInfo.apply (i : RegInfo) (old v : Word) : Word :=
  let m := BitVec.ofNat 64 i.mask
  ((old &&& ~~~m) ||| (v &&& m)) &&& ~~~(v &&& BitVec.ofNat 64 i.w1c)

/-! ## Registers of a strand -/

/-- A register of a trap bank by its place in 0x060 to 0x06A (08 R222). -/
def Bank.reg (b : Bank) : Nat → Word
  | 0 => b.cause | 1 => b.val | 2 => b.epc | 3 => b.ipc | 4 => b.prov | 5 => b.seq | 6 => b.spc | 7 => b.word0 | 8 => b.word1
  | 9 => b.xq | _ => b.stat

def Bank.setReg (b : Bank) (n : Nat) (v : Word) : Bank :=
  match n with
  | 0 => { b with cause := v } | 1 => { b with val := v } | 2 => { b with epc := v } | 3 => { b with ipc := v }
  | 4 => { b with prov := v } | 5 => { b with seq := v } | 6 => { b with spc := v } | 7 => { b with word0 := v }
  | 8 => { b with word1 := v } | 9 => { b with xq := v } | _ => { b with stat := v }

/-- The registers of 01 R24, in effect in queue order. -/
def ctlRegs : List Nat := [0x010, 0x012, 0x013, 0x023, 0x07D, 0x0C8, 0x0C9]

/-- A register that the strand holds, with the stream's value of a control register. -/
def Strand.reg (st : Strand) (n : Nat) : Option Word :=
  if ctlRegs.contains n then some (st.ctl.get n)
  else if 0x018 ≤ n ∧ n ≤ 0x01F then some (vget st.eidx (n - 0x018))
  else if 0x040 ≤ n ∧ n ≤ 0x047 then some (if st.half && 0x044 ≤ n then 0 else vget st.kbank.startix (n - 0x040))
  else if 0x048 ≤ n ∧ n ≤ 0x04F then some (if st.half && 0x04C ≤ n then 0 else vget st.sbank.startix (n - 0x048))
  else if 0x050 ≤ n ∧ n ≤ 0x056 then some (st.gen.loopReg n)
  else if 0x060 ≤ n ∧ n ≤ 0x06A then some (st.kbank.reg (n - 0x060))
  else if 0x070 ≤ n ∧ n ≤ 0x07A then some (st.sbank.reg (n - 0x070))
  else if 0x0E0 ≤ n ∧ n ≤ 0x0E3 then some (vget st.bpctl (n - 0x0E0))
  else if 0x0E4 ≤ n ∧ n ≤ 0x0E7 then some (vget st.bpval (n - 0x0E4))
  else match n with
    | 0x011 => some (st.fstat.setWidth 64)
    | 0x014 => some (st.gen.gfstat.setWidth 64)
    | 0x020 => some (BitVec.ofNat 64 st.vl)
    | 0x021 => some (BitVec.ofNat 64 st.rows)
    | 0x022 => some (BitVec.ofNat 64 st.lanes)
    | 0x024 => some (BitVec.ofNat 64 (st.nseq.toNat * 2 ^ 16 + st.reply.length * 2 ^ 8 + st.qn))
    | 0x026 => some st.block.stripv
    | 0x027 => some st.block.strippc
    | 0x028 => some (st.block.stripct.setWidth 64)
    | 0x030 => some (st.ident.gidx.setWidth 64)
    | 0x031 => some (st.ident.sidx.setWidth 64)
    | 0x032 => some (st.ident.stage.setWidth 64)
    | 0x033 => some (st.ident.ngrp.setWidth 64)
    | 0x034 => some (st.ident.gsize.setWidth 64)
    | 0x035 => some (st.ident.gcores.setWidth 64)
    | 0x036 => some (st.ident.core.setWidth 64)
    | 0x037 => some (st.ident.barph.setWidth 64)
    | 0x038 => some (st.ident.mbxhead.setWidth 64)
    | 0x039 => some (BitVec.ofNat 64 st.ident.locks.length)
    | 0x058 => some (st.block.vlc0.setWidth 64)
    | 0x059 => some (st.block.vlc1.setWidth 64)
    | 0x05A => some st.block.vlbeg0
    | 0x05B => some st.block.vlend0
    | 0x05C => some st.block.vlbeg1
    | 0x05D => some st.block.vlend1
    | 0x05E => some (st.block.vlctl.setWidth 64)
    | 0x06C => some st.fefail
    | 0x06D => some st.feform
    | 0x06E => some st.deleg
    | 0x06F => some st.ktvec
    | 0x07C => some st.stvec
    | 0x07E => some st.chkcnt
    | 0x0C1 => some st.mctl
    | 0x0C2 => some st.vbyp
    | 0x0C3 => some 1
    | 0x0C4 => some 0x80FF
    | 0x0C5 => some (if st.lp then 1 else 0)
    | 0x0D0 => some st.premax
    | 0x0D8 => some st.dbgctl
    | _ => none

/-- A register of the strand with a value, whatever may write it. Registers that report something else are left. -/
def Strand.setReg (st : Strand) (n : Nat) (v : Word) : Strand :=
  if ctlRegs.contains n then { st with ctl := st.ctl.set n v }
  else if 0x018 ≤ n ∧ n ≤ 0x01F then { st with eidx := vset st.eidx (n - 0x018) v }
  else if 0x040 ≤ n ∧ n ≤ 0x047 then
    (if st.half && 0x044 ≤ n then st else { st with kbank := { st.kbank with startix := vset st.kbank.startix (n - 0x040) v } })
  else if 0x048 ≤ n ∧ n ≤ 0x04F then
    (if st.half && 0x04C ≤ n then st else { st with sbank := { st.sbank with startix := vset st.sbank.startix (n - 0x048) v } })
  else if 0x050 ≤ n ∧ n ≤ 0x056 then { st with gen := st.gen.setLoopReg n v }
  else if 0x060 ≤ n ∧ n ≤ 0x06A then { st with kbank := st.kbank.setReg (n - 0x060) v }
  else if 0x070 ≤ n ∧ n ≤ 0x07A then { st with sbank := st.sbank.setReg (n - 0x070) v }
  else if 0x0E0 ≤ n ∧ n ≤ 0x0E3 then { st with bpctl := vset st.bpctl (n - 0x0E0) v }
  else if 0x0E4 ≤ n ∧ n ≤ 0x0E7 then { st with bpval := vset st.bpval (n - 0x0E4) v }
  else match n with
    | 0x011 => { st with fstat := v.setWidth 9 }
    | 0x014 => { st with gen := { st.gen with gfstat := v.setWidth 5 } }
    | 0x020 => { st with vl := fieldOf v 0 11 }
    | 0x021 => { st with rows := fieldOf v 0 6 }
    | 0x026 => { st with block := { st.block with stripv := v } }
    | 0x027 => { st with block := { st.block with strippc := v } }
    | 0x028 => { st with block := { st.block with stripct := v.setWidth 2 } }
    | 0x030 => { st with ident := { st.ident with gidx := v.setWidth 32 } }
    | 0x031 => { st with ident := { st.ident with sidx := v.setWidth 7 } }
    | 0x032 => { st with ident := { st.ident with stage := v.setWidth 4 } }
    | 0x033 => { st with ident := { st.ident with ngrp := v.setWidth 32 } }
    | 0x034 => { st with ident := { st.ident with gsize := v.setWidth 7 } }
    | 0x035 => { st with ident := { st.ident with gcores := v.setWidth 48 } }
    | 0x036 => { st with ident := { st.ident with core := v.setWidth 7 } }
    | 0x037 => { st with ident := { st.ident with barph := v.setWidth 16 } }
    | 0x038 => { st with ident := { st.ident with mbxhead := v.setWidth 8 } }
    | 0x058 => { st with block := { st.block with vlc0 := v.setWidth 32 } }
    | 0x059 => { st with block := { st.block with vlc1 := v.setWidth 32 } }
    | 0x05A => { st with block := { st.block with vlbeg0 := v } }
    | 0x05B => { st with block := { st.block with vlend0 := v } }
    | 0x05C => { st with block := { st.block with vlbeg1 := v } }
    | 0x05D => { st with block := { st.block with vlend1 := v } }
    | 0x05E => { st with block := { st.block with vlctl := v.setWidth 3 } }
    | 0x06C => { st with fefail := v }
    | 0x06D => { st with feform := v }
    | 0x06E => { st with deleg := v }
    | 0x06F => { st with ktvec := v }
    | 0x07C => { st with stvec := v }
    | 0x07E => { st with chkcnt := v }
    | 0x0C1 => { st with mctl := v }
    | 0x0C2 => { st with vbyp := v }
    | 0x0D0 => { st with premax := v }
    | 0x0D8 => { st with dbgctl := v }
    | _ => st

/-- Bits of a read-only register of the strand that are no RSV field (08 R222 to R226, 11 R248). -/
def roLayout : Nat → Nat
  | 0x060 | 0x070 => 0x1FFF
  | 0x065 | 0x075 => 0xFFFFFFFFFFFF
  | 0x06A | 0x07A => 7
  | 0x06D => 0xFF
  | 0x0C1 => 0x3F3F
  | _ => 2 ^ 64 - 1

/-- A register of the strand as a restore loads it: RSV fields stay zero, whatever the image holds (01 R8). -/
def Strand.loadReg (st : Strand) (n : Nat) (v : Word) : Strand :=
  match regInfo n with
  | some i => st.setReg n (v &&& BitVec.ofNat 64 (if i.wr.isSome then i.mask ||| i.w1c else roLayout n))
  | none => st

/-! ## Registers of the partition, the die and the package -/

/-- A register of a partition (PARKBASE and its like), held at the bench. Counters of stacks outside it read as zero (22 R413). -/
def Part.reg (p : Part) (n : Nat) : Option Word :=
  if 0x108 ≤ n ∧ n ≤ 0x10F then some (if n - 0x108 < p.stacks.length then vget p.hbmce (n - 0x108) else 0)
  else if 0x110 ≤ n ∧ n ≤ 0x117 then some (if n - 0x110 < p.stacks.length then vget p.hbmue (n - 0x110) else 0)
  else match n with
    | 0x0F0 => some p.parkbase
    | 0x0F1 => some p.ttb
    | 0x0F3 => some p.gwtb
    | 0x0F4 => some p.gwtn
    | 0x0F5 => some p.qtbase
    | 0x0F6 => some p.imgpool
    | 0x0F7 => some p.recpool
    | 0x0FE => some p.spsave
    | 0x0FF => some p.spsaven
    | 0x100 => some p.hmask
    | 0x101 => some p.subcnt
    | 0x102 => some (BitVec.ofNat 64 (p.msc.toNat * 16 + p.dies.toNat))
    | 0x103 => some (p.keyval.setWidth 64)
    | 0x104 => some p.sentry
    | 0x118 => some p.itgf
    | 0x119 => some p.hints
    | 0x11A => some p.hdrop
    | 0x120 => some p.l1par
    | 0x121 => some p.spce
    | 0x122 => some p.l2ce
    | 0x123 => some p.shdcor
    | 0x124 => some p.linkrt
    | 0x125 => some p.tc0dem
    | 0x126 => some p.uvce
    | 0x230 => some p.evctl
    | 0x231 => some p.evbase
    | 0x232 => some p.evsize
    | 0x233 => some p.evptr
    | _ => none

def Part.setReg (p : Part) (n : Nat) (v : Word) : Part :=
  if 0x108 ≤ n ∧ n ≤ 0x10F then (if n - 0x108 < p.stacks.length then { p with hbmce := vset p.hbmce (n - 0x108) v } else p)
  else if 0x110 ≤ n ∧ n ≤ 0x117 then (if n - 0x110 < p.stacks.length then { p with hbmue := vset p.hbmue (n - 0x110) v } else p)
  else match n with
    | 0x0F0 => { p with parkbase := v }
    | 0x0F1 => { p with ttb := v }
    | 0x0F3 => { p with gwtb := v }
    | 0x0F4 => { p with gwtn := v }
    | 0x0F5 => { p with qtbase := v, queues := if v == 0 then p.queues.map fun q => { q with en := false } else p.queues }
    | 0x0F6 => { p with imgpool := v }
    | 0x0F7 => { p with recpool := v }
    | 0x0FE => { p with spsave := v }
    | 0x0FF => { p with spsaven := v }
    | 0x100 => { p with hmask := v }
    | 0x101 => { p with subcnt := v }
    | 0x104 => { p with sentry := v }
    | 0x118 => { p with itgf := v }
    | 0x119 => { p with hints := v }
    | 0x11A => { p with hdrop := v }
    | 0x120 => { p with l1par := v }
    | 0x121 => { p with spce := v }
    | 0x122 => { p with l2ce := v }
    | 0x123 => { p with shdcor := v }
    | 0x124 => { p with linkrt := v }
    | 0x125 => { p with tc0dem := v }
    | 0x126 => { p with uvce := v }
    | 0x230 => { p with evctl := v }
    | 0x231 => { p with evbase := v }
    | 0x232 => { p with evsize := v }
    | 0x233 => { p with evptr := v }
    | _ => p

/-- A register of a die's hot-page tracker (16 R334). -/
def DieSt.reg (d : DieSt) : Nat → Word
  | 0x0F8 => d.hpctl | 0x0F9 => d.hpbase | 0x0FA => d.hpptr | _ => d.pinskip

def DieSt.setReg (d : DieSt) (n : Nat) (v : Word) : DieSt :=
  match n with
  | 0x0F8 => { d with hpctl := v } | 0x0F9 => { d with hpbase := v } | 0x0FA => { d with hpptr := v } | _ => { d with pinskip := v }

/-- A register of a core's counters and sampling (13 R293, R295), or its LPART (11 R245). -/
def CoreSt.reg (c : CoreSt) (n : Nat) : Word :=
  if 0x200 ≤ n ∧ n ≤ 0x20F then vget c.pmsel (n - 0x200)
  else if 0x210 ≤ n ∧ n ≤ 0x21F then vget c.pmcnt (n - 0x210)
  else match n with
    | 0x0C0 => BitVec.ofNat 64 ((if c.cur then 0x100 else 0) + (if c.next then 1 else 0))
    | 0x220 => c.pmovf.setWidth 64
    | 0x221 => c.pmlost.setWidth 64
    | 0x228 => c.smpctl
    | 0x229 => c.smpbase
    | 0x22A => c.smpsize
    | _ => c.smpptr

/-- A core's register with a value; LPART takes NEXT alone. -/
def CoreSt.setReg (c : CoreSt) (n : Nat) (v : Word) : CoreSt :=
  if 0x200 ≤ n ∧ n ≤ 0x20F then { c with pmsel := vset c.pmsel (n - 0x200) v }
  else if 0x210 ≤ n ∧ n ≤ 0x21F then { c with pmcnt := vset c.pmcnt (n - 0x210) v }
  else match n with
    | 0x0C0 => { c with next := v.getLsbD 0, cur := if c.owner.isNone then v.getLsbD 0 else c.cur }
    | 0x220 => { c with pmovf := v.setWidth 16 }
    | 0x221 => { c with pmlost := v.setWidth 32 }
    | 0x228 => { c with smpctl := v }
    | 0x229 => { c with smpbase := v }
    | 0x22A => { c with smpsize := v }
    | _ => { c with smpptr := v }

/-- Whether a port lies in a partition (25 R433). -/
def Part.hasPort (p : Part) (port : Nat) : Bool := p.dies.getLsbD (port / 13)

/-- A fabric register as a partition reads it (25 R433). -/
def State.fabricReg (s : State) (p : Part) (n : Nat) : Word :=
  if 0x140 ≤ n ∧ n ≤ 0x173 then (if p.hasPort (n - 0x140) then (vget s.pkg.pstat (n - 0x140)).setWidth 64 else 0)
  else if 0x180 ≤ n ∧ n ≤ 0x1B3 then (if p.hasPort (n - 0x180) then vget s.pkg.pdig (n - 0x180) else 0)
  else if 0x1C0 ≤ n ∧ n ≤ 0x1F3 then (if p.hasPort (n - 0x1C0) then vget s.pkg.pdcnt (n - 0x1C0) else 0)
  else match n with
    | 0x127 => BitVec.ofNat 64 s.pkg.clk
    | 0x130 => s.pkg.fnode.setWidth 64
    | 0x131 => BitVec.ofNat 64 s.pkg.time
    | _ => if s.pkg.lock then 1 else 0

def State.setFabricReg (s : State) (p : Part) (n : Nat) (v : Word) : State :=
  if 0x180 ≤ n ∧ n ≤ 0x1B3 ∧ p.hasPort (n - 0x180) then { s with pkg := { s.pkg with pdig := vset s.pkg.pdig (n - 0x180) v } }
  else if 0x1C0 ≤ n ∧ n ≤ 0x1F3 ∧ p.hasPort (n - 0x1C0) then { s with pkg := { s.pkg with pdcnt := vset s.pkg.pdcnt (n - 0x1C0) v } }
  else s

/-- Registers of a core. -/
def isCoreReg (n : Nat) : Bool := n == 0x0C0 || (0x200 ≤ n && n ≤ 0x22B)

/-- Registers of a die. -/
def isDieReg (n : Nat) : Bool := 0x0F8 ≤ n && n ≤ 0x0FB

/-- What a SYSR of the acting strand returns (04 R109). -/
def State.sysReg (s : State) (n : Nat) : Word :=
  if (match regInfo n with | some i => i.wo | none => true) then 0
  else if ctlRegs.contains n then s.cur.genCtl n
  else if isCoreReg n then (s.core s.cur.coreNo).reg n
  else if isDieReg n then (s.die (s.cur.cluster / 5)).reg n
  else match s.cur.reg n with
    | some v => v
    | none => match s.curPart.reg n with
      | some v => v
      | none => s.fabricReg s.curPart n

end Sys2Proof.Machine
end

