-- ==== Sys2Proof/Machine/Context.lean ====
section
/-!
DEFINITION. A strand leaves its core and returns to it (03 R99, 13 R283 to R289): pre-emption, the context image, parking and
re-readying (14 R307 to R309), and the traps that the machine takes by itself (08 R229, 13 R294).
-/
namespace Sys2Proof.Machine

/-! ## Budgets and waits of a strand -/

/-- An entry that met a fault of its translation when it was placed again. -/
def SbEntry.fails (e : SbEntry) : Bool := e.bad.isSome

/-- Translates accesses of the store buffer again (14 R310, 16 R332): those of `which` that have not left for a remote node. -/
def State.relocate (s : State) (which : SbEntry → Bool) : State :=
  s.cur.sbuf.foldl (fun s e => match e.kind.need with
    | some n =>
      if which e && e.gw.isNone then
        match s.resolve n e.loc.va.toNat with
        | (s, .ok l) => s.onCur fun st => st.setBuf { e with loc := l, bad := none }
        | (s, .error c) => s.onCur fun st => st.setBuf { e with bad := some c }
      else s
    | none => s) s

/-- Translates the pending loads again. -/
def State.relocateLoads (s : State) : State :=
  s.cur.pend.foldl (fun s p =>
    if p.gw.isSome then s
    else match s.resolve ⟨false, !p.plain⟩ p.loc.va.toNat with
      | (s, .ok l) => s.onCur fun st => st.setPend { p with loc := l, bad := none }
      | (s, .error c) => s.onCur fun st => st.setPend { p with bad := some c }) s

/-- The strand with every access withdrawn from its home, to be placed again with a fresh budget (06 R179, 13 R284, R285). A remote
request that has left stays with its store-buffer entry. A pod whose wait is withdrawn begins nothing more; the watch of an ALD.W goes, with what
its block has staged, unless PREMAX lets the word go on (07 R217). -/
def Strand.withdrawn (st : Strand) : Strand :=
  { st with sbuf := st.sbuf.map fun e => { e with waiter := none, exhausted := false, budget := st.genBudget }
            pend := st.pend.map fun p => { p with waiter := none, exhausted := false, budget := st.genBudget }
            cur := st.cur.map fun c =>
              let lost := c.watch.isSome && !st.saveOpen
              { c with watch := if lost then none else c.watch, staged := if lost then [] else c.staged
                       pods := c.pods.map fun p => { p with waiter := none, halt := p.halt || p.waiter.isSome } } }

/-- Withdraws the waits of strand `sid` (13 R284, step 3). -/
def State.withdraw (s : State) (sid : Nat) : State :=
  let watches := (s.strand sid).any Strand.saveOpen
  ((s.dropArrivals sid).dropWaiters fun w => w.sid == some sid && !(w.watch && watches) && (match w.src with | .copy _ _ => false | _ => true)).asStrand
    sid fun s =>
    if s.cur.id == sid then s.onCur Strand.withdrawn else s

/-! ## The context image (13 R286, R287) -/

/-- The 64 bytes of the image's header. -/
def Strand.header (st : Strand) (time : Nat) : List Byte :=
  let parked := st.parkKey.isSome
  let pendGen := st.pend.any (fun p => p.target.isNone) || !st.sbuf.isEmpty
  let call := st.cur.any fun c => c.e.call && !c.blk
  let flags := 1 + (if st.half then 2 else 0) + (if st.cur.isSome then 4 else 0) + (if parked then 8 else 0) +
    (if pendGen then 16 else 0) + (if call then 32 else 0)
  leBytes 1 2 ++ leBytes flags 1 ++ leBytes (if parked then 0 else cPRE) 1 ++ leBytes st.lanes 1 ++ leBytes 0 3 ++
    leBytes st.icg.length 2 ++ leBytes st.ics.length 2 ++ leBytes 0 4 ++ leBytes time 8 ++ leBytes st.image.toNat 8 ++ leBytes 0 32

/-- The held word as the image records it. -/
def Strand.heldBytes (st : Strand) : List Byte :=
  match st.cur with
  | none => leBytes 0 104
  | some c =>
    let w := c.heldWord
    leBytes (w % 2 ^ 64) 8 ++ leBytes (w / 2 ^ 64 % 2 ^ 48) 8 ++ leBytes c.e.carried.toNat 8 ++ leBytes c.e.prov.toNat 8 ++
      leBytes c.e.seq.toNat 8 ++ c.startix.toList.flatMap fun x => leBytes x.toNat 8

/-- An anchor entry as the image records it: 16 bytes. -/
def anchorBytes (a : Anchor) : List Byte := leBytes a.a.toNat 8 ++ leBytes a.e.toNat 8

def anchorOf (v : Nat) : Anchor := ⟨BitVec.ofNat 64 v, BitVec.ofNat 16 (v / 2 ^ 64)⟩

/-- Bytes of a mask register, and entries of an anchor register, in the strand's shape. -/
def Strand.maskBytes (st : Strand) : Nat := if st.half then 64 else 128

/-- An item of the emit queue as the image holds it, in 56 bytes: a word of up to 112 bits, whether it is a word, a block call or a control
write, and its carried scalar, PROV, SEQ, push number and successor. The layout is the model's own (log entry 36). -/
def itemBytes : QItem → List Byte
  | .word e => leBytes e.bits 14 ++ leBytes (if e.call then 2 else 1) 2 ++ leBytes e.carried.toNat 8 ++ leBytes e.prov.toNat 8 ++
      leBytes e.seq.toNat 8 ++ leBytes e.ord 8 ++ leBytes e.succ.toNat 8
  | .ctl n v => leBytes 0 14 ++ leBytes 3 2 ++ leBytes v.toNat 8 ++ leBytes n 8 ++ leBytes 0 24

def itemOf (v : Nat) : QItem :=
  let w (i : Nat) : Nat := bits v (64 * i) 64
  if bits v 112 16 == 3 then .ctl (w 3) (BitVec.ofNat 64 (w 2))
  else .word { call := bits v 112 16 == 2, bits := bits v 0 112, carried := BitVec.ofNat 64 (w 2), prov := BitVec.ofNat 64 (w 3)
               seq := BitVec.ofNat 48 (w 4), ord := w 5, succ := BitVec.ofNat 64 (w 6) }

/-- What a save writes: offsets in the image and bytes (R286, R287). A clean register is not written. -/
def Strand.imagePieces (st : Strand) (time : Nat) : List (Nat × List Byte) :=
  let f := st.files
  let each (n base : Nat) (p : Nat → Nat × List Byte) : List (Nat × List Byte) :=
    (List.range n).filterMap fun i => if f.dirty.getLsbD (base + i) then some (p i) else none
  [(0, st.header time), (0x40, st.heldBytes),
    (0x100, (List.range 32).flatMap fun i => leBytes (vget st.gen.s i).toNat 8),
    (0x200, (List.range 256).flatMap fun n => leBytes ((st.reg n).getD 0).toNat 8),
    (0xA00, leBytes st.queue.length 8 ++ st.queue.flatMap itemBytes), (0x3080, f.vlt.toList.flatMap fun n => leBytes n 1), (0x3100, leBytes 0 512),
    (0x18000, (st.icg ++ st.ics).flatMap fun a => leBytes a.toNat 8)] ++
  each 64 0 (fun i => (0x4000 + 512 * i, leBytes (vget f.v i).toNat (8 * vget f.vlt i))) ++
  each 8 64 (fun i => (0x2A00 + 128 * i, leBytes (vget f.m i).toNat st.maskBytes)) ++
  each 16 72 (fun i => (0xC000 + 1024 * i, ((vget f.k i).toList.take st.lanes).flatMap anchorBytes)) ++
  (if st.mctl.getLsbD 8 then each (if st.half then 4 else 8) 88 (fun i => (0x10000 + 4096 * i, leBytes (vget f.z i).toNat 4096)) else []) ++
  each 4 96 (fun i => (0x2E00 + 32 * i, leBytes (vget f.cb i).toNat 32)) ++
  each 4 100 (fun i => (0x2E80 + 128 * i, ((vget f.amh i).slots.toList.flatMap fun x => leBytes x.toNat 4) ++ leBytes (vget f.amh i).ap.toNat 1))

/-- Writes pieces of the acting strand's image, or stops at the first that faults. -/
def State.imageWrite (s : State) : List (Nat × List Byte) → State × Except Nat Unit
  | [] => (s, .ok ())
  | (o, bs) :: t =>
    match s.unitPutMany s.cur.part s.cur.coreNo (s.cur.image.toNat + o) bs with
    | (s, .ok _) => State.imageWrite s t
    | r => r

/-- Dirty tags that a completed save or restore clears; tiles that were not written keep theirs. -/
def Strand.cleanTags (st : Strand) : Strand :=
  { st with files := { st.files with dirty := if st.mctl.getLsbD 8 then 0 else st.files.dirty &&& BitVec.ofNat 104 (255 * 2 ^ 88) } }

/-! ## Parking records (14 R307, R308) -/

/-- The bucket of a park key. -/
def parkHash (key : Nat) : Nat := bits key 3 12 ^^^ bits key 15 12 ^^^ bits key 27 12 ^^^ bits key 39 12

/-- The address of the bucket of a key. -/
def Part.bucket (p : Part) (key : Nat) : Nat := p.parkbase.toNat + 8 * parkHash key

/-- A record of the event stream about the acting strand. -/
def State.strandRecord (s : State) (ty code addr : Nat) : State :=
  let st := s.cur
  s.eventRecord st.part { ty := ty, q := (s.node st.nid).elim 0 Node.q, prio := (s.node st.nid).elim 0 Node.eff, code := code
                          gidx := st.ident.gidx.toNat, sidx := st.ident.sidx.toNat, cluster := st.cluster, addr := addr }

/-- A write of the bench at a park table or record. -/
def State.benchPut (s : State) (pid va : Nat) (bs : List Byte) : State × Except Nat Unit := s.unitPut pid (s.part pid).benchCore va bs

def State.benchGet (s : State) (pid va n : Nat) : State × Except Nat Nat := s.unitGet pid (s.part pid).benchCore va n

/-- The address of the link that holds record `r` in the list that the link at `at` begins. -/
def findLink (pid r : Nat) : Nat → Nat → State → State × Option Nat
  | 0, _, s => (s, none)
  | fuel + 1, at', s =>
    match s.benchGet pid at' 8 with
    | (s, .error _) => (s, none)
    | (s, .ok n) => if n == 0 then (s, none) else if n == r then (s, some at') else findLink pid r fuel n s

/-- Records of the bucket whose link is at `at`, the newest first. -/
def bucketRecords (pid : Nat) : Nat → Nat → State → State × List Nat
  | 0, _, s => (s, [])
  | fuel + 1, at', s =>
    match s.benchGet pid at' 8 with
    | (s, .error _) => (s, [])
    | (s, .ok n) =>
      if n == 0 then (s, []) else
      let (s, l) := bucketRecords pid fuel n s
      (s, n :: l)

/-- Unlinks the park record of the acting strand. -/
def State.unlinkRecord (s : State) : State :=
  let st := s.cur
  match st.parkKey with
  | none => s
  | some key =>
    match findLink st.part st.record.toNat (s.strands.length + 1) ((s.part st.part).bucket key) s with
    | (s, none) => s
    | (s, some at') =>
      match s.benchGet st.part st.record.toNat 8 with
      | (s, .ok n) => (s.benchPut st.part at' (leBytes n 8)).1
      | (s, .error _) => s

/-! ## Leaving the core -/

/-- A save begins (13 R284, steps 1 to 3): the generator stops at its boundary, waits are withdrawn, and the stream may finish its word
until PREMAX expires; with CYC = 0 it stops at its next boundary (R283). Samples of a park report PARKED (R296). -/
def State.beginSave (s : State) (sid : Nat) : State :=
  let s := (s.withdraw sid).asStrand sid fun s =>
    if s.cur.id == sid then s.onCur fun st =>
      let why := if st.parkKey.isSome then wPARKED else wPREEMPT
      { st with status := .saving, preempt := false, saveOpen := fieldOf st.premax 0 16 != 0, stall := why, sstall := why }
    else s
  if (s.strand sid).any fun st => st.cur.isSome then s.due (.premaxExpiry sid) else s.due (.contextSave sid)

/-- A pre-emption request reaches strand `sid` (03 R99, 08 R233): taken, held until its handler returns, or without effect. -/
def State.preemptStrand (s : State) (sid : Nat) : State :=
  match s.strand sid with
  | none => s
  | some st =>
    if st.status != .running then s
    else if st.handling || st.fault.isSome then s.asStrand sid fun s => s.onCur fun st => { st with preempt := true }
    else (s.asStrand sid fun s => s.count 0x0E 1).beginSave sid

/-- PREEMPT_REQUEST (13 R284): from the distributor, S firmware or YIELD. -/
def execPreemptRequest (sid : Nat) (s : State) : Res := .next (s.preemptStrand sid)

/-- What the stopped word has covered is merged, as at any stop (01 R30). -/
def Strand.stopMerge (st : Strand) : Strand :=
  match st.cur with
  | none => st
  | some c => { st.merge c.run true with cur := some { c with run := Run.none }, saveOpen := false }

/-- PREMAX_EXPIRY (13 R284): every pod stops at its boundary, and the save goes on. -/
def execPremaxExpiry (sid : Nat) (s : State) : Res :=
  match s.strand sid with
  | none => .next s
  | some st =>
    if st.status != .saving then .next s
    else .next ((s.asStrand sid fun s => s.onCur Strand.stopMerge).due (.contextSave sid))

/-- Whether something of a strand that leaves its core has still to be answered: a remote request of its word, or an atomic in a chain, whose old
value belongs to the image (06 R179, 16 R324). -/
def State.awaited (s : State) (st : Strand) : Bool :=
  (st.word.pods.any fun p => p.gw.isSome && (p.gw.bind s.gwReply).isNone) ||
    s.chains.any fun c => c.result.isNone && (match c.src with | .buf sid _ | .pod sid _ => sid == st.id | _ => false)

/-- The engines are done: captured matrix words retire, and copies that have performed (13 R284, step 4; 12 R282). -/
def State.finishEngines (s : State) : State :=
  let s := s.cur.captured.foldl (fun s _ => s.engineRetire) s
  s.cur.copies.foldl (fun s c => s.copyRun c.handle) s

/-- A save or restore that faults ends the strand (13 R287): its park record is unlinked, and R371 ends its group. -/
def State.saveFatal (s : State) (cause : Nat) : State :=
  let s := if s.cur.parkKey.isSome then s.unlinkRecord else s
  s.groupFatal s.cur cause

/-- CONTEXT_SAVE (13 R284, step 5; R287): the save engine writes the image of a strand that is leaving its core, once its word stands at its
boundary and nothing of it is under way; an answer makes the save due again. -/
def execContextSave (sid : Nat) (s : State) : Res :=
  match s.strand sid with
  | none => .next s
  | some st =>
    if st.status != .saving then .next s
    else if s.awaited st then .next s
    else if s.mustFinish st then .next { s with sched := .focus sid :: .stream :: s.sched, events := s.events ++ [.contextSave sid] }
    else .next ((s.withdraw sid).asStrand sid fun s =>
      let s := (s.onCur Strand.stopMerge).finishEngines
      if s.cur.copies.any fun c => c.st == .running then s
      else
        match s.imageWrite (s.cur.imagePieces s.pkg.time) with
        | (s, .error c) => s.saveFatal c
        | (s, .ok _) => (s.onCur Strand.cleanTags).due (.saveComplete sid))

/-! ## Returning -/

/-- Strand `sid` is re-readied (14 R309, 19 R373): it returns to its own core, once its group holds its cores. -/
def State.reready (s : State) (sid : Nat) : State :=
  let s := s.asStrand sid fun s =>
    if s.cur.id != sid then s
    else
      let s := match s.cur.parkKey with | some k => s.strandRecord 0x08 0 k | none => s
      s.onCur fun st => { st with status := .ready, parkKey := none, parkSrc := none, recState := 0 }
  match (s.strand sid).bind fun st => s.group st.gid with
  | some g => if g.evicted then s.due (.evictRestore g.id) else if g.pre then s else s.due (.contextRestore sid)
  | none => s.due (.contextRestore sid)

/-- The FEB of an access whose park record could not be written (14 R318): the strand goes on as if PARK were 0. -/
def State.parkFailed (s : State) : State :=
  let p := s.curPart
  let s := s.putPart { p with recFail := p.recFail + 1 }
  let src := s.cur.parkSrc
  let s := s.onCur fun st => { st with status := .running, parkKey := none, parkSrc := none, stall := wNone, sstall := wNone
                                       preempt := (s.group st.gid).any Group.pre
                                       cur := st.cur.map fun c => { c with pods := c.pods.map fun q => { q with halt := false } } }
  match src with
  | some (.load _ i) => match s.cur.pend.find? fun p => p.id == i with
    | some p => if p.target.isSome then s.onCur fun st => st.setPend { p with exhausted := true } else s.loadFault p cFEB
    | none => s
  | some (.buf _ i) => match s.cur.sbuf.find? fun e => e.id == i with
    | some e => s.bufFault e cFEB
    | none => s
  | some (.pod _ p) => { s.onCur (fun st => { st with cur := st.cur.map fun c => { c with pods := c.pods.modify p fun q => { q with exhausted := true } } }) with
      sched := .focus s.cur.id :: .stream :: s.sched }
  | _ => s

/-- SAVE_COMPLETE (14 R309, 03 R99): the bench finds the strand parked or pre-empted, or re-readies one that was woken meanwhile. A
pre-empted strand is queued at once unless the bench is taking its group's cores. -/
def execSaveComplete (sid : Nat) (s : State) : Res :=
  match s.strand sid with
  | none => .next s
  | some st =>
    if st.status != .saving then .next s
    else
      let s := if st.parkKey.isSome then
          if st.recState == 2 then (s.asStrand sid State.unlinkRecord).reready sid
          else s.asStrand sid fun s =>
            match s.benchPut s.cur.part (s.cur.record.toNat + 25) [1] with
            | (s, .ok _) => s.onCur fun st => { st with status := .parked, recState := 1 }
            | (s, .error _) => s.unlinkRecord.parkFailed
        else
          let s := s.asStrand sid fun s => s.onCur fun st => { st with status := .preempted }
          if (s.group st.gid).any fun g => g.pre then s else s.reready sid
      .next (if ((s.group st.gid).any fun g => g.pre) && s.groupOff st.gid then s.due (.evict st.gid) else s)

/-- A word that the stream is to execute again from where its pods stand (03 R85, 08 R232, 13 R285). Unless its encoding has been
altered, its active elements stay those of its first issue: it may have written its own mask (05 R145; log entry 30). -/
def Strand.reissue (st : Strand) (e : Entry) (blk : Bool) (spc nspc : Word) (startix : Vector Word 8) (skip : Bool)
    (mask : Option (Nat × BitVec 1024)) : Strand :=
  let mask := (mask.filter fun m => m.1 == e.bits).map Prod.snd
  let pods := (List.range st.pods).map fun p => st.podAt (fieldOf (vget startix p) 16 6, fieldOf (vget startix p) 0 16)
  let c := { Cur.fresh e with blk := blk, spc := spc, nspc := nspc, w := e.bits, masked := mask.isSome, won := true, mask := mask.getD 0 }
  { st with cur := some { c with pods := pods, skipBrk := skip } }

/-- Loads pieces of an image: a value of `n` bytes at an offset. -/
def State.imageRead (s : State) (off n : Nat) : State × Except Nat Nat :=
  s.unitGetMany s.cur.part s.cur.coreNo (s.cur.image.toNat + off) n

/-- Chains reads of an image. -/
def readThen (r : State × Except Nat Nat) (f : State → Nat → State × Except Nat Unit) : State × Except Nat Unit :=
  match r with
  | (s, .error c) => (s, .error c)
  | (s, .ok v) => f s v

/-- Loads a register of each number with `p` and puts it. -/
def readEach (put : Nat → Nat → Strand → Strand) (place : Nat → Strand → Nat × Nat) : List Nat → State → State × Except Nat Unit
  | [], s => (s, .ok ())
  | i :: t, s =>
    let (o, n) := place i s.cur
    readThen (s.imageRead o n) fun s v => readEach put place t (s.onCur (put i v))

/-- Steps of a restore, until one faults. -/
def andThenOk (a b : State → State × Except Nat Unit) (s : State) : State × Except Nat Unit :=
  match a s with
  | (s, .ok _) => b s
  | r => r

/-- An f32 slot of an amax history as the image holds it. -/
def amhOf (v : Nat) : Amh := ⟨Vector.ofFn fun i : Fin 16 => BitVec.ofNat 32 (v >>> (32 * i.val)), BitVec.ofNat 4 (v >>> 512)⟩

/-- Loads the registers of the acting strand from its image (R286, R287). -/
def loadContext : State → State × Except Nat Unit :=
  let files (f : Files → Files) (st : Strand) : Strand := { st with files := f st.files }
  let steps : List (State → State × Except Nat Unit) :=
    [readEach (fun i v st => st.put (.s (Fin.ofNat 32 i)) (BitVec.ofNat 64 v)) (fun i _ => (0x100 + 8 * i, 8)) (List.range 32),
      readEach (fun i v st => st.loadReg i (BitVec.ofNat 64 v)) (fun i _ => (0x200 + 8 * i, 8)) (List.range 256),
      readEach (fun i v => files fun f => { f with vlt := vset f.vlt i (min v 64) }) (fun i _ => (0x3080 + i, 1)) (List.range 64),
      readEach (fun i v => files fun f => { f with v := vset f.v i (BitVec.ofNat 4096 v) })
        (fun i st => (0x4000 + 512 * i, 8 * vget st.files.vlt i)) (List.range 64),
      readEach (fun i v => files fun f => { f with m := vset f.m i (BitVec.ofNat 1024 v) }) (fun i st => (0x2A00 + 128 * i, st.maskBytes)) (List.range 8),
      readEach (fun i v => files fun f => { f with k := vset f.k i (Vector.ofFn fun j : Fin 64 => anchorOf (bits v (128 * j.val) 80)) })
        (fun i st => (0xC000 + 1024 * i, 16 * st.lanes)) (List.range 16),
      readEach (fun i v => files fun f => { f with z := vset f.z i (BitVec.ofNat 32768 v) })
        (fun i st => (0x10000 + 4096 * i, if st.mctl.getLsbD 8 && (!st.half || i < 4) then 4096 else 0)) (List.range 8),
      readEach (fun i v => files fun f => { f with cb := vset f.cb i (BitVec.ofNat 256 v) }) (fun i _ => (0x2E00 + 32 * i, 32)) (List.range 4),
      readEach (fun i v => files fun f => { f with amh := vset f.amh i (amhOf v) }) (fun i _ => (0x2E80 + 128 * i, 65)) (List.range 4)]
  steps.foldr andThenOk fun s => (s, .ok ())

/-- The queue entries of an image, in their order (R285). -/
def loadQueue (s : State) : State × Except Nat Unit :=
  readThen (s.imageRead 0xA00 8) fun s v =>
    let n := min v 146
    readThen (s.imageRead 0xA08 (56 * n)) fun s q =>
      (s.onCur fun st => { st with queue := (List.range n).map fun i => itemOf (bits q (448 * i) 448) }, .ok ())

/-- The held word of an image is issued again, first (R285), with a stop of it that is still to be taken. -/
def loadHeld (s : State) : State × Except Nat Unit :=
  match s.cur.cur with
  | none => (s, .ok ())
  | some c => readThen (s.imageRead 0x40 104) fun s v =>
    let w (i : Nat) : Word := BitVec.ofNat 64 (v >>> (64 * i))
    let word := (w 0).toNat + (w 1).toNat * 2 ^ 64
    let e := { c.e with bits := word, carried := w 2, prov := w 3, seq := (w 4).setWidth 48 }
    (s.onCur fun st =>
      let st := st.reissue e c.blk c.spc c.nspc (Vector.ofFn fun i : Fin 8 => w (5 + i.val)) c.skipBrk (if c.masked then some (c.w, c.mask) else none)
      { st with cur := st.cur.map fun d => { d with due := c.due } }, .ok ())

/-- The locked lines of an image are requested again, in list order (R289). -/
def loadLocks (s : State) : State × Except Nat Unit :=
  readThen (s.imageRead 8 4) fun s v =>
    let n := v % 2 ^ 16 + v / 2 ^ 16
    readThen (s.imageRead 0x18000 (8 * n)) fun s l =>
      ((List.range n).foldl (fun s i => (s.lockLine (BitVec.ofNat 64 (l >>> (64 * i)))).1) (s.onCur fun st => { st with icg := [], ics := [] }), .ok ())

/-- The accesses of a restored strand are placed again: waiting loads at once, the store buffer in its turn; an abandoned PWAIT
executes again (04 R103). -/
def State.replace (s : State) : State :=
  let ps := s.cur.pend.filter fun p => p.target.isNone
  let s := s.onCur fun st => { st.withdrawn with pend := ps.map fun p => { p with waiter := none, exhausted := false, budget := st.genBudget } }
  let s := s.relocateLoads.relocate fun _ => true
  s.cur.pend.foldl (fun s p => s.attemptLoad p) s

/-- CONTEXT_RESTORE (13 R285 to R287): a ready strand returns to its core, whose RC and UO lines are invalidated (17 R347). An image of
another format or shape ends it; the spec names no cause for that, which is left free (log entry 13). -/
def execContextRestore (sid : Nat) (s : State) : Res :=
  match s.strand sid with
  | none => .next s
  | some st =>
    if st.status != .ready || (s.group st.gid).any (fun g => g.evicted || g.pre) then .next s
    else .next (s.asStrand sid fun s =>
      match s.imageRead 0 8 with
      | (s, .error c) => s.saveFatal c
      | (s, .ok v) =>
        if v % 2 ^ 16 != 1 || bits v 32 8 != s.cur.lanes then s.saveFatal (openCause (Config.freeWord s.tick 1))
        else match andThenOk loadContext (andThenOk loadQueue (andThenOk loadHeld loadLocks)) (s.l1Invalidate s.cur.coreNo true) with
          | (s, .error c) => s.saveFatal c
          | (s, .ok _) =>
            (s.onCur fun st => { { st with files := { st.files with dirty := st.files.dirty &&& BitVec.ofNat 104 (255 * 2 ^ 88) } } with
              status := .running, stall := wNone, sstall := wNone }).replace)

/-! ## Park and wake at the bench (14 R309) -/

/-- The record of the acting strand: its bytes at the park (14 R308). -/
def Strand.parkRecord (st : Strand) (next key : Nat) : List Byte :=
  let (c, t) := match st.parkCond with | .full => (1, 0) | .empty => (2, 0) | .prog t => (3, t.toNat)
  leBytes next 8 ++ leBytes key 8 ++ leBytes st.image.toNat 8 ++ leBytes c 1 ++ leBytes 0 7 ++ leBytes t 8 ++ leBytes st.ident.gidx.toNat 4 ++
    leBytes st.ident.sidx.toNat 1 ++ leBytes st.ident.stage.toNat 1 ++ leBytes 0 18

/-- PARK (14 R309): the bench links the record of the strand at the head of its bucket. -/
def execPark (sid key : Nat) (s : State) : Res :=
  match s.strand sid with
  | none => .next s
  | some st =>
    if st.parkKey != some key || st.status != .saving then .next s
    else .next (s.asStrand sid fun s =>
      let pid := s.cur.part
      let b := (s.part pid).bucket key
      match s.benchGet pid b 8 with
      | (s, .error _) => s.parkFailed
      | (s, .ok head) =>
        match s.benchPut pid s.cur.record.toNat (s.cur.parkRecord head key) with
        | (s, .error _) => s.parkFailed
        | (s, .ok _) =>
          match s.benchPut pid b (leBytes s.cur.record.toNat 8) with
          | (s, .error _) => s.parkFailed
          | (s, .ok _) => (s.onCur fun st => { st with recState := 0 }).strandRecord 0x07 0 key)

/-- A WAKE at the record of strand `sid`: marked as woken while its save runs, else unlinked and re-readied. -/
def State.wakeStrand (s : State) (sid : Nat) : State :=
  match s.strand sid with
  | none => s
  | some st =>
    if st.status == .saving then
      s.asStrand sid fun s => match s.benchPut s.cur.part (s.cur.record.toNat + 25) [2] with
        | (s, .ok _) => s.onCur fun st => { st with recState := 2 }
        | (s, .error _) => s.unlinkRecord.parkFailed
    else if st.status == .parked then (s.asStrand sid State.unlinkRecord).reready sid
    else s

/-- Wakes every strand of a partition parked on a key, oldest record first. -/
def State.wakeKey (s : State) (pid key : Nat) : State :=
  let (s, rs) := bucketRecords pid (s.strands.length + 1) ((s.part pid).bucket key) s
  rs.reverse.foldl (fun s r =>
    match s.strands.find? fun t => t.part == pid && t.record.toNat == r && t.parkKey == some key with
    | some t => s.wakeStrand t.id
    | none => s) s

/-- The partition that a park key belongs to. -/
def State.partOfKey (s : State) (key : Nat) : Option Nat := (s.partOfDie (dieOfKey key)).map Part.id

/-- WAKE (14 R309): a WAKE that matches no record has no effect. -/
def execWake (key : Nat) (s : State) : Res :=
  match s.partOfKey key with
  | some pid => .next (if (s.part pid).parkbase == 0 then s else s.wakeKey pid key)
  | none => .next s

/-! ## Traps that the machine takes (08 R229) -/

/-- Whether the fault that is due at a strand may be taken: every word emitted before it has retired, and every earlier access has
performed (03 R97, 04 R103). -/
def Strand.faultReady (st : Strand) : Bool :=
  match st.fault with
  | none => false
  | some f =>
    st.status == .running &&
      (if f.stream then st.drained
        else st.idle && (match f.entry with
          | some e => (st.sbuf.all fun b => e.id ≤ b.id) && st.pend.all fun p => e.id ≤ p.id || p.target.isSome
          | none => true))

/-- The breakpoint of a generator access that may be taken at a strand: no fault is due before it, and the handlers of its access are the
ones active now (13 R292). -/
def Strand.breakReady (st : Strand) : Option Pend :=
  if st.status == .running && st.fault.isNone && st.idle && st.drained then st.brks.find? fun b => b.depth == st.depth else none

/-- TAKE_TRAP (08 R229): takes the fault that is due at a strand, or the breakpoint that a generator access has met. -/
def execTakeTrap (sid : Nat) (s : State) : Res :=
  .next (s.asStrand sid fun s =>
    if s.cur.id != sid then s
    else if !s.cur.faultReady then (match s.cur.breakReady with | some b => s.takeBreak b | none => s)
    else match s.cur.fault with
      | none => s
      | some f => if f.stream then (match s.cur.cur with | some c => s.takeStream f c | none => s) else s.takeDeferred f)

/-- An INT is taken at a generator boundary (08 R225, R229): TPROV is the boundary, and no instruction is recorded. A PWAIT that stalls there
is abandoned, and executes again. -/
def State.takeInt (s : State) (val : Word) : State :=
  let sid := s.cur.id
  let waits := (s.cur.pend.filter fun p => p.target.isSome).map PendLoad.id
  let s := s.dropWaiters fun w => match w.src with | .load i id => i == sid && waits.contains id | _ => false
  (s.onCur fun st => { st with pend := st.pend.filter fun p => p.target.isNone }).takeTrap { cause := cINT, val := val, epc := s.cur.gen.pc, prov := s.cur.gen.pc, seq := s.cur.nseq }

/-- Whether an INT may be taken now: at a boundary, with every pushed word retired, nothing in the store buffer and no handler active (R229,
R230, R233). Waiting loads go on. -/
def Strand.intReady (st : Strand) : Bool :=
  st.status == .running && st.idle && st.sbuf.isEmpty && !st.handling && st.fault.isNone && st.brks.isEmpty

/-- INT (08 R229): taken when the strand stands at a boundary, else pending; it lapses with the strand. -/
def execInt (sid : Nat) (val : Word) (s : State) : Res :=
  .next (s.asStrand sid fun s =>
    if s.cur.id != sid || s.cur.status == .ended || s.cur.status == .unbound then s
    else if s.cur.intReady && s.cur.ints.isEmpty then s.takeInt val
    else s.onCur fun st => { st with ints := st.ints ++ [val] })

end Sys2Proof.Machine
end

