-- ==== Sys2Proof/Machine/HomeEv.lean ====
section
/-!
DEFINITION. The steps of homes and of the store buffer (03 R94, 04 R122, R128, 14 R305, R309, 16 R324).
-/
namespace Sys2Proof.Machine

/-! ## The store buffer and the combining of atomics -/

/-- An entry of the acting strand that a bank holds chained (16 R324). -/
def State.chained (s : State) (e : SbEntry) : Bool := s.chains.any fun c => c.src == .buf s.cur.id e.id

/-- The head atomic of the acting strand joins the chain of its line, in its order of arrival; the first one's line is fetched then (16
R324). -/
def State.joinHead (s : State) (e : SbEntry) : State :=
  match e.kind with
  | .amo fn n _ _ _ v c =>
    let t := s.chainJoin (.buf s.cur.id e.id) e.loc n fn v.toNat c.toNat
    if s.chaining e.loc then t else t.due (.combiningApply (lineOf e.loc.key))
  | _ => s

/-- Whether an entry is an atomic that acts at a bank of this package. -/
def SbEntry.atomic (e : SbEntry) : Bool := match e.kind with | .amo _ _ _ _ _ _ _ => !e.loc.gw && e.bad.isNone | _ => false

/-- STORE_BUFFER_PERFORM (03 R94): the head entry of a strand's store buffer performs, if it may; an atomic whose line is being fetched for
another waits behind that one (16 R324). -/
def execStoreBufferPerform (sid : Nat) (s : State) : Res :=
  .next (s.asStrand sid fun s =>
    if s.cur.id != sid || s.cur.status != .running || s.lost s.cur.part then s
    else match s.bufHead with
      | some e => if s.chained e then s else if e.atomic && s.chaining e.loc then s.joinHead e else s.performBuf e
      | none => s)

/-- The head atomic of the acting strand reaches a bank whose line is on its way, and is chained there (16 R324). -/
def State.chainAtom (s : State) : State :=
  match s.bufHead with
  | some e => if !e.atomic || s.chained e || s.cur.status != .running then s else s.joinHead e
  | none => s

/-- The bank ALU applies an atomic of its chain: a generator's writes its register, an element's waits for its word to take it. -/
def State.applyChain (s : State) (c : Chain) : State :=
  match c.src with
  | .buf sid i => s.asStrand sid fun s =>
    (match s.cur.sbuf.find? fun e => e.id == i with
      | some e => if s.cur.id == sid && !s.lost s.cur.part then s.performBuf e else s
      | none => s)
  | .pod sid _ => s.asStrand sid fun s =>
    if s.cur.id != sid || s.lost s.cur.part then s
    else match s.atomAt c.loc c.bytes c.fn c.b c.cmp (faddOf c.fn) with
      | (s, .ok (old, fl)) => { s with chains := s.chains ++ [{ c with result := some (0, old, fl) }] }
      | (s, .error cause) => { s with chains := s.chains ++ [{ c with result := some (cause, 0, 0) }] }
  | _ => s

/-- A save that waits for a chained atomic goes on (13 R284). -/
def State.chainSaved (s : State) (c : Chain) : State :=
  match c.src with
  | .buf sid _ | .pod sid _ => if (s.strand sid).any fun t => t.status == .saving then s.due (.contextSave sid) else s
  | _ => s

/-- COMBINING_APPLY (16 R324): the line has come, and the bank ALU applies the chained atomics in their order of arrival. -/
def execCombiningApply (key : Nat) (s : State) : Res :=
  let mine (c : Chain) : Bool := c.line == lineOf key && c.result.isNone
  .next ((s.chains.filter mine).foldl (fun (s : State) c => (s.applyChain c).chainSaved c) { s with chains := s.chains.filter fun c => !mine c }).remoteAll

/-! ## Waiters -/

/-- The waiter leaves the table. -/
def State.dropWaiter (s : State) (wid : Nat) : State := s.dropWaiters fun w => w.id == wid

/-- The next step is the stream's of strand `sid`: a pod checks again. -/
def State.runStream (s : State) (sid : Nat) : State := { s with sched := .focus sid :: .stream :: s.sched }

/-- Changes the pod that a waiter of the acting strand belongs to. -/
def Strand.onWaiting (st : Strand) (wid : Nat) (f : Pod → Pod) : Strand :=
  { st with cur := st.cur.map fun c => { c with pods := c.pods.map fun p => if p.waiter == some wid then f p else p } }

/-- Whether a waiter's strand is in service: nothing of a partition that has lost a stack goes on (22 R401). -/
def State.waiterLost (s : State) (w : Waiter) : Bool := (w.sid.bind s.strand).any fun t => s.lost t.part

/-- The access of a waiter is checked again at its home (04 R122). -/
def State.recheck (s : State) (w : Waiter) : State :=
  let s := s.dropWaiter w.id
  match w.src with
  | .load sid i => s.asStrand sid fun s =>
    (match s.cur.pend.find? fun p => p.id == i && p.waiter == some w.id with
      | some p =>
        if s.cur.id != sid then s
        else if p.target.isSome then s.onCur fun st => st.setPend { p with waiter := none }
        else s.attemptLoad { p with waiter := none }
      | none => s)
  | .buf sid i => s.asStrand sid fun s =>
    (match s.cur.sbuf.find? fun e => e.id == i && e.waiter == some w.id with
      | some e => if s.cur.id == sid then s.performBuf { e with waiter := none } else s
      | none => s)
  | .pod sid _ => (s.asStrand sid fun s => if s.cur.id == sid then s.onCur fun st => st.onWaiting w.id fun p => { p with waiter := none } else s).runStream sid
  | .copy sid h => s.due (.copyRetire sid h)
  | .remote rid => s.remoteRecheck rid
  | .node nid => s.due (.nodeReady nid)
  | .queue p q => s.due (.take p (Fin.ofNat 64 q))

def State.waiter (s : State) (wid : Nat) : Option Waiter := findBy Waiter.id wid s.waiters

/-- WAITER_RECHECK (04 R122): the sett of a waiting access has changed, and its home checks again. -/
def execWaiterRecheck (wid : Nat) (s : State) : Res :=
  match s.waiter wid with
  | some w => .next (if w.changed && !w.watch && !w.spent && !s.waiterLost w then s.recheck w else s)
  | none => .next s

/-- REJECT_RETRY (14 R305): a rejected access is sent again. -/
def execRejectRetry (wid : Nat) (s : State) : Res :=
  match s.waiter wid with
  | some w => .next (if w.rejected && !s.waiterLost w then s.recheck w else s)
  | none => .next s

/-! ## Mark and re-check (14 R309) -/

/-- FEMODE.PARK as the access of a waiter has issued with it (14 R306): the stream's value for a pod, which stands while its word runs. -/
def Strand.parkOf (st : Strand) (w : Waiter) : Bool :=
  match w.src with
  | .load _ i => (st.pend.find? fun p => p.id == i).any PendLoad.park
  | .buf _ i => (st.sbuf.find? fun e => e.id == i).any SbEntry.park
  | _ => st.ctl.femode.getLsbD 0

/-- Whether the strand of a waiter may park (14 R306, R309). -/
def State.mayPark (s : State) (w : Waiter) : Bool :=
  match w.sid.bind s.strand with
  | none => false
  | some st =>
    st.parkOf w && (s.part st.part).parkbase != 0 && !st.handling

/-- The budget of the access of a waiter is set. -/
def Strand.setBudget (st : Strand) (wid n : Nat) : Strand :=
  { st.onWaiting wid fun p => { p with budget := n, exhausted := n == 0 } with
    pend := st.pend.map fun p => if p.waiter == some wid then { p with budget := n, exhausted := n == 0 } else p
    sbuf := st.sbuf.map fun e => if e.waiter == some wid then { e with budget := n, exhausted := n == 0 } else e }

/-- An exhausted budget raises FEB (03 R99, 08 R221): deferred for an access left behind, precise at a PWAIT and at a stream word. -/
def State.raiseFeb (s : State) (w : Waiter) : State :=
  let s := s.dropWaiter w.id
  match w.src with
  | .load sid i => s.asStrand sid fun s =>
    (match s.cur.pend.find? fun p => p.id == i && p.waiter == some w.id with
      | some p =>
        if s.cur.id != sid then s
        else if p.target.isSome then s.onCur fun st => st.setPend { p with waiter := none, exhausted := true }
        else s.loadFault { p with waiter := none } cFEB
      | none => s)
  | .buf sid i => s.asStrand sid fun s =>
    (match s.cur.sbuf.find? fun e => e.id == i && e.waiter == some w.id with
      | some e => if s.cur.id == sid then s.bufFault e cFEB else s
      | none => s)
  | .pod sid _ =>
    (s.asStrand sid fun s => if s.cur.id == sid then s.onCur fun st => st.onWaiting w.id fun p => { p with waiter := none, exhausted := true } else s).runStream sid
  | _ => s

/-- The home marks a sett (14 R309). -/
def State.mark (s : State) (key : Nat) (prog : Bool) : State :=
  if s.marks.any fun m => m.key == key && m.prog == prog then s else { s with marks := s.marks ++ [⟨key, prog⟩] }

/-- The strand of a waiter parks: the bench is to link its record, and its save begins. -/
def State.parkStrand (s : State) (w : Waiter) (sid : Nat) : State :=
  let s := (s.dropWaiter w.id).asStrand sid fun s =>
    if s.cur.id == sid then (s.onCur fun st => { st with parkKey := some w.key, parkCond := w.cond, parkSrc := some w.src, recState := 0 }).count 0x0B 1
    else s
  (s.due (.park sid w.key)).beginSave sid

/-- MARK_AND_RECHECK (14 R309): in one step the mark is set and the condition checked again. -/
def execMarkAndRecheck (wid : Nat) (s : State) : Res :=
  match s.waiter wid with
  | none => .next s
  | some w =>
    match w.sid with
    | none => .next s
    | some sid =>
      if s.waiterLost w then .next s
      else if !s.mayPark w then .next (s.raiseFeb w)
      else
        let s := s.mark w.key (match w.cond with | .prog _ => true | _ => false)
        .next (if s.condMet w then
          (s.asStrand sid fun s => if s.cur.id == sid then s.onCur fun st => st.setBudget wid 1 else s).recheck w
        else s.parkStrand w sid)

end Sys2Proof.Machine
end

