-- ==== Sys2Proof/Machine/Bench.lean ====
section
/-!
DEFINITION. The distributor and its bench (19 R357 to R376, 14 R298 to R301, 20 R380, R381): queues, nodes, binding, pre-emption and
eviction.
-/
namespace Sys2Proof.Machine

/-! ## Nodes of a partition -/

/-- The priority at which a node counts: at selection once it is selected, else its effective priority. -/
def State.benchRecord (s : State) (n : Node) (ty prio code addr : Nat) : State :=
  s.eventRecord n.part { ty := ty, q := n.q, prio := prio, code := code, addr := addr }

def State.partNodes (s : State) (pid : Nat) : List Node := s.nodes.filter fun n => n.part == pid

/-- Everything of the bench that may go on after something was released: evicted groups first (R373), then binding, waiting nodes and
selection. -/
def State.poke (s : State) (pid : Nat) : State :=
  let s := s.coresFreed pid
  let ns := ((s.partNodes pid).filter fun n => n.st == .taken || n.st == .waiting).map fun n => Event.nodeReady n.id
  { s with events := s.events ++ ns ++ [.select pid] }

/-! ## Queues (R358, R360) -/

/-- A queue is taken as EN = 0, with a REJECT event. -/
def State.stopQueue (s : State) (pid q code : Nat) : State :=
  let p := s.part pid
  let lq := vget p.queues q
  (s.putPart { p with queues := vset p.queues q { lq with en := false } }).eventRecord pid { ty := 0x02, q := q, prio := lq.prio, code := code }

/-- The bench reads the descriptor of a queue again (R358). -/
def State.readQueue (s : State) (pid q : Nat) : State :=
  let p := s.part pid
  let lq := vget p.queues q
  if p.qtbase == 0 then s.putPart { p with queues := vset p.queues q { lq with en := false } }
  else
    match s.unitGetMany pid p.benchCore (p.qtbase.toNat + 32 * q) 32 with
    | (s, .error c) => s.stopQueue pid q (0x40 + c)
    | (s, .ok d) =>
      let slots := bits d 0 64
      let log2n := bits d 64 8
      let prio := bits d 72 8
      let en := bits d 80 8
      if 16 ≤ log2n || 7 < prio || 2 ≤ en || bits d 88 168 != 0 || slots % 128 != 0 then s.stopQueue pid q 0x01
      else
        let p := s.part pid
        let lq := vget p.queues q
        let fresh := (en == 1 && !lq.en) || lq.slots.toNat != slots || lq.log2n != log2n
        let s := s.putPart { p with queues := vset p.queues q { lq with slots := BitVec.ofNat 64 slots, log2n := log2n, prio := prio, en := en == 1
                                                                        head := if fresh then 0 else lq.head } }
        if en == 1 then s.due (.take pid (Fin.ofNat 64 q)) else s

/-- QUPD (R357, R358): the bench reads a queue descriptor again. -/
def execQupd (part : Nat) (q : Fin 64) (s : State) : Res := .next (s.readQueue part q.val)

/-! ## Templates (20 R380, R381) -/

/-- Width of a field of a descriptor kind. -/
def descWidth : Nat → Nat
  | 1 => 6 | 2 => 4 | 7 => 4 | _ => 16

/-- Halfwords that a field takes. -/
def descHalves : Nat → Nat
  | 4 => 2 | 5 => 4 | _ => 1

def descOf (v : Nat) : Desc := ⟨bits v 7 3, bits v 3 4, bits v 0 3⟩

/-- Whether a descriptor breaks no limit of R381 by itself. -/
def descOk (v : Nat) : Bool :=
  let d := descOf v
  bits v 10 6 == 0 &&
    (if d.kind == 0 then v == 0
     else 1 ≤ d.hw && d.hw ≤ 6 &&
      (match d.kind with
        | 1 | 2 | 7 => d.low + descWidth d.kind ≤ 16
        | 6 => d.hw == 3 && d.low == 0
        | k => d.low == 0 && d.hw + descHalves k ≤ 7))

/-- An entry of a template section, or none where R381 rejects it. -/
def tmplOf (e : Nat) : Option Tmpl :=
  let num := bits e 0 16
  let word := bits e 32 112
  let ds := (List.range 12).map fun k => bits e (144 + 16 * k) 16
  let group (j : Nat) : List Nat := (ds.drop (4 * j)).take 4
  let used (l : List Nat) : List Desc := (l.filter fun v => v != 0).map descOf
  let dense (l : List Nat) : Bool := (l.dropWhile (· != 0)).all (· == 0)
  let tl := bits word 0 3
  if 255 < num || bits e 16 16 != 0 || bits e 336 48 != 0 || !ds.all descOk || !(List.range 3).all (fun j => dense (group j)) ||
    1 < (ds.filter fun v => (descOf v).kind == 6).length || (tl < 7 && word / 2 ^ (16 * (tl + 1)) != 0) then none
  else some ⟨num, word, used (group 0), used (group 1), used (group 2)⟩

/-- Entries read one after the other, in strictly ascending number. -/
def tmplEntries (v : Nat) : Nat → Nat → Option Nat → Option (List Tmpl)
  | 0, _, _ => some []
  | n + 1, j, last =>
    match tmplOf (bits v (128 + 384 * j) 384) with
    | none => none
    | some t =>
      if last.any fun l => decide (t.num ≤ l) then none
      else (tmplEntries v n (j + 1) (some t.num)).map (t :: ·)

/-- The template section at an address (R381): none where it is rejected. -/
def State.readTemplates (s : State) (pid va : Nat) : State × Option (List Tmpl) :=
  let c := (s.part pid).benchCore
  match s.unitGetMany pid c va 16 with
  | (s, .error _) => (s, none)
  | (s, .ok h) =>
    let n := bits h 0 32
    if 256 < n || bits h 32 32 != 48 || bits h 64 64 != 0 then (s, none)
    else match s.unitGetMany pid c va (16 + 48 * n) with
      | (s, .error _) => (s, none)
      | (s, .ok v) => (s, tmplEntries v n 0 none)

/-! ## Taking a header (R360 to R363) -/

/-- Field of a KCB by byte offset. -/
def kcbAt (k off n : Nat) : Nat := bits k (8 * off) (8 * n)

/-- Whether a KCB breaks a limit of R362 (check 1 of R363). -/
def kcbBad (k : Nat) : Bool :=
  let flags := kcbAt k 2 1
  let chk := kcbAt k 3 1
  kcbAt k 0 2 != 1 || bits flags 3 5 != 0 || bits chk 2 2 != 0 || bits chk 0 2 == 3 || (bits chk 0 2 == 1 && bits chk 4 4 == 0) ||
    kcbAt k 4 1 == 0 || 16 < kcbAt k 4 1 || 16 < kcbAt k 5 1 || kcbAt k 6 1 == 0 || kcbAt k 8 4 == 0 ||
    2 ^ 32 ≤ kcbAt k 8 4 * kcbAt k 4 1 || kcbAt k 12 4 == 0 || bits (kcbAt k 32 8) 6 58 != 0 || kcbAt k 160 96 != 0 ||
    (List.range 4).any fun i => 3 < kcbAt k (96 + 16 * i + 14) 1 || kcbAt k (96 + 16 * i + 15) 1 != 0

/-- The reject value of a KCB by checks 1 to 3, 0 for none. -/
def kcbReject (k : Nat) : Nat :=
  if kcbBad k then 0x01
  else if 1 < kcbAt k 7 1 || (BitVec.ofNat 64 (kcbAt k 56 8) &&& ~~~0x80FF#64) != 0 then 0x02
  else if (if (kcbAt k 2 1).testBit 0 then 96 else 48) < kcbAt k 6 1 then 0x03
  else 0

/-- Tile ranges of a KCB. -/
def kcbTiles (k : Nat) : List Tile := (List.range 4).filterMap fun i =>
  let mode := kcbAt k (96 + 16 * i + 14) 1
  if mode == 0 then none else some ⟨kcbAt k (96 + 16 * i) 8, kcbAt k (96 + 16 * i + 8) 6, mode != 1⟩

/-- A node from its KCB and arguments, at its queue's priority. -/
def nodeOf (id pid q prio : Nat) (kcb : Word) (k args reject : Nat) (tmpl : List Tmpl) (prev : Option Nat) : Node :=
  let w (off : Nat) : Word := BitVec.ofNat 64 (kcbAt k off 8)
  { id := id, part := pid, q := q, st := .taken, kcb := kcb, args := (List.range 15).map fun i => BitVec.ofNat 64 (bits args (64 * i) 64)
    half := (kcbAt k 2 1).testBit 0, ovlp := (kcbAt k 2 1).testBit 1, park := (kcbAt k 2 1).testBit 2, chk := BitVec.ofNat 64 (kcbAt k 3 1)
    stages := kcbAt k 4 1, nbar := kcbAt k 5 1, gsize := kcbAt k 6 1, gps := kcbAt k 8 4, budget := BitVec.ofNat 64 (kcbAt k 12 4)
    entry := w 16, ktvec := w 24 &&& ~~~1, deleg := w 32, tmpl := tmpl, done := w 48, lp := (kcbAt k 56 8).testBit 15
    preds := [w 64, w 72, w 80, w 88], seen := 0, tiles := kcbTiles k, recorded := false, reject := reject
    prev := prev, prio := prio, eff := prio, readyAt := 0, raises := 0, nextG := 0, ended := 0, lastCluster := none, fail := none
    doneOk := false, slots := [], gw := none }

/-- Records tile ranges of the nodes of a partition, strictly in the order in which they were taken, while they fit (R366). -/
def recordTiles : Nat → List Node → List Node
  | _, [] => []
  | used, n :: t =>
    if n.recorded then n :: recordTiles used t
    else if used + n.tiles.length ≤ 1024 then { n with recorded := true } :: recordTiles (used + n.tiles.length) t
    else n :: t

/-- Every node of the partition that can have its ranges recorded now has. -/
def State.recordRanges (s : State) (pid : Nat) : State :=
  let mine := s.partNodes pid
  let used := ((mine.filter Node.recorded).map fun n => n.tiles.length).sum
  (recordTiles used mine).foldl State.putNode s

/-- The header of a slot is consumed, and the queue's head moves on. -/
def State.consumeHeader (s : State) (pid q : Nat) (l : Loc) : State :=
  let s := (s.homeCheck l 8 ⟨some true, none, some false⟩).1
  let p := s.part pid
  let lq := vget p.queues q
  s.putPart { p with queues := vset p.queues q { lq with head := (lq.head + 1) % 2 ^ lq.log2n } }

/-- The bench takes the node of a posted header (R360, R363): its arguments and KCB are read before the header is consumed. -/
def State.takeHeader (s : State) (pid q : Nat) (l : Loc) (header : Nat) : State :=
  let p := s.part pid
  let lq := vget p.queues q
  let args := s.valueAt (l.key + 8) 120
  if header % 64 != 0 then
    ((s.consumeHeader pid q l).eventRecord pid { ty := 0x02, q := q, prio := lq.prio, code := 0x01, addr := header }).due (.take pid (Fin.ofNat 64 q))
  else match s.unitGetMany pid p.benchCore header 256 with
    | (s, .error c) =>
      ((s.consumeHeader pid q l).eventRecord pid { ty := 0x02, q := q, prio := lq.prio, code := 0x40 + c, addr := header }).due (.take pid (Fin.ofNat 64 q))
    | (s, .ok k) =>
      let r := kcbReject k
      let (s, tm) := if r != 0 || kcbAt k 40 8 == 0 then (s, some []) else s.readTemplates pid (kcbAt k 40 8)
      let r := if r == 0 && tm.isNone then 0x04 else r
      let n := nodeOf s.nextNode pid q lq.prio (BitVec.ofNat 64 header) k args r (tm.getD []) lq.last
      let s := s.consumeHeader pid q l
      let p := s.part pid
      let lq := vget p.queues q
      let s := ({ s with nextNode := n.id + 1 }.putPart { p with queues := vset p.queues q { lq with last := some n.id } }).putNode n
      let s := s.benchRecord n 0x01 lq.prio 0 header
      let s := if r == 0 then s else s.benchRecord n 0x02 lq.prio r header
      ((s.recordRanges pid).due (.nodeReady n.id)).due (.take pid (Fin.ofNat 64 q))

/-- TAKE (R360): the bench waits for the header of the slot at the head of a queue, and takes it once it is full. -/
def execTake (part : Nat) (q : Fin 64) (s : State) : Res :=
  let p := s.part part
  let lq := vget p.queues q.val
  if !lq.en || s.lost part then .next s
  else .next (match s.resolveFor part p.benchCore (lq.slots.toNat + 128 * lq.head) with
    | (s, .error c) => s.stopQueue part q.val (0x40 + c)
    | (s, .ok l) =>
      if !l.fev || l.gw then s.stopQueue part q.val (0x40 + cPROT)
      else
        let s := s.touch l.key 8
        match s.lineRead l with
        | .good =>
          if s.full l.key then s.takeHeader part q.val l (s.valueAt l.key 8)
          else
            let src := WaitSrc.queue part q.val
            let s := s.dropWaiters fun w => w.src == src
            (s.plainWaiter l.key .full src).1
        | _ => (s.countBadTag l).stopQueue part q.val (0x40 + cMEMUE))

/-! ## Done (R371) -/

/-- Image slots and tile ranges of a node are released with it, and the strands it had are gone. -/
def State.dropNode (s : State) (n : Node) : State :=
  let s := { s with nodes := dropBy Node.id n.id s.nodes, others := s.others.filter fun t => t.nid != n.id || t.status == Status.unbound }
  (s.recordRanges n.part).poke n.part

/-- The status word of a node (R371). -/
def Node.status (n : Node) : Nat :=
  if n.reject != 0 then n.reject * 2 ^ 8 + 1
  else match n.fail with
    | some (g, c) => g * 2 ^ 16 + c * 2 ^ 8 + 2
    | none => 0

/-- The node is Done: its event, and its release. -/
def State.nodeFinish (s : State) (n : Node) : State :=
  (s.benchRecord n 0x0C n.prio (n.status % 2 ^ 8) n.kcb.toNat).dropNode n

/-- A DONE that could not be written: a FATAL event precedes the node's DONE event. -/
def State.doneFailed (s : State) (n : Node) (c : Nat) : State :=
  (s.benchRecord n 0x0D n.prio (0x40 + c) n.done.toNat).nodeFinish n

/-- Fills DONE with the status of the node (R371): a set-full store, at its remote node for a GW page. -/
def State.fillDone (s : State) (n : Node) : State :=
  match n.gw with
  | some id => (match s.gwReply id with
    | none => s
    | some r => if r.reason == 0 then (s.gwDrop id).nodeFinish n else (s.gwDrop id).doneFailed n r.reason.toNat)
  | none =>
    match s.resolveFor n.part (s.part n.part).benchCore n.done.toNat with
    | (s, .error c) => s.doneFailed n c
    | (s, .ok l) =>
      if !l.wr || (!l.gw && !l.fev) then s.doneFailed n cPROT
      else if l.gw then
        let (s, id) := s.gwSend (.node n.id) l gfSetFull true 8 (leBytes n.status 8) 0
        s.putNode { n with gw := some id }
      else match s.homeCheck l 8 ⟨none, some (leBytes n.status 8), some true⟩ with
        | (s, .memue) => s.doneFailed n cMEMUE
        | (s, _) => s.nodeFinish n

/-- NODE_DONE (R371): every strand of the sweep has ended. -/
def execNodeDone (nid : Nat) (s : State) : Res :=
  match s.node nid with
  | none => .next s
  | some n => .next (if !s.lost n.part && ((n.st == .running && n.ended == n.total) || n.st == .done) then s.fillDone n else s)

/-! ## Readiness (R365, R366) -/

/-- Whether the node before it in its queue lets a node leave Taken (R365). -/
def State.prevAllows (s : State) (n : Node) : Bool :=
  match n.prev.bind s.node with
  | none => true
  | some m => n.ovlp && (m.st == .running || m.st == .done)

/-- Two ranges conflict (R366); an empty range overlaps none. -/
def Tile.conflicts (a b : Tile) : Bool := a.len != 0 && b.len != 0 && overlap a.base a.len b.base b.len && (a.write || b.write)

/-- Whether the tiles of a node are free. -/
def State.tilesFree (s : State) (n : Node) : Bool :=
  n.recorded && (s.partNodes n.part).all fun m => n.id ≤ m.id || m.tiles.all fun a => n.tiles.all fun b => !a.conflicts b

/-- A rejected node has left Taken (R363): its ranges are released, and its DONE is filled. -/
def State.endRejected (s : State) (n : Node) : State :=
  ((({ s with events := s.events ++ [Event.nodeDone n.id] }).putNode { n with st := .done, tiles := [] }).recordRanges n.part).poke n.part

/-- A node that the bench rejects at its PRED sett: DONE is filled at once (R363). -/
def State.rejectNode (s : State) (n : Node) (code : Nat) : State :=
  let n := { n with reject := code }
  (s.benchRecord n 0x02 n.prio code n.kcb.toNat).endRejected n

/-- A node whose predecessors have all been seen becomes Ready when its tiles are free. -/
def State.makeReady (s : State) (n : Node) : State :=
  if !s.tilesFree n then s.putNode n
  else
    let pr := (vget (s.part n.part).queues n.q).prio
    let n := { n with st := .ready, prio := pr, eff := pr, readyAt := s.pkg.time }
    ((s.putNode n).benchRecord n 0x03 pr 0 n.kcb.toNat).due (.select n.part)

/-- The bench waits on the PRED setts of a node, one at a time (R366). -/
def waitPreds : Nat → Node → State → State
  | 0, n, s => s.putNode n
  | fuel + 1, n, s =>
    match n.preds.drop n.seen with
    | [] => s.makeReady n
    | va :: _ =>
      if va == 0 then waitPreds fuel { n with seen := n.seen + 1 } s
      else
        let src := WaitSrc.node n.id
        match s.resolveFor n.part (s.part n.part).benchCore va.toNat with
        | (s, .error c) => s.rejectNode n (0x40 + c)
        | (s, .ok l) =>
          if l.gw then
            (match s.gwAccess n.gw src l gfWait false 8 [] 0 with
              | (s, .waiting id) => s.putNode { n with gw := some id }
              | (s, .answered r) =>
                if r.reason == 0 then waitPreds fuel { n with seen := n.seen + 1, gw := none } s
                else if r.reason.toNat == cFEB then waitPreds fuel { n with gw := none } s
                else s.rejectNode { n with gw := none } (0x40 + r.reason.toNat))
          else if !l.fev then s.rejectNode n (0x40 + cPROT)
          else
            let s := s.touch l.key 8
            match s.lineRead l with
            | .good =>
              if s.full l.key then waitPreds fuel { n with seen := n.seen + 1 } s
              else (((s.dropWaiters fun w => w.src == src).plainWaiter l.key .full src).1).putNode n
            | _ => (s.countBadTag l).rejectNode n (0x40 + cMEMUE)

/-- NODE_READY (R365, R366): a node goes on toward Ready as far as it can. A node rejected at take is finished when it would leave
Taken. -/
def execNodeReady (nid : Nat) (s : State) : Res :=
  match s.node nid with
  | none => .next s
  | some n =>
    if s.lost n.part then .next s
    else match n.st with
    | .taken =>
      if !s.prevAllows n then .next s
      else if n.reject != 0 then .next (s.endRejected n)
      else .next (waitPreds 16 { n with st := .waiting } s)
    | .waiting => .next (waitPreds 16 n s)
    | _ => .next s

/-! ## Selection (R367) -/

/-- A Ready node raised by one level for each full 1 ms that it has spent Ready, with an AGE event for each raise. -/
def State.ageNode (s : State) (n : Node) : State :=
  if n.st != .ready then s
  else
    let due := (s.pkg.time - n.readyAt) / 1000000
    (List.range (due - n.raises)).foldl (fun s _ =>
      match s.node n.id with
      | none => s
      | some m =>
        if 7 ≤ m.eff then s.putNode { m with raises := m.raises + 1 }
        else
          let m := { m with raises := m.raises + 1, eff := m.eff + 1 }
          (s.putNode m).benchRecord m 0x06 m.eff 0 m.kcb.toNat) s

/-- AGE (R367): a Ready node is raised, and may now be the one to select. -/
def execAge (nid : Nat) (s : State) : Res :=
  match s.node nid with
  | some n => .next (if n.st == .ready then (s.ageNode n).due (.select n.part) else s)
  | none => .next s

/-- The node that is binding: the one of highest priority at selection, the earlier selected first. -/
def State.bindingNode (s : State) (pid : Nat) : Option Node :=
  ((s.part pid).order.filterMap s.node).foldl (fun b n =>
    if n.st != .binding then b else match b with | some m => if m.prio < n.prio then some n else b | none => some n) none

/-- The choice among Ready nodes: the highest effective priority, and among equals the queue that comes first round robin. -/
def State.choose (s : State) (pid : Nat) : Option Node :=
  let p := s.part pid
  let rd := (s.partNodes pid).filter fun n => n.st == .ready
  let top := (rd.map Node.eff).foldl max 0
  let turn (n : Node) : Nat := (n.q + 64 - vget p.rr top % 64) % 64
  (rd.filter fun n => n.eff == top).foldl (fun b n => match b with
    | some m => if turn n < turn m || (turn n == turn m && n.id < m.id) then some n else b
    | none => some n) none

/-- SELECT (R367): aging raises that are due come first; a node is selected when none binds, or one of strictly higher priority than
the binding one is Ready. -/
def execSelect (part : Nat) (s : State) : Res :=
  let s := (s.partNodes part).foldl State.ageNode s
  match s.choose part with
  | none => .next s
  | some n =>
    if (s.bindingNode part).any fun m => decide (n.eff ≤ m.prio) then .next s
    else
      let n := { n with st := .binding, prio := n.eff }
      let p := s.part part
      let s := (s.putPart { p with rr := vset p.rr n.eff (n.q + 1), order := p.order ++ [n.id] }).putNode n
      .next ((s.benchRecord n 0x04 n.prio 0 n.kcb.toNat).due (.bind part))

/-! ## Binding (R298, R368 to R370) -/

/-- Cores that a group of the node takes. -/
def Node.cores (n : Node) : Nat := if n.half then (n.gsize + 1) / 2 else n.gsize

/-- Whether an evicted group of the same or higher priority, with strands to run, is to come back first (R373). -/
def State.wanted (s : State) (cl prio : Nat) (holds : Group → Bool) : Bool := s.groups.any fun g =>
  g.evicted && g.cluster == cl && holds g && (s.node g.nid).any (fun m => decide (prio ≤ m.prio)) &&
    s.strands.any fun t => t.gid == g.id && t.status == .ready

/-- A core of a cluster that a node of the given priority may take: in service, reserved to no group and not wanted back (R299, R373). -/
def State.coreFree (s : State) (cl c prio : Nat) : Bool :=
  let k := s.core (cl * 48 + c)
  k.service && k.owner.isNone && !s.wanted cl prio fun g => g.cores.contains c

/-- The cores that a group takes in a cluster: those whose shape matches first, then in ascending order. -/
def State.pickCores (s : State) (n : Node) (cl : Nat) : Option (List Nat) :=
  let free := (List.range 48).filter fun c => s.coreFree cl c n.prio
  let (fit, other) := free.partition fun c => (s.core (cl * 48 + c)).cur == n.half
  let l := (fit ++ other).take n.cores
  if l.length == n.cores then some (l.foldl (fun a c => insNat c a) []) else none

/-- Physical barriers of a cluster that a node of the given priority may take. -/
def State.freeBarriers (s : State) (cl prio : Nat) : List Nat := (List.range 16).filter fun b =>
  (vget (s.cluster cl).holders b).isNone && !s.wanted cl prio fun g => g.bars.contains b

/-- Free image slots, lowest first. -/
def State.freeSlots (s : State) (pid : Nat) : List Nat :=
  let used := (s.partNodes pid).flatMap Node.slots
  (List.range (fieldOf (s.part pid).recpool 0 16)).filter fun j => !used.contains j

/-- The first cluster that can hold a group of the node, from the one after that of its previous group. -/
def State.pickCluster (s : State) (n : Node) : Option (Nat × List Nat) :=
  let cs := (s.part n.part).clusters
  let k := match n.lastCluster with | some c => cs.findIdx (· == c) + 1 | none => 0
  (cs.drop k ++ cs.take k).findSome? fun cl =>
    if n.nbar ≤ (s.freeBarriers cl n.prio).length then (s.pickCores n cl).map fun l => (cl, l) else none

/-- Where the next group of the node fits (R368): in a cluster that qualifies, with its image slots. -/
def State.fit (s : State) (n : Node) : Option (Nat × List Nat) :=
  if (s.freeSlots n.part).length < n.gsize then none else s.pickCluster n

/-- Registers that a save must write although nothing has written them: all but the vector registers, whose VLT is 0. -/
def freshDirty : BitVec 104 := BitVec.ofNat 104 (2 ^ 104 - 2 ^ 64)

/-- A strand at its first bind (R370). -/
def Node.strand (n : Node) (p : Part) (gid gidx sidx cl core slot : Nat) (gcores : BitVec 48) : Strand :=
  let r := Strand.reset
  let b := n.half && sidx % 2 == 1
  let g := { r.gen with pc := n.entry, s := Vector.ofFn fun i : Fin 32 => if 10 ≤ i.val && i.val ≤ 24 then n.args.getD (i.val - 10) 0 else 0 }
  { r with
    id := 96 * (gid + 1) + sidx, gid := gid, nid := n.id, part := n.part, cluster := cl, status := .running, half := n.half, stratB := b
    lp := n.lp, gen := g, files := { r.files with dirty := freshDirty }
    ctl := { r.ctl with chkctl := n.chk &&& 0xF3, femode := if n.park then 1 else 0, febudget := n.budget }
    ident := { r.ident with gidx := BitVec.ofNat 32 gidx, sidx := BitVec.ofNat 7 sidx, stage := BitVec.ofNat 4 (gidx / n.gps)
                            ngrp := BitVec.ofNat 32 (n.gps * n.stages), gsize := BitVec.ofNat 7 n.gsize, gcores := gcores
                            core := BitVec.ofNat 7 (core + if b then 64 else 0) }
    deleg := n.deleg, ktvec := n.ktvec, stvec := p.sentry, tmpl := n.tmpl
    image := p.imgpool + BitVec.ofNat 64 (0x20000 * slot), record := (p.recpool &&& ~~~0xFFFF) + BitVec.ofNat 64 (0x40 * slot) }

/-- Both mailboxes of a core are set empty with their tails at 0 (14 R311). -/
def State.clearMailboxes (s : State) (coreNo : Nat) : State :=
  let s := (List.range 512).foldl (fun s i => s.setFull (scratchKey coreNo (0x5F000 + 8 * i)) false) s
  s.putCore { s.core coreNo with tailA := 0, tailB := 0 }

/-- The barriers of a group at bind (14 R316). -/
def State.bindBarrier (s : State) (cl b gid gsize : Nat) : State :=
  let c := s.cluster cl
  let s := s.putCluster { c with holders := vset c.holders b (some gid), barriers := vset c.barriers b { cnt := gsize, arr := 0, ph := false } }
  (s.setFull (barrierKey cl b 0) false).setFull (barrierKey cl b 1) true

/-- The portable register backing of a strand is zero at its bind, as its registers are (R370, 13 R286, 20 R392). -/
def State.clearBacking (s : State) (t : Strand) : State :=
  let (o, n) := lpBacking t.half t.stratB
  if t.lp then { s with mem := Memory.clear s.mem (scratchKey t.coreNo o) n } else s

/-- A core becomes reserved to a group, in its shape (11 R246). -/
def State.takeCore (s : State) (coreNo gid : Nat) (half : Bool) : State :=
  s.putCore { s.core coreNo with owner := some gid, cur := half, next := half }

/-- Binds the next group of a node to cores of a cluster. -/
def State.bindGroup (s : State) (n : Node) (cl : Nat) (cores : List Nat) : State :=
  let gid := s.nextGroup
  let bars := (s.freeBarriers cl n.prio).take n.nbar
  let slots := (s.freeSlots n.part).take n.gsize
  let p := s.part n.part
  let gcores : BitVec 48 := BitVec.ofNat 48 ((cores.map fun c => 2 ^ c).sum)
  let g : Group := { id := gid, nid := n.id, part := n.part, gidx := n.nextG, cluster := cl, cores := cores, bars := bars, half := n.half
                     seqNo := gid, pre := false, evicted := false, evSlots := [], live := n.gsize }
  let s := cores.foldl (fun s c => (s.takeCore (cl * 48 + c) gid n.half).clearMailboxes (cl * 48 + c)) s
  let s := bars.foldl (fun s b => s.bindBarrier cl b gid n.gsize) s
  let ts := (List.range n.gsize).map fun i => n.strand p gid n.nextG i cl (cores.getD (if n.half then i / 2 else i) 0) (slots.getD i 0) gcores
  let s := ts.foldl State.clearBacking s
  let n := { n with nextG := n.nextG + 1, slots := n.slots ++ slots, lastCluster := some cl
                    st := if n.nextG + 1 == n.gps * n.stages then .running else .binding }
  let s := ({ s with nextGroup := gid + 1, others := s.others ++ ts }.putGroup g).putNode n
  let s := if s.cur.status == .unbound then
      (match ts with | t :: _ => { s with cur := t, others := s.others.filter fun x => x.id != t.id } | [] => s) else s
  s.eventRecord n.part { ty := 0x05, q := n.q, prio := n.prio, code := 0, gidx := g.gidx, cluster := cl, addr := n.kcb.toNat }

/-- BIND (R298, R368): the next group of the binding node is bound whole in the first cluster that qualifies. -/
def execBind (part : Nat) (s : State) : Res :=
  match s.bindingNode part with
  | none => .next s
  | some n =>
    match s.fit n with
    | none => .next (s.due (.benchPreempt part))
    | some (cl, cores) =>
      let s := s.bindGroup n cl cores
      if (s.node n.id).any fun m => m.st == .running then
        let p := s.part part
        .next (((s.putPart { p with order := p.order.filter (· != n.id) }).poke part).due (.nodeDone n.id))
      else .next (s.due (.bind part))

/-! ## Pre-emption and eviction (R299, R300, R372) -/

/-- Free slots of the eviction area. -/
def State.freeEvSlots (s : State) (pid : Nat) : List Nat :=
  let p := s.part pid
  if p.spsave == 0 then []
  else
    let used := (s.groups.filter fun g => g.part == pid).flatMap Group.evSlots
    (List.range (fieldOf p.spsaven 0 16)).filter fun j => !used.contains j

/-- The group that the bench takes cores from for a node: of lower priority, or already off its cores and of no higher one; the lowest
priority, and the most recently bound among equals. -/
def State.victim (s : State) (n : Node) : Option Group :=
  let prioOf (g : Group) : Nat := (s.node g.nid).elim 8 Node.prio
  (s.groups.filter fun g => g.part == n.part && !g.evicted && g.cores.length ≤ (s.freeEvSlots n.part).length &&
      (prioOf g < n.prio || (s.groupOff g.id && prioOf g ≤ n.prio))).foldl (fun b g => match b with
    | some h => if prioOf g < prioOf h || (prioOf g == prioOf h && h.seqNo < g.seqNo) then some g else b
    | none => some g) none

/-- BENCH_PREEMPT (R372): for a node that fits nowhere, the strands of one group are pre-empted, so that it can be evicted. -/
def execBenchPreempt (part : Nat) (s : State) : Res :=
  match s.bindingNode part with
  | none => .next s
  | some n =>
    if (s.groups.any fun g => g.part == part && g.pre) || (s.fit n).isSome then .next s
    else match s.victim n with
      | none => .next s
      | some g =>
        let s := s.putGroup { g with pre := true }
        let s := ((s.strands.filter fun t => t.gid == g.id).map Strand.id).foldl State.preemptStrand s
        .next (if s.groupOff g.id then s.due (.evict g.id) else s)

/-- Bytes, and bitmaps of the bits and marks, of a core's scratchpad as a slot holds them (R300). -/
def bitmapOf (f : Nat → Bool) (n : Nat) : List Byte := (List.range (n / 8)).map fun i =>
  BitVec.ofNat 8 ((List.range 8).foldl (fun a j => if f (8 * i + j) then a + 2 ^ j else a) 0)

/-- The barrier entries of a slot (R300). -/
def State.barrierBytes (s : State) (g : Group) : List Byte := (List.range 16).flatMap fun i =>
  match g.bars[i]? with
  | none => leBytes 0 16
  | some b =>
    let x := vget (s.cluster g.cluster).barriers b
    let k0 := barrierKey g.cluster b 0
    let k1 := barrierKey g.cluster b 1
    let bit (c : Bool) (v : Nat) : Nat := if c then v else 0
    let marked (k : Nat) : Bool := s.marks.any fun m => m.key == k
    leBytes x.cnt 2 ++ leBytes x.arr 1 ++
      leBytes (bit x.ph 1 + bit (s.full k0) 2 + bit (s.full k1) 4 + bit (marked k0) 8 + bit (marked k1) 16) 1 ++ leBytes 0 12

/-- A release sett of a barrier of a group. -/
def Group.barrierSett (g : Group) (key : Nat) : Bool := g.bars.any fun b => key == barrierKey g.cluster b 0 || key == barrierKey g.cluster b 1

/-- Saves one core of a group into a slot of the eviction area; an uncorrectable sett of the scratchpad or the barriers is MEMUE. -/
def State.evictCore (s : State) (g : Group) (core slot : Nat) (first : Bool) : State × Except Nat Unit :=
  let no := g.cluster * 48 + core
  let base := scratchKey no 0
  let va := (s.part g.part).spsave.toNat + 0x80000 * slot
  let c := s.core no
  if s.lines.any fun i => i.poison && ((base ≤ i.key && i.key < base + 0x60000) || (first && g.barrierSett i.key)) then (s, .error cMEMUE)
  else
    let tail := leBytes c.tailA.toNat 8 ++ leBytes c.tailB.toNat 8 ++ (if first then s.barrierBytes g else leBytes 0 256) ++ leBytes 0 (0x80000 - 0x63110)
    s.unitPutMany g.part (s.part g.part).benchCore va
      (s.bytesAt base 0x60000 ++ bitmapOf (fun i => s.full (base + 8 * i)) 49152 ++
        bitmapOf (fun i => s.marks.any fun m => m.key == base + 8 * i) 49152 ++ tail)

def evictCores (g : Group) : List (Nat × Nat) → Bool → State → State × Except Nat Unit
  | [], _, s => (s, .ok ())
  | (c, j) :: t, first, s =>
    match s.evictCore g c j first with
    | (s, .ok _) => evictCores g t false s
    | r => r

/-- The setts of a group's cores and barriers. -/
def Group.holds (g : Group) (key : Nat) : Bool :=
  g.cores.any (fun c => let b := scratchKey (g.cluster * 48 + c) 0; b ≤ key && key < b + 0x60000) ||
    g.barrierSett key

/-- Pre-empted strands of a group are queued (03 R99). -/
def State.queueStrands (s : State) (gid : Nat) : State :=
  let q (t : Strand) : Strand := if t.gid == gid && t.status == .preempted then { t with status := .ready } else t
  { s with cur := q s.cur, others := s.others.map q }

/-- The eviction of a group is abandoned (R300): its pre-empted strands are queued, and return. -/
def State.abandonEvict (s : State) (g : Group) : State :=
  let s := (s.putGroup { g with pre := false }).queueStrands g.id
  ((s.strands.filter fun t => t.gid == g.id && t.status == .ready).map Strand.id).foldl (fun s i => s.due (.contextRestore i)) s

/-- EVICT (R299): a group whose strands have all left their cores is saved into the eviction area and its cores and barriers are released; groups
evicted before that want them come first (R373). A save that faults, or that finds too few slots, abandons the eviction. -/
def execEvict (gid : Nat) (s : State) : Res :=
  match s.group gid with
  | none => .next s
  | some g =>
    let slots := (s.freeEvSlots g.part).take g.cores.length
    if g.evicted || !s.groupOff gid then .next s
    else if slots.length < g.cores.length then .next (if g.pre then s.abandonEvict g else s)
    else
      let n := (s.node g.nid).map fun n => (n.q, n.prio, n.kcb.toNat)
      let rec' (ty code : Nat) (s : State) : State :=
        s.eventRecord g.part { ty := ty, q := n.elim 0 (·.1), prio := n.elim 0 (·.2.1), code := code, gidx := g.gidx, cluster := g.cluster, addr := n.elim 0 (·.2.2) }
      match evictCores g (g.cores.zip slots) true s with
      | (s, .error c) => .next ((rec' 0x0A c s).abandonEvict g)
      | (s, .ok _) =>
        let s := { s with marks := s.marks.filter fun m => !g.holds m.key }
        let s := (s.putGroup { g with pre := false, evicted := true, evSlots := slots }).releaseGroup g
        let s := (rec' 0x0A 0 (rec' 0x09 0 s)).queueStrands gid
        let others := ((s.evictedOf g.part).filter fun h => h.id != gid).map fun h => Event.evictRestore h.id
        .next { s with events := s.events ++ others ++ [.bind g.part, .evictRestore gid] }

/-- Restores one core of a group from a slot. What is there reads afterwards as it did before: neither the errors nor the marks that others
have left stay. -/
def State.restoreCore (s : State) (g : Group) (core slot : Nat) (first : Bool) : State × Except Nat Unit :=
  let no := g.cluster * 48 + core
  let base := scratchKey no 0
  let va := (s.part g.part).spsave.toNat + 0x80000 * slot
  match s.unitGetMany g.part (s.part g.part).benchCore va 0x63110 with
  | (s, .error c) => (s, .error c)
  | (s, .ok v) =>
    let bit (off i : Nat) : Bool := v.testBit (8 * off + i)
    let s := { s with mem := Memory.setMany s.mem base (leBytes (v % 2 ^ (8 * 0x60000)) 0x60000)
                      lines := s.lines.filter fun i => !((base ≤ i.key && i.key < base + 0x60000) || (first && g.barrierSett i.key))
                      empties := (List.range 49152).foldl (fun e i => if bit 0x60000 i then e else insNat (base + 8 * i) e)
                        (s.empties.filter fun k => !(base ≤ k && k < base + 0x60000))
                      marks := (s.marks.filter fun (m : Mark) => !(base ≤ m.key && m.key < base + 0x60000)) ++ ((List.range 49152).filter fun i => bit 0x61800 i).map fun i => Mark.mk (base + 8 * i) false }
    let s := s.putCore { s.core no with tailA := BitVec.ofNat 8 (v >>> (8 * 0x63000)), tailB := BitVec.ofNat 8 (v >>> (8 * 0x63008)) }
    let s := if !first then s else (List.range g.bars.length).foldl (fun s i =>
      let b := g.bars.getD i 0
      let o := 0x63010 + 16 * i
      let fl := bits v (8 * (o + 3)) 8
      let c := s.cluster g.cluster
      let x : Barrier := { cnt := bits v (8 * o) 16, arr := bits v (8 * (o + 2)) 8, ph := fl.testBit 0 }
      let s := s.putCluster { c with barriers := vset c.barriers b x }
      let k (p : Nat) : Nat := barrierKey g.cluster b p
      let s := (s.setFull (k 0) (fl.testBit 1)).setFull (k 1) (fl.testBit 2)
      { s with marks := (s.marks.filter fun (m : Mark) => m.key != k 0 && m.key != k 1) ++ (if fl.testBit 3 then [⟨k 0, false⟩] else []) ++ (if fl.testBit 4 then [⟨k 1, false⟩] else []) }) s
    (s, .ok ())

def restoreCores (g : Group) : List (Nat × Nat) → Bool → State → State × Except Nat Unit
  | [], _, s => (s, .ok ())
  | (c, j) :: t, first, s =>
    match s.restoreCore g c j first with
    | (s, .ok _) => restoreCores g t false s
    | r => r

/-- EVICT_RESTORE (R299): an evicted group takes its cores and barriers again, once all are free and no node of higher priority binds (R368,
R373), and everything saved is restored; its ready strands then return, and with its slots free the bench may pre-empt again (R372). A restore that faults
ends the group. -/
def execEvictRestore (gid : Nat) (s : State) : Res :=
  match s.group gid with
  | none => .next s
  | some g =>
    let free := g.cores.all (fun c => let k := s.core (g.cluster * 48 + c); k.service && k.owner.isNone) &&
      (g.bars.all fun b => (vget (s.cluster g.cluster).holders b).isNone) &&
      !(s.bindingNode g.part).any fun m => decide ((s.node g.nid).elim 0 Node.prio < m.prio)
    if !g.evicted || !free || !(s.strands.any fun t => t.gid == gid && t.status == .ready) then .next s
    else
      let s := g.cores.foldl (fun s c => s.takeCore (g.cluster * 48 + c) gid g.half) s
      let c := s.cluster g.cluster
      let s := s.putCluster { c with holders := g.bars.foldl (fun h b => vset h b (some gid)) c.holders }
      match restoreCores g (g.cores.zip g.evSlots) true s with
      | (s, .error c) =>
        let s := (s.putGroup { g with evicted := false, evSlots := [] }).due (.benchPreempt g.part)
        .next (match s.strands.find? fun t => t.gid == gid && t.status != .ended with
          | some t => s.groupFatal t c
          | none => s)
      | (s, .ok _) =>
        let s := (s.putGroup { g with evicted := false, evSlots := [] }).due (.benchPreempt g.part)
        .next (((s.strands.filter fun t => t.gid == gid && t.status == .ready).map Strand.id).foldl (fun s i => s.due (.contextRestore i)) s)

/-! ## YIELD (04 R106) -/

/-- Whether the bench holds a candidate group for the core of the acting strand. -/
def State.hasCandidate (s : State) : Bool :=
  let st := s.cur
  let mine := (s.node st.nid).elim 0 Node.prio
  (s.partNodes st.part).any fun n =>
    n.half == (s.core st.coreNo).cur && ((n.st == .ready && mine ≤ n.eff) || (n.st == .binding && mine ≤ n.prio))

/-! ## PGWAKE (R374) -/

/-- Bits of a page by its SZ code (16 R328). -/
def pageBits : Nat → Nat
  | 0 => 16 | 1 => 21 | _ => 30

/-- The leaf of a page, whatever its V bit holds, if it is well formed apart from that (R374). -/
def leafAny (s : State) (p : Part) (va : Nat) : Option (Nat × Nat) :=
  if p.ttb == 0 then none
  else match walkEntry s p va 5 p.ttb.toNat with
    | .ok (e, level) => if e.testBit 1 && leafOk p level e then some (e, levelShift level) else none
    | .error _ => none

/-- Whether a park key lies in the 64 KiB at `va`, as a leaf of `b` offset bits maps them. -/
def keyInPage (p : Part) (va leaf b key : Nat) : Bool :=
  let off := va % 2 ^ b / 2 ^ 16 * 2 ^ 16
  isHbm key && !leaf.testBit 11 &&
    (if leaf.testBit 15 then
      p.stacks.contains (bits leaf 12 3) && key / 2 ^ 16 == (bits leaf 12 3 * 2 ^ 36 + bits leaf 16 20 * 2 ^ 16 + off) / 2 ^ 16
    else (List.range 16).any fun i =>
      (interleavedKey p.stacks (bits leaf 16 32 * 2 ^ 16 + off + 2 ^ 12 * i)).any fun k => k / 2 ^ 12 == key / 2 ^ 12)

/-- Whether a park key lies in the page of an address and a size code: the walk finds each of its 64 KiB. -/
def State.keyIn (s : State) (p : Part) (va sz key : Nat) : Bool :=
  let b := pageBits sz
  (List.range (2 ^ (b - 16))).any fun i =>
    let a := va / 2 ^ b * 2 ^ b + 2 ^ 16 * i
    (leafAny s p a).any fun l => keyInPage p a l.1 l.2 key

/-- The walks of a page, 64 KiB by 64 KiB, where a strand of the partition is parked. -/
def State.pageWalked (s : State) (p : Part) (va sz : Nat) : State :=
  let b := pageBits sz
  if s.strands.any fun t => t.part == p.id && t.parkKey.isSome then
    (List.range (2 ^ (b - 16))).foldl (fun s i => s.walked p (va / 2 ^ b * 2 ^ b + 2 ^ 16 * i)) s
  else s

/-- Re-readies every strand parked on a sett of a page (R374). -/
def State.pageWake (s : State) (pid va sz : Nat) : State :=
  let p := s.part pid
  let s := s.pageWalked p va sz
  ((s.strands.filter fun t => t.part == pid && t.parkKey.any fun k => s.keyIn p va sz k).map Strand.id).foldl State.wakeStrand s

/-- PGWAKE (R374). -/
def execPgwake (part : Nat) (va : Word) (sz : Fin 3) (s : State) : Res := .next (s.pageWake part va.toNat sz.val)

/-! ## The event stream's control (R375) -/

/-- EVCTL_WRITE (R375): a value that sets EN with no buffer is refused, as its SYSW is. -/
def execEvctlWrite (part : Nat) (val : Word) (s : State) : Res :=
  let p := s.part part
  if val.getLsbD 0 && p.evsize == 0 then .next s
  else match regInfo 0x230 with
    | some i => .next (s.putPart { p with evctl := i.apply p.evctl val })
    | none => .next s

end Sys2Proof.Machine
end

