-- ==== Sys2Proof/Machine/Debug.lean ====
section
/-!
DEFINITION. Performance counters (13 R293, R294), sampling (R295 to R297), the hot-page tracker's window (16 R334) and the invalidation of
translations (16 R331, 06 R172).
-/
namespace Sys2Proof.Machine

/-! ## Counters -/

/-- The strand of a core that a counter's INT goes to: its bound strand, or strand A (R294), also while it is off the core (08 R233). -/
def State.boundStrand (s : State) (coreNo : Nat) : Option Strand :=
  s.strands.find? fun t => t.coreNo == coreNo && !t.stratB && t.status != .unbound && t.status != .ended && (s.core coreNo).owner == some t.gid

/-- COUNTER_OVERFLOW (R294): the bit of PMOVF is set, and with OVI an INT is raised. -/
def execCounterOverflow (core : Nat) (n : Fin 16) (s : State) : Res :=
  let c := s.core core
  let s := s.putCore { c with pmovf := c.pmovf ||| (1#16 <<< n.val) }
  match s.boundStrand core with
  | some t => .next (if (vget c.pmsel n.val).getLsbD 11 then s.due (.int t.id (BitVec.ofNat 64 (0x100 + n.val))) else s)
  | none => .next s

/-- Whether a counter counts an event code of a strand. -/
def countsEvent (sel : Word) (code : Nat) (stratB : Bool) : Bool :=
  sel.getLsbD 10 && fieldOf sel 0 8 == code && code != 0 &&
    (match fieldOf sel 8 2 with | 0 => true | 1 => !stratB | 2 => stratB | _ => false)

/-- Marks in a step's tally that counter `n` of a core is written, and the selection that its increments of the step are of. -/
def State.pmMark (s : State) (coreNo n : Nat) (sel : Word) : State :=
  { s with tally := ⟨coreNo, false, 0x1000 + n, sel.toNat⟩ :: s.tally }

/-- The mark that a counter has in the step's tally. -/
def State.pmMarked (s : State) (coreNo n : Nat) : Option Tally := s.tally.find? fun t => t.core == coreNo && t.evt == 0x1000 + n

/-- Adds an increment to counter `n` of a core: with a write of it in the same step it goes to PMLOST, else it may carry out of bit 47. -/
def State.countUp (s : State) (coreNo n k : Nat) (written : Bool) : State :=
  let c := s.core coreNo
  if k == 0 then s
  else if written then s.putCore { c with pmlost := BitVec.ofNat 32 (min (c.pmlost.toNat + k) (2 ^ 32 - 1)) }
  else
    let v := (vget c.pmcnt n).toNat + k
    let s := s.putCore { c with pmcnt := vset c.pmcnt n (BitVec.ofNat 64 (v % 2 ^ 48)) }
    if 2 ^ 48 ≤ v then s.due (.counterOverflow coreNo (Fin.ofNat 16 n)) else s

/-- The reason of both sides while a strand is saved (R296). -/
def Strand.saveReason (st : Strand) : Nat := if st.parkKey.isSome then wPARKED else wPREEMPT

/-- The reason that the generator of a strand reports. -/
def Strand.genReason (st : Strand) : Nat := if st.status == .saving then st.saveReason else st.stall

/-- The reason that the stream of a strand reports: it is saved, stands idle, or stalls. -/
def Strand.streamReason (st : Strand) : Nat :=
  if st.status == .saving then st.saveReason else if st.streamEmpty then wEQEMPTY else st.sstall

/-- Whether a strand stalls for the reason of an event code of stall cycles. -/
def Strand.stallsBy (st : Strand) (code : Nat) : Bool :=
  (st.genReason != wNone && st.genReason + 0x10 == code) || (st.streamReason != wNone && st.streamReason + 0x20 == code)

/-- What a step adds to a counter of a core that has a selection: what its strands have tallied, and, for events of time, a free count
(log entry 10): cycles, and stall cycles of the reasons that its strands report. -/
def State.increment (s : State) (coreNo : Nat) (sel : Word) : Nat :=
  let code := fieldOf sel 0 8
  let takes (b : Bool) : Bool := countsEvent sel code b
  let seen := ((s.tally.filter fun t => t.core == coreNo && t.evt == code && takes t.stratB).map Tally.n).sum
  let stalled := (s.strands.filter fun t => t.onCore && t.coreNo == coreNo && takes t.stratB && t.stallsBy code).length
  seen + (stalled + if code == 0x01 && (takes false || takes true) then 1 else 0) * Config.pmTick s.tick code

/-- The counters of a core at the end of a step (R293, R294). -/
def State.tallyCore (s : State) (coreNo : Nat) : State :=
  (List.range 16).foldl (fun s n =>
    let mark := s.pmMarked coreNo n
    let sel := match mark with | some t => BitVec.ofNat 64 t.n | none => vget (s.core coreNo).pmsel n
    s.countUp coreNo n (s.increment coreNo sel) mark.isSome) s

/-- The counters at the end of a step: of every core that has one on, or whose selection the step has changed. -/
def State.tallyUp (s : State) : State :=
  let on (c : CoreSt) : Bool := c.pmsel.toList.any fun x => x.getLsbD 10
  let s := (s.cores.filter fun c => on c || s.tally.any fun t => t.core == c.id && 0x1000 ≤ t.evt).foldl (fun s c => s.tallyCore c.id) s
  { s with tally := [] }

/-- A write of PMCNTn: 48 bits (R293). -/
def State.writePmcnt (s : State) (coreNo n : Nat) (val : Word) : State :=
  let c := s.core coreNo
  (s.putCore { c with pmcnt := vset c.pmcnt n (BitVec.ofNat 64 (val.toNat % 2 ^ 48)) }).pmMark coreNo n (vget c.pmsel n)

/-- PMCNT_WRITE (R294): the write stands, and an increment that meets it is lost to PMLOST. -/
def execPmcntWrite (core : Nat) (n : Fin 16) (val : Word) (s : State) : Res := .next (s.writePmcnt core n.val val)

/-! ## Sampling (R295 to R297) -/

/-- Whether a value is refused for SMPCTL: EN without a buffer, or EN with a period outside 8 to 24. A value without EN names no
period; DEDUCED (25). -/
def smpctlBad (c : CoreSt) (v : Word) : Bool :=
  v.getLsbD 0 && (c.smpsize == 0 || fieldOf v 8 5 < 8 || 24 < fieldOf v 8 5)

/-- Whether a value is refused for SMPSIZE. -/
def smpsizeBad (v : Word) : Bool :=
  let n := v.toNat / 2 ^ 12 * 2 ^ 12
  n != 0 && (n < 2 ^ 12 || 2 ^ 30 < n)

/-- SMPCTL_WRITE (R295): records already taken are in memory, so that a write that clears EN completes at once. -/
def execSmpctlWrite (core : Nat) (val : Word) (s : State) : Res :=
  let c := s.core core
  if smpctlBad c val then .next s
  else match regInfo 0x228 with
    | some i => .next (s.putCore { c with smpctl := i.apply c.smpctl val })
    | none => .next s

/-- The opcode of a stream word. -/
def opOf (w : Nat) : Nat := bits w 3 7

/-- A vector memory word: VLD to VSTN in every mode, VAMO and VBUPD. -/
def isVecMem (w : Nat) : Bool := 64 ≤ opOf w && opOf w ≤ 72

/-- The word at the head of a strand's stream, the oldest that has not retired: its PROV and SEQ, and its address if a block fetched
it. -/
def Strand.head (st : Strand) : Option (Word × BitVec 48 × Option Word) :=
  match st.captured, st.cur, st.block.call with
  | c :: _, _, _ => some (c.prov, c.seq, c.spc)
  | [], some c, _ => some (c.e.prov, c.e.seq, if c.blk then some c.spc else none)
  | [], none, some e => some (e.prov, e.seq, some st.block.spc)
  | [], none, none => st.queue.findSome? fun | .word e => some (e.prov, e.seq, none) | .ctl _ _ => none

/-- The vector memory word that is in progress at the head. -/
def Strand.headMem (st : Strand) : Option Cur := st.cur.filter fun c => st.captured.isEmpty && c.issued && !(c.e.call && !c.blk) && isVecMem c.w

/-- Whether a word names its addresses by a vector of indices: VLDX, VSTX and VAMO. VBUPD runs in unit mode (16 R326). -/
def isIndexed (w : Nat) : Bool := opOf w == 65 || opOf w == 68 || opOf w == 71

/-- The stride register of a VLD or VST in stride mode. -/
def strideOf (w : Nat) : Option XReg := if (opOf w == 64 || opOf w == 67) && bits w 42 1 == 1 then xtailAt w 64 else none

/-- The stride class of a vector memory word (R297). -/
def State.strideClass (s : State) (w : Nat) : Nat :=
  if opOf w == 66 || opOf w == 69 then 4
  else if (slotAt w 48).any fun b => inWindow (s.cur.slot b).toNat then 5
  else if isIndexed w then 3
  else match strideOf w with
    | none => 0
    | some x => if (s.cur.xGet x).toInt.natAbs ≤ 128 then 1 else 2

/-- The line that an element of a vector memory word touches. -/
def State.lineTouched (s : State) (w r i : Nat) : Nat :=
  let ty := (Ty.ofCode (bits w 28 4)).getD .i64
  if opOf w == 66 || opOf w == 69 then
    laneOffset (s.cur.laneOf (i / (64 / ty.width))) (s.vGet (bits w 32 6 + r) 16 i) / 128
  else match slotAt w 48 with
    | none => 0
    | some b =>
      (if isIndexed w then
        s.indexAddr b (bits w 32 6) r i
      else s.unitAddr ty b (strideOf w) r i).toNat / 128

/-- The vector-memory unit of a record (R297). The lines are those of the word's footprint (23 R418); the average is timing, and is left
free once an element has completed (log entry 13). -/
def State.vmsUnit (s : State) (c : Cur) : List Byte :=
  let ty := (Ty.ofCode (bits c.w 28 4)).getD .i64
  let els := (List.range s.cur.rows).flatMap fun r => ((List.range s.cur.vl).filter fun i => c.mask.getLsbD i).map fun i => (r, i)
  let lines := (els.map fun x => s.lineTouched c.w x.1 x.2).eraseDups
  let none' := els.all fun x => s.cur.unfinished ty.width x.1 x.2
  let pods := (List.range 8).flatMap fun p => match c.pods[p]? with
    | some q => leBytes q.idx 2 ++ leBytes q.row 1
    | none => leBytes 0 2 ++ leBytes s.cur.rows 1
  leBytes (s.strideClass c.w) 1 ++ leBytes (min 255 c.vms.pages.length) 1 ++ leBytes (min 255 c.vms.misses) 1 ++ leBytes 0 1 ++
    leBytes lines.length 2 ++ leBytes (min 0xFFFF c.vms.conf) 2 ++
    leBytes (if none' then 0xFFFF else (Config.freeWord s.tick 4).toNat % 2 ^ 16) 2 ++ leBytes 0 6 ++ pods ++ leBytes 0 24

/-- A sampling record of the acting strand (R296). A side that does not stall reports reason 0; stalls that end within a step of the model
are reported by none (log entry 9). -/
def State.sampleRecord (s : State) (vms : Bool) : List Byte :=
  let st := s.cur
  let h := st.head
  let spc := h.bind fun x => x.2.2
  let unit := if vms then st.headMem else none
  let sst := st.streamReason
  let gst := st.genReason
  let bit (b : Bool) (v : Nat) : Nat := if b then v else 0
  leBytes s.pkg.time 8 ++ leBytes st.gen.pc.toNat 8 ++ leBytes (h.elim 0 fun x => x.1.toNat) 8 ++ leBytes (h.elim 0 fun x => x.2.1.toNat) 6 ++
    leBytes (gst % 16 + sst % 16 * 16) 1 ++
    leBytes (bit (gst != wNone) 1 + bit (sst != wNone) 2 + bit spc.isSome 4 + bit (st.half && st.stratB) 8 + bit unit.isSome 16) 1 ++
    leBytes (spc.elim 0 BitVec.toNat) 8 ++ leBytes st.ident.gidx.toNat 4 ++ leBytes st.ident.sidx.toNat 1 ++ leBytes st.ident.stage.toNat 1 ++
    leBytes 0 18 ++ unit.elim [] s.vmsUnit

/-- Writes one record of the acting strand at SMPPTR, which wraps first when fewer than 128 bytes remain. -/
def State.writeSample (s : State) (core : Nat) : State :=
  let c := s.core core
  if !c.smpctl.getLsbD 0 then s
  else
    let bs := s.sampleRecord (c.smpctl.getLsbD 13)
    let wrap := c.smpsize.toNat < c.smpptr.toNat + 128
    let ptr := if wrap then 0 else c.smpptr.toNat
    let s := if wrap then s.putCore { c with smpptr := 0, smpctl := c.smpctl ||| 0x4000 } else s
    match s.unitPutMany s.cur.part core (c.smpbase.toNat + ptr) bs with
    | (s, .ok _) => s.putCore { s.core core with smpptr := BitVec.ofNat 64 (ptr + bs.length) }
    | (s, .error _) =>
      let c := s.core core
      s.putCore { c with smpctl := (c.smpctl ||| 0x8000) &&& ~~~1 }

/-- SAMPLE (R295): a record for each strand on the core, strand A first. -/
def execSample (core : Nat) (s : State) : Res :=
  let on (b : Bool) : List Nat :=
    (s.strands.filter fun t => t.coreNo == core && t.stratB == b && (t.status == .running || t.status == .saving)).map Strand.id
  .next ((on false ++ on true).foldl (fun s sid => s.asStrand sid fun s => s.writeSample core) s)

/-! ## The hot-page tracker's window (16 R334) -/

/-- HP_WINDOW_RESET: the counts of a die reset. -/
def execHpWindowReset (die : Nat) (s : State) : Res := .next (s.putDie { s.die die with counts := [], told := [] })

/-! ## Invalidation (16 R331, 06 R172) -/

/-- Whether a request waits on a full/empty condition at its remote node. -/
def GwReq.waits (q : GwReq) : Bool :=
  q.reply.isNone && (q.form.toNat == gfFill || q.form.toNat == gfWait || q.form.toNat == gfConsume)

/-- Whether an access of a word waits at a home on a full/empty condition (R172); a word that must not stop now is none (07 R217). -/
def State.feWaits (s : State) (c : Cur) : Bool :=
  c.stage != 2 && c.pods.any fun p => p.waiter.isSome || (p.gw.bind fun i => findBy GwReq.id i s.gwReqs).any GwReq.waits

/-- Whether a strand's word holds a pin on a page that `hit` takes, by its address and the bits of its page. -/
def Strand.pinning (st : Strand) (pid : Nat) (hit : Nat → Nat → Bool) : Bool :=
  st.part == pid && st.onCore && st.cur.any fun c => c.pins.any fun p => hit p.toNat (p.toNat % 2 ^ 16)

/-- Whether an invalidation is to wait: a word that waits on no full/empty condition holds a pin on its pages (R172, R331). -/
def State.pinsHeld (s : State) (pid : Nat) (hit : Nat → Nat → Bool) : Bool :=
  s.strands.any fun t => t.pinning pid hit && !t.cur.any s.feWaits

/-- A word that an invalidation interrupts: its pins are released, and it checks its footprint again from where its pods stand (R172); the
data that a block has staged is discarded (07 R217). -/
def Strand.unpin (st : Strand) : Strand :=
  { st with cur := st.cur.map fun c => { c with
      pinEnd := 0, pins := [], staged := [], watch := none
      pods := c.pods.map fun p => { st.podAt (p.row, p.idx) with done := p.done, gw := p.gw, halt := p.halt } } }

/-- Invalidates the entries of a partition that match, in every TLB, those of the ports among them. Words that hold a pin while they wait are interrupted. -/
def State.tlbInvalidate (s : State) (pid : Nat) (hit : Nat → Nat → Bool) : State :=
  let keep (e : TlbEntry) : Bool := !(e.part == pid && hit e.va e.bits)
  let cores := s.cores.map fun (c : CoreSt) => { c with dtlb := c.dtlb.filter keep }
  let clusters := s.clusters.map fun (c : ClusterSt) => { c with tlb := c.tlb.filter keep }
  let pkg := { s.pkg with ptlb := s.pkg.ptlb.map fun l => l.filter keep }
  let ids := (s.strands.filter fun t => t.pinning pid hit).map Strand.id
  let s : State := ids.foldl (fun s i => s.dropArrivals i) { s with cores := cores, clusters := clusters, pkg := pkg }
  let s := s.dropWaiters fun w => match w.src with | .pod sid _ => ids.contains sid | _ => false
  let fix (t : Strand) : Strand := if t.pinning pid hit then t.unpin else t
  { s with cur := fix s.cur, others := s.others.map fix }

/-- Whether the page of an address overlaps the page of `va` of size code `sz`. -/
def samePage (va sz a b : Nat) : Bool :=
  let k := max b (pageBits sz)
  a % 2 ^ 57 / 2 ^ k == va % 2 ^ 57 / 2 ^ k

/-- The pages that a write of TLBI names (R331). -/
def tlbiHit (v : Word) : Nat → Nat → Bool :=
  if v.getLsbD 2 then fun _ _ => true else samePage (fieldOf v 16 41 * 2 ^ 16) (fieldOf v 0 2)

/-- TLBI_PAGE (R331): one page of the given size, once no word holds a pin that it waits for. -/
def execTlbiPage (part : Nat) (va : Word) (sz : Fin 3) (s : State) : Res :=
  let hit := samePage va.toNat sz.val
  .next (if s.pinsHeld part hit then s.due (.tlbiPage part va sz) else s.tlbInvalidate part hit)

/-- TLBI_ALL (R331): every entry of the partition, once no word holds a pin that it waits for. -/
def execTlbiAll (part : Nat) (s : State) : Res :=
  let hit (_ _ : Nat) : Bool := true
  .next (if s.pinsHeld part hit then s.due (.tlbiAll part) else s.tlbInvalidate part hit)

end Sys2Proof.Machine
end

