-- ==== Sys2Proof/Machine/Package.lean ====
section
/-!
DEFINITION. The package (22 R401 to R415, 23 R416, 24 R421 to R429, 25 R431, R443, R444): DRAM banks, links, ports, power and clock, pins, the
management controller and its registers.
-/
namespace Sys2Proof.Machine

def State.onPkg (s : State) (f : Pkg → Pkg) : State := { s with pkg := f s.pkg }

/-! ## DRAM banks (22 R411, R414, R415) -/

def State.bank (s : State) (stack chan bank : Nat) : BankSt :=
  (s.pkg.banks.find? fun b => b.stack == stack && b.chan == chan && b.bank == bank).getD
    { stack := stack, chan := chan, bank := bank, hinted := none, postponed := 0, backoff := false, rfm := 0 }

def State.putBank (s : State) (b : BankSt) : State := s.onPkg fun p =>
  { p with banks := b :: p.banks.filter fun x => !(x.stack == b.stack && x.chan == b.chan && x.bank == b.bank) }

/-- The partition that holds a stack. -/
def State.onPartOfStack (s : State) (stack : Nat) (f : Part → Part) : State :=
  match s.partOfDie (stack / 2) with
  | some p => s.putPart (f p)
  | none => s

/-- Whether demand traffic is pending at a bank, and whether the hint receiver waits for it: timing, left free (log entry 13). -/
def State.demandPending (s : State) : Bool := (Config.freeWord s.tick 5).getLsbD 0

/-- A hint is dropped. -/
def State.hintDropped (s : State) (stack : Nat) : State := s.onPartOfStack stack fun p => { p with hdrop := satInc p.hdrop 1 }

/-- A hint at the head of its queue: it activates its row, or it is dropped where a demand access is pending, a refresh is due or eight are
postponed, or a back-off is in force. -/
def State.hintTurn (s : State) (h : Hint) : State :=
  let b := s.bank h.stack h.chan h.bank
  if 8 ≤ b.postponed || b.backoff || s.demandPending || s.events.contains (.refresh h.stack h.chan h.bank) then s.hintDropped h.stack
  else (s.putBank { b with hinted := some h.row }).due (.hintRowClose h.stack h.chan h.bank)

/-- The receiver works through the queue of a pseudo-channel when it comes to it: when is timing, left free (log entry 13). -/
def State.hintsTurn (s : State) (stack chan : Nat) : State :=
  let mine (h : Hint) : Bool := h.stack == stack && h.chan == chan
  if (Config.freeWord s.tick 7).getLsbD 0 then s
  else (s.pkg.hintq.filter mine).foldl State.hintTurn (s.onPkg fun p => { p with hintq := p.hintq.filter fun h => !mine h })

/-- HINT (R411): a hint joins the queue of its pseudo-channel, which holds eight; a demand access never waits for it. -/
def execHint (stack chan bank row : Nat) (s : State) : Res :=
  let s := s.onPartOfStack stack fun p => { p with hints := satInc p.hints 1 }
  let h : Hint := { stack := stack, chan := chan, bank := bank, row := row }
  if 8 ≤ (s.pkg.hintq.filter fun x => x.stack == stack && x.chan == chan).length then .next (s.hintDropped stack)
  else .next ((s.onPkg fun p => { p with hintq := p.hintq ++ [h] }).hintsTurn stack chan)

/-- HINT_ROW_CLOSE (R411): a hinted row closes after 280 cycles. -/
def execHintRowClose (stack chan bank : Nat) (s : State) : Res :=
  .next ((s.putBank { s.bank stack chan bank with hinted := none }).hintsTurn stack chan)

/-- REFRESH (R414): a refresh that is due is postponed while demand traffic is pending, up to eight; else it is made, with those that were
postponed. -/
def execRefresh (stack chan bank : Nat) (s : State) : Res :=
  let b := s.bank stack chan bank
  if b.backoff || s.demandPending then .next (s.putBank { b with postponed := min 8 (b.postponed + 1), hinted := if b.postponed < 8 then b.hinted else none })
  else .next (s.putBank { b with postponed := 0, hinted := none })

/-- ACTIVATION_ALERT (R415): the back-off begins, every postponed refresh is paid, and one RFM is issued. -/
def execActivationAlert (stack chan bank : Nat) (s : State) : Res :=
  let b := s.bank stack chan bank
  .next ((s.putBank { b with backoff := true, postponed := 0, hinted := none, rfm := b.rfm + 1 }).due (.backoffEnd stack chan bank))

/-- BACKOFF_END (R415). -/
def execBackoffEnd (stack chan bank : Nat) (s : State) : Res := .next (s.putBank { s.bank stack chan bank with backoff := false })

/-- The bank that holds a line of HBM, and its row (22 R406). -/
def State.bankOfKey (s : State) (key : Nat) : BankSt × Nat :=
  let (c, b, r) := dramRow ((s.partOfDie (dieOfKey key)).elim 0 Part.hmask) (key % 2 ^ 36)
  (s.bank (stackOf key) c b, r)

/-- Keys that the step in progress has accessed in DRAM. -/
def State.demands (s : State) : List Nat := (s.tally.filter fun t => t.evt == demandEvt).map Tally.n

/-- A demand access closes a hinted row of its bank other than its own at once (R411), and a bank that owes eight refreshes makes one before
the activation (R414). -/
def State.demandRow (s : State) (key : Nat) : State :=
  let (b, r) := s.bankOfKey key
  if b.postponed == 8 then s.putBank { b with postponed := 7, hinted := none }
  else if b.hinted.any fun h => h != r then s.putBank { b with hinted := none } else s

/-- Whether a step would reach a bank in back-off, whose demand accesses are held (R414). -/
def State.reachesBackoff (s : State) (keys : List Nat) : Bool := keys.any fun k => (s.bankOfKey k).1.backoff

/-! ## Power and clock (24 R421, R422, R429) -/

/-- The package leaves service with FAULT_N low (R422). -/
def State.goFatal (s : State) : State := s.onPkg fun p => { p with fatal := true, faultN := false }

/-- One clock step down, no lower than 0.8 GHz. -/
def State.clockDown (s : State) : State := s.onPkg fun p => { p with clk := max 8 (p.clk - 1) }

/-- POWER_WINDOW (R421): a window above 2,800 W lowers the clock by one step, and one at 0.8 GHz is a fatal error (R422); a window below 95%
of the limit lets the clock rise again, and one that is not holds it. -/
def execPowerWindow (watts : Nat) (s : State) : Res :=
  if 2800 < watts then
    .next (if s.pkg.clk ≤ 8 then s.goFatal else s.clockDown.onPkg fun p => { p with noRaise := true })
  else if watts < 2660 then .next (s.onPkg fun p => { p with noRaise := false, raiseAt := if p.noRaise then p.time else p.raiseAt })
  else .next (s.onPkg fun p => { p with noRaise := true })

/-- THERMAL_THRESHOLD (R421, R429): the clock steps down and THERM_ALERT_N falls. -/
def execThermalThreshold (die : Nat) (s : State) : Res :=
  .next (s.clockDown.onPkg fun p => { p with therm := insNat die p.therm, thermN := false, noRaise := true })

/-- The clock may rise by a step: 100 ms have passed since a window closed below 95% of the limit and since the last step up (R421). -/
def Pkg.mayRaise (p : Pkg) : Bool := !p.noRaise && p.cltOk && decide (p.raiseAt + 100000000 ≤ p.time)

/-- CLOCK_RAISE (R421): one step up. THERM_ALERT_N stays low until the clock stands at its highest again (R429; log entry 38). -/
def execClockRaise (s : State) : Res :=
  if !s.pkg.mayRaise then .next s
  else .next (s.onPkg fun p =>
    let top := decide (13 ≤ p.clk)
    { p with clk := min 14 (p.clk + 1), raiseAt := p.time, therm := if top then [] else p.therm, thermN := top || p.thermN })

/-- CLT_OK_FALL (R429): the module goes to 0.8 GHz at once. -/
def execCltOkFall (s : State) : Res := .next (s.onPkg fun p => { p with cltOk := false, clk := 8, cltLowAt := p.time, noRaise := true })

/-- CLT_OK_RISE (R429). -/
def execCltOkRise (s : State) : Res := .next (s.onPkg fun p => { p with cltOk := true })

/-- COOLANT_TIMEOUT (R429): CLT_OK low for 1 s; power leaves the compute dies and FAULT_N falls. The board, which raises PWR_EN only while CLT_OK
is high, has it low (DESIGN CHOICE, log entry 38). -/
def execCoolantTimeout (s : State) : Res :=
  if s.pkg.cltOk then .next s else .next (s.goFatal.onPkg fun p => { p with pgood := false, pwrEn := false })

/-! ## Undervolting (24 R423) -/

/-- A rail at a voltage. -/
def State.setRail (s : State) (rail : Nat) (low : Bool) : State :=
  s.onPkg fun p => { p with rails := (rail, low) :: p.rails.filter fun r => r.1 != rail }

/-- UNDERVOLT_WINDOW (R423): a window starts or ends on a rail; one that the arbiter has disabled stays at nominal. -/
def execUndervoltWindow (rail : Nat) (low : Bool) (s : State) : Res :=
  if low && s.pkg.noUv.contains rail then .next s else .next (s.setRail rail low)

/-- UNDERVOLT_RETURN (R423): where an array on the rail has passed its threshold in undervolt windows, the rail returns to nominal, where it
stays until reset. -/
def execUndervoltReturn (rail : Nat) (s : State) : Res :=
  if s.pkg.arrays.any fun a => Config.railOf a.array == rail && decide (Config.failureRate a.array < a.under) then
    .next ((s.setRail rail false).onPkg fun p => { p with noUv := insNat rail p.noUv })
  else .next s

/-- PREDICTIVE_FAILURE (R423): an array that has passed its threshold at nominal voltage. -/
def execPredictiveFailure (array : Nat) (s : State) : Res :=
  if s.pkg.arrays.any fun a => a.array == array && decide (Config.failureRate array < a.nominal) then
    .next (s.onPkg fun p => { p with predicted := insNat array p.predicted })
  else .next s

/-! ## Cores and links (14 R318, 22 R401, 24 R422) -/

/-- CORE_OUT_OF_SERVICE (R422, 14 R318): groups bound to the core end; the spec names no cause, which is left free (log entry 13). -/
def execCoreOutOfService (core : Nat) (s : State) : Res :=
  let s := s.putCore { s.core core with service := false }
  let gs := s.groups.filter fun g => g.cluster == core / 48 && g.cores.contains (core % 48)
  .next (gs.foldl (fun s g =>
    let mine (t : Strand) : Bool := t.gid == g.id && t.status != .ended
    match (s.strands.find? fun t => mine t && t.coreNo == core).orElse fun _ => s.strands.find? mine with
    | some t => s.groupFatal t (openCause (Config.freeWord s.tick 6))
    | none => s) s)

/-- The die whose partition counts a retry of a link. -/
def linkDie : Link → Nat
  | .cluster c _ => c / 5
  | .die a _ => a
  | .base st => st / 2
  | .port p => p / 13

/-- Counts a retry in LINKRT (24 R424). -/
def State.countRetry (s : State) (l : Link) : State :=
  match s.partOfDie (linkDie l) with
  | some p => s.putPart { p with linkrt := satInc p.linkrt 1 }
  | none => s

def State.link (s : State) (l : Link) : LinkSt :=
  (s.pkg.links.find? fun x => x.link == l).getD { link := l, fails := 0, half := false, oos := false }

def State.putLink (s : State) (l : LinkSt) : State := s.onPkg fun p => { p with links := l :: p.links.filter fun x => x.link != l.link }

/-- A base-die link out of service makes its stack unreachable: a fatal error of the partition that holds it (R401). -/
def State.stackLost (s : State) (stack : Nat) : State :=
  match s.partOfDie (stack / 2) with
  | some p => s.onPkg fun k => { k with dead := insNat p.id k.dead, faultN := false }
  | none => s

/-- LINK_RETRY (R401, R318): a retry counts; the third failure in a row takes a cluster link out of service, and drops another link to half
width, or, at half width, out of service. -/
def execLinkRetry (link : Link) (failed : Bool) (s : State) : Res :=
  if !link.real then .next s else
  let s := s.countRetry link
  let l := s.link link
  if !failed then .next (s.putLink { l with fails := 0 })
  else if l.fails + 1 < 3 then .next (s.putLink { l with fails := l.fails + 1 })
  else
    match link with
    | .cluster _ _ => .next (s.putLink { l with fails := 0, oos := true })
    | .base st => .next (if l.half then (s.putLink { l with fails := 0, oos := true }).stackLost st else s.putLink { l with fails := 0, half := true })
    | _ => .next (if l.half then s.putLink { l with fails := 0, oos := true } else s.putLink { l with fails := 0, half := true })

/-- TC0_WINDOW (14 R303): the demoted flits of a window are counted. -/
def execTc0Window (part demoted : Nat) (s : State) : Res :=
  let p := s.part part
  .next (s.putPart { p with tc0dem := satInc p.tc0dem demoted })

/-! ## Ports and time (25 R431, R433, R443, R444) -/

/-- PSTAT of a port changed. -/
def State.onPort (s : State) (port : Nat) (f : BitVec 8 → BitVec 8) : State :=
  s.onPkg fun p => { p with pstat := vset p.pstat port (f (vget p.pstat port)) }

/-- PSTAT.OOS of a port. -/
def State.portOos (s : State) (port : Nat) : Bool := (vget s.pkg.pstat port).getLsbD 3

/-- A port fails (R444): at full width, by three retries or by its lanes, it retrains at 4 lanes; at half width it is out of service until
reset. -/
def State.portFails (s : State) (port : Nat) : State :=
  let l := s.link (.port port)
  if l.half then (s.putLink { l with fails := 0, oos := true }).onPort port fun x => (x &&& 0xC2) ||| 0x08
  else (s.putLink { l with fails := 0, half := true }).onPort port fun x => (x &&& ~~~0x30) ||| 0x10

/-- PORT_FRAME_RETRY (R444): a corrupted frame is replayed; three failures retrain the port at 4 lanes, and a port that fails at half width
is out of service until reset. -/
def execPortFrameRetry (port : Nat) (failed : Bool) (s : State) : Res :=
  let s := s.countRetry (.port port)
  let l := s.link (.port port)
  if !failed then .next (s.putLink { l with fails := 0 })
  else if l.fails + 1 < 3 then .next (s.putLink { l with fails := l.fails + 1 })
  else .next (s.portFails port)

/-- PORT_LINK_UP (R431, R433): the link is up at full width, or at half where it has retrained, and its security session with it. -/
def execPortLinkUp (port : Nat) (s : State) : Res :=
  if s.portOos port then .next s
  else
    let w : BitVec 8 := if (s.link (.port port)).half then 0x10 else 0x20
    .next (s.onPort port fun x => (x &&& 0xC2) ||| w ||| 0x05)

/-- PORT_LINK_DOWN (R433): UP falls; where lanes have failed, the port retrains or leaves service (R444). -/
def execPortLinkDown (port : Nat) (failed : Bool) (s : State) : Res :=
  .next (if failed then s.portFails port else s.onPort port fun x => x &&& 0xCA)

/-- PTP_MESSAGE (R443): a port carries PTP; TIME is slewed and may be locked. How far it is slewed is part of the free tick (log entry 8). -/
def execPtpMessage (port : Nat) (locked : Bool) (s : State) : Res :=
  .next ((s.onPort port fun x => x ||| 0x02).onPkg fun p => { p with lock := locked })

/-- PTP_LOCK_LOSS (R443). -/
def execPtpLockLoss (s : State) : Res := .next (s.onPkg fun p => { p with lock := false })

/-! ## Reset and power (24 R427, R429) -/

/-- The module as a reset leaves it: the node number and the pins outlive it, as do the model's own counters and choices. Without coolant it stands
at 0.8 GHz (R429). -/
def State.afterReset (s : State) : State :=
  let r := State.reset
  { r with pkg := { r.pkg with fnode := s.pkg.fnode, cltOk := s.pkg.cltOk, cltLowAt := s.pkg.cltLowAt, out := s.pkg.out
                               clk := if s.pkg.cltOk then 14 else 8, noRaise := !s.pkg.cltOk }
           sched := s.sched, upsets := s.upsets, podLag := s.podLag, tick := s.tick, events := [] }

/-- The module brought up by the management controller (R427). A step that fails stops it with FAULT_N low, and nothing runs until the next
reset (log entry 14). At boot TIME is set, to a value that is left free (25 R443; log entry 12). -/
def State.boot (s : State) : State :=
  let t := s.afterReset
  if s.upsets.contains .bootFails then { t with upsets := s.upsets.erase .bootFails }.goFatal
  else t.onPkg fun p => { p with time := (Config.freeWord s.tick 11).toNat }

/-- RESET_N (R427): the whole module is reset, and every line of HBM is written fresh (22 R445). Without power a reset brings nothing up
(R429). The pin falls and rises within the step (log entry 12). -/
def execResetN (s : State) : Res := .next (if s.pkg.pgood then s.boot else s)

/-- PWR_EN (R429): the board enables power, which it does only while CLT_OK is high. -/
def execPwrEn (s : State) : Res :=
  if !s.pkg.cltOk || (s.pkg.pwrEn && s.pkg.pgood && !s.pkg.fatal) then .next s else .next s.boot

/-! ## The management controller (22 R402, R408, 23 R416, 24 R428, 25 R436) -/

/-- Whether a partition holds no bound, parked or pre-empted strand and runs no copy (22 R407). -/
def State.quiescent (s : State) (pid : Nat) : Bool :=
  s.strands.all fun t => t.part != pid || t.status == .unbound || (t.status == .ended && t.copies.all fun c => c.st != .running)

/-- HMASK_WRITE (22 R407): lines are placed anew under the mask; no value in memory changes. A write that is refused changes nothing. -/
def execHmaskWrite (part : Nat) (val : Word) (s : State) : Res :=
  if s.quiescent part then .next (s.putPart { s.part part with hmask := val &&& 0x7FFFFFFFF }) else .next s

/-- Whether a SYSW is an invalidation that is to wait (16 R331). -/
def State.tlbiWaits (s : State) (pid num : Nat) (val : Word) : Bool := num == 0x0F2 && s.pinsHeld pid (tlbiHit val)

/-- A pool that a write has changed (19 R368, R372): nodes short of its slots are tried again. -/
def State.poolWritten (s : State) (pid num : Nat) : State :=
  if num == 0x0F7 then s.due (.bind pid) else if num == 0x0FE || num == 0x0FF then s.due (.benchPreempt pid) else s

/-- A SYSW at S level to a register of a partition, its lowest die or the fabric: none where it raises ILL (04 R101, 16 R328, 19 R357, R375, 22
R407, 23 R416). `die` is the die whose tracker is meant. -/
def State.partWrite (s : State) (pid die num : Nat) (val : Word) : Option State :=
  let p := s.part pid
  match num with
  | 0x0F2 =>
    if fieldOf val 0 2 == 3 then none else some (s.tlbInvalidate pid (tlbiHit val))
  | 0x0FC => if fieldOf val 6 58 != 0 then none else some (s.readQueue pid (fieldOf val 0 6))
  | 0x0FD => if fieldOf val 2 14 != 0 || fieldOf val 0 2 == 3 then none else some (s.pageWake pid (fieldOf val 16 48 * 2 ^ 16) (fieldOf val 0 2))
  | 0x100 => if s.quiescent pid then some (s.putPart { p with hmask := val &&& 0x7FFFFFFFF }) else none
  | _ =>
    match regInfo num with
    | none => none
    | some i =>
      if i.wr.isNone || (num == 0x230 && val.getLsbD 0 && p.evsize == 0) then none
      else if isDieReg num then
        let d := s.die die
        some (s.putDie (d.setReg num (i.apply (d.reg num) val)))
      else match p.reg num with
        | some old => some ((s.putPart (p.setReg num (i.apply old val))).poolWritten pid num)
        | none => some (s.setFabricReg p num (i.apply (s.fabricReg p num) val))

/-- Registers that the management controller may write: of a partition, a die or the fabric. -/
def isPartReg (num : Nat) : Bool := (0x0F0 ≤ num && num ≤ 0x1F3) || (0x230 ≤ num && num ≤ 0x233)

/-- MC_REGISTER_WRITE (23 R416): as a SYSW at S level issued by no strand; one that would raise ILL changes nothing, and an invalidation
waits for pins. -/
def execMcRegisterWrite (part num : Nat) (val : Word) (s : State) : Res :=
  if s.tlbiWaits part num val then .next (s.due (.mcRegisterWrite part num val))
  else if isPartReg num then .next ((s.partWrite part ((s.part part).dieList.headD 0) num val).getD s) else .next s

/-- KEY_LOAD (22 R408): an entry of the key table takes a new key. Lines written under another no longer decrypt: their tags fail. -/
def execKeyLoad (part : Nat) (e : Fin 16) (s : State) : Res :=
  let p := s.part part
  .next ({ s with nextKey := s.nextKey + 1 }.putPart { p with keyval := p.keyval ||| (1#16 <<< e.val), keys := vset p.keys e.val s.nextKey })

/-- The die groupings that exist (22 R402). -/
def legalDies (d : BitVec 4) : Bool := [1#4, 2#4, 4#4, 8#4, 3#4, 12#4, 15#4].contains d

/-- PARTITION_CONFIG (22 R402): the partitions of the package, one for each list entry. A list that is no partitioning changes nothing, and a
partition whose dies stay the same keeps its registers. -/
def execPartitionConfig (dies : List (BitVec 4)) (s : State) : Res :=
  let disjoint := (dies.map BitVec.toNat).sum == (dies.foldl (· ||| ·) 0#4).toNat
  if !dies.all legalDies || !disjoint then .next s
  else .next { s with parts := (dies.zipIdx).map fun (d, i) => match s.parts.find? fun p => p.dies == d && p.id == i with
    | some p => p
    | none => Part.reset i d (if d == 15 then 2 else 1) }

/-- INGRESS_ENTRY_SET (25 R436). -/
def execIngressEntrySet (slot : Fin 64) (entry : Option Ingress) (s : State) : Res :=
  .next (s.onPkg fun p => { p with ingress := vset p.ingress slot.val entry })

/-- ATTESTATION_REQUEST (24 R428): the port that it comes to counts it (25 R442), and the signed report leaves the package. -/
def execAttestationRequest (nonce : BitVec 384) (s : State) : Res :=
  let parts := s.parts.flatMap fun p => leBytes p.dies.toNat 1 ++ leBytes p.keyval.toNat 2
  let data := Config.firmwareDigests ++ parts ++ leBytes nonce.toNat 48
  .next ((s.digestOther 4 0 0 (leBytes nonce.toNat 48)).onPkg fun p => { p with out := p.out ++ [.report data (Config.signature data)] })

end Sys2Proof.Machine
end

