-- ==== Sys2Proof/Machine/GenSys.lean ====
section
/-!
DEFINITION. The control instructions of the generator: END, YIELD, TRAP and ERET (04 R105 to R108, 08 R232), SYSR and SYSW (04 R101, R109),
and the instruction-cache locks (13 R288).
-/
namespace Sys2Proof.Machine

/-! ## END, YIELD and TRAP -/

/-- END (04 R105): waits for the words, the store buffer and the copies of the strand; a copy that failed raises SCB (12 R279). -/
def execEndI (s : State) : Res :=
  if !s.cur.idle || !s.cur.drained || s.cur.copies.any (fun c => c.st != .retired) then stall s wFENCE
  else match s.cur.badCopy fun _ => true with
    | some c => reportCopy s c
    | none => .next (s.count 0x02 1).endStrand

/-- YIELD (04 R106): a pre-emption request of the strand itself when the bench holds a candidate, in a handler held until its ERET; else NOP. -/
def execYield (s : State) : Res :=
  if !s.cur.histRoom [] none then stall s wSCOREBOARD
  else
    let t := (s.onCur fun st => st.retired [] none).count 0x02 1
    .next (if !s.hasCandidate then t
      else if s.cur.handling then t.onCur fun st => { st with yielded := true }
      else t.preemptStrand s.cur.id)

/-- TRAP (04 R107): raises BRK with the code in TVAL; execution resumes at its successor, where the loop end test sends it. -/
def execTrap (code : BitVec 16) (s : State) : Res :=
  if !s.cur.idle || !s.cur.drained then stall s wFENCE
  else
    let (pc, ws) := s.cur.advance none
    genFaultAt (s.onCur fun st => st.writes ws) cBRK ((1#64 <<< 63) ||| code.setWidth 64) pc

/-! ## ERET (08 R232) -/

/-- The bank of the current level. -/
def Strand.levelBank (st : Strand) : Bank :=
  match st.gen.level with | .k => st.kbank | .s => st.sbank

/-- The bank of the current level with no handler active and nothing set aside. -/
def Bank.release (b : Bank) : Bank :=
  { b with stat := b.stat &&& ~~~1, block := none, held := false, mask := none, failed := none, younger := [] }

/-- The entry that ERET issues again: ahead of every later push, with the PROV, SEQ and carried scalar of the bank (R232). -/
def Bank.entry (b : Bank) (ord : Nat) : Entry :=
  { call := b.cause.getLsbD 12 && !b.cause.getLsbD 11, bits := if b.cause.getLsbD 12 then b.word0.toNat else b.word0.toNat + b.word1.toNat % 2 ^ 48 * 2 ^ 64
    carried := b.xq, prov := b.prov, seq := b.seq.setWidth 48, ord := ord, succ := b.epc }

/-- Issues the held word again from STARTIX, in its block. A block word that could not be fetched, and that no handler has altered, is fetched
again (log entry 22); one that SHD has stopped is checked again (08 R237). -/
def Strand.reissueHeld (st : Strand) (b : Bank) : Strand :=
  let e := b.entry st.nord
  let blk := b.cause.getLsbD 11
  let block := match b.block with
    | some k => { k with call := k.call.map fun c => { c with ord := st.nord, succ := b.epc } }
    | none => st.block
  let st := { st.settleCtl with nord := st.nord + 1, block := if blk then block else st.block }
  if b.unfetched && e.bits == 0 then { st with cur := none }
  else
    let st := st.reissue e blk b.spc b.nspc b.startix (fieldOf b.cause 0 8 == cBRK) b.mask
    { st with cur := st.cur.map fun c => { c with checked := fieldOf b.cause 0 8 == cSHD } }

/-- The strand as ERET leaves it: the failed access with a fresh budget and the entries set aside are placed again, the held word is
issued again, and the level and PC are those of the entry. A pre-emption that was held is taken by the next step. -/
def Strand.eret (st : Strand) : Strand :=
  let b := st.levelBank
  let st := match st.gen.level with
    | .k => { st with kbank := st.kbank.release }
    | .s => { st with sbank := st.sbank.release }
  let failed := b.failed.toList.map fun e => { e with budget := st.genBudget, waiter := none, exhausted := false }
  let st := { st with sbuf := failed ++ b.younger, gen := { st.gen with level := .k, pc := b.epc }, stall := wNone
                      skipBrk := fieldOf b.cause 0 8 == cBRK }
  if b.cause.getLsbD 8 then st.reissueHeld b else st

/-- ERET (04 R108, 08 R232): it waits for the handler's words and store-buffer entries. An access whose translation had failed when it
was placed again is translated anew (log entry 30). -/
def execEret (s : State) : Res :=
  if !s.cur.levelBank.hdl then genIll s
  else if !s.cur.idle || !s.cur.sbuf.isEmpty then stall s wFENCE
  else
    let t := ((s.onCur Strand.eret).count 0x02 1).relocate SbEntry.fails
    .next (if (t.cur.preempt || t.cur.yielded) && !t.cur.handling then
        (t.onCur fun st => { st with preempt := false, yielded := false }).due (.preemptRequest t.cur.id)
      else t)

/-! ## SYSR and SYSW (04 R101, R109) -/

/-- Whether a level permits what `least` permits. -/
def Level.permits (l least : Level) : Bool := l == .s || least == .k

/-- SYSR: checks the number and the level, waits where 01 R24 or 03 R81 require it, and reads. -/
def execSysr (sd : SReg) (num : Fin 4096) (s : State) : Res :=
  match regInfo num.val with
  | none => genIll s
  | some i =>
    if !Level.permits s.cur.gen.level i.rd then genFault s cPRIV (BitVec.ofNat 64 num.val)
    else withRegs s [sd] fun s =>
      if i.waitR && !s.cur.idle then stall s wOTHER else retireS s sd (s.sysReg num.val)

/-- A value that a register's own rule refuses: TVAL of the ILL (03 R76, R77, R79, 08 R220, R235, 13 R293, R295, 14 R306). -/
def State.sysBad (s : State) (n : Nat) (v : Word) : Option Word :=
  let head := s.cur.headVal
  let sel (b : Bool) (t : Word) : Option Word := if b then some t else none
  if 0x200 ≤ n ∧ n ≤ 0x20F then sel (0x2F < fieldOf v 0 8 || fieldOf v 8 2 == 3) head
  else match n with
    | 0x020 => sel (1024 < v.toNat) v
    | 0x021 => sel (v == 0 || 32 < v.toNat) v
    | 0x023 => sel (fieldOf v 0 4 < 2 || 10 < fieldOf v 0 4) v
    | 0x07D => sel (fieldOf v 0 2 == 3 || (fieldOf v 0 2 == 1 && fieldOf v 4 4 == 0)) head
    | 0x0C9 => sel (fieldOf v 0 32 == 0) head
    | 0x228 => sel (smpctlBad (s.core s.cur.coreNo) v) head
    | 0x22A => sel (smpsizeBad v) head
    | _ => none

/-- Retires an instruction whose effect is `f`, made only when the retirement has room in the history buffer. -/
def retireWith (s : State) (ws : List (HistTarget × Word)) (f : State → State) : Res :=
  if s.cur.histRoom ws none then .next ((f (s.onCur fun st => st.retired ws none)).count 0x02 1) else stall s wSCOREBOARD

/-- A SYSW to a register of the acting strand's core (13 R293, R295, 11 R245). -/
def State.coreWrite (s : State) (i : RegInfo) (n : Nat) (v : Word) : State :=
  let cn := s.cur.coreNo
  if 0x210 ≤ n ∧ n ≤ 0x21F then s.writePmcnt cn (n - 0x210) v
  else
    let c := s.core cn
    let s := s.putCore (c.setReg n (i.apply (c.reg n) v))
    if 0x200 ≤ n ∧ n ≤ 0x20F then s.pmMark cn (n - 0x200) (c.reg n) else s

/-- The write of a SYSW that has passed its checks: ordered as 01 R24 says, recorded as 03 R95 says. -/
def sysWrite (s : State) (i : RegInfo) (n : Nat) (v : Word) : Res :=
  if ctlRegs.contains n then
    retireWith s [(.ctl n, 0)] fun t => t.onCur fun st => st.setCtl n (i.apply (s.cur.genCtl n) v)
  else if 0x050 ≤ n ∧ n ≤ 0x056 then retire s [(.loop n, v)] none
  else if n == 0x014 then retire s [(.gfstat, v)] none
  else if isCoreReg n then retireWith s [] fun t => t.coreWrite i n v
  else match s.cur.reg n with
    | some old => retireWith s [] fun t => t.onCur fun st => st.setReg n (i.apply old v)
    | none => match s.partWrite s.cur.part (s.cur.cluster / 5) n v with
      | none => genIll s
      | some _ => if s.tlbiWaits s.cur.part n v then stall s wOTHER else retireWith s [] fun t => (t.partWrite s.cur.part (s.cur.cluster / 5) n v).getD t

/-- SYSW: checks the number, the level and the value, waits where 01 R24 or 03 R81 require it, and writes. -/
def execSysw (src : SReg) (num : Fin 4096) (s : State) : Res :=
  match regInfo num.val with
  | none => genIll s
  | some i => match i.wr with
    | none => genIll s
    | some least =>
      if !Level.permits s.cur.gen.level least then genFault s cPRIV (BitVec.ofNat 64 num.val)
      else withRegs s [src] fun s =>
        let v := s.cur.gen.read src
        match s.sysBad num.val v with
        | some t => genFault s cILL t
        | none => if i.waitW && !s.cur.idle then stall s wOTHER else sysWrite s i num.val v

/-! ## Instruction-cache locks (13 R288) -/

/-- ICLK: locks the line at an address for the strand, and says whether it could. -/
def execIclk (sd sa : SReg) (imm : BitVec 27) (s : State) : Res :=
  withRegs s [sd, sa] fun s =>
    let va := s.cur.gen.read sa + imm64 imm
    if va.toNat % 64 != 0 then genFault s cALIGN va
    else if !s.cur.histRoom [(.s sd, 0)] none then stall s wSCOREBOARD
    else match s.lockLine va with
      | (s, .error c) => genFault s c va
      | (s, .ok k) => retireS s sd (BitVec.ofNat 64 k)

/-- ICUNL: unlocks the line at an address if the strand holds it. -/
def execIcunl (sa : SReg) (imm : BitVec 27) (s : State) : Res :=
  withRegs s [sa] fun s =>
    let va := s.cur.gen.read sa + imm64 imm
    if va.toNat % 64 != 0 then genFault s cALIGN va
    else match s.resolveFor s.cur.part s.cur.coreNo va.toNat with
      | (s, .error c) => genFault s c va
      | (s, .ok l) =>
        if l.gw then genFault s cPROT va
        else retireWith s [] fun s => s.onCur fun st => { st with icg := st.icg.filter (· != va), ics := st.ics.filter (· != va) }

end Sys2Proof.Machine
end

