-- ==== Sys2Proof/Machine/Dispatch.lean ====
section
/-!
DEFINITION. One arm per constructor of Instr.
-/
namespace Sys2Proof.Machine

def exec (i : Instr) (s : State) : Host.Outcome State Fault Refusal :=
  match i with
  | .nop => Sys2Proof.Machine.execNop s
  | .endI => Sys2Proof.Machine.execEndI s
  | .yield => Sys2Proof.Machine.execYield s
  | .trap code => Sys2Proof.Machine.execTrap code s
  | .eret => Sys2Proof.Machine.execEret s
  | .fence kind scope => Sys2Proof.Machine.execFence kind scope s
  | .vfenceSv => Sys2Proof.Machine.execVfenceSv s
  | .vfenceVs => Sys2Proof.Machine.execVfenceVs s
  | .sysr sd num => Sys2Proof.Machine.execSysr sd num s
  | .sysw src num => Sys2Proof.Machine.execSysw src num s
  | .iclk sd sa imm => Sys2Proof.Machine.execIclk sd sa imm s
  | .icunl sa imm => Sys2Proof.Machine.execIcunl sa imm s
  | .launch sd sa sb => Sys2Proof.Machine.execLaunch sd sa sb s
  | .add sd sa sb => Sys2Proof.Machine.execAdd sd sa sb s
  | .sub sd sa sb => Sys2Proof.Machine.execSub sd sa sb s
  | .and sd sa sb => Sys2Proof.Machine.execAnd sd sa sb s
  | .or sd sa sb => Sys2Proof.Machine.execOr sd sa sb s
  | .xor sd sa sb => Sys2Proof.Machine.execXor sd sa sb s
  | .andn sd sa sb => Sys2Proof.Machine.execAndn sd sa sb s
  | .orn sd sa sb => Sys2Proof.Machine.execOrn sd sa sb s
  | .xnor sd sa sb => Sys2Proof.Machine.execXnor sd sa sb s
  | .shl sd sa sb => Sys2Proof.Machine.execShl sd sa sb s
  | .shr sd sa sb => Sys2Proof.Machine.execShr sd sa sb s
  | .sra sd sa sb => Sys2Proof.Machine.execSra sd sa sb s
  | .rol sd sa sb => Sys2Proof.Machine.execRol sd sa sb s
  | .ror sd sa sb => Sys2Proof.Machine.execRor sd sa sb s
  | .slt sd sa sb => Sys2Proof.Machine.execSlt sd sa sb s
  | .sltn sd sa sb => Sys2Proof.Machine.execSltn sd sa sb s
  | .seq sd sa sb => Sys2Proof.Machine.execSeq sd sa sb s
  | .min sd sa sb => Sys2Proof.Machine.execMin sd sa sb s
  | .max sd sa sb => Sys2Proof.Machine.execMax sd sa sb s
  | .minn sd sa sb => Sys2Proof.Machine.execMinn sd sa sb s
  | .maxn sd sa sb => Sys2Proof.Machine.execMaxn sd sa sb s
  | .mul sd sa sb => Sys2Proof.Machine.execMul sd sa sb s
  | .mulh sd sa sb => Sys2Proof.Machine.execMulh sd sa sb s
  | .mulhn sd sa sb => Sys2Proof.Machine.execMulhn sd sa sb s
  | .div sd sa sb => Sys2Proof.Machine.execDiv sd sa sb s
  | .divn sd sa sb => Sys2Proof.Machine.execDivn sd sa sb s
  | .rem sd sa sb => Sys2Proof.Machine.execRem sd sa sb s
  | .remn sd sa sb => Sys2Proof.Machine.execRemn sd sa sb s
  | .clz sd sa => Sys2Proof.Machine.execClz sd sa s
  | .ctz sd sa => Sys2Proof.Machine.execCtz sd sa s
  | .popc sd sa => Sys2Proof.Machine.execPopc sd sa s
  | .brev sd sa => Sys2Proof.Machine.execBrev sd sa s
  | .bswap sd sa => Sys2Proof.Machine.execBswap sd sa s
  | .fadd f sd sa sb => Sys2Proof.Machine.execFadd f sd sa sb s
  | .fsub f sd sa sb => Sys2Proof.Machine.execFsub f sd sa sb s
  | .fmul f sd sa sb => Sys2Proof.Machine.execFmul f sd sa sb s
  | .fdiv f sd sa sb => Sys2Proof.Machine.execFdiv f sd sa sb s
  | .fsqrt f sd sa => Sys2Proof.Machine.execFsqrt f sd sa s
  | .fmin f sd sa sb => Sys2Proof.Machine.execFmin f sd sa sb s
  | .fmax f sd sa sb => Sys2Proof.Machine.execFmax f sd sa sb s
  | .feq f sd sa sb => Sys2Proof.Machine.execFeq f sd sa sb s
  | .flt f sd sa sb => Sys2Proof.Machine.execFlt f sd sa sb s
  | .fle f sd sa sb => Sys2Proof.Machine.execFle f sd sa sb s
  | .fclass f sd sa => Sys2Proof.Machine.execFclass f sd sa s
  | .fneg f sd sa => Sys2Proof.Machine.execFneg f sd sa s
  | .fabs f sd sa => Sys2Proof.Machine.execFabs f sd sa s
  | .cvt src dst rnd sd sa => Sys2Proof.Machine.execCvt src dst rnd sd sa s
  | .addi sd sa imm => Sys2Proof.Machine.execAddi sd sa imm s
  | .andi sd sa imm => Sys2Proof.Machine.execAndi sd sa imm s
  | .ori sd sa imm => Sys2Proof.Machine.execOri sd sa imm s
  | .xori sd sa imm => Sys2Proof.Machine.execXori sd sa imm s
  | .shli sd sa amt => Sys2Proof.Machine.execShli sd sa amt s
  | .shri sd sa amt => Sys2Proof.Machine.execShri sd sa amt s
  | .srai sd sa amt => Sys2Proof.Machine.execSrai sd sa amt s
  | .slti sd sa imm => Sys2Proof.Machine.execSlti sd sa imm s
  | .sltni sd sa imm => Sys2Proof.Machine.execSltni sd sa imm s
  | .lpc sd imm => Sys2Proof.Machine.execLpc sd imm s
  | .li sd imm => Sys2Proof.Machine.execLi sd imm s
  | .ld size sext sd sa imm => Sys2Proof.Machine.execLd size sext sd sa imm s
  | .ldW size sext sd sa imm => Sys2Proof.Machine.execLdW size sext sd sa imm s
  | .ldC size sext sd sa imm => Sys2Proof.Machine.execLdC size sext sd sa imm s
  | .ldct sd sa imm => Sys2Proof.Machine.execLdct sd sa imm s
  | .feget sd sa imm => Sys2Proof.Machine.execFeget sd sa imm s
  | .st size src base imm => Sys2Proof.Machine.execSt size src base imm s
  | .stF size src base imm => Sys2Proof.Machine.execStF size src base imm s
  | .stS size src base imm => Sys2Proof.Machine.execStS size src base imm s
  | .feclr base imm => Sys2Proof.Machine.execFeclr base imm s
  | .feset base imm => Sys2Proof.Machine.execFeset base imm s
  | .pwait src base imm => Sys2Proof.Machine.execPwait src base imm s
  | .amoadd size order scope sd sa sb => Sys2Proof.Machine.execAmoadd size order scope sd sa sb s
  | .amomin size order scope sd sa sb => Sys2Proof.Machine.execAmomin size order scope sd sa sb s
  | .amomax size order scope sd sa sb => Sys2Proof.Machine.execAmomax size order scope sd sa sb s
  | .amominn size order scope sd sa sb => Sys2Proof.Machine.execAmominn size order scope sd sa sb s
  | .amomaxn size order scope sd sa sb => Sys2Proof.Machine.execAmomaxn size order scope sd sa sb s
  | .amoand size order scope sd sa sb => Sys2Proof.Machine.execAmoand size order scope sd sa sb s
  | .amoor size order scope sd sa sb => Sys2Proof.Machine.execAmoor size order scope sd sa sb s
  | .amoxor size order scope sd sa sb => Sys2Proof.Machine.execAmoxor size order scope sd sa sb s
  | .amoswap size order scope sd sa sb => Sys2Proof.Machine.execAmoswap size order scope sd sa sb s
  | .amocas size order scope sd sa sb => Sys2Proof.Machine.execAmocas size order scope sd sa sb s
  | .amofaddF32 order scope sd sa sb => Sys2Proof.Machine.execAmofaddF32 order scope sd sa sb s
  | .amofaddBf16 order scope sd sa sb => Sys2Proof.Machine.execAmofaddBf16 order scope sd sa sb s
  | .beq sa sb imm => Sys2Proof.Machine.execBeq sa sb imm s
  | .bne sa sb imm => Sys2Proof.Machine.execBne sa sb imm s
  | .blt sa sb imm => Sys2Proof.Machine.execBlt sa sb imm s
  | .bge sa sb imm => Sys2Proof.Machine.execBge sa sb imm s
  | .bltn sa sb imm => Sys2Proof.Machine.execBltn sa sb imm s
  | .bgen sa sb imm => Sys2Proof.Machine.execBgen sa sb imm s
  | .j imm => Sys2Proof.Machine.execJ imm s
  | .jl sd imm => Sys2Proof.Machine.execJl sd imm s
  | .jr sa imm => Sys2Proof.Machine.execJr sa imm s
  | .jlr sd sa imm => Sys2Proof.Machine.execJlr sd sa imm s
  | .loop cnt c imm => Sys2Proof.Machine.execLoop cnt c imm s
  | .emit tmpl s1 s2 s3 => Sys2Proof.Machine.execEmit tmpl s1 s2 s3 s
  | .emitw carried lo hi => Sys2Proof.Machine.execEmitw carried lo hi s
  | .emitb carried addr => Sys2Proof.Machine.execEmitb carried addr s
  | .rply sd => Sys2Proof.Machine.execRply sd s
  | .eqwait n => Sys2Proof.Machine.execEqwait n s
  | .qstat sd => Sys2Proof.Machine.execQstat sd s
  | .cpy sd dst src len => Sys2Proof.Machine.execCpy sd dst src len s
  | .cpyWith sd dst src len => Sys2Proof.Machine.execCpyWith sd dst src len s
  | .cpySetfull sd dst src len => Sys2Proof.Machine.execCpySetfull sd dst src len s
  | .cpySetempty sd dst src len => Sys2Proof.Machine.execCpySetempty sd dst src len s
  | .cpyBitsout sd dst src len => Sys2Proof.Machine.execCpyBitsout sd dst src len s
  | .cpyBitsin sd dst src len => Sys2Proof.Machine.execCpyBitsin sd dst src len s
  | .cpyMc sd dst src len mask => Sys2Proof.Machine.execCpyMc sd dst src len mask s
  | .cpyMcSetfull sd dst src len mask => Sys2Proof.Machine.execCpyMcSetfull sd dst src len mask s
  | .cpyRed ty sd dst src len => Sys2Proof.Machine.execCpyRed ty sd dst src len s
  | .cpyRedSetfull ty sd dst src len => Sys2Proof.Machine.execCpyRedSetfull ty sd dst src len s
  | .cpyw sa => Sys2Proof.Machine.execCpyw sa s
  | .cpyq sd sa => Sys2Proof.Machine.execCpyq sd sa s
  | .tileset ty sm sn sk => Sys2Proof.Machine.execTileset ty sm sn sk s
  | .ghint k tl a => Sys2Proof.Machine.execGhint k tl a s
  | .vnop => Sys2Proof.Machine.execVnop s
  | .vsetvl ty xd xs => Sys2Proof.Machine.execVsetvl ty xd xs s
  | .vsetrowsImm n => Sys2Proof.Machine.execVsetrowsImm n s
  | .vsetrowsX xn => Sys2Proof.Machine.execVsetrowsX xn s
  | .vbstrip xc off => Sys2Proof.Machine.execVbstrip xc off s
  | .vbr m off => Sys2Proof.Machine.execVbr m off s
  | .vjoin => Sys2Proof.Machine.execVjoin s
  | .vj off => Sys2Proof.Machine.execVj off s
  | .vloop c xn off => Sys2Proof.Machine.execVloop c xn off s
  | .vbret => Sys2Proof.Machine.execVbret s
  | .vrep xs => Sys2Proof.Machine.execVrep xs s
  | .vextr ty xd va idx => Sys2Proof.Machine.execVextr ty xd va idx s
  | .vmvx xd val => Sys2Proof.Machine.execVmvx xd val s
  | .blockCall addr => Sys2Proof.Machine.execBlockCall addr s
  | .vadd o => Sys2Proof.Machine.execVadd o s
  | .vsub o => Sys2Proof.Machine.execVsub o s
  | .vadds o => Sys2Proof.Machine.execVadds o s
  | .vsubs o => Sys2Proof.Machine.execVsubs o s
  | .vmul o => Sys2Proof.Machine.execVmul o s
  | .vmulh o => Sys2Proof.Machine.execVmulh o s
  | .vdiv o => Sys2Proof.Machine.execVdiv o s
  | .vrem o => Sys2Proof.Machine.execVrem o s
  | .vmin o => Sys2Proof.Machine.execVmin o s
  | .vmax o => Sys2Proof.Machine.execVmax o s
  | .vand o => Sys2Proof.Machine.execVand o s
  | .vor o => Sys2Proof.Machine.execVor o s
  | .vxor o => Sys2Proof.Machine.execVxor o s
  | .vshl o => Sys2Proof.Machine.execVshl o s
  | .vshr o => Sys2Proof.Machine.execVshr o s
  | .vsra o => Sys2Proof.Machine.execVsra o s
  | .vabs o => Sys2Proof.Machine.execVabs o s
  | .vneg o => Sys2Proof.Machine.execVneg o s
  | .vclz o => Sys2Proof.Machine.execVclz o s
  | .vpopc o => Sys2Proof.Machine.execVpopc o s
  | .vcmpeq o => Sys2Proof.Machine.execVcmpeq o s
  | .vcmpne o => Sys2Proof.Machine.execVcmpne o s
  | .vcmplt o => Sys2Proof.Machine.execVcmplt o s
  | .vcmpge o => Sys2Proof.Machine.execVcmpge o s
  | .vfcmpeq rnd o => Sys2Proof.Machine.execVfcmpeq rnd o s
  | .vfcmpne rnd o => Sys2Proof.Machine.execVfcmpne rnd o s
  | .vfcmplt rnd o => Sys2Proof.Machine.execVfcmplt rnd o s
  | .vfcmpge rnd o => Sys2Proof.Machine.execVfcmpge rnd o s
  | .vfcmple rnd o => Sys2Proof.Machine.execVfcmple rnd o s
  | .vfcmpgt rnd o => Sys2Proof.Machine.execVfcmpgt rnd o s
  | .vfcmpunord rnd o => Sys2Proof.Machine.execVfcmpunord rnd o s
  | .vfcmpord rnd o => Sys2Proof.Machine.execVfcmpord rnd o s
  | .vsel o => Sys2Proof.Machine.execVsel o s
  | .vfclass rnd o => Sys2Proof.Machine.execVfclass rnd o s
  | .vfadd rnd o => Sys2Proof.Machine.execVfadd rnd o s
  | .vfsub rnd o => Sys2Proof.Machine.execVfsub rnd o s
  | .vfmul rnd o => Sys2Proof.Machine.execVfmul rnd o s
  | .vfdiv rnd o => Sys2Proof.Machine.execVfdiv rnd o s
  | .vfsqrt rnd o => Sys2Proof.Machine.execVfsqrt rnd o s
  | .vfmin rnd o => Sys2Proof.Machine.execVfmin rnd o s
  | .vfmax rnd o => Sys2Proof.Machine.execVfmax rnd o s
  | .vfabs rnd o => Sys2Proof.Machine.execVfabs rnd o s
  | .vfneg rnd o => Sys2Proof.Machine.execVfneg rnd o s
  | .vfma rnd o => Sys2Proof.Machine.execVfma rnd o s
  | .vfms rnd o => Sys2Proof.Machine.execVfms rnd o s
  | .vfnma rnd o => Sys2Proof.Machine.execVfnma rnd o s
  | .vfnms rnd o => Sys2Proof.Machine.execVfnms rnd o s
  | .vcvt dst rnd o => Sys2Proof.Machine.execVcvt dst rnd o s
  | .vqcvt dst rnd cb scale o => Sys2Proof.Machine.execVqcvt dst rnd cb scale o s
  | .vcbd msk cb rnd vd va => Sys2Proof.Machine.execVcbd msk cb rnd vd va s
  | .vcbe msk cb rnd vd va => Sys2Proof.Machine.execVcbe msk cb rnd vd va s
  | .cbld cb base => Sys2Proof.Machine.execCbld cb base s
  | .vamax msk ty h va => Sys2Proof.Machine.execVamax msk ty h va s
  | .vamstep h => Sys2Proof.Machine.execVamstep h s
  | .vqscale ty xd h cb => Sys2Proof.Machine.execVqscale ty xd h cb s
  | .vbdot o => Sys2Proof.Machine.execVbdot o s
  | .vpack dst o => Sys2Proof.Machine.execVpack dst o s
  | .vunpack dst hi o => Sys2Proof.Machine.execVunpack dst hi o s
  | .vredsum rnd o => Sys2Proof.Machine.execVredsum rnd o s
  | .vredmin rnd o => Sys2Proof.Machine.execVredmin rnd o s
  | .vredmax rnd o => Sys2Proof.Machine.execVredmax rnd o s
  | .vredand o => Sys2Proof.Machine.execVredand o s
  | .vredor o => Sys2Proof.Machine.execVredor o s
  | .vredxor o => Sys2Proof.Machine.execVredxor o s
  | .vredso rnd o => Sys2Proof.Machine.execVredso rnd o s
  | .vscansum rnd o => Sys2Proof.Machine.execVscansum rnd o s
  | .vscanmin rnd o => Sys2Proof.Machine.execVscanmin rnd o s
  | .vscanmax rnd o => Sys2Proof.Machine.execVscanmax rnd o s
  | .vscanand o => Sys2Proof.Machine.execVscanand o s
  | .vscanor o => Sys2Proof.Machine.execVscanor o s
  | .vscanxor o => Sys2Proof.Machine.execVscanxor o s
  | .vscanexsum rnd o => Sys2Proof.Machine.execVscanexsum rnd o s
  | .vscanexmin rnd o => Sys2Proof.Machine.execVscanexmin rnd o s
  | .vscanexmax rnd o => Sys2Proof.Machine.execVscanexmax rnd o s
  | .vscanexand o => Sys2Proof.Machine.execVscanexand o s
  | .vscanexor o => Sys2Proof.Machine.execVscanexor o s
  | .vscanexxor o => Sys2Proof.Machine.execVscanexxor o s
  | .vslideup o => Sys2Proof.Machine.execVslideup o s
  | .vslidedn o => Sys2Proof.Machine.execVslidedn o s
  | .vperm o => Sys2Proof.Machine.execVperm o s
  | .vcompress o => Sys2Proof.Machine.execVcompress o s
  | .vexpand o => Sys2Proof.Machine.execVexpand o s
  | .vbcast o => Sys2Proof.Machine.execVbcast o s
  | .viota msk ty vd => Sys2Proof.Machine.execViota msk ty vd s
  | .vtrne o => Sys2Proof.Machine.execVtrne o s
  | .vtrno o => Sys2Proof.Machine.execVtrno o s
  | .vzipl o => Sys2Proof.Machine.execVzipl o s
  | .vziph o => Sys2Proof.Machine.execVziph o s
  | .vld m base stride => Sys2Proof.Machine.execVld m base stride s
  | .vldW scope m base stride => Sys2Proof.Machine.execVldW scope m base stride s
  | .vldC scope m base stride => Sys2Proof.Machine.execVldC scope m base stride s
  | .vldT scope m base stride => Sys2Proof.Machine.execVldT scope m base stride s
  | .vldx m base vb => Sys2Proof.Machine.execVldx m base vb s
  | .vldxW scope m base vb => Sys2Proof.Machine.execVldxW scope m base vb s
  | .vldxC scope m base vb => Sys2Proof.Machine.execVldxC scope m base vb s
  | .vldxT scope m base vb => Sys2Proof.Machine.execVldxT scope m base vb s
  | .vldl m vb => Sys2Proof.Machine.execVldl m vb s
  | .vldlW scope m vb => Sys2Proof.Machine.execVldlW scope m vb s
  | .vldlC scope m vb => Sys2Proof.Machine.execVldlC scope m vb s
  | .vldlT scope m vb => Sys2Proof.Machine.execVldlT scope m vb s
  | .vst m base stride => Sys2Proof.Machine.execVst m base stride s
  | .vstF scope m base stride => Sys2Proof.Machine.execVstF scope m base stride s
  | .vstS scope m base stride => Sys2Proof.Machine.execVstS scope m base stride s
  | .vstx m base vb => Sys2Proof.Machine.execVstx m base vb s
  | .vstxF scope m base vb => Sys2Proof.Machine.execVstxF scope m base vb s
  | .vstxS scope m base vb => Sys2Proof.Machine.execVstxS scope m base vb s
  | .vstl m vb => Sys2Proof.Machine.execVstl m vb s
  | .vstlF scope m vb => Sys2Proof.Machine.execVstlF scope m vb s
  | .vstlS scope m vb => Sys2Proof.Machine.execVstlS scope m vb s
  | .vstn m base prog => Sys2Proof.Machine.execVstn m base prog s
  | .vstnF scope m base prog => Sys2Proof.Machine.execVstnF scope m base prog s
  | .vstnS scope m base prog => Sys2Proof.Machine.execVstnS scope m base prog s
  | .vamoadd order scope base o => Sys2Proof.Machine.execVamoadd order scope base o s
  | .vamomin order scope base o => Sys2Proof.Machine.execVamomin order scope base o s
  | .vamomax order scope base o => Sys2Proof.Machine.execVamomax order scope base o s
  | .vamominn order scope base o => Sys2Proof.Machine.execVamominn order scope base o s
  | .vamomaxn order scope base o => Sys2Proof.Machine.execVamomaxn order scope base o s
  | .vamoand order scope base o => Sys2Proof.Machine.execVamoand order scope base o s
  | .vamoor order scope base o => Sys2Proof.Machine.execVamoor order scope base o s
  | .vamoxor order scope base o => Sys2Proof.Machine.execVamoxor order scope base o s
  | .vamoswap order scope base o => Sys2Proof.Machine.execVamoswap order scope base o s
  | .vamocas order scope base o => Sys2Proof.Machine.execVamocas order scope base o s
  | .vamofaddF32 order scope base o => Sys2Proof.Machine.execVamofaddF32 order scope base o s
  | .vamofaddBf16 order scope base o => Sys2Proof.Machine.execVamofaddBf16 order scope base o s
  | .vbupdadd msk ty va base => Sys2Proof.Machine.execVbupdadd msk ty va base s
  | .vbupdmin msk ty va base => Sys2Proof.Machine.execVbupdmin msk ty va base s
  | .vbupdmax msk ty va base => Sys2Proof.Machine.execVbupdmax msk ty va base s
  | .vbupdminn msk ty va base => Sys2Proof.Machine.execVbupdminn msk ty va base s
  | .vbupdmaxn msk ty va base => Sys2Proof.Machine.execVbupdmaxn msk ty va base s
  | .vbupdand msk ty va base => Sys2Proof.Machine.execVbupdand msk ty va base s
  | .vbupdor msk ty va base => Sys2Proof.Machine.execVbupdor msk ty va base s
  | .vbupdxor msk ty va base => Sys2Proof.Machine.execVbupdxor msk ty va base s
  | .vsend msk ty va vb => Sys2Proof.Machine.execVsend msk ty va vb s
  | .mailboxArrival cluster core half => Sys2Proof.Machine.execMailboxArrival cluster core half s
  | .vmrecv msk ty vd => Sys2Proof.Machine.execVmrecv msk ty vd s
  | .vlock msk ty md va => Sys2Proof.Machine.execVlock msk ty md va s
  | .vunlock msk ty va => Sys2Proof.Machine.execVunlock msk ty va s
  | .farrive scope b => Sys2Proof.Machine.execFarrive scope b s
  | .bwait b => Sys2Proof.Machine.execBwait b s
  | .bset b n => Sys2Proof.Machine.execBset b n s
  | .ald msk ty v k base xa => Sys2Proof.Machine.execAld msk ty v k base xa s
  | .aldW scope msk ty v k base xa => Sys2Proof.Machine.execAldW scope msk ty v k base xa s
  | .watchClose sid blk => Sys2Proof.Machine.execWatchClose sid blk s
  | .ast msk ty v k base xa => Sys2Proof.Machine.execAst msk ty v k base xa s
  | .astR scope msk ty v k base xa => Sys2Proof.Machine.execAstR scope msk ty v k base xa s
  | .aadd ka kb kd o => Sys2Proof.Machine.execAadd ka kb kd o s
  | .asub ka kb kd o => Sys2Proof.Machine.execAsub ka kb kd o s
  | .amul ka kb kd o => Sys2Proof.Machine.execAmul ka kb kd o s
  | .axpand ka kb o => Sys2Proof.Machine.execAxpand ka kb o s
  | .adif k h o => Sys2Proof.Machine.execAdif k h o s
  | .reancCentre k o => Sys2Proof.Machine.execReancCentre k o s
  | .reancWiden k o => Sys2Proof.Machine.execReancWiden k o s
  | .reancNarrow k o => Sys2Proof.Machine.execReancNarrow k o s
  | .acvtFromanc k plain o => Sys2Proof.Machine.execAcvtFromanc k plain o s
  | .acvtToanc k plain o => Sys2Proof.Machine.execAcvtToanc k plain o s
  | .amovkKv msk ty vd k => Sys2Proof.Machine.execAmovkKv msk ty vd k s
  | .amovkVk msk ty va k => Sys2Proof.Machine.execAmovkVk msk ty va k s
  | .asclPow2 k o => Sys2Proof.Machine.execAsclPow2 k o s
  | .asclScl k o => Sys2Proof.Machine.execAsclScl k o s
  | .mclaim w => Sys2Proof.Machine.execMclaim w s
  | .mfree => Sys2Proof.Machine.execMfree s
  | .mclr tiles => Sys2Proof.Machine.execMclr tiles s
  | .mma msk ty zd va vb m1 n1 cba cbb => Sys2Proof.Machine.execMma msk ty zd va vb m1 n1 cba cbb s
  | .mopa msk ty zd va vb cba cbb => Sys2Proof.Machine.execMopa msk ty zd va vb cba cbb s
  | .mrd msk ty z v row => Sys2Proof.Machine.execMrd msk ty z v row s
  | .mwr msk ty z v row => Sys2Proof.Machine.execMwr msk ty z v row s
  | .mld ty z hint base xs => Sys2Proof.Machine.execMld ty z hint base xs s
  | .mst ty z hint base xs => Sys2Proof.Machine.execMst ty z hint base xs s
  | .matrixWordRetire sid => Sys2Proof.Machine.execMatrixWordRetire sid s
  | .vhint k tl a => Sys2Proof.Machine.execVhint k tl a s
  | .storeBufferPerform sid => Sys2Proof.Machine.execStoreBufferPerform sid s
  | .waiterRecheck wid => Sys2Proof.Machine.execWaiterRecheck wid s
  | .rejectRetry wid => Sys2Proof.Machine.execRejectRetry wid s
  | .markAndRecheck wid => Sys2Proof.Machine.execMarkAndRecheck wid s
  | .park sid key => Sys2Proof.Machine.execPark sid key s
  | .wake key => Sys2Proof.Machine.execWake key s
  | .saveComplete sid => Sys2Proof.Machine.execSaveComplete sid s
  | .combiningApply key => Sys2Proof.Machine.execCombiningApply key s
  | .copyRetire sid handle => Sys2Proof.Machine.execCopyRetire sid handle s
  | .takeTrap sid => Sys2Proof.Machine.execTakeTrap sid s
  | .int sid val => Sys2Proof.Machine.execInt sid val s
  | .preemptRequest sid => Sys2Proof.Machine.execPreemptRequest sid s
  | .premaxExpiry sid => Sys2Proof.Machine.execPremaxExpiry sid s
  | .contextSave sid => Sys2Proof.Machine.execContextSave sid s
  | .contextRestore sid => Sys2Proof.Machine.execContextRestore sid s
  | .hpWindowReset die => Sys2Proof.Machine.execHpWindowReset die s
  | .sample core => Sys2Proof.Machine.execSample core s
  | .counterOverflow core n => Sys2Proof.Machine.execCounterOverflow core n s
  | .tlbiPage part va sz => Sys2Proof.Machine.execTlbiPage part va sz s
  | .tlbiAll part => Sys2Proof.Machine.execTlbiAll part s
  | .qupd part q => Sys2Proof.Machine.execQupd part q s
  | .pgwake part va sz => Sys2Proof.Machine.execPgwake part va sz s
  | .hmaskWrite part val => Sys2Proof.Machine.execHmaskWrite part val s
  | .smpctlWrite core val => Sys2Proof.Machine.execSmpctlWrite core val s
  | .evctlWrite part val => Sys2Proof.Machine.execEvctlWrite part val s
  | .pmcntWrite core n val => Sys2Proof.Machine.execPmcntWrite core n val s
  | .take part q => Sys2Proof.Machine.execTake part q s
  | .nodeReady nid => Sys2Proof.Machine.execNodeReady nid s
  | .select part => Sys2Proof.Machine.execSelect part s
  | .age nid => Sys2Proof.Machine.execAge nid s
  | .bind part => Sys2Proof.Machine.execBind part s
  | .benchPreempt part => Sys2Proof.Machine.execBenchPreempt part s
  | .evict gid => Sys2Proof.Machine.execEvict gid s
  | .evictRestore gid => Sys2Proof.Machine.execEvictRestore gid s
  | .nodeDone nid => Sys2Proof.Machine.execNodeDone nid s
  | .hint stack chan bank row => Sys2Proof.Machine.execHint stack chan bank row s
  | .hintRowClose stack chan bank => Sys2Proof.Machine.execHintRowClose stack chan bank s
  | .refresh stack chan bank => Sys2Proof.Machine.execRefresh stack chan bank s
  | .activationAlert stack chan bank => Sys2Proof.Machine.execActivationAlert stack chan bank s
  | .backoffEnd stack chan bank => Sys2Proof.Machine.execBackoffEnd stack chan bank s
  | .powerWindow watts => Sys2Proof.Machine.execPowerWindow watts s
  | .thermalThreshold die => Sys2Proof.Machine.execThermalThreshold die s
  | .clockRaise => Sys2Proof.Machine.execClockRaise s
  | .undervoltReturn rail => Sys2Proof.Machine.execUndervoltReturn rail s
  | .coreOutOfService core => Sys2Proof.Machine.execCoreOutOfService core s
  | .linkRetry link failed => Sys2Proof.Machine.execLinkRetry link failed s
  | .tc0Window part demoted => Sys2Proof.Machine.execTc0Window part demoted s
  | .resetN => Sys2Proof.Machine.execResetN s
  | .pwrEn => Sys2Proof.Machine.execPwrEn s
  | .cltOkFall => Sys2Proof.Machine.execCltOkFall s
  | .coolantTimeout => Sys2Proof.Machine.execCoolantTimeout s
  | .attestationRequest nonce => Sys2Proof.Machine.execAttestationRequest nonce s
  | .mcRegisterWrite part num val => Sys2Proof.Machine.execMcRegisterWrite part num val s
  | .keyLoad part e => Sys2Proof.Machine.execKeyLoad part e s
  | .partitionConfig dies => Sys2Proof.Machine.execPartitionConfig dies s
  | .ingressEntrySet slot entry => Sys2Proof.Machine.execIngressEntrySet slot entry s
  | .remotePlainWrite op => Sys2Proof.Machine.execRemotePlainWrite op s
  | .remotePlainRead op => Sys2Proof.Machine.execRemotePlainRead op s
  | .remoteAtomic op => Sys2Proof.Machine.execRemoteAtomic op s
  | .remoteFill op => Sys2Proof.Machine.execRemoteFill op s
  | .remoteSetFull op => Sys2Proof.Machine.execRemoteSetFull op s
  | .remoteWaitingRead op => Sys2Proof.Machine.execRemoteWaitingRead op s
  | .remoteConsumingRead op => Sys2Proof.Machine.execRemoteConsumingRead op s
  | .remoteTryConsume op => Sys2Proof.Machine.execRemoteTryConsume op s
  | .remoteSetEmpty op => Sys2Proof.Machine.execRemoteSetEmpty op s
  | .remoteTryFill op => Sys2Proof.Machine.execRemoteTryFill op s
  | .remoteWaitExpiry rid => Sys2Proof.Machine.execRemoteWaitExpiry rid s
  | .gwAck gid reply => Sys2Proof.Machine.execGwAck gid reply s
  | .gwTimeout gid => Sys2Proof.Machine.execGwTimeout gid s
  | .portFrameRetry port failed => Sys2Proof.Machine.execPortFrameRetry port failed s
  | .ptpMessage port locked => Sys2Proof.Machine.execPtpMessage port locked s
  | .portLinkUp port => Sys2Proof.Machine.execPortLinkUp port s
  | .portLinkDown port failed => Sys2Proof.Machine.execPortLinkDown port failed s
  | .ptpLockLoss => Sys2Proof.Machine.execPtpLockLoss s
  | .cltOkRise => Sys2Proof.Machine.execCltOkRise s
  | .undervoltWindow rail low => Sys2Proof.Machine.execUndervoltWindow rail low s
  | .predictiveFailure array => Sys2Proof.Machine.execPredictiveFailure array s

end Sys2Proof.Machine
end

