-- ==== Sys2Proof/Machine/Step.lean ====
section
/-!
DEFINITION. One step of the machine: which part of it moves, the fetch and decoding of its instruction (02 R42 to R45, R64), and what the
passage of time makes due.
-/
namespace Sys2Proof.Machine

/-- The instruction of the opcode table that a step of the machine's own is. -/
noncomputable def eventInstr : Event → Instr
  | .storeBufferPerform sid => .storeBufferPerform sid
  | .waiterRecheck wid => .waiterRecheck wid
  | .rejectRetry wid => .rejectRetry wid
  | .markAndRecheck wid => .markAndRecheck wid
  | .park sid key => .park sid key
  | .wake key => .wake key
  | .saveComplete sid => .saveComplete sid
  | .combiningApply key => .combiningApply key
  | .copyRetire sid handle => .copyRetire sid handle
  | .takeTrap sid => .takeTrap sid
  | .int sid val => .int sid val
  | .preemptRequest sid => .preemptRequest sid
  | .premaxExpiry sid => .premaxExpiry sid
  | .contextSave sid => .contextSave sid
  | .contextRestore sid => .contextRestore sid
  | .hpWindowReset die => .hpWindowReset die
  | .sample core => .sample core
  | .counterOverflow core n => .counterOverflow core n
  | .tlbiPage part va sz => .tlbiPage part va sz
  | .tlbiAll part => .tlbiAll part
  | .qupd part q => .qupd part q
  | .pgwake part va sz => .pgwake part va sz
  | .hmaskWrite part val => .hmaskWrite part val
  | .smpctlWrite core val => .smpctlWrite core val
  | .evctlWrite part val => .evctlWrite part val
  | .pmcntWrite core n val => .pmcntWrite core n val
  | .take part q => .take part q
  | .nodeReady nid => .nodeReady nid
  | .select part => .select part
  | .age nid => .age nid
  | .bind part => .bind part
  | .benchPreempt part => .benchPreempt part
  | .evict gid => .evict gid
  | .evictRestore gid => .evictRestore gid
  | .nodeDone nid => .nodeDone nid
  | .hint stack chan bank row => .hint stack chan bank row
  | .hintRowClose stack chan bank => .hintRowClose stack chan bank
  | .refresh stack chan bank => .refresh stack chan bank
  | .activationAlert stack chan bank => .activationAlert stack chan bank
  | .backoffEnd stack chan bank => .backoffEnd stack chan bank
  | .powerWindow watts => .powerWindow watts
  | .thermalThreshold die => .thermalThreshold die
  | .clockRaise => .clockRaise
  | .undervoltReturn rail => .undervoltReturn rail
  | .coreOutOfService core => .coreOutOfService core
  | .linkRetry link failed => .linkRetry link failed
  | .tc0Window part demoted => .tc0Window part demoted
  | .resetN => .resetN
  | .pwrEn => .pwrEn
  | .cltOkFall => .cltOkFall
  | .coolantTimeout => .coolantTimeout
  | .attestationRequest nonce => .attestationRequest nonce
  | .mcRegisterWrite part num val => .mcRegisterWrite part num val
  | .keyLoad part e => .keyLoad part e
  | .partitionConfig dies => .partitionConfig dies
  | .ingressEntrySet slot entry => .ingressEntrySet slot entry
  | .remotePlainWrite op => .remotePlainWrite op
  | .remotePlainRead op => .remotePlainRead op
  | .remoteAtomic op => .remoteAtomic op
  | .remoteFill op => .remoteFill op
  | .remoteSetFull op => .remoteSetFull op
  | .remoteWaitingRead op => .remoteWaitingRead op
  | .remoteConsumingRead op => .remoteConsumingRead op
  | .remoteTryConsume op => .remoteTryConsume op
  | .remoteSetEmpty op => .remoteSetEmpty op
  | .remoteTryFill op => .remoteTryFill op
  | .remoteWaitExpiry rid => .remoteWaitExpiry rid
  | .gwAck gid reply => .gwAck gid reply
  | .gwTimeout gid => .gwTimeout gid
  | .portFrameRetry port failed => .portFrameRetry port failed
  | .ptpMessage port locked => .ptpMessage port locked
  | .portLinkUp port => .portLinkUp port
  | .portLinkDown port failed => .portLinkDown port failed
  | .ptpLockLoss => .ptpLockLoss
  | .cltOkRise => .cltOkRise
  | .undervoltWindow rail low => .undervoltWindow rail low
  | .predictiveFailure array => .predictiveFailure array
  | .mailboxArrival cluster core half => .mailboxArrival cluster core half
  | .watchClose sid blk => .watchClose sid blk
  | .matrixWordRetire sid => .matrixWordRetire sid

/-! ## The stream half -/

/-- The control writes ahead of the next word of a queue take effect (01 R24), and the word leaves it. -/
def popQueue : List QItem → Ctl → List QItem × Ctl × Option Entry
  | [], c => ([], c, none)
  | .ctl n v :: t, c => popQueue t (c.set n v)
  | .word e :: t, c => (t, c, some e)

/-- Runs the word in progress; a word that does not decode raises ILL at its issue (02 R64, R65). -/
noncomputable def runWord (s : State) : Res :=
  match s.cur.cur with
  | none => .next s
  | some c =>
    if c.e.call && !c.blk then execBlockCall (BitVec.ofNat 64 c.e.bits) s
    else match decodeStream c.w with
      | .ok i => exec i s
      | .error _ => issueWord s 0 false false fun s => .next s

/-- Begins the next word of the stream: of its block, or of the emit queue. -/
noncomputable def nextWord (s : State) : Res :=
  match s.cur.block.call with
  | some e =>
    let spc := s.cur.block.spc
    match s.fetchAt spc 1 with
    | (s, .ok (w, n)) => runWord (s.onCur fun st => { st with cur := some { Cur.fresh e with blk := true, spc := spc, nspc := n, w := w } })
    | (s, .error (cause, v)) =>
      if !s.cur.captured.isEmpty then waitWord s wMATRIX
      else wordFault (s.onCur fun st => { st with cur := some { Cur.fresh e with blk := true, spc := spc, nspc := spc, w := 0, unfetched := true } }) cause v
  | none =>
    let (q, c, e) := popQueue s.cur.queue s.cur.ctl
    runWord (s.onCur fun st => { st with queue := q, ctl := c, cur := e.map Cur.fresh })

/-- The stream of the acting strand goes on. While its strand is saved (13 R284) only the word in progress does, as long as PREMAX lets it
or where it must; an access of it that comes to wait at a home is withdrawn at once. -/
noncomputable def streamTurn (s : State) : Res :=
  match s.cur.status with
  | .running =>
    if s.cur.fault.any fun f => f.stream then .next s
    else if s.cur.cur.isSome then runWord s else nextWord s
  | .saving =>
    if !s.cur.saveOpen && !s.mustFinish s.cur then .next s
    else match runWord s with
      | .next t => .next (t.withdraw s.cur.id)
      | r => r
  | _ => .next s

/-! ## The generator half -/

/-- The breakpoint that the generator's PC meets (13 R292). -/
def Strand.pcBreak (st : Strand) : Option Nat :=
  if st.skipBrk then none
  else (List.range 4).find? fun i =>
    let c := vget st.bpctl i
    c.getLsbD 0 && fieldOf c 1 2 == 0 && (vget st.bpval i).toNat / 2 == st.gen.pc.toNat / 2

/-- The generator is to execute an instruction: no fault, breakpoint or INT is due before it (03 R97, 08 R229, 13 R292). -/
def Strand.genReady (st : Strand) : Bool :=
  st.status == .running && st.fault.isNone && (st.ints.isEmpty || st.handling) && st.brks.all fun b => b.depth != st.depth

/-- The generator with an instruction fetched: its halfwords and NextPC. -/
def State.fetched (s : State) (ir : Nat) (npc : Word) : State := s.onCur fun st => { st with gen := { st.gen with ir := ir, npc := npc } }

/-- Executes the instruction that the generator has fetched; one that does not decode raises ILL (02 R64, R65). -/
noncomputable def runGen (s : State) : Res :=
  match decodeGen s.cur.gen.ir with
  | .ok i => exec i s
  | .error _ => genIll s

/-- The generator of the acting strand executes its next instruction. A breakpoint comes before anything that the instruction may raise
(08 R233). -/
noncomputable def genTurn (s : State) : Res :=
  if !s.cur.genReady then .next s
  else match s.fetchAt s.cur.gen.pc 0 with
    | (s, .ok (w, n)) =>
      let s := s.fetched w n
      match s.cur.pcBreak with
      | some k => genFault s cBRK (BitVec.ofNat 64 k)
      | none => runGen s
    | (s, .error (cause, v)) =>
      let s := s.fetched 0 s.cur.gen.pc
      match s.cur.pcBreak with
      | some k => genFault s cBRK (BitVec.ofNat 64 k)
      | none => genFault s cause v

/-! ## Who moves (log entry 4) -/

/-- A strand that may act: it runs, in a partition that is in service. -/
def State.canAct (s : State) (st : Strand) : Bool := st.status == .running && !s.lost st.part

/-- Turns to the next strand that may act, in the order of their numbers. -/
def State.rotate (s : State) : State :=
  match (s.others.find? fun t => s.canAct t && s.cur.id < t.id).orElse fun _ => s.others.find? s.canAct with
  | some t => s.focus t.id
  | none => s

/-- The stream of a strand has something to do. -/
def Strand.streamReady (st : Strand) : Bool :=
  !(st.fault.any fun f => f.stream) && (st.cur.isSome || st.block.call.isSome || !st.queue.isEmpty)

/-- Neither half of the strand could go on when it last acted. -/
def Strand.stuck (st : Strand) : Bool := st.stall != wNone && (!st.streamReady || st.sstall != wNone)

/-- An INT meets the instruction at its boundary: a trap or END of that one comes first, and an INT that is pending at an END lapses (08
R233). -/
noncomputable def intTurn (s : State) (v : Word) (rest : List Word) : Res :=
  let ints := s.cur.ints
  match genTurn (s.onCur fun st => { st with ints := [] }) with
  | .next t =>
    if t.cur.status == .ended then .next t
    else if t.cur.handling then .next (t.onCur fun st => { st with ints := ints })
    else .next ((s.onCur fun st => { st with ints := rest }).takeInt v)
  | r => r

/-- The acting strand's turn where nothing else has been chosen: a trap, breakpoint or INT that is due, then the head of its store buffer,
then its stream and its generator, in turns while the stream stalls. -/
noncomputable def defaultTurn (s : State) : Res :=
  let st := s.cur
  if !s.canAct st then .next s
  else if st.faultReady || st.breakReady.isSome then execTakeTrap st.id s
  else match st.ints, st.intReady with
    | v :: rest, true => intTurn s v rest
    | _, _ =>
      if s.bufHead.any fun e => !s.chained e then execStoreBufferPerform st.id s
      else if st.streamReady && (st.sstall == wNone || !st.genReady || s.tick % 2 == 0) then streamTurn s
      else genTurn s

/-- Whether a step keeps its place behind another: the messages of one home reach the bench in their order (14 R309), and a park is handled
before its save completes. -/
def keepsBehind (e d : Event) : Bool :=
  match e, d with
  | .park _ k, .park _ j | .park _ k, .wake j | .wake k, .park _ j | .wake k, .wake j => homeOf k == homeOf j
  | .saveComplete i, .park j _ => i == j
  | _, _ => false

/-- A strand whose stream stands between two words, with one to begin. -/
def Strand.betweenWords (st : Strand) : Bool := st.status == .running && st.cur.isNone && st.captured.isEmpty && st.streamReady

/-- A sample waits while a stream of its core stands between two words, which takes no time: the word at its head is always one that has begun
(23 R418). -/
def State.sampleHeld (s : State) (e : Event) : Bool :=
  match e with
  | .sample core => s.strands.any fun t => t.coreNo == core && t.betweenWords && !s.lost t.part
  | _ => false

/-- Before a sample each generator of its core comes to its next instruction, so that the record tells whether it stalls there (23 R418, 13
R296). -/
noncomputable def State.beforeSample (s : State) (e : Event) : State :=
  match e with
  | .sample core =>
    ((s.strands.filter fun t => t.coreNo == core && s.canAct t).map Strand.id).foldl (fun s sid => s.asStrand sid fun s =>
      match genTurn s with
      | .next t => if t.cur.stall != wNone && t.cur.gen.pc == s.cur.gen.pc then s.onCur fun st => { st with stall := t.cur.stall } else s
      | _ => s) s
  | _ => s

/-- The step of the machine's own with number `n` among those that are due, unless an earlier one is to come first. -/
noncomputable def eventTurn (s : State) (n : Nat) : Res :=
  match s.events[n]? with
  | some e => if (s.events.take n).any (keepsBehind e) || s.sampleHeld e then .next s else exec (eventInstr e) ({ s with events := s.events.eraseIdx n }.beforeSample e)
  | none => .next s

/-- A turn that has been chosen. -/
noncomputable def chosenTurn (s : State) : Turn → Res
  | .gen => if s.canAct s.cur then genTurn s else .next s
  | .stream => if s.lost s.cur.part then .next s else streamTurn s
  | .buffer => execStoreBufferPerform s.cur.id s
  | .chain => .next s.chainAtom
  | .event n => eventTurn s n
  | .focus sid => .next (s.focus sid)
  | .sett sid h j => .next (s.asStrand sid fun s => if s.cur.id == sid then s.copyOne h j else s)

/-- Whether a step that is due moves now: a rejected access is sent again, and an invalidation looks at the pins again, only every 64th step
(14 R305, 16 R331), so that it does not keep the strands from their turns. -/
def State.dueNow (s : State) : Event → Bool
  | .rejectRetry _ | .tlbiPage _ _ _ | .tlbiAll _ | .mcRegisterWrite _ 0x0F2 _ => s.tick % 64 == 63
  | e => !s.sampleHeld e

/-- What moves: the turn chosen next, else the oldest step that is due, else the acting strand, or another strand every eighth step and where the
acting one is stuck. -/
noncomputable def act (s : State) : Res :=
  match s.sched with
  | t :: rest => chosenTurn { s with sched := rest } t
  | [] =>
    match s.events.find? s.dueNow with
    | some e => exec (eventInstr e) ({ s with events := s.events.erase e }.beforeSample e)
    | none => defaultTurn (if !s.canAct s.cur || s.cur.stuck || s.tick % 8 == 7 then s.rotate else s)

/-- The end of a back-off. -/
def endsBackoff : Event → Bool
  | .backoffEnd _ _ _ => true
  | _ => false

/-- What moves, where a bank in back-off holds demand accesses (22 R414): a turn that would make one has no effect, and where none is chosen
the back-off ends first. -/
noncomputable def actHeld (s : State) : Res :=
  match act s with
  | .next t =>
    if !s.reachesBackoff t.demands then .next t
    else match s.sched with
      | _ :: rest => .next { s with sched := rest }
      | [] => match s.events.find? endsBackoff with
        | some e => exec (eventInstr e) { s with events := s.events.erase e }
        | none => .next s
  | r => r

/-! ## Time -/

/-- A step that time makes due, unless it is due already. -/
def State.dueOnce (s : State) (e : Event) : State := if s.events.contains e then s else s.due e

/-- What the passage of time from `t0` makes due: waits of remote operations and requests that end (25 R434, R437), nodes that age (19
R367), windows of the hot-page trackers (16 R334), samples (13 R295), a clock step up, a core whose arrays have failed (24 R422, log entry 14), and
coolant lost for 1 s (24 R421, R429). -/
def State.timers (s : State) (t0 : Nat) : State :=
  let now := s.pkg.time
  let s := (s.remotes.filter fun r => r.waiter.isSome && r.deadline ≤ now).foldl (fun s r => s.dueOnce (.remoteWaitExpiry r.rid)) s
  let s := (s.gwReqs.filter fun q => q.reply.isNone && q.deadline ≤ now).foldl (fun s q => s.dueOnce (.gwTimeout q.id)) s
  let s := (s.nodes.filter fun n => n.st == .ready && n.raises < (now - n.readyAt) / 1000000).foldl (fun s n => s.dueOnce (.age n.id)) s
  let win (d : DieSt) : Nat := 2 ^ fieldOf d.hpctl 1 5
  let s := (s.dies.filter fun d => t0 / win d != now / win d).foldl (fun s d => s.dueOnce (.hpWindowReset d.id)) s
  let s := (s.cores.filter fun c => c.smpctl.getLsbD 0 && Config.sampleDue s.tick c.id).foldl (fun s c => s.dueOnce (.sample c.id)) s
  let s := if s.pkg.clk < 14 && s.pkg.mayRaise then s.dueOnce .clockRaise else s
  let s := s.upsets.foldl (fun s u => match u with
    | .coreBad c => { s with upsets := s.upsets.erase u }.dueOnce (.coreOutOfService c)
    | _ => s) s
  if !s.pkg.cltOk && s.pkg.pgood && s.pkg.cltLowAt + 1000000000 ≤ now then s.dueOnce .coolantTimeout else s

/-- TIME after a step: its nanoseconds, slewed by at most 1,000 ppm, so that it never runs backward (25 R443; log entry 8). -/
def Pkg.later (p : Pkg) (tick : Nat) : Nat :=
  let dt := Config.timeTick tick % 2 ^ 32
  min (2 ^ 64 - 1) (p.time + dt - dt / 1000 + Config.timeSlew tick % (2 * (dt / 1000) + 1))

/-- The end of a step: the counters take its events, and time advances. -/
def State.after (s : State) : State :=
  let t0 := s.pkg.time
  let s := (s.demands.foldl State.demandRow s).tallyUp
  let s : State := { s with pkg := { s.pkg with time := s.pkg.later s.tick } }
  let s := s.timers t0
  { s with tick := s.tick + 1 }

/-- Steps that bring back a package after a fatal error, and what its pins tell meanwhile (24 R429). -/
def revives (e : Event) : Bool := e == .resetN || e == .pwrEn || e == .cltOkRise || e == .cltOkFall

/-- One step. After a fatal error only a reset or the return of power goes on (24 R421, R429). -/
noncomputable def step (s : State) : Host.Outcome State Fault Refusal :=
  let r := if s.pkg.fatal then
      match s.events.find? revives with
      | some e => exec (eventInstr e) { s with events := s.events.erase e }
      | none => .fault .fatalError
    else actHeld s
  match r with
  | .next t => .next t.after
  | r => r

/-! ## An instruction placed where the next step fetches it -/

/-- A code line of one instruction, as one number (02 R42, R43). -/
def lineOf1 (kind w : Nat) : Nat := 1 + kind * 32 + w % 2 ^ 16 * 2 ^ 16 + w / 2 ^ 16 * 2 ^ (16 * (32 - w % 8))

/-- The leaf of a 64 KiB page at interleaved address 0x10000, of key entry 0 (16 R329). -/
def codeLeaf : Word := 0x10003

/-- The state with a running strand at K level whose next instruction is the one with bits `w`: a generator instruction in a code line at
0x10000, translated by an entry of its core's TLB; a stream word as the one word of its emit queue (log entry 23). -/
def State.withFetchWord (s : State) (nbits w : Nat) : State :=
  let w := trimWord (w % 2 ^ nbits)
  let e : Entry := { call := false, bits := w, carried := 0, prov := 0x10002, seq := 0, ord := 0, succ := 0x10004 }
  let gen := match decodeGen w with | .ok _ => true | .error _ => false
  let st := { s.cur with
    status := .running, part := 0, cluster := 0, fault := none, brks := [], ints := [], pend := [], sbuf := [], cur := none, captured := []
    block := { s.cur.block with call := none }, nseq := if gen then s.cur.nseq else 1, nord := if gen then s.cur.nord else 1
    queue := if gen then [] else [.word e], gen := { s.cur.gen with level := .k, pc := if gen then 0x10002 else 0x10004 } }
  let p := { s.part 0 with keyval := (s.part 0).keyval ||| 1 }
  let c := { s.core st.coreNo with icache := [], dtlb := [{ part := 0, va := 0x10000, bits := 16, leaf := codeLeaf }] }
  let s := ({ s with cur := st, events := [], sched := [], pkg := { s.pkg with fatal := false, dead := [], banks := [] } }.putPart p).putCore c
  match gen, leafLoc s p 0x10000 codeLeaf.toNat 16 with
  | true, .ok l => s.storeAt l (leBytes (lineOf1 0 w) 64)
  | _, _ => s

end Sys2Proof.Machine
end

