-- ==== Sys2Proof/Safety.lean ====
section
/-!
DEFINITION. What counts as a safe run, and the terms in which claims about the machine are stated: when an instruction may execute
normally, and what one leaves unchanged.
-/
namespace Sys2Proof.Machine

/-- `n` steps, each of which answers a next state. -/
def Runs : Nat → State → State → Prop
  | 0, s, t => s = t
  | n + 1, s, t => ∃ u, step s = .next u ∧ Runs n u t

/-- No step from a state within `n` steps faults or refuses. -/
def SafeFor (n : Nat) (s : State) : Prop := ∀ k, k ≤ n → ∃ t, Runs k s t

/-! ## The generator -/

/-- None of the named registers is the destination of a pending access (04 R100). -/
def State.free (s : State) (rs : List SReg) : Prop := s.cur.isBusy rs = false

/-- The history buffer has room for whatever one instruction writes (03 R95): at most four registers of its own and four in the end
tests of the loops. -/
def Strand.roomy (st : Strand) : Prop := st.idle = true ∨ st.histUsed ≤ 56

/-- No access of the generator is pending. -/
def Strand.noneLeft (st : Strand) : Prop := st.sbuf = [] ∧ st.pend = []

/-- Nothing of the environment meets an access of the acting strand: no physical event, no DRAM bank with anything open, owed or held, no
hot-page tracker that records, no breakpoint. -/
structure State.calm (s : State) : Prop where
  upsets : s.upsets = []
  banks : s.pkg.banks = []
  tracker : ∀ d, (s.die d).hpctl.getLsbD 0 = false
  breaks : ∀ i < 4, (vget s.cur.bpctl i).getLsbD 0 = false

/-- The loop registers of a generator. -/
def Gen.loops (g : Gen) : List Word := [0x50, 0x51, 0x52, 0x53, 0x54, 0x55, 0x56].map g.loopReg

/-- What a generator instruction that retires leaves: every s register but `dests`, s0 as zero, the level, the loop registers unless a
loop is active, the history while no word is outstanding, and every other part of the strand and of the machine, every byte and
full/empty bit of memory among them. -/
structure GenFrame (s t : State) (dests : List SReg) : Prop where
  regs : ∀ r, r ∉ dests → t.cur.gen.read r = s.cur.gen.read r
  zero : t.cur.gen.read 0 = 0
  level : t.cur.gen.level = s.cur.gen.level
  loops : s.cur.gen.act 0 = false → s.cur.gen.act 1 = false → t.cur.gen.loops = s.cur.gen.loops
  hist : s.cur.idle = true → t.cur.hist = s.cur.hist
  strand : t.cur = { s.cur with gen := t.cur.gen, hist := t.cur.hist, stall := t.cur.stall, skipBrk := t.cur.skipBrk }
  machine : t = { s with cur := t.cur, tally := t.tally }
  mem : ∀ a, Memory.get t.mem a = Memory.get s.mem a
  bits : ∀ a, t.full a = s.full a

/-- The instruction retires with `v` in s[sd] and the flags `fl` added to GFSTAT, and leaves the rest (04 R100, R115). Execution goes
on where the end tests of the loops send it (R134). -/
def Computes (i : Instr) (s : State) (sd : SReg) (v : Word) (fl : BitVec 5) : Prop :=
  ∃ t, exec i s = .next t ∧ t.cur.gen.read sd = (if sd = 0 then 0 else v) ∧ t.cur.gen.gfstat = s.cur.gen.gfstat ||| fl ∧
    t.cur.gen.pc = (s.cur.advance none).1 ∧ GenFrame s t [sd]

/-- The instruction retires, writes no register and goes on at `pc`. -/
def GoesTo (i : Instr) (s : State) (pc : Word) : Prop :=
  ∃ t, exec i s = .next t ∧ t.cur.gen.pc = pc ∧ t.cur.gen.gfstat = s.cur.gen.gfstat ∧ GenFrame s t []

/-- What a generator load leaves: `GenFrame`, but that the L1 and the TLBs of its core and cluster may follow the access. -/
structure LoadFrame (s t : State) (dests : List SReg) : Prop where
  regs : ∀ r, r ∉ dests → t.cur.gen.read r = s.cur.gen.read r
  zero : t.cur.gen.read 0 = 0
  level : t.cur.gen.level = s.cur.gen.level
  gfstat : t.cur.gen.gfstat = s.cur.gen.gfstat
  loops : s.cur.gen.act 0 = false → s.cur.gen.act 1 = false → t.cur.gen.loops = s.cur.gen.loops
  strand : t.cur = { s.cur with gen := t.cur.gen, hist := t.cur.hist, stall := t.cur.stall, skipBrk := t.cur.skipBrk }
  machine : t = { s with cur := t.cur, tally := t.tally, cores := t.cores, clusters := t.clusters }
  mem : ∀ a, Memory.get t.mem a = Memory.get s.mem a
  bits : ∀ a, t.full a = s.full a

/-- The access of the acting strand at `va` resolves to `l` (04 R120, 16 R329 to R331): translated, protected, aligned. -/
def State.reaches (s : State) (n : Need) (va : Word) (size : Nat) (l : Loc) : Prop :=
  va.toNat % size = 0 ∧ (s.resolve n va.toNat).2 = .ok l

/-- The instruction retires and its access, of kind `k` at `l`, is the youngest of the store buffer; no register is written and memory
is as before (03 R94). -/
def Buffers (i : Instr) (s : State) (k : SbKind) (l : Loc) : Prop :=
  ∃ t e, exec i s = .next t ∧ t.cur.sbuf = s.cur.sbuf ++ [e] ∧ e.kind = k ∧ e.loc = l ∧ e.ipc = s.cur.gen.pc ∧ e.ord = s.cur.nord ∧
    t.cur.gen.pc = (s.cur.advance none).1 ∧ (∀ r, t.cur.gen.read r = s.cur.gen.read r) ∧ t.cur.gen.gfstat = s.cur.gen.gfstat ∧
    t.cur.gen.level = s.cur.gen.level ∧ t.cur.pend = s.cur.pend ∧ t.cur.queue = s.cur.queue ∧ t.mem = s.mem ∧ t.empties = s.empties

/-- The entry at the head of the acting strand's store buffer performs now: the strand runs, its partition is in service, nothing holds the entry
back, no bank's combining store has it, and its translation stands (03 R94, 16 R324, 22 R401). -/
structure State.performs (s : State) (e : SbEntry) : Prop where
  runs : s.cur.status = .running
  serves : s.lost s.cur.part = false
  head : s.bufHead = some e
  free : s.chained e = false
  stands : e.bad = none

/-! ## Stream words -/

/-- A word in progress has not begun: nothing has been done for it (05 R144). -/
def Cur.unbegun (c : Cur) : Prop :=
  c.issued = false ∧ c.masked = false ∧ c.stage = 0 ∧ c.pods = [] ∧ c.pinEnd = 0 ∧ c.due = none ∧ c.brk = [] ∧ c.run = Run.none ∧ c.staged = [] ∧ c.watch = none

/-- A word is in progress that has not been issued yet, and nothing holds it back or stops it at its issue: no captured matrix word, no
breakpoint, no stepping, no physical event, and no save of its strand whose time is out (05 R144, 08 R236, 11 R249, 13 R284, R290, R292). -/
structure State.issues (s : State) : Prop where
  word : ∃ c, s.cur.cur = some c ∧ c.unbegun
  captured : s.cur.captured = []
  breaks : ∀ i < 4, (vget s.cur.bpctl i).getLsbD 0 = false
  steps : s.cur.dbgctl.getLsbD 0 = false
  upsets : s.upsets = []
  banks : s.pkg.banks = []
  shape : s.cur.rows ≤ 32 ∧ s.cur.vl ≤ 1024
  plain : s.cur.lp = false
  goesOn : s.cur.status ≠ .saving

/-- The element of the tile is active: below VL, and its mask bit and fragment bit are set (05 R145, 06 R194). -/
def State.on (s : State) (msk r i : Nat) : Prop := r < s.cur.rows ∧ i < s.cur.vl ∧ (s.activeMask msk).getLsbD i = true

/-- The element of register `v` as row `r` of a word with the destination group `vd` reads it: a register that an earlier row of the word has
written holds its new value, which is its value after the word (05 R145). -/
def State.source (s t : State) (vd r v w i : Nat) : Nat := if vd ≤ v ∧ v < vd + r then t.vGet v w i else s.vGet v w i

/-- The third operand of element i in row `r` (02 R48, 05 R145). -/
def State.thirdIn (s t : State) (ty : Ty) (o : Third) (vd r i : Nat) : Nat :=
  match o with
  | .v b => s.source t vd r (b.val + r) ty.width i
  | o => s.third ty o r i

/-- What a stream word leaves that retires, besides memory: the generator and its queues, and every register of the stream but the files, the
flags and the seed of stochastic rounding. -/
structure StreamFrame (s t : State) : Prop where
  done : t.cur.cur = none
  gen : t.cur.gen = s.cur.gen
  ctl : t.cur.ctl = { s.cur.ctl with srseed := t.cur.ctl.srseed }
  shape : t.cur.vl = s.cur.vl ∧ t.cur.rows = s.cur.rows ∧ t.cur.lanes = s.cur.lanes
  queues : t.cur.queue = s.cur.queue ∧ t.cur.reply = s.cur.reply ∧ t.cur.sbuf = s.cur.sbuf ∧ t.cur.pend = s.cur.pend
  banks : t.cur.kbank = s.cur.kbank ∧ t.cur.sbank = s.cur.sbank ∧ t.cur.fault = s.cur.fault
  others : t.others = s.others

/-- What a stream word leaves that retires and stores nothing: `StreamFrame`, every byte of memory and every full/empty bit. -/
structure WordFrame (s t : State) : Prop where
  stream : StreamFrame s t
  mem : ∀ a, Memory.get t.mem a = Memory.get s.mem a
  bits : ∀ a, t.full a = s.full a

/-- What a control word leaves that retires: of its strand only VL, ROWS, the x registers, the reply queue and the block may change, the
history is cut to what an earlier word may still undo, and the PART bit of the event records is cleared (01 R29, 06 R188); nothing of the machine
changes. -/
structure CtlFrame (s t : State) : Prop where
  strand : t.cur = { s.cur with
    cur := none, vl := t.cur.vl, rows := t.cur.rows, files := { s.cur.files with x := t.cur.files.x }, reply := t.cur.reply
    block := t.cur.block, hist := t.cur.hist, eidx := t.cur.eidx, chkcnt := s.cur.chkcnt + 1, sstall := wNone }
  events : ∀ c : Fin 8, t.cur.eidx[c] &&& ~~~(1#64 <<< 30) = s.cur.eidx[c] &&& ~~~(1#64 <<< 30)
  machine : t = { s with cur := t.cur, tally := t.tally }

/-- The stream goes on at `dest`, or in sequence, with the block state `b` before that: only a word of a block moves the stream PC (02 R45,
06 R186, R193). -/
def State.goesOn (s t : State) (b : Block) (dest : Option Word) : Prop :=
  t.cur.block = if s.cur.word.blk then b.advance s.cur.word.nspc dest else b

/-- The control word retires, changes what `f` names and nothing else, and goes on in sequence. -/
def Controls (i : Instr) (s : State) (f : State → Prop) : Prop :=
  ∃ t, exec i s = .next t ∧ CtlFrame s t ∧ s.goesOn t s.cur.block none ∧ f t

/-- The block word retires with the block state `b` and goes on at `dest`; it changes nothing else. -/
def BlockGoes (i : Instr) (s : State) (b : Block) (dest : Option Word) : Prop :=
  ∃ t, exec i s = .next t ∧ CtlFrame s t ∧ s.goesOn t b dest ∧ t.cur.vl = s.cur.vl ∧ t.cur.rows = s.cur.rows ∧ t.cur.files.x = s.cur.files.x ∧
    t.cur.reply = s.cur.reply

/-- The word stops with the cause and TVAL given, with nothing performed: the generator is rewound to just after it, and it is the held word of
the trap (03 R96, 08 R231). -/
def StopsWith (i : Instr) (s : State) (cause : Nat) (val : Word) : Prop :=
  ∃ u c, exec i s = streamFault u cause val ∧ u.cur.cur = some c ∧ c.e = s.cur.word.e ∧ c.w = s.cur.word.w ∧ c.blk = s.cur.word.blk ∧
    c.spc = s.cur.word.spc ∧ u.cur.gen = s.cur.gen ∧ u.cur.queue = s.cur.queue ∧ u.cur.files = s.cur.files ∧ u.cur.vl = s.cur.vl ∧
    u.cur.rows = s.cur.rows ∧ u.cur.fstat = s.cur.fstat ∧ u.mem = s.mem ∧ u.empties = s.empties ∧ u.others = s.others

/-- Of the files only vector registers of the group from `vd` change, and tags of the save engine. -/
structure GroupFrame (s t : State) (vd : Nat) : Prop where
  word : WordFrame s t
  vecs : ∀ v, v < 64 → (v < vd ∨ vd + s.cur.rows ≤ v) → vget t.cur.files.v v = vget s.cur.files.v v
  files : t.cur.files.x = s.cur.files.x ∧ t.cur.files.m = s.cur.files.m ∧ t.cur.files.k = s.cur.files.k ∧ t.cur.files.z = s.cur.files.z ∧
    t.cur.files.cb = s.cur.files.cb ∧ t.cur.files.amh = s.cur.files.amh

/-- Of the group from `vd` only elements of width `w` that are active change. -/
structure VectorFrame (s t : State) (msk vd w : Nat) : Prop where
  group : GroupFrame s t vd
  off : ∀ r i, r < s.cur.rows → w * i + w ≤ 4096 → ¬ s.on msk r i → t.vGet (vd + r) w i = s.vGet (vd + r) w i

/-- Of the files only mask registers of the group from `md` change, in them only bits of active elements, and tags of the save engine. -/
structure MaskFrame (s t : State) (msk md : Nat) : Prop where
  word : WordFrame s t
  masks : ∀ m, m < 8 → (m < md ∨ md + s.cur.rows ≤ m) → vget t.cur.files.m m = vget s.cur.files.m m
  off : ∀ r i, r < s.cur.rows → ¬ s.on msk r i → (vget t.cur.files.m (md + r)).getLsbD i = (vget s.cur.files.m (md + r)).getLsbD i
  files : t.cur.files.x = s.cur.files.x ∧ t.cur.files.v = s.cur.files.v ∧ t.cur.files.k = s.cur.files.k ∧ t.cur.files.z = s.cur.files.z ∧
    t.cur.files.cb = s.cur.files.cb ∧ t.cur.files.amh = s.cur.files.amh

/-- The flags that active elements raise are added to FSTAT (01 R26, R29). -/
def addsFlags (s t : State) (msk : Nat) (fl : Nat → Nat → Flags) : Prop :=
  ∀ b, t.cur.fstat.getLsbD b = true ↔ s.cur.fstat.getLsbD b = true ∨ ∃ r i, s.on msk r i ∧ (fl r i).getLsbD b = true

/-- The word of VL elements of width `w` and its groups, given by their first registers, pass the checks of 05 R144. -/
def State.fits (s : State) (w : Nat) (groups : List Nat) : Prop := s.cur.vl * w ≤ s.cur.lanes * 64 ∧ ∀ g ∈ groups, g + s.cur.rows ≤ 64

/-- No result of a word raises a flag that FENAB enables (01 R27). -/
def State.untrapped (s : State) (res : State → Nat → Nat → Nat × Flags) : Prop := ∀ t r i, s.cur.ctl.fpx (res t r i).2 = false

/-- The word, if no flag of it traps, retires with the result `res t r i` in element i, of width `w`, of vd + r for every active element, its flags
added to FSTAT, SRSEED advanced by `draws`, and the rest as it was; `t` is the state after it, for rows that read what earlier rows have written. -/
def Elementwise (i : Instr) (s : State) (msk vd w : Nat) (res : State → Nat → Nat → Nat × Flags) (draws : Nat := 0) : Prop :=
  s.untrapped res → ∃ t, exec i s = .next t ∧ (∀ r i, s.on msk r i → t.vGet (vd + r) w i = (res t r i).1 % 2 ^ w) ∧ VectorFrame s t msk vd w ∧
    t.cur.ctl.srseed = s.cur.ctl.srseed + BitVec.ofNat 64 draws ∧ addsFlags s t msk fun r i => (res t r i).2

/-- The compare, if no flag of it traps, retires with the condition `c r i` in bit i of mask md + r for every active element. -/
def Tests (i : Instr) (s : State) (msk md : Nat) (c : Nat → Nat → Bool × Flags) : Prop :=
  (∀ r i, s.cur.ctl.fpx (c r i).2 = false) → ∃ t, exec i s = .next t ∧
    (∀ r i, s.on msk r i → (vget t.cur.files.m (md + r)).getLsbD i = (c r i).1) ∧ MaskFrame s t msk md ∧ t.cur.ctl = s.cur.ctl ∧
    addsFlags s t msk fun r i => (c r i).2

/-- The row-atomic word, if no flag of it traps, retires with `res t r i` in those elements i, of width `w`, of vd + r that `wr` names, the other
elements as they were, and the flags `fl t r i` added to FSTAT. -/
def Rowwise (i : Instr) (s : State) (vd w : Nat) (wr : Nat → Bool) (res : State → Nat → Nat → Nat) (fl : State → Nat → Nat → Flags) : Prop :=
  (∀ t r i, s.cur.ctl.fpx (fl t r i) = false) → ∃ t, exec i s = .next t ∧ GroupFrame s t vd ∧ t.cur.ctl = s.cur.ctl ∧
    (∀ r i, r < s.cur.rows → w * i + w ≤ 4096 → t.vGet (vd + r) w i = if wr i then res t r i % 2 ^ w else s.vGet (vd + r) w i) ∧
    ∀ b, t.cur.fstat.getLsbD b = true ↔ s.cur.fstat.getLsbD b = true ∨ ∃ r i, r < s.cur.rows ∧ i < s.cur.vl ∧ (fl t r i).getLsbD b = true

/-- The active elements below VL, in ascending order. -/
def State.actives (s : State) (msk : Nat) : List Nat := (List.range s.cur.vl).filter fun i => (s.activeMask msk).getLsbD i

/-! ## Anchored words (07 R198, R201 to R203) -/

/-- Cells of a block, and of the word's tile. -/
def State.ablk (s : State) : Nat := 2 ^ fieldOf s.cur.ctl.ablk 0 4

/-- A cell is active. -/
def State.cellOn (s : State) (msk n : Nat) : Bool := (s.activeMask msk).getLsbD (n % s.cur.vl)

/-- A block of the tile holds an active cell. -/
def State.blockOn (s : State) (msk q : Nat) : Prop := ∃ n < s.cur.rows * s.cur.vl, n / s.ablk = q ∧ s.cellOn msk n = true

/-- A cell is the lowest active one of its block, at which the flags of the block's anchor are raised. -/
def State.lowest (s : State) (msk n : Nat) : Bool :=
  s.cellOn msk n && (List.range n).all fun m => decide (m / s.ablk ≠ n / s.ablk) || !s.cellOn msk m

/-- The blocks of the tile pass the entry check of R198. -/
def State.blocksFit (s : State) : Prop := (s.cur.rows * s.cur.vl + s.ablk - 1) / s.ablk ≤ if s.cur.half then 32 else 64

/-- Requant(x, e) of R201 with the clamping of R202: the bits of the deviation and its flags; one that does not fit, or a step out of range, raises
DOV, with NX. -/
def State.requant (s : State) (ty : Ty) (x : Dy) (e : Int) : Nat × Flags :=
  let z := x.toInt s.cur.ctl.rm (max (-32768) (min 32767 e))
  let lo : Int := -(2 ^ (ty.width - 1))
  let hi : Int := 2 ^ (ty.width - 1) - 1
  ((max lo (min hi z.1) % 2 ^ ty.width).toNat,
   if -32768 ≤ e ∧ e ≤ 32767 ∧ lo ≤ z.1 ∧ z.1 ≤ hi then (if z.2 then fNX else 0) else fDOV ||| fNX)

/-- The anchored word, if no cell of it stops under FCTL.ADOVM and FENAB, retires with `res t r i` in element i of vd + r for every active cell, the
entry `entry q` in entry q of register kd, if it writes one, for every block that holds an active cell, and the rest as it was. -/
def Anchored (i : Instr) (s : State) (msk vd w : Nat) (kd : Option Nat) (res : State → Nat → Nat → Nat × Flags) (entry : Nat → Anchor) : Prop :=
  (∀ t r i, s.on msk r i → s.cur.ctl.fpx (res t r i).2 = false ∧ (s.cur.ctl.dovSat = true ∨ (res t r i).2.getLsbD 6 = false)) →
    ∃ t, exec i s = .next t ∧ WordFrame s t ∧ t.cur.ctl = s.cur.ctl ∧ (∀ r i, s.on msk r i → t.vGet (vd + r) w i = (res t r i).1 % 2 ^ w) ∧
      (∀ r i, r < s.cur.rows → w * i + w ≤ 4096 → ¬ s.on msk r i → t.vGet (vd + r) w i = s.vGet (vd + r) w i) ∧
      (∀ v, v < 64 → (v < vd ∨ vd + s.cur.rows ≤ v) → vget t.cur.files.v v = vget s.cur.files.v v) ∧
      (∀ k q, k < 16 → q < 64 → ((kd = some k ∧ s.blockOn msk q) → t.cur.kGet k q = entry q) ∧
        ((kd ≠ some k ∨ ¬ s.blockOn msk q) → t.cur.kGet k q = s.cur.kGet k q)) ∧
      t.cur.files.x = s.cur.files.x ∧ t.cur.files.m = s.cur.files.m ∧ t.cur.files.z = s.cur.files.z ∧ addsFlags s t msk fun r i => (res t r i).2

/-! ## Stream memory words -/

/-- No earlier access of the generator and no copy holds the accesses of a stream word back (12 R278, 17 R339, R345), and nothing else is
chosen to move while they go on (log entry 4). -/
def State.unheld (s : State) : Prop :=
  s.sched = [] ∧ s.cur.sbuf = [] ∧ s.cur.pend = [] ∧ (∀ c ∈ s.cur.copies, c.st = .retired) ∧
    ∀ t ∈ s.others, t.coreNo = s.cur.coreNo → ∀ c ∈ t.copies, c.st ≠ .running

/-- The tile has one element, and it is active. -/
def State.single (s : State) (msk : Nat) : Prop := s.cur.rows = 1 ∧ s.cur.vl = 1 ∧ s.on msk 0 0

/-- A stream access of `n` bytes at `va` reaches `l`, of this package and with good data there, and passes its checks: in the scratchpad window, or
by an entry of its core's TLB (06 R168, R171, 16 R331, 22 R412). -/
structure State.stands (s : State) (need : Need) (va : Word) (n : Nat) (l : Loc) : Prop where
  aligned : va.toNat % n = 0
  found : s.resolveStream need va.toNat = (s, .ok l)
  here : l.gw = false
  good : s.lineReads l n = .good

/-- One pin set holds every page that a memory word needs (06 R171): it has one element, or its core's TLB, which holds them all, has at most 128
entries. -/
def State.oneSet (s : State) (msk : Nat) : Prop := s.single msk ∨ (s.core s.cur.coreNo).dtlb.length ≤ 128

/-- Each active element of a memory word stands at its location. -/
def State.standAll (s : State) (msk : Nat) (need : Need) (va : Nat → Nat → Word) (n : Nat) (ls : Nat → Nat → Loc) : Prop :=
  ∀ r i, s.on msk r i → s.stands need (va r i) n (ls r i)

/-- The addresses of a unit or stride word (06 R169). -/
def State.unitPlaces (s : State) (msk w : Nat) (base : Slot) (stride : Option XReg) (va : Nat → Nat → Word) : Prop :=
  ∀ r i, s.on msk r i → va r i = s.cur.slot base + if w = 4 then BitVec.ofNat 64 (s.pos r i / 2)
    else BitVec.ofNat 64 (s.pos r i) * (match stride with | some x => s.cur.files.x[x] | none => BitVec.ofNat 64 (w / 8))

/-- The addresses of an index word (06 R169). -/
def State.indexPlaces (s : State) (msk : Nat) (base : Slot) (vb : Nat) (va : Nat → Nat → Word) : Prop :=
  ∀ r i, s.on msk r i → va r i = s.cur.slot base + BitVec.ofNat 64 (s.vGet (vb + r) 64 i)

/-- The addresses of a lane-view word whose offsets pass their checks (12 R273). -/
def State.lanePlaces (s : State) (msk w vb : Nat) (va : Nat → Nat → Word) : Prop :=
  ∀ r i, s.on msk r i → let c := s.vGet (vb + r) 16 i
    va r i = BitVec.ofNat 64 (windowAddr (fieldOf s.cur.ident.core 0 6) (laneOffset (s.cur.laneOf (i / (64 / w))) c)) ∧
      c % max 1 (w / 8) = 0 ∧ c + max 1 (w / 8) ≤ 6144

/-- Two register groups of the word's rows hold no register in common. -/
def State.disjoint (s : State) (u v : Nat) : Prop := u + s.cur.rows ≤ v ∨ v + s.cur.rows ≤ u

/-- Accesses to one line are under one key, so that none spoils the tag of another (22 R409). -/
def State.oneKey (s : State) (msk : Nat) (ls : Nat → Nat → Loc) : Prop := ∀ r i q j, s.on msk r i → s.on msk q j →
  lineOf (ls r i).key = lineOf (ls q j).key → (ls r i).enc = (ls q j).enc

/-- Active elements that share a sett lie in one element group, whose access serves them together (06 R175). -/
def State.groupSetts (s : State) (msk w : Nat) (ls : Nat → Nat → Loc) : Prop := ∀ r i q j, s.on msk r i → s.on msk q j →
  settOf (ls r i).key = settOf (ls q j).key → r = q ∧ i / (64 / w) = j / (64 / w)

/-- The first nibble of an element of width `w` at the key `k`: a cb4 element at an odd place of the sweep lies in the upper one (06 R174). -/
def State.nibbleAt (s : State) (w k r i : Nat) : Nat := 2 * k + if w = 4 ∧ s.pos r i % 2 = 1 then 1 else 0

/-- A nibble of memory. -/
def State.nibble (s : State) (q : Nat) : Nat := (Memory.get s.mem (q / 2)).toNat / 16 ^ (q % 2) % 16

/-- No two active elements share a nibble of memory. -/
def State.apart (s : State) (msk w : Nat) (ls : Nat → Nat → Loc) : Prop := ∀ r i q j, s.on msk r i → s.on msk q j → (r, i) ≠ (q, j) →
  s.nibbleAt w (ls r i).key r i + w / 4 ≤ s.nibbleAt w (ls q j).key q j ∨ s.nibbleAt w (ls q j).key q j + w / 4 ≤ s.nibbleAt w (ls r i).key r i

/-- What a word that stores leaves in memory: each active element holds `v r i`, every other nibble is as before, but for those that `skip` names, and
the setts of the elements have the bit given, or as before, and the others as before. -/
structure State.wroteAll (s t : State) (msk w : Nat) (ls : Nat → Nat → Loc) (v : Nat → Nat → Nat) (full : Option Bool)
    (skip : Nat → Prop := fun _ => False) : Prop where
  data : ∀ r i j, s.on msk r i → j < w / 4 → t.nibble (s.nibbleAt w (ls r i).key r i + j) = v r i / 16 ^ j % 16
  rest : ∀ q, (∀ r i, s.on msk r i → q < s.nibbleAt w (ls r i).key r i ∨ s.nibbleAt w (ls r i).key r i + w / 4 ≤ q) → ¬ skip q → t.nibble q = s.nibble q
  bits : ∀ a, (∀ r i, s.on msk r i → settOf a ≠ settOf (ls r i).key) → t.full a = s.full a
  own : ∀ r i, s.on msk r i → t.full (ls r i).key = full.getD (s.full (ls r i).key)

/-- The value that a plain load of `n` bytes at `l` gives: from the line of the core's L1 where a page of RC or UO kind is there, else from the home
(12 R268). -/
def State.loads (s : State) (l : Loc) (n : Nat) : Nat :=
  match (if isHbm l.key && l.kind != .so then (s.core s.cur.coreNo).l1.find? fun x => x.holds l.key n else none) with
  | some x => bits x.data.toNat (8 * (l.key % 128)) (8 * n)
  | none => s.valueAt l.key n

/-- The state with the `n` bytes from `k` replaced by those of `v`, and the bits of the setts named given, as `t` holds it: no other byte and no
other bit has changed. -/
def wroteOnly (s t : State) (k n v : Nat) (full : Option Bool) : Prop :=
  (∀ i < n, Memory.get t.mem (k + i) = BitVec.ofNat 8 (v / 2 ^ (8 * i))) ∧ (∀ a, a < k ∨ k + n ≤ a → Memory.get t.mem a = Memory.get s.mem a) ∧
    (∀ a, settOf a ≠ settOf k → t.full a = s.full a) ∧ t.full k = full.getD (s.full k)

/-! ## Steps of the machine's own -/

/-- The instruction answers a next state, of which `f` holds. -/
def Answers (i : Instr) (s : State) (f : State → Prop) : Prop := ∃ t, exec i s = .next t ∧ f t

/-- The instruction answers the state as it is. -/
def Idles (i : Instr) (s : State) : Prop := exec i s = .next s

/-- Every byte of memory and every full/empty bit is as before. -/
def State.keepsMemory (s t : State) : Prop := (∀ a, Memory.get t.mem a = Memory.get s.mem a) ∧ ∀ a, t.full a = s.full a

/-- No strand has changed. -/
def State.keepsStrands (s t : State) : Prop := t.cur = s.cur ∧ t.others = s.others

/-- The event stream of a partition is off (19 R375). -/
def State.quiet (s : State) (part : Nat) : Prop := (s.part part).evctl.getLsbD 0 = false

/-! ## What moves -/

/-- Nothing is due before the acting strand's own turn, and the strand keeps its turn (log entry 4). -/
def State.ownTurn (s : State) : Prop :=
  s.sched = [] ∧ s.events.find? s.dueNow = none ∧ s.cur.stuck = false ∧ s.tick % 8 ≠ 7 ∧ s.cur.faultReady = false ∧
    s.cur.breakReady = none ∧ s.cur.ints = [] ∧
    (s.bufHead.any fun e => !s.chained e) = false

/-- The package is in service, and no bank of DRAM holds an access back (22 R414). -/
def State.goes (s : State) : Prop := s.pkg.fatal = false ∧ ∀ b ∈ s.pkg.banks, b.backoff = false

/-- The generator of the acting strand moves next, from `u`: its turn has been chosen, or it is due. -/
def State.genMoves (s u : State) : Prop :=
  s.goes ∧ s.canAct s.cur = true ∧
    ((∃ rest, s.sched = .gen :: rest ∧ u = { s with sched := rest }) ∨ (s.ownTurn ∧ s.cur.streamReady = false ∧ u = s))

/-- The stream of the acting strand, which runs and takes no fault, moves next, from `u`. -/
def State.streamMoves (s u : State) : Prop :=
  s.goes ∧ s.canAct s.cur = true ∧ (s.cur.fault.any fun f => f.stream) = false ∧
    ((∃ rest, s.sched = .stream :: rest ∧ u = { s with sched := rest }) ∨
      (s.ownTurn ∧ s.cur.streamReady = true ∧ s.cur.sstall = wNone ∧ u = s))

/-- A step that ends as `r` does: time goes on after a next state. -/
def ends (r : Res) : Res :=
  match r with
  | .next t => .next t.after
  | r => r

end Sys2Proof.Machine
end

