-- ==== Sys2Proof/Certificates/Slice0/Obligations.lean ====
section
/-!
DEFINITION. The statements for the provers: claims about the machine, from the numbered rules of the spec. The terms they use
are those of Safety.lean.
-/

open Sys2Proof Sys2Proof.Machine

/-! ## The generator: integers, immediates, floating point (04 R104, R110 to R118) -/

/-- 04 R110: s[sd] ← F(s[sa], s[sb]) for every function of the integer ALU, and nothing else changes: no flag, no fault. -/
def Obligations.IntegerResults : Prop :=
  ∀ (s : State) (sd sa sb : SReg), s.free [sd, sa, sb] → s.cur.roomy →
    let a := s.cur.gen.read sa
    let b := s.cur.gen.read sb
    let n := b.toNat % 64
    let one (c : Bool) : Word := if c then 1 else 0
    Computes (.add sd sa sb) s sd (a + b) 0 ∧ Computes (.sub sd sa sb) s sd (a - b) 0 ∧ Computes (.mul sd sa sb) s sd (a * b) 0 ∧
    Computes (.and sd sa sb) s sd (a &&& b) 0 ∧ Computes (.or sd sa sb) s sd (a ||| b) 0 ∧ Computes (.xor sd sa sb) s sd (a ^^^ b) 0 ∧
    Computes (.andn sd sa sb) s sd (a &&& ~~~b) 0 ∧ Computes (.orn sd sa sb) s sd (a ||| ~~~b) 0 ∧
    Computes (.xnor sd sa sb) s sd (~~~(a ^^^ b)) 0 ∧
    Computes (.shl sd sa sb) s sd (a <<< n) 0 ∧ Computes (.shr sd sa sb) s sd (a >>> n) 0 ∧
    Computes (.sra sd sa sb) s sd (a.sshiftRight n) 0 ∧
    Computes (.rol sd sa sb) s sd (a.rotateLeft n) 0 ∧ Computes (.ror sd sa sb) s sd (a.rotateRight n) 0 ∧
    Computes (.slt sd sa sb) s sd (one (decide (a.toInt < b.toInt))) 0 ∧ Computes (.sltn sd sa sb) s sd (one (decide (a.toNat < b.toNat))) 0 ∧
    Computes (.seq sd sa sb) s sd (one (decide (a = b))) 0 ∧
    Computes (.min sd sa sb) s sd (if a.toInt < b.toInt then a else b) 0 ∧ Computes (.max sd sa sb) s sd (if a.toInt < b.toInt then b else a) 0 ∧
    Computes (.minn sd sa sb) s sd (if a.toNat < b.toNat then a else b) 0 ∧ Computes (.maxn sd sa sb) s sd (if a.toNat < b.toNat then b else a) 0 ∧
    Computes (.mulh sd sa sb) s sd (BitVec.ofInt 64 (a.toInt * b.toInt / 2 ^ 64)) 0 ∧
    Computes (.mulhn sd sa sb) s sd (BitVec.ofNat 64 (a.toNat * b.toNat / 2 ^ 64)) 0 ∧
    Computes (.div sd sa sb) s sd (if b = 0 then BitVec.allOnes 64 else BitVec.ofInt 64 (a.toInt.tdiv b.toInt)) 0 ∧
    Computes (.rem sd sa sb) s sd (if b = 0 then a else BitVec.ofInt 64 (a.toInt.tmod b.toInt)) 0 ∧
    Computes (.divn sd sa sb) s sd (if b = 0 then BitVec.allOnes 64 else BitVec.ofNat 64 (a.toNat / b.toNat)) 0 ∧
    Computes (.remn sd sa sb) s sd (if b = 0 then a else BitVec.ofNat 64 (a.toNat % b.toNat)) 0 ∧
    (∃ z ≤ 64, Computes (.clz sd sa) s sd (BitVec.ofNat 64 z) 0 ∧ a.toNat < 2 ^ (64 - z) ∧ (z < 64 → 2 ^ (63 - z) ≤ a.toNat)) ∧
    (∃ z ≤ 64, Computes (.ctz sd sa) s sd (BitVec.ofNat 64 z) 0 ∧ a.toNat % 2 ^ z = 0 ∧ (z < 64 → a.getLsbD z = true)) ∧
    Computes (.popc sd sa) s sd (BitVec.ofNat 64 ((List.range 64).countP fun i => a.getLsbD i)) 0 ∧
    (∃ v, Computes (.brev sd sa) s sd v 0 ∧ ∀ i < 64, v.getLsbD i = a.getLsbD (63 - i)) ∧
    (∃ v, Computes (.bswap sd sa) s sd v 0 ∧ ∀ i < 8, v.extractLsb' (8 * i) 8 = a.extractLsb' (56 - 8 * i) 8)

/-- 04 R111, R112, R113, R114: the immediate instructions; Imm is imm27 sign-extended (R100). -/
def Obligations.ImmediateResults : Prop :=
  ∀ (s : State) (sd sa : SReg) (imm : BitVec 27) (amt : BitVec 6) (v : BitVec 64), s.free [sd, sa] → s.cur.roomy →
    let a := s.cur.gen.read sa
    let i : Word := imm.signExtend 64
    Computes (.addi sd sa imm) s sd (a + i) 0 ∧ Computes (.andi sd sa imm) s sd (a &&& i) 0 ∧
    Computes (.ori sd sa imm) s sd (a ||| i) 0 ∧ Computes (.xori sd sa imm) s sd (a ^^^ i) 0 ∧
    Computes (.slti sd sa imm) s sd (if a.toInt < i.toInt then 1 else 0) 0 ∧
    Computes (.sltni sd sa imm) s sd (if a.toNat < i.toNat then 1 else 0) 0 ∧
    Computes (.shli sd sa amt) s sd (a <<< amt.toNat) 0 ∧ Computes (.shri sd sa amt) s sd (a >>> amt.toNat) 0 ∧
    Computes (.srai sd sa amt) s sd (a.sshiftRight amt.toNat) 0 ∧
    Computes (.lpc sd imm) s sd (s.cur.gen.pc + i * 2) 0 ∧ Computes (.li sd v) s sd v 0

/-- 04 R115 to R118: a floating-point instruction reads its operands in its format, rounds by the generator's FCTL.RM, writes its
result zero-extended, and adds its flags to GFSTAT; it traps on none. -/
def Obligations.FloatResults : Prop :=
  ∀ (s : State) (f : SFmt) (sd sa sb : SReg) (src dst : CvtTy) (rnd : Fin 5), s.free [sd, sa, sb] → s.cur.roomy →
    let F := sfmt f
    let a := (s.cur.gen.read sa).toNat % 2 ^ F.width
    let b := (s.cur.gen.read sb).toNat % 2 ^ F.width
    let x := F.decode a
    let y := F.decode b
    let rm := Rm.ofCode (fieldOf (s.cur.genCtl 0x010) 0 2)
    let is (i : Instr) (r : Nat × Flags) : Prop := Computes i s sd (BitVec.ofNat 64 r.1) (r.2.setWidth 5)
    let test (c : Bool) : Nat := if c then 1 else 0
    is (.fadd f sd sa sb) (F.addBits rm a b) ∧ is (.fsub f sd sa sb) (F.subBits rm a b) ∧ is (.fmul f sd sa sb) (F.mulBits rm a b) ∧
    is (.fdiv f sd sa sb) (F.divBits rm a b) ∧ is (.fsqrt f sd sa) (F.sqrtBits rm a) ∧
    is (.fmin f sd sa sb) (F.minMax false a b) ∧ is (.fmax f sd sa sb) (F.minMax true a b) ∧
    is (.feq f sd sa sb) (test (!x.isNan && !y.isNan && x.eqv y), if x.isSnan || y.isSnan then fNV else 0) ∧
    is (.flt f sd sa sb) (test (!x.isNan && !y.isNan && x.ltv y), if x.isNan || y.isNan then fNV else 0) ∧
    is (.fle f sd sa sb) (test (!x.isNan && !y.isNan && (x.ltv y || x.eqv y)), if x.isNan || y.isNan then fNV else 0) ∧
    is (.fclass f sd sa) (F.classify a, 0) ∧
    is (.fneg f sd sa) (a ^^^ 2 ^ (F.width - 1), 0) ∧ is (.fabs f sd sa) (a % 2 ^ (F.width - 1), 0) ∧
    (let r := convert (cvtTy src) (cvtTy dst) (if rnd = 0 then rm else Rm.ofCode (rnd.val - 1)) (s.cur.gen.read sa).toNat
     Computes (.cvt src dst rnd sd sa) s sd (cvtOut (cvtTy dst) r.1) (r.2.setWidth 5))

/-- 04 R104, R143: NOP and the hint opcodes only advance the PC; VFENCE.SV and VFENCE.VS do so once what they wait for is done. -/
def Obligations.NoOperations : Prop :=
  ∀ (s : State) (k : Fin 4) (tl : Fin 7) (a : Fin 64), s.cur.roomy →
    GoesTo .nop s (s.cur.advance none).1 ∧ GoesTo (.ghint k tl a) s (s.cur.advance none).1 ∧
    (s.cur.noneLeft → GoesTo .vfenceSv s (s.cur.advance none).1) ∧ (s.cur.idle = true → GoesTo .vfenceVs s (s.cur.advance none).1) ∧
    ((s.cur.sbuf ≠ [] ∨ s.cur.pend ≠ []) → exec .vfenceSv s = .next (s.stallGen 7)) ∧
    (s.cur.idle = false → exec .vfenceVs s = .next (s.stallGen 7))

/-! ## The generator: control flow (04 R130 to R134) -/

/-- 04 R130, R131: a compare-branch whose condition holds, J, JL, JR and JLR go to their targets; a branch whose condition does not
hold goes on in sequence. JLR reads sa before it writes sd. -/
def Obligations.BranchTargets : Prop :=
  ∀ (s : State) (sd sa sb : SReg) (imm : BitVec 27), s.free [sd, sa, sb] → s.cur.roomy →
    let g := s.cur.gen
    let a := g.read sa
    let b := g.read sb
    let i : Word := imm.signExtend 64
    let next := (s.cur.advance none).1
    let dest (c : Bool) : Word := if c then g.pc + i * 2 else next
    let links (x : Instr) (pc : Word) : Prop :=
      ∃ t, exec x s = .next t ∧ t.cur.gen.pc = pc ∧ t.cur.gen.read sd = (if sd = 0 then 0 else g.npc) ∧ t.cur.gen.gfstat = g.gfstat ∧
        GenFrame s t [sd]
    GoesTo (.beq sa sb imm) s (dest (decide (a = b))) ∧ GoesTo (.bne sa sb imm) s (dest (decide (a ≠ b))) ∧
    GoesTo (.blt sa sb imm) s (dest (decide (a.toInt < b.toInt))) ∧ GoesTo (.bge sa sb imm) s (dest (decide (b.toInt ≤ a.toInt))) ∧
    GoesTo (.bltn sa sb imm) s (dest (decide (a.toNat < b.toNat))) ∧ GoesTo (.bgen sa sb imm) s (dest (decide (b.toNat ≤ a.toNat))) ∧
    GoesTo (.j imm) s (g.pc + i * 2) ∧ GoesTo (.jr sa imm) s (a + i) ∧
    links (.jl sd imm) (g.pc + i * 2) ∧ links (.jlr sd sa imm) (a + i)

/-- 04 R133: LOOP with a body starts loop c, or replaces it where it is active; a count of 0 skips the body; without a body it raises ILL. The other loop goes on:
its end test may come at the LOOP itself. That a count of 0 is a taken transfer, which runs no end test, is the model's reading (log entry 29).

04 R134: the end test of loop c at an instruction of the body that retires in sequence: it loops back while lc[c] > 1, and else ends the loop. Where both
loops end there the INNER one is tested first, and the other only when that exits. A taken transfer to LEND[c] ends loop c at once, and the other with it where
that has the same LEND. -/
def Obligations.HardwareLoops : Prop :=
  (∀ (s : State) (r : SReg) (c : Fin 2) (imm : BitVec 27), s.free [r] → s.cur.roomy →
     s.cur.gen.pc.getLsbD 0 = false → s.cur.gen.npc.getLsbD 0 = false →
     let g := s.cur.gen
     let n := (g.read r).toNat % 2 ^ 32
     let fin := g.pc + imm.signExtend 64 * 2
     let o : Fin 2 := 1 - c
     let starts (t : State) : Prop := (t.cur.gen.lc c).toNat = n ∧ t.cur.gen.act c = decide (n ≠ 0) ∧
       (n ≠ 0 → t.cur.gen.lbeg c = g.npc ∧ t.cur.gen.lend c = fin ∧ t.cur.gen.lctl.getLsbD 2 = decide (c = 1)) ∧
       t.cur.gen.lbeg o = g.lbeg o ∧ t.cur.gen.lend o = g.lend o ∧ t.cur.gen.s = g.s ∧ t.cur.gen.gfstat = g.gfstat ∧ t.cur.gen.level = g.level ∧
       t.cur = { s.cur with gen := t.cur.gen, hist := t.cur.hist, stall := t.cur.stall, skipBrk := t.cur.skipBrk } ∧
       t = { s with cur := t.cur, tally := t.tally } ∧ ∀ a, Memory.get t.mem a = Memory.get s.mem a
     let last : Prop := g.act o = true ∧ g.lend o = if n = 0 then fin else g.npc
     (fin.toNat ≤ g.npc.toNat → exec (.loop r c imm) s = genIll s) ∧
     (g.npc.toNat < fin.toNat → ∃ t, exec (.loop r c imm) s = .next t ∧ starts t ∧
       (¬ last → t.cur.gen.lc o = g.lc o ∧ t.cur.gen.act o = g.act o ∧ t.cur.gen.pc = if n = 0 then fin else g.npc) ∧
       (last → n = 0 ∨ (g.lc o).toNat ≤ 1 → t.cur.gen.lc o = 0 ∧ t.cur.gen.act o = false ∧ t.cur.gen.pc = if n = 0 then fin else g.npc) ∧
       (last → n ≠ 0 → 1 < (g.lc o).toNat → t.cur.gen.lc o = g.lc o - 1 ∧ t.cur.gen.act o = true ∧ t.cur.gen.pc = g.lbeg o))) ∧
  (∀ (s : State) (c : Fin 2) (imm : BitVec 27), s.cur.roomy → s.cur.gen.act c = true →
     let g := s.cur.gen
     let o : Fin 2 := 1 - c
     let inner : Prop := g.lctl.getLsbD 2 = decide (c = 1)
     let back (t : State) (d : Fin 2) : Prop := t.cur.gen.lc d = g.lc d - 1 ∧ t.cur.gen.act d = true ∧ t.cur.gen.pc = g.lbeg d
     let ended (t : State) (d : Fin 2) : Prop := t.cur.gen.lc d = 0 ∧ t.cur.gen.act d = false
     let kept (t : State) (d : Fin 2) : Prop := t.cur.gen.lc d = g.lc d ∧ t.cur.gen.act d = g.act d
     (g.lend c = g.npc → (g.act o = true → g.lend o ≠ g.npc) →
       ∃ t, exec .nop s = .next t ∧ kept t o ∧ if (g.lc c).toNat ≤ 1 then ended t c ∧ t.cur.gen.pc = g.npc else back t c) ∧
     (g.lend c = g.npc → g.act o = true → g.lend o = g.npc → inner →
       ∃ t, exec .nop s = .next t ∧
         if 1 < (g.lc c).toNat then back t c ∧ kept t o
         else ended t c ∧ if 1 < (g.lc o).toNat then back t o else ended t o ∧ t.cur.gen.pc = g.npc) ∧
     (g.lend c ≠ g.npc → (g.act o = true → g.lend o ≠ g.npc) → ∃ t, exec .nop s = .next t ∧ t.cur.gen.loops = g.loops ∧ t.cur.gen.pc = g.npc) ∧
     (g.lend c = g.pc + imm.signExtend 64 * 2 →
       ∃ t, exec (.j imm) s = .next t ∧ ended t c ∧ t.cur.gen.pc = g.lend c ∧ if g.act o = true ∧ g.lend o = g.lend c then ended t o else kept t o))

/-! ## The generator: memory (03 R94, 04 R120 to R128, 16 R325) -/

/-- 04 R121, R128: LD reads the bytes of its location, from the core's L1 where a page of RC or UO kind is there (12 R268), and writes
them extended. -/
def Obligations.PlainLoadReads : Prop :=
  ∀ (s : State) (size : Size) (sext : Bool) (sd sa : SReg) (imm : BitVec 27) (l : Loc), s.free [sd, sa] → s.cur.roomy → s.cur.noneLeft → s.calm →
    let va := s.cur.gen.read sa + imm.signExtend 64
    let n := sizeBytes size
    let line := if isHbm l.key && l.kind != .so then (s.core s.cur.coreNo).l1.find? fun x => x.holds l.key n else none
    let v := match line with | some x => bits x.data.toNat (8 * (l.key % 128)) (8 * n) | none => s.valueAt l.key n
    s.reaches ⟨false, false⟩ va n l → l.gw = false → s.copyHolds va.toNat n (fun _ => true) = false → s.lineRead l = .good →
    ∃ t, exec (.ld size sext sd sa imm) s = .next t ∧
      t.cur.gen.read sd = (if sd = 0 then 0 else if sext then BitVec.ofInt 64 (signedOf (8 * n) v) else BitVec.ofNat 64 (v % 2 ^ (8 * n))) ∧
      t.cur.gen.pc = (s.cur.advance none).1 ∧ LoadFrame s t [sd]

/-- 04 R121, R122, R124: LD.w of a full sett reads its home, writes its register and leaves the sett full; FEGET gives 1 for a full
sett and 0 for an empty one.

04 R103, R122, R128: LD.w of an empty sett leaves a pending load with a waiter at its home, and the generator goes on; no register
and no memory changes.

04 R126: PWAIT goes on once the progress word is at least its target, unsigned; it writes no register and no memory. While the word
is below, the generator stalls with FEWAIT and one waiter. -/
def Obligations.WaitingLoads : Prop :=
  (∀ (s : State) (size : Size) (sext : Bool) (sd sa : SReg) (imm : BitVec 27) (l : Loc), s.free [sd, sa] → s.cur.roomy → s.cur.noneLeft → s.calm →
     let va := s.cur.gen.read sa + imm.signExtend 64
     let n := sizeBytes size
     let v := s.valueAt l.key n
     l.gw = false → s.lineRead l = .good →
     (s.reaches ⟨false, true⟩ va n l → s.copyHolds va.toNat n (fun _ => true) = false → s.full l.key = true →
       ∃ t, exec (.ldW size sext sd sa imm) s = .next t ∧
         t.cur.gen.read sd = (if sd = 0 then 0 else if sext then BitVec.ofInt 64 (signedOf (8 * n) v) else BitVec.ofNat 64 (v % 2 ^ (8 * n))) ∧
         t.cur.gen.pc = (s.cur.advance none).1 ∧ LoadFrame s t [sd]) ∧
     (s.reaches ⟨false, true⟩ va 1 l → s.copyHolds va.toNat 1 (fun _ => true) = false →
       ∃ t, exec (.feget sd sa imm) s = .next t ∧ t.cur.gen.read sd = (if sd = 0 then 0 else if s.full l.key then 1 else 0) ∧
         t.cur.gen.pc = (s.cur.advance none).1 ∧ LoadFrame s t [sd])) ∧
  (∀ (s : State) (size : Size) (sext : Bool) (sd sa : SReg) (imm : BitVec 27) (l : Loc), s.free [sd, sa] → s.cur.roomy → s.cur.noneLeft → s.calm →
     let va := s.cur.gen.read sa + imm.signExtend 64
     l.gw = false → s.lineRead l = .good → s.reaches ⟨false, true⟩ va (sizeBytes size) l →
     s.copyHolds va.toNat (sizeBytes size) (fun _ => true) = false → s.full l.key = false →
     ∃ t p w, exec (.ldW size sext sd sa imm) s = .next t ∧ t.cur.pend = [p] ∧ p.sd = sd ∧ p.loc = l ∧ p.waiter = some w ∧
       (∃ x ∈ t.waiters, x.id = w ∧ x.key = settOf l.key ∧ x.cond = .full) ∧ t.cur.gen.pc = (s.cur.advance none).1 ∧
       (∀ r, t.cur.gen.read r = s.cur.gen.read r) ∧ (∀ a, Memory.get t.mem a = Memory.get s.mem a) ∧ t.empties = s.empties) ∧
  (∀ (s : State) (src base : SReg) (imm : BitVec 27) (l : Loc), s.free [src, base] → s.cur.roomy → s.cur.noneLeft → s.calm →
     let va := s.cur.gen.read base + imm.signExtend 64
     l.gw = false → s.lineRead l = .good → s.reaches ⟨false, false⟩ va 8 l → s.copyHolds va.toNat 8 (fun _ => true) = false →
     ((s.cur.gen.read src).toNat ≤ s.valueAt l.key 8 →
       ∃ t, exec (.pwait src base imm) s = .next t ∧ t.cur.gen.pc = (s.cur.advance none).1 ∧ t.cur.pend = [] ∧ t.cur.sbuf = [] ∧
         (∀ r, t.cur.gen.read r = s.cur.gen.read r) ∧ t.cur.gen.gfstat = s.cur.gen.gfstat ∧ t.waiters = s.waiters ∧ t.mem = s.mem ∧
         t.empties = s.empties) ∧
     (s.valueAt l.key 8 < (s.cur.gen.read src).toNat →
       ∃ t w, exec (.pwait src base imm) s = .next t ∧ t.cur.gen = s.cur.gen ∧ t.cur.stall = 2 ∧ t.waiters = s.waiters ++ [w] ∧
         w.key = settOf l.key ∧ w.cond = .prog (s.cur.gen.read src) ∧ t.mem = s.mem ∧ t.empties = s.empties))

/-- 03 R94, 04 R121, R123, R142, 16 R325, 19 R361: stores of every form, consuming loads, LDCT, FECLR, FESET, the atomics, LAUNCH and
FENCE take an entry of the store buffer, and the generator goes on; memory changes only when the entry performs. -/
def Obligations.BufferedAccessesEnter : Prop :=
  ∀ (s : State) (size : Size) (sext : Bool) (sd sa sb : SReg) (imm : BitVec 27) (asz : AmoSize) (o : Order) (sc : Scope) (k : FenceKind) (l : Loc),
    s.free [sd, sd + 1, sa, sb] → s.cur.roomy → s.cur.sbuf.length < 32 →
    let g := s.cur.gen
    let n := sizeBytes size
    let va := g.read sa + imm.signExtend 64
    let w : Nat := match asz with | .w32 => 4 | .w64 => 8
    let amo (f : AtomFn) (b : Nat) : SbKind := .amo f b o sc sd (g.read sb) (g.read sd)
    (s.reaches ⟨true, false⟩ va n l → Buffers (.st size sb sa imm) s (.st size (g.read sb)) l) ∧
    (s.reaches ⟨true, true⟩ va n l → Buffers (.stF size sb sa imm) s (.stF size (g.read sb)) l ∧
      Buffers (.stS size sb sa imm) s (.stS size (g.read sb)) l) ∧
    (s.reaches ⟨true, true⟩ va 8 l → Buffers (.feclr sa imm) s .feclr l ∧ Buffers (.feset sa imm) s .feset l) ∧
    (s.reaches ⟨false, true⟩ va n l → Buffers (.ldC size sext sd sa imm) s (.ldC size sext sd) l) ∧
    (s.reaches ⟨false, true⟩ va 8 l → Buffers (.ldct sd sa imm) s (.ldct sd) l) ∧
    (s.reaches ⟨true, true⟩ (g.read sa) 128 l → Buffers (.launch sd sa sb) s (.launch sd (g.read sb)) l) ∧
    (s.reaches ⟨true, false⟩ (g.read sa) w l →
      Buffers (.amoadd asz o sc sd sa sb) s (amo .add w) l ∧ Buffers (.amomin asz o sc sd sa sb) s (amo .min w) l ∧
      Buffers (.amomax asz o sc sd sa sb) s (amo .max w) l ∧ Buffers (.amominn asz o sc sd sa sb) s (amo .minn w) l ∧
      Buffers (.amomaxn asz o sc sd sa sb) s (amo .maxn w) l ∧ Buffers (.amoand asz o sc sd sa sb) s (amo .and w) l ∧
      Buffers (.amoor asz o sc sd sa sb) s (amo .or w) l ∧ Buffers (.amoxor asz o sc sd sa sb) s (amo .xor w) l ∧
      Buffers (.amoswap asz o sc sd sa sb) s (amo .swap w) l ∧ Buffers (.amocas asz o sc sd sa sb) s (amo .cas w) l) ∧
    (s.reaches ⟨true, false⟩ (g.read sa) 4 l → Buffers (.amofaddF32 o sc sd sa sb) s (amo .faddF32 4) l) ∧
    (s.reaches ⟨true, false⟩ (g.read sa) 2 l → Buffers (.amofaddBf16 o sc sd sa sb) s (amo .faddBf16 2) l) ∧
    Buffers (.fence k sc) s (.fence k sc) Loc.nowhere

/-- 04 R102, R120: a misaligned access raises ALIGN at its address, precise and with no effect but the trap, once nothing earlier is
outstanding. -/
def Obligations.MisalignedAccessTraps : Prop :=
  ∀ (s : State) (size : Size) (sext : Bool) (sd sa sb : SReg) (imm : BitVec 27), s.free [sd, sa, sb] → s.cur.idle = true → s.cur.drained = true →
    let va := s.cur.gen.read sa + imm.signExtend 64
    let trap : State := s.takeTrap { cause := 0x03, val := va, epc := s.cur.gen.pc, prov := s.cur.gen.pc, seq := s.cur.nseq, w := s.cur.gen.ir }
    va.toNat % sizeBytes size ≠ 0 →
    exec (.ld size sext sd sa imm) s = .next trap ∧ exec (.ldW size sext sd sa imm) s = .next trap ∧
    exec (.ldC size sext sd sa imm) s = .next trap ∧ exec (.st size sb sa imm) s = .next trap ∧
    exec (.stF size sb sa imm) s = .next trap ∧ exec (.stS size sb sa imm) s = .next trap

/-- 03 R94, 04 R121, R127: the head of the store buffer performs. ST writes its bytes and changes no bit; ST.f, of an empty sett, and
ST.s write them and set the sett full; FECLR and FESET change the bit alone. Every other byte, and every bit of another sett, is as
before.

04 R121, R122, R123, 19 R361: the consuming forms perform. LD.c of a full sett reads and empties it; LDCT of a full sett does so and
gives 1, of an empty one gives 0 and 0 with no waiter; LAUNCH fills an empty slot header and gives 0, or gives 1. An ST.f of a full sett
waits at its home and changes nothing there. -/
def Obligations.BufferedFormsPerform : Prop :=
  (∀ (s : State) (e : SbEntry) (size : Size) (v : Word), s.performs e → s.calm →
     e.loc.gw = false → s.lineRead e.loc = .good → Memory.wf s.mem = true →
     let n := sizeBytes size
     let k := e.loc.key
     let done (wrote : Nat) (full : Option Bool) : Prop :=
       ∃ t, exec (.storeBufferPerform s.cur.id) s = .next t ∧ t.cur.sbuf = s.cur.sbuf.filter (fun b => b.id != e.id) ∧
         (∀ i < wrote, Memory.get t.mem (k + i) = BitVec.ofNat 8 (v.toNat / 2 ^ (8 * i))) ∧
         (∀ a, a < k ∨ k + wrote ≤ a → Memory.get t.mem a = Memory.get s.mem a) ∧
         (∀ a, settOf a ≠ settOf k → t.full a = s.full a) ∧ t.full k = full.getD (s.full k) ∧
         (∀ r, t.cur.gen.read r = s.cur.gen.read r) ∧ t.cur.gen.pc = s.cur.gen.pc ∧ t.cur.gen.gfstat = s.cur.gen.gfstat
     (e.kind = .st size v → done n none) ∧ (e.kind = .stF size v → s.full k = false → done n (some true)) ∧
     (e.kind = .stS size v → done n (some true)) ∧ (e.kind = .feclr → done 0 (some false)) ∧ (e.kind = .feset → done 0 (some true))) ∧
  (∀ (s : State) (e : SbEntry) (size : Size) (sext : Bool) (sd : SReg) (v : Word), s.performs e → s.calm → e.loc.gw = false →
     s.lineRead e.loc = .good → Memory.wf s.mem = true →
     let k := e.loc.key
     let n := sizeBytes size
     let old := s.valueAt k n
     let x := if sext then BitVec.ofInt 64 (signedOf (8 * n) old) else BitVec.ofNat 64 (old % 2 ^ (8 * n))
     let after (full : Bool) (regs : List (SReg × Word)) : Prop :=
       ∃ t, exec (.storeBufferPerform s.cur.id) s = .next t ∧ t.cur.sbuf = s.cur.sbuf.filter (fun b => b.id != e.id) ∧
         (∀ a, Memory.get t.mem a = Memory.get s.mem a) ∧ (∀ a, settOf a ≠ settOf k → t.full a = s.full a) ∧ t.full k = full ∧
         t.waiters.length = s.waiters.length ∧
         (∀ p ∈ regs, t.cur.gen.read p.1 = if p.1 = 0 then 0 else p.2) ∧ (∀ r, (∀ p ∈ regs, p.1 ≠ r) → t.cur.gen.read r = s.cur.gen.read r)
     (e.kind = .ldC size sext sd → s.full k = true → after false [(sd, x)]) ∧
     (e.kind = .ldct sd → s.full k = true → after false [(sd, BitVec.ofNat 64 (s.valueAt k 8)), (sd + 1, 1)]) ∧
     (e.kind = .ldct sd → s.full k = false → after false [(sd, 0), (sd + 1, 0)]) ∧
     (e.kind = .launch sd v → s.full k = true → after true [(sd, 1)]) ∧
     (e.kind = .launch sd v → s.full k = false →
       ∃ t, exec (.storeBufferPerform s.cur.id) s = .next t ∧ t.full k = true ∧ t.valueAt k 8 = v.toNat ∧
         t.cur.gen.read sd = (if sd = 0 then 0 else 0) ∧ (∀ r, r ≠ sd → t.cur.gen.read r = s.cur.gen.read r) ∧
         ∀ a, a < k ∨ k + 8 ≤ a → Memory.get t.mem a = Memory.get s.mem a) ∧
     (e.kind = .stF size v → s.full k = true →
       ∃ t w, exec (.storeBufferPerform s.cur.id) s = .next t ∧ t.waiters = s.waiters ++ [w] ∧ w.key = settOf k ∧ w.cond = .empty ∧
         t.cur.sbuf.length = s.cur.sbuf.length ∧ t.mem = s.mem ∧ t.empties = s.empties ∧ t.cur.gen = s.cur.gen))

/-- 16 R325: an atomic reads the old value at its home, writes the new one there in the same step and gives the old value; a CAS that
fails writes nothing. Integer functions read the width's signed values; FADD rounds to nearest even and adds its flags to GFSTAT. -/
def Obligations.AtomicPerforms : Prop :=
  ∀ (s : State) (e : SbEntry) (f : AtomFn) (n : Nat) (o : Order) (sc : Scope) (sd : SReg) (b c : Word),
    s.performs e → s.chaining e.loc = false → s.calm → e.loc.gw = false → s.lineRead e.loc = .good → e.kind = .amo f n o sc sd b c →
    Memory.wf s.mem = true → n = 2 ∨ n = 4 ∨ n = 8 →
    let k := e.loc.key
    let w := 8 * n
    let old := s.valueAt k n
    let y := b.toNat % 2 ^ w
    let less := decide (signedOf w old < signedOf w y)
    let sum := if f = .faddBf16 then (fmtOf .bf16).addBits .rne old y else (fmtOf .f32).addBits .rne old y
    let new : Nat := match f with
      | .add => (old + y) % 2 ^ w | .min => if less then old else y | .max => if less then y else old
      | .minn => if old ≤ y then old else y | .maxn => if old ≤ y then y else old
      | .and => old &&& y | .or => old ||| y | .xor => old ^^^ y | .swap => y
      | .cas => if old = c.toNat % 2 ^ w then y else old
      | .faddF32 | .faddBf16 => sum.1
    ∃ t, exec (.storeBufferPerform s.cur.id) s = .next t ∧ t.cur.sbuf = s.cur.sbuf.filter (fun b => b.id != e.id) ∧
      t.cur.gen.read sd = (if sd = 0 then 0 else BitVec.ofNat 64 old) ∧ (∀ r, r ≠ sd → t.cur.gen.read r = s.cur.gen.read r) ∧
      (∀ i < n, Memory.get t.mem (k + i) = BitVec.ofNat 8 (new / 2 ^ (8 * i))) ∧
      (∀ a, a < k ∨ k + n ≤ a → Memory.get t.mem a = Memory.get s.mem a) ∧ t.empties = s.empties ∧
      t.cur.gen.gfstat = s.cur.gen.gfstat ||| (if f = .faddF32 ∨ f = .faddBf16 then sum.2.setWidth 5 else 0)

/-! ## The generator: queues, copies, system registers and control (03 R86 to R92, 04 R101 to R109, R135 to R141) -/

/-- 03 R86, R87, 04 R136 to R138: a push puts its word with its carried scalar, PROV and SEQ at the tail of the emit queue, and NSEQ
counts it.

03 R91, R92, 04 R139 to R141: RPLY pops the oldest reply into its register, or raises NOREPLY when no word can give one; EQWAIT goes
on with at most n words not retired, and stalls with more; QSTAT reads EQSTAT. -/
def Obligations.EmitQueue : Prop :=
  (∀ (s : State) (a b c : SReg) (num : Fin 256) (m : Tmpl), s.free [a, b, c] → s.cur.roomy → s.cur.qn < 64 → s.cur.dbgctl.getLsbD 0 = false →
     let g := s.cur.gen
     let pushes (i : Instr) (call : Bool) (bits : Nat) (carried : Word) : Prop :=
       ∃ t e, exec i s = .next t ∧ t.cur.queue = s.cur.queue ++ [.word e] ∧ e.call = call ∧ e.bits = bits ∧ e.carried = carried ∧
         e.prov = g.pc ∧ e.seq = s.cur.nseq ∧ t.cur.nseq = s.cur.nseq + 1 ∧ t.cur.gen.pc = (s.cur.advance none).1 ∧ e.succ = t.cur.gen.pc ∧
         (∀ r, t.cur.gen.read r = g.read r) ∧ t.cur.sbuf = s.cur.sbuf ∧ t.cur.reply = s.cur.reply ∧ t.mem = s.mem ∧ t.empties = s.empties
     let w := (g.read b).toNat + (g.read c).toNat * 2 ^ 64
     pushes (.emitw a b c) false (w % 2 ^ (16 * (min (w % 8) 6 + 1))) (g.read a) ∧
     pushes (.emitb a b) true (g.read b).toNat (g.read a) ∧
     (findBy Tmpl.num num.val s.cur.tmpl = some m →
       let r := fillFields m.d3 (g.read c) (fillFields m.d2 (g.read b) (fillFields m.d1 (g.read a) (m.word, 0)))
       pushes (.emit num a b c) false r.1 r.2) ∧
     (findBy Tmpl.num num.val s.cur.tmpl = none → exec (.emit num a b c) s = genIll s)) ∧
  (∀ (s : State) (sd : SReg) (n : Fin 64), s.free [sd] → s.cur.roomy →
     (∀ v rest, s.cur.reply = v :: rest →
       ∃ t, exec (.rply sd) s = .next t ∧ t.cur.reply = rest ∧ t.cur.gen.read sd = (if sd = 0 then 0 else v) ∧
         t.cur.gen.pc = (s.cur.advance none).1 ∧ (∀ r, r ≠ sd → t.cur.gen.read r = s.cur.gen.read r) ∧
         t.cur.gen.gfstat = s.cur.gen.gfstat ∧ t.mem = s.mem ∧ t.empties = s.empties) ∧
     (s.cur.reply = [] → s.cur.idle = true → exec (.rply sd) s = genFault s 0x0B 0) ∧
     (s.cur.reply = [] → s.cur.idle = false → exec (.rply sd) s = .next (s.stallGen 9)) ∧
     (s.cur.outstanding ≤ n.val → GoesTo (.eqwait n) s (s.cur.advance none).1) ∧
     (n.val < s.cur.outstanding → exec (.eqwait n) s = .next (s.stallGen (if s.cur.streamEmpty then 1 else 7))) ∧
     Computes (.qstat sd) s sd (BitVec.ofNat 64 (s.cur.nseq.toNat * 2 ^ 16 + min s.cur.reply.length 16 * 2 ^ 8 + s.cur.qn)) 0)

/-- 03 R92: EQSTAT reports the state of both queues: NSEQ in bits 63:16, the entries of the reply queue in bits 12:8, the queued entries of
the emit queue in bits 6:0, and zeros between; QSTAT returns the same value as a SYSR of EQSTAT. At reset it is 0. -/
def Obligations.QueueStatus : Prop :=
  State.reset.sysReg 0x024 = 0 ∧ ∀ (s : State) (sd : SReg), s.free [sd] → s.cur.roomy → s.cur.reply.length ≤ 16 → s.cur.qn ≤ 64 →
    ∃ v : Word, Computes (.sysr sd 0x024) s sd v 0 ∧ Computes (.qstat sd) s sd v 0 ∧ v.extractLsb' 16 48 = s.cur.nseq ∧ v.extractLsb' 13 3 = 0 ∧
      (v.extractLsb' 8 5).toNat = s.cur.reply.length ∧ v.extractLsb' 7 1 = 0 ∧ (v.extractLsb' 0 7).toNat = s.cur.qn

/-- 11 R251: TILESET retires, caps M and N at 32 and K at VLMAX of its type, and writes nothing else. A form whose fields name one register other
than s0 twice is ill-formed, and decodes to an illegal instruction.

13 R288: ICLK of a line that can be fetched retires for every line: it gives 2 for a header that fails or a KIND above 1, 0 for a line that is
locked for the strand then, and 1 where 256 lines of its cache are locked already; it locks a line only with 0, in the cache of its KIND. ICUNL
retires and leaves no lock on the line. Both raise ALIGN for an address that is not 64-byte aligned, and what the fetch or the translation raises. A
line of this package with good data can be fetched where nothing of the environment meets the fetch. -/
def Obligations.TileSizesAndCacheLocks : Prop :=
  ((∀ (s : State) (ty : Ty) (m n k : SReg), s.free [m, n, k] → s.cur.roomy →
     let g := s.cur.gen
     let cap (r : SReg) (x : Nat) : Word := BitVec.ofNat 64 (min (g.read r).toNat x)
     ∃ t, exec (.tileset ty m n k) s = .next t ∧ GenFrame s t [m, n, k] ∧ t.cur.gen.gfstat = g.gfstat ∧ t.cur.gen.pc = (s.cur.advance none).1 ∧
       ∀ r, r ≠ 0 → t.cur.gen.read r =
         if r = k then cap k ((if s.cur.lp then 16384 else s.cur.lanes * 64) / ty.width)
         else if r = n then cap n 32 else if r = m then cap m 32 else g.read r) ∧
   ∀ (ty : Ty) (m n k : SReg), (m ≠ 0 ∧ m = n) ∨ (m ≠ 0 ∧ m = k) ∨ (n ≠ 0 ∧ n = k) → (Instr.tileset ty m n k).wf = false) ∧
  (∀ (s : State) (sd sa : SReg) (imm : BitVec 27), s.free [sd, sa] → s.cur.roomy →
     let st := s.cur
     let va := st.gen.read sa + imm.signExtend 64
     let aligned : Prop := va.toNat % 64 = 0
     let goesOn (t : State) (rd : SReg) : Prop := t.cur.gen.pc = (st.advance none).1 ∧ t.cur.gen.gfstat = st.gen.gfstat ∧
       (∀ r, r ≠ rd → t.cur.gen.read r = st.gen.read r) ∧ t.mem = s.mem ∧ t.empties = s.empties ∧
       t.cur = { st with gen := t.cur.gen, hist := t.cur.hist, stall := t.cur.stall, skipBrk := t.cur.skipBrk, icg := t.cur.icg, ics := t.cur.ics }
     (¬ aligned → exec (.iclk sd sa imm) s = genFault s 0x03 va ∧ exec (.icunl sa imm) s = genFault s 0x03 va) ∧
     (∀ line, aligned → (s.fetchLine va none).2 = .ok line →
       let kind := bits line 5 3
       let held := if kind = 1 then st.ics else st.icg
       let status : Word := if 2 ≤ kind ∨ lineOk line kind = false then 2 else if va ∉ s.lockedLines (kind == 1) ∧ 256 ≤ (s.lockedLines (kind == 1)).length then 1 else 0
       let more := if status = 0 ∧ va ∉ held then [va] else []
       ∃ t, exec (.iclk sd sa imm) s = .next t ∧ goesOn t sd ∧ t.cur.gen.read sd = (if sd = 0 then 0 else status) ∧
         t.cur.icg = st.icg ++ (if kind = 1 then [] else more) ∧ t.cur.ics = st.ics ++ (if kind = 1 then more else [])) ∧
     (∀ c, aligned → (s.fetchLine va none).2 = .error c → exec (.iclk sd sa imm) s = genFault (s.fetchLine va none).1 c va) ∧
     (∀ l, s.calm → (s.resolveFor st.part st.coreNo (va &&& ~~~63).toNat).2 = .ok l → l.gw = false → s.lineRead l = .good →
       ∃ line, (s.fetchLine va none).2 = .ok line) ∧
     (∀ l, aligned → (s.resolveFor st.part st.coreNo va.toNat).2 = .ok l → l.gw = false →
       ∃ t, exec (.icunl sa imm) s = .next t ∧ goesOn t 0 ∧ t.cur.icg = st.icg.filter (· != va) ∧ t.cur.ics = st.ics.filter (· != va)) ∧
     (∀ c, aligned → (s.resolveFor st.part st.coreNo va.toNat).2 = .error c →
       exec (.icunl sa imm) s = genFault (s.resolveFor st.part st.coreNo va.toNat).1 c va))

/-- 12 R275, R276, R277: a CPY of every mode whose ranges pass its checks enters the core's scoreboard under the next handle, waiting,
and the store buffer; it moves nothing yet. A destination that is not aligned raises ALIGN. That a copy of length 0 makes no translation check is the model's reading (log
entry 33).

12 R279, R280: CPYW goes on once the copy it names, or every copy of the strand, has retired without error, raises SCB for one that
failed, and stalls while one has not retired; CPYQ reads the status of a copy, and 0 for a handle that names none. -/
def Obligations.Copies : Prop :=
  (∀ (s : State) (sd rd rs rl rm : SReg) (ty : Ty) (ls ld : Loc), s.free [sd, rd, rs, rl, rm] → s.cur.roomy → s.cur.sbuf.length < 32 →
     s.scoreboard < 16 →
     let g := s.cur.gen
     let r := s.resolveStream ⟨false, false⟩ (g.read rs).toNat
     let enters (i : Instr) (kind : CopyKind) (mode : CopyMode) (toDst : Prop) : Prop :=
       copyCheck kind mode (g.read rd) (g.read rs) (g.read rl) = none →
       (g.read rl = 0 ∨ (r.2 = .ok ls ∧ ls.gw = false ∧ toDst)) →
       ∃ t c e, exec i s = .next t ∧ t.cur.copies = putBy Copy.handle c s.cur.copies ∧ c.handle = s.cur.nextCopy ∧ c.st = .waiting ∧
         c.kind = kind ∧ c.mode = mode ∧ c.dst = g.read rd ∧ c.src = g.read rs ∧ c.len = g.read rl ∧ t.cur.sbuf = s.cur.sbuf ++ [e] ∧
         e.kind = .cpy sd c ∧ t.cur.nextCopy = s.cur.nextCopy + 1 ∧ t.cur.gen.pc = (s.cur.advance none).1 ∧
         (∀ r, t.cur.gen.read r = g.read r) ∧ t.mem = s.mem ∧ t.empties = s.empties
     let dst : Prop := (r.1.resolveStream ⟨true, false⟩ (g.read rd).toNat).2 = .ok ld ∧ ld.gw = false
     enters (.cpy sd rd rs rl) .copy .plain dst ∧ enters (.cpyWith sd rd rs rl) .copy .withBits dst ∧
     enters (.cpySetfull sd rd rs rl) .copy .setFull dst ∧ enters (.cpySetempty sd rd rs rl) .copy .setEmpty dst ∧
     enters (.cpyBitsout sd rd rs rl) .copy .bitsOut dst ∧ enters (.cpyBitsin sd rd rs rl) .copy .bitsIn dst ∧
     enters (.cpyRed ty sd rd rs rl) (.red ty) .plain dst ∧ enters (.cpyRedSetfull ty sd rd rs rl) (.red ty) .setFull dst ∧
     enters (.cpyMc sd rd rs rl rm) (.mc (g.read rm)) .plain dst ∧ enters (.cpyMcSetfull sd rd rs rl rm) (.mc (g.read rm)) .setFull dst ∧
     ((g.read rd).toNat % 8 ≠ 0 → exec (.cpy sd rd rs rl) s = genFault s 0x03 (g.read rd))) ∧
  (∀ (s : State) (sd sa : SReg), s.free [sd, sa] → s.cur.roomy →
     let h := (s.cur.gen.read sa).toNat
     let mine (c : Copy) : Prop := sa = 0 ∨ c.handle = h
     ((∀ c ∈ s.cur.copies, mine c → c.st = .retired ∧ c.err = 0) → GoesTo (.cpyw sa) s (s.cur.advance none).1) ∧
     ((∃ c ∈ s.cur.copies, mine c ∧ c.st ≠ .retired) → exec (.cpyw sa) s = .next (s.stallGen 6)) ∧
     ((∀ c ∈ s.cur.copies, mine c → c.st = .retired) → (∃ c ∈ s.cur.copies, mine c ∧ c.err ≠ 0) → s.cur.idle = true → s.cur.noneLeft →
       ∃ c ∈ s.cur.copies, mine c ∧ c.err ≠ 0 ∧
         exec (.cpyw sa) s = genFault (s.onCur fun st => { st with copies := dropBy Copy.handle c.handle st.copies }) 0x0F (BitVec.ofNat 64 c.handle)) ∧
     Computes (.cpyq sd sa) s sd (match findBy Copy.handle h s.cur.copies with
       | some c => BitVec.ofNat 64 ((match c.st with | .waiting => 1 | .running => 2 | .retired => 3) + c.err.toNat * 2 ^ 8 + c.flg.toNat * 2 ^ 16)
       | none => 0) 0)

/-- 04 R101, R109, R102: SYSR of a register that its level may read gives its value, once nothing it waits for is outstanding; below its
level it raises PRIV, and a number that names no register raises ILL. Levels that the maps do not give are the model's
(log entry 28).

04 R101, R109, 01 R24: SYSW of a register of the strand that its level may write sets its writable fields, keeps the others, and changes no s register and no
memory; below its level it raises PRIV, and with no writable field ILL. While words are outstanding a control register is written in queue order, some registers
wait, and the others are written at once. A written loop register is what the end test of the same retirement examines. A register of the strand's core, of its
partition, of the die or of the fabric is written where it stands. -/
def Obligations.SystemRegisters : Prop :=
  (∀ (s : State) (sd : SReg) (n : Fin 4096), s.free [sd] → s.cur.roomy →
     let level (i : RegInfo) : Prop := s.cur.gen.level = .s ∨ i.rd = .k
     (∀ i, regInfo n.val = some i → level i → (i.waitR = true → s.cur.idle = true) → Computes (.sysr sd n) s sd (s.sysReg n.val) 0) ∧
     (∀ i, regInfo n.val = some i → ¬ level i → exec (.sysr sd n) s = genFault s 0x02 (BitVec.ofNat 64 n.val)) ∧
     (regInfo n.val = none → exec (.sysr sd n) s = genIll s) ∧
     (s.cur.idle = true → Computes (.sysr sd 0x020) s sd (BitVec.ofNat 64 s.cur.vl) 0 ∧ Computes (.sysr sd 0x021) s sd (BitVec.ofNat 64 s.cur.rows) 0 ∧
       Computes (.sysr sd 0x011) s sd (s.cur.fstat.setWidth 64) 0) ∧
     Computes (.sysr sd 0x022) s sd (BitVec.ofNat 64 s.cur.lanes) 0 ∧ Computes (.sysr sd 0x014) s sd (s.cur.gen.gfstat.setWidth 64) 0 ∧
     Computes (.sysr sd 0x060) s sd s.cur.kbank.cause 0 ∧ Computes (.sysr sd 0x061) s sd s.cur.kbank.val 0 ∧
     Computes (.sysr sd 0x062) s sd s.cur.kbank.epc 0 ∧ Computes (.sysr sd 0x131) s sd (BitVec.ofNat 64 s.pkg.time) 0) ∧
  (∀ (s : State) (src : SReg) (n : Fin 4096) (i : RegInfo), s.free [src] → s.cur.roomy → regInfo n.val = some i →
     let v := s.cur.gen.read src
     let g := s.cur.gen
     let may : Prop := ∃ least, i.wr = some least ∧ (g.level = .s ∨ least = .k)
     let control : Prop := n.val ∈ [0x010, 0x012, 0x013, 0x023, 0x07D, 0x0C8, 0x0C9]
     let isLoop : Prop := 0x50 ≤ n.val ∧ n.val ≤ 0x56
     let core : Prop := n.val = 0x0C0 ∨ (0x200 ≤ n.val ∧ n.val ≤ 0x22B)
     let cn := s.cur.coreNo
     -- the end test finds no loop, as the write leaves them
     let act (c : Fin 2) : Bool := if n.val = 0x56 then v.getLsbD c.val else g.act c.val
     let lend (c : Fin 2) : Word := if n.val = 0x53 + 2 * c.val then v &&& ~~~1 else g.lend c.val
     let noTest : Prop := ∀ c, act c = true → lend c ≠ g.npc
     let same (t : State) : Prop := (∀ r, t.cur.gen.read r = g.read r) ∧ t.cur.gen.level = g.level ∧ (∀ a, Memory.get t.mem a = Memory.get s.mem a) ∧
       t.empties = s.empties ∧ t.others = s.others
     (i.wr = none → exec (.sysw src n) s = genIll s) ∧
     (∀ least, i.wr = some least → (g.level = .k ∧ least = .s) → exec (.sysw src n) s = genFault s 0x02 (BitVec.ofNat 64 n.val)) ∧
     (may → ∀ t, s.sysBad n.val v = some t → exec (.sysw src n) s = genFault s 0x01 t) ∧
     (may → s.sysBad n.val v = none → i.waitW = true → s.cur.idle = false → exec (.sysw src n) s = .next (s.stallGen 0xF)) ∧
     (may → s.sysBad n.val v = none → (i.waitW = true → s.cur.idle = true) → noTest → s.cur.vl < 2048 → s.cur.rows < 64 →
       let wrote (m : Nat) (new : Word) : Prop :=
         ∃ t, exec (.sysw src n) s = .next t ∧ t.cur.reg m = some new ∧ same t ∧ ∀ k, k ≠ m → t.cur.reg k = s.cur.reg k
       (n.val = 0x14 → wrote 0x14 (v &&& 0x1F)) ∧ (n.val = 0x50 ∨ n.val = 0x51 → wrote n.val (v &&& 0xFFFFFFFF)) ∧
       (0x52 ≤ n.val ∧ n.val ≤ 0x55 → wrote n.val (v &&& ~~~1)) ∧ (n.val = 0x56 → wrote 0x56 (v &&& 7)) ∧
       (control → s.cur.idle = true → s.cur.queue = [] → ∀ old, s.cur.reg n.val = some old → wrote n.val (i.apply old v)) ∧
       (control → s.cur.idle = false → ∃ t, exec (.sysw src n) s = .next t ∧ same t ∧ t.cur.ctl = s.cur.ctl ∧
         t.cur.queue = s.cur.queue ++ [.ctl n.val (i.apply (s.cur.genCtl n.val) v)]) ∧
       (∀ old, s.cur.reg n.val = some old → ¬ control → ¬ isLoop → ¬ core → n.val ≠ 0x14 →
         (s.cur.half = true → (n.val < 0x44 ∨ 0x47 < n.val) ∧ (n.val < 0x4C ∨ 0x4F < n.val)) → wrote n.val (i.apply old v)) ∧
       (core → ∃ t, exec (.sysw src n) s = .next t ∧ same t ∧ (∀ k, t.cur.reg k = s.cur.reg k) ∧ (∀ k, k ≠ cn → t.core k = s.core k) ∧
         t.core cn = if 0x210 ≤ n.val ∧ n.val ≤ 0x21F then { s.core cn with pmcnt := vset (s.core cn).pmcnt (n.val - 0x210) (v &&& 0xFFFFFFFFFFFF) }
           else (s.core cn).setReg n.val (i.apply ((s.core cn).reg n.val) v)) ∧
       (¬ core → s.cur.reg n.val = none →
         let w := s.partWrite s.cur.part (s.cur.cluster / 5) n.val v
         (w = none → exec (.sysw src n) s = genIll s) ∧
         (w.isSome = true → s.tlbiWaits s.cur.part n.val v = true → exec (.sysw src n) s = .next (s.stallGen 0xF)) ∧
         ∀ u, w = some u → n.val ≠ 0x0F2 → n.val ≠ 0x0FC → n.val ≠ 0x0FD → ∃ t, exec (.sysw src n) s = .next t ∧ same t ∧ t.parts = u.parts ∧
           t.dies = u.dies ∧ t.pkg = u.pkg ∧ ∀ k, t.cur.reg k = s.cur.reg k)) ∧
     (∀ c : Fin 2, may → (i.waitW = true → s.cur.idle = true) → n.val = 0x50 + c.val → g.act c.val = true → g.lend c.val = g.npc → (g.act (1 - c.val) = true → g.lend (1 - c.val) ≠ g.npc) →
       ∃ t, exec (.sysw src n) s = .next t ∧ same t ∧
         if v.toNat % 2 ^ 32 ≤ 1 then t.cur.gen.lc c.val = 0 ∧ t.cur.gen.act c.val = false ∧ t.cur.gen.pc = g.npc
         else (t.cur.gen.lc c.val).toNat = v.toNat % 2 ^ 32 - 1 ∧ t.cur.gen.act c.val = true ∧ t.cur.gen.pc = g.lbeg c.val))

/-- 04 R105: END, with every word retired, no access pending and every copy retired without error, ends the strand. That it waits
for waiting loads is the model's reading (log entry 29).

04 R106: YIELD acts as NOP when the bench holds no candidate, and as a pre-emption request of the strand when it holds one. -/
def Obligations.EndAndYield : Prop :=
  (∀ s : State, (s.cur.idle = true → s.cur.drained = true → (∀ c ∈ s.cur.copies, c.st = .retired ∧ c.err = 0) →
       ∃ t, exec .endI s = .next t ∧ t.cur.id = s.cur.id ∧ t.cur.status = .ended ∧ t.cur.queue = [] ∧ t.cur.reply = [] ∧ t.cur.hist = [] ∧
         t.cur.gen.s = s.cur.gen.s) ∧
     ((s.cur.idle = false ∨ s.cur.drained = false) → exec .endI s = .next (s.stallGen 7))) ∧
  (∀ s : State, s.cur.roomy →
     (s.hasCandidate = false → GoesTo .yield s (s.cur.advance none).1) ∧
     (s.hasCandidate = true → s.cur.handling = false → s.cur.fault = none → s.cur.status = .running →
       ∃ t, exec .yield s = .next t ∧ t.cur.id = s.cur.id ∧ t.cur.status = .saving ∧ t.cur.gen.pc = (s.cur.advance none).1 ∧
         (∀ r, t.cur.gen.read r = s.cur.gen.read r) ∧ ∀ a, Memory.get t.mem a = Memory.get s.mem a) ∧
     (s.hasCandidate = true → s.cur.handling = true →
       ∃ t, exec .yield s = .next t ∧ t.cur.yielded = true ∧ t.cur.gen.pc = (s.cur.advance none).1 ∧
         (∀ r, t.cur.gen.read r = s.cur.gen.read r) ∧ t.mem = s.mem))

/-! ## Exceptions (04 R102, R107, R108, 08 R220 to R232) -/

/-- 04 R107: TRAP raises BRK with bit 63 and its code in TVAL; execution resumes at the successor of the TRAP.

08 R229: where a trap goes. A handler at S level lets none in; one at K level sends it to S level with PREV and NEST 1; otherwise a
delegated cause goes to K level where KTVEC is set, and every other to S level. A level that is entered records the cause, the value,
the resume PC, PROV and SEQ, sets HDL and PREV, and execution goes on at its vector. -/
def Obligations.TrapsTaken : Prop :=
  (∀ (s : State) (code : BitVec 16), s.cur.idle = true → s.cur.drained = true → s.cur.sbank.hdl = false → s.cur.kbank.hdl = false →
     s.cur.stvec ≠ 0 → s.cur.deleg.getLsbD 5 = false →
     ∃ t, exec (.trap code) s = .next t ∧ t.cur.gen.level = .s ∧ t.cur.gen.pc = s.cur.stvec ∧ t.cur.sbank.cause = 0x11 ∧
       t.cur.sbank.val = BitVec.ofNat 64 (2 ^ 63 + code.toNat) ∧ t.cur.sbank.epc = (s.cur.advance none).1 ∧ t.cur.sbank.prov = s.cur.gen.pc ∧
       t.cur.sbank.hdl = true ∧ (∀ r, t.cur.gen.read r = s.cur.gen.read r) ∧ t.cur.gen.gfstat = s.cur.gen.gfstat ∧ t.mem = s.mem ∧
       t.empties = s.empties) ∧
  (∀ (s : State) (t : Trap),
     let st := s.cur
     let deleg : Bool := match delegBit t.cause with | some b => st.deleg.getLsbD b | none => false
     let enters (b : Bank) (u : State) (prev nest : Nat) : Prop :=
       b.cause = t.tcause nest ∧ b.val = t.val ∧ b.epc = t.epc ∧ b.ipc = t.ipc ∧ b.prov = t.prov ∧ b.seq = t.seq.setWidth 64 ∧ b.spc = t.spc ∧
       b.word0 = BitVec.ofNat 64 t.w ∧ b.xq = t.xq ∧ b.stat = BitVec.ofNat 64 (prev * 2 + 1) ∧ u.cur.cur = none ∧ u.cur.sbuf = [] ∧ u.cur.fault = none ∧
       u.cur.yielded = false ∧ (∀ r, u.cur.gen.read r = st.gen.read r) ∧ u.cur.files = st.files ∧ u.cur.ctl = st.ctl ∧ u.cur.fstat = st.fstat ∧
       u.cur.gen.gfstat = st.gen.gfstat ∧ u.others = s.others ∧ u.mem = s.mem ∧ u.empties = s.empties
     let u := s.takeTrap t
     (st.sbank.hdl = true → st.route t.cause = none) ∧
     (st.sbank.hdl = false → st.kbank.hdl = true → st.stvec ≠ 0 →
       enters u.cur.sbank u 1 1 ∧ u.cur.gen.level = .s ∧ u.cur.gen.pc = st.stvec ∧ u.cur.kbank = st.kbank) ∧
     (st.sbank.hdl = false → st.kbank.hdl = false → deleg = true → st.ktvec ≠ 0 →
       enters u.cur.kbank u 0 0 ∧ u.cur.gen.level = .k ∧ u.cur.gen.pc = st.ktvec ∧ u.cur.sbank = st.sbank) ∧
     (st.sbank.hdl = false → st.kbank.hdl = false → (deleg = false ∨ st.ktvec = 0) → st.stvec ≠ 0 →
       enters u.cur.sbank u 0 0 ∧ u.cur.gen.level = .s ∧ u.cur.gen.pc = st.stvec ∧ u.cur.kbank = st.kbank))

/-- 04 R108, 08 R232: ERET of a handler of a generator trap clears HDL, puts the entries that were set aside into the store buffer, and
goes on at the resume PC at K level; a stream fault also issues the held word again, with its carried scalar. Outside a handler ERET
raises ILL. What it puts back is the model's reading of R229 and R232 (log entry 30). -/
def Obligations.EretReturns : Prop :=
  ∀ s : State,
    let st := s.cur
    let b : Bank := match st.gen.level with | .k => st.kbank | .s => st.sbank
    (b.stat.getLsbD 0 = false → exec .eret s = genIll s) ∧
    (b.stat.getLsbD 0 = true → st.idle = true → st.drained = true → st.preempt = false → st.yielded = false →
      ∃ t, exec .eret s = .next t ∧ t.cur.gen.pc = b.epc ∧ t.cur.gen.level = .k ∧
        (match st.gen.level with | .k => t.cur.kbank.hdl = false ∧ t.cur.sbank = st.sbank | .s => t.cur.sbank.hdl = false ∧ t.cur.kbank = st.kbank) ∧
        t.cur.sbuf.map SbEntry.id = b.failed.toList.map SbEntry.id ++ b.younger.map SbEntry.id ∧
        (∀ r, t.cur.gen.read r = st.gen.read r) ∧ t.cur.gen.gfstat = st.gen.gfstat ∧ t.mem = s.mem ∧ t.empties = s.empties ∧
        (b.cause.getLsbD 8 = false → t.cur.cur = st.cur) ∧
        (b.cause.getLsbD 8 = true → b.cause.getLsbD 11 = false →
          ∃ c, t.cur.cur = some c ∧ c.e.carried = b.xq ∧ c.e.prov = b.prov ∧ c.e.succ = b.epc ∧ c.issued = false))

/-! ## Stream control and blocks (06 R182 to R196) -/

/-- 06 R182 to R185, R189, 03 R91, 02 R63: each control word outside or inside a block: VNOP and the hints do nothing, VSETVL grants a row's
elements and takes ROWS rows of them from the count, VSETROWS sets ROWS, VREP pushes a reply, VMVX and VEXTR write an x register. -/
def Obligations.ControlWords : Prop :=
  ∀ (s : State) (ty : Ty) (xd xs : XReg) (n : Fin 64) (v : Slot) (va : VReg) (k : Fin 8) (tl : Fin 7) (a : Fin 32), s.issues →
    let x (r : XReg) : Word := s.cur.files.x[r]
    let same (t : State) : Prop := t.cur.vl = s.cur.vl ∧ t.cur.rows = s.cur.rows ∧ t.cur.reply = s.cur.reply
    let keeps (t : State) (rs : List XReg) : Prop := ∀ r, r ∉ rs → t.cur.files.x[r] = x r
    let g := min (x xs).toNat (s.cur.lanes * 64 / ty.width)
    Controls .vnop s (fun t => same t ∧ keeps t []) ∧ Controls (.vhint k tl a) s (fun t => same t ∧ keeps t []) ∧
    (xd ≠ xs → Controls (.vsetvl ty xd xs) s fun t => t.cur.vl = g ∧ t.cur.files.x[xd] = BitVec.ofNat 64 g ∧
      (t.cur.files.x[xs]).toNat = (x xs).toNat - min (x xs).toNat (g * s.cur.rows) ∧ t.cur.rows = s.cur.rows ∧ t.cur.reply = s.cur.reply ∧
      keeps t [xd, xs]) ∧
    (1 ≤ n.val ∧ n.val ≤ 32 → Controls (.vsetrowsImm n) s fun t =>
      t.cur.rows = n.val ∧ t.cur.vl = s.cur.vl ∧ t.cur.reply = s.cur.reply ∧ keeps t []) ∧
    (1 ≤ (x xs).toNat ∧ (x xs).toNat ≤ 32 → Controls (.vsetrowsX xs) s fun t =>
      t.cur.rows = (x xs).toNat ∧ t.cur.vl = s.cur.vl ∧ t.cur.reply = s.cur.reply ∧ keeps t []) ∧
    (x xs = 0 ∨ 32 < (x xs).toNat → StopsWith (.vsetrowsX xs) s 0x01 (x xs)) ∧
    (s.cur.reply.length < 16 → Controls (.vrep xs) s fun t =>
      t.cur.reply = s.cur.reply ++ [x xs] ∧ t.cur.vl = s.cur.vl ∧ t.cur.rows = s.cur.rows ∧ keeps t []) ∧
    (16 ≤ s.cur.reply.length → StopsWith (.vrep xs) s 0x0D 1) ∧
    Controls (.vmvx xd v) s (fun t => t.cur.files.x[xd] = s.cur.slot v ∧ same t ∧ keeps t [xd]) ∧
    Controls (.vextr ty xd va v) s fun t => same t ∧ keeps t [xd] ∧
      (let j := (s.cur.slot v).toNat
       let e := s.vGet va.val ty.width j
       t.cur.files.x[xd] = if s.cur.lanes * 64 / ty.width ≤ j then 0
         else if ty.signed && e.testBit (ty.width - 1) then BitVec.ofInt 64 ((e : Int) - 2 ^ ty.width) else BitVec.ofNat 64 e)

/-- 06 R189, R191, R193, R195, R196: the words of a block. VJ goes to its target; VBSTRIP loops while the count is not 0; VBR splits the
fragment; VJOIN acts on the newest waiting fragment; VLOOP starts a stream loop. That one with a count of 0 goes on as a taken transfer is the model's reading (log entry 29). -/
def Obligations.BlockWords : Prop :=
  ∀ (s : State) (xc : XReg) (off : BitVec 16) (m : MReg) (c : Fin 2), s.issues → s.cur.word.blk = true →
    let b := s.cur.block
    let n : Word := s.cur.files.x[xc]
    let spc := s.cur.word.spc
    let nspc := s.cur.word.nspc
    let dest := spc + off.signExtend 64 <<< 1
    let same : Prop := b.stripct.getLsbD 0 = true ∧ b.strippc = spc ∧ b.stripv.toNat ≤ n.toNat
    let el (i : Nat) : Prop := i < s.cur.vl ∧ b.fm.getLsbD i = true
    let on (i : Nat) : Prop := el i ∧ (vget s.cur.files.m m.val).getLsbD i = true
    BlockGoes (.vj off) s b (some dest) ∧
    (n = 0 → BlockGoes (.vbstrip xc off) s { b with stripct := b.stripct &&& 2 } none) ∧
    (n ≠ 0 → ¬ (same ∧ b.stripct.getLsbD 1 = true) →
      ∃ t b', exec (.vbstrip xc off) s = .next t ∧ s.goesOn t b' (some dest) ∧
        b'.stripct.getLsbD 0 = true ∧ (b'.stripct.getLsbD 1 = true ↔ same) ∧ b' = { b with stripv := n, strippc := spc, stripct := b'.stripct } ∧
        t.cur.vl = s.cur.vl ∧ t.cur.rows = s.cur.rows ∧ t.cur.files = s.cur.files ∧ t.cur.reply = s.cur.reply ∧ t.cur.fstat = s.cur.fstat ∧
        t.cur.gen = s.cur.gen ∧ t.mem = s.mem ∧ t.empties = s.empties) ∧
    (n ≠ 0 → same → b.stripct.getLsbD 1 = true → StopsWith (.vbstrip xc off) s 0x09 dest) ∧
    (8 ≤ b.pfb.length → StopsWith (.vbr m off) s 0x0A 1) ∧
    (b.pfb.length < 8 →
      ((∀ i, ¬ on i) → BlockGoes (.vbr m off) s { b with pfb := b.pfb ++ [⟨.uni, 0, 0, 0⟩] } none) ∧
      ((∃ i, on i) → (∀ i, el i → on i) → BlockGoes (.vbr m off) s { b with pfb := b.pfb ++ [⟨.uni, 0, 0, 0⟩] } (some dest)) ∧
      ((∃ i, on i) → (∃ i, el i ∧ ¬ on i) → ∃ fm fmn : BitVec 1024,
        BlockGoes (.vbr m off) s { b with fm := fm, pfb := b.pfb ++ [⟨.pend, nspc, fmn, b.fm⟩] } (some dest) ∧
        (∀ i, fm.getLsbD i = true ↔ b.fm.getLsbD i = true ∧ ¬ (el i ∧ ¬ on i)) ∧ ∀ i, fmn.getLsbD i = true ↔ b.fm.getLsbD i = true ∧ ¬ on i)) ∧
    (b.pfb = [] → StopsWith .vjoin s 0x0A 0) ∧
    (∀ rest f, b.pfb = rest ++ [f] → match f.kind with
      | .uni => BlockGoes .vjoin s { b with pfb := rest } none
      | .pend => BlockGoes .vjoin s { b with fm := f.fmn, pfb := rest ++ [{ f with kind := .res }] } (some f.pc)
      | .res => BlockGoes .vjoin s { b with fm := f.fmj, pfb := rest } none) ∧
    (nspc.toNat < dest.toNat → ∃ b', BlockGoes (.vloop c xc off) s b' (if n.setWidth 32 = 0#32 then some dest else none) ∧
      b' = { b with vlc0 := b'.vlc0, vlc1 := b'.vlc1, vlbeg0 := b'.vlbeg0, vlend0 := b'.vlend0, vlbeg1 := b'.vlbeg1, vlend1 := b'.vlend1
                    vlctl := b'.vlctl } ∧
      (if c = 0 then b'.vlc1 = b.vlc1 ∧ b'.vlbeg1 = b.vlbeg1 ∧ b'.vlend1 = b.vlend1
       else b'.vlc0 = b.vlc0 ∧ b'.vlbeg0 = b.vlbeg0 ∧ b'.vlend0 = b.vlend0) ∧
      (if c = 0 then b'.vlc0 else b'.vlc1) = n.setWidth 32 ∧ b'.vlctl.getLsbD c.val = decide (n.setWidth 32 ≠ 0#32) ∧
      b'.vlctl.getLsbD (1 - c.val) = b.vlctl.getLsbD (1 - c.val) ∧
      (n.setWidth 32 ≠ 0#32 → (if c = 0 then b'.vlbeg0 = nspc ∧ b'.vlend0 = dest else b'.vlbeg1 = nspc ∧ b'.vlend1 = dest) ∧
        b'.vlctl.getLsbD 2 = decide (c = 1))) ∧
    (dest.toNat ≤ nspc.toNat → StopsWith (.vloop c xc off) s 0x01 (BitVec.ofNat 64 (s.cur.word.w % 2 ^ 16))) ∧
    (b.pfb ≠ [] → StopsWith .vbret s 0x0A 2)

/-- 06 R186, R189: a block-call word whose first line is a block line enters the block: the stream PC stands at its address, the fragment mask is all ones,
VLCTL and STRIPCT.VAL are clear and no fragment waits; a line that is not raises ILL. VBRET with no waiting fragment ends the block and
retires its call. -/
def Obligations.BlocksCallAndReturn : Prop :=
  ∀ (s : State) (addr : Word), s.issues →
    (addr.toNat % 64 ≠ 0 → StopsWith (.blockCall addr) s 0x03 addr) ∧
    (∀ u line, s.fetchLine addr (some true) = (u, .ok line) → lineOk line 1 = true → addr.toNat % 64 = 0 →
      ∃ t, exec (.blockCall addr) s = .next t ∧ t.cur.cur = none ∧ t.cur.block.call = some s.cur.word.e ∧ t.cur.block.spc = addr + 2 ∧
        t.cur.block.fm = BitVec.allOnes 1024 ∧ t.cur.block.pfb = [] ∧ t.cur.block.vlctl = 0 ∧ t.cur.block.stripct.getLsbD 0 = false ∧
        t.cur.files = s.cur.files ∧ t.cur.gen = s.cur.gen ∧ t.mem = s.mem ∧ t.empties = s.empties) ∧
    (∀ u line, s.fetchLine addr (some true) = (u, .ok line) → lineOk line 1 = false → addr.toNat % 64 = 0 →
      ∃ u', exec (.blockCall addr) s = streamFault u' 0x01 addr ∧ u'.cur.files = s.cur.files ∧ u'.cur.gen = s.cur.gen ∧ u'.mem = s.mem ∧
        u'.empties = s.empties) ∧
    (s.cur.word.blk = true → s.cur.block.pfb = [] →
      ∃ t, exec .vbret s = .next t ∧ t.cur.block.call = none ∧ t.cur.block.fm = BitVec.allOnes 1024 ∧ CtlFrame s t ∧
        t.cur.files.x = s.cur.files.x ∧ t.cur.vl = s.cur.vl ∧ t.cur.rows = s.cur.rows ∧ t.cur.reply = s.cur.reply)

/-! ## Stream arithmetic (05 R144 to R167) -/

/-- 05 R145, R146, R149, 01 R12: every integer word gives each active element its exact result, read by the signedness of TY, modulo 2^w; VADDS
and VSUBS clamp and set SAT; division by zero gives all ones or the dividend and sets DZ. -/
def Obligations.IntegerWords : Prop :=
  ∀ (s : State) (o : Arith) (u : Unary), s.issues → o.ty.isInt = true → u.ty.isInt = true →
    let w := o.ty.width
    let int (ty : Ty) (x : Nat) : Int := if ty.signed && x.testBit (ty.width - 1) then (x : Int) - 2 ^ ty.width else x
    let wrap (x : Int) : Nat := (x % 2 ^ w).toNat
    let lo : Int := if o.ty.signed then -(2 ^ (w - 1)) else 0
    let hi : Int := if o.ty.signed then 2 ^ (w - 1) - 1 else 2 ^ w - 1
    let third : List Nat := match o.third with | .v b => [b.val] | _ => []
    let binary (i : Instr) (f : Nat → Nat → Nat × Flags) : Prop := s.fits w ([o.vd.val, o.va.val] ++ third) →
      Elementwise i s o.msk.val o.vd.val w fun t r i =>
        f (s.source t o.vd.val r (o.va.val + r) w i) (s.thirdIn t o.ty o.third o.vd.val r i)
    let signed (i : Instr) (f : Int → Int → Int) : Prop := binary i fun a b => (wrap (f (int o.ty a) (int o.ty b)), 0)
    let clamped (i : Instr) (f : Int → Int → Int) : Prop := binary i fun a b =>
      let x := f (int o.ty a) (int o.ty b)
      (wrap (max lo (min hi x)), if x < lo ∨ hi < x then fSAT else 0)
    let unary (i : Instr) (f : Nat → Nat) : Prop := s.fits u.ty.width [u.vd.val, u.va.val] →
      Elementwise i s u.msk.val u.vd.val u.ty.width fun t r i => (f (s.source t u.vd.val r (u.va.val + r) u.ty.width i), 0)
    signed (.vadd o) (· + ·) ∧ signed (.vsub o) (· - ·) ∧ signed (.vmul o) (· * ·) ∧ clamped (.vadds o) (· + ·) ∧ clamped (.vsubs o) (· - ·) ∧
    signed (.vmulh o) (fun a b => a * b / 2 ^ w) ∧ signed (.vmin o) min ∧ signed (.vmax o) max ∧
    binary (.vdiv o) (fun a b => if b = 0 then (2 ^ w - 1, fDZ) else (wrap ((int o.ty a).tdiv (int o.ty b)), 0)) ∧
    binary (.vrem o) (fun a b => if b = 0 then (a, fDZ) else (wrap ((int o.ty a).tmod (int o.ty b)), 0)) ∧
    binary (.vand o) (fun a b => (a &&& b, 0)) ∧ binary (.vor o) (fun a b => (a ||| b, 0)) ∧ binary (.vxor o) (fun a b => (a ^^^ b, 0)) ∧
    binary (.vshl o) (fun a b => (a * 2 ^ (b % w), 0)) ∧ binary (.vshr o) (fun a b => (a / 2 ^ (b % w), 0)) ∧
    binary (.vsra o) (fun a b => (wrap ((if a.testBit (w - 1) then (a : Int) - 2 ^ w else a) / 2 ^ (b % w)), 0)) ∧
    unary (.vabs u) (fun a => (int u.ty a).natAbs) ∧ unary (.vneg u) (fun a => 2 ^ u.ty.width - a) ∧
    unary (.vclz u) (fun a => (List.range u.ty.width).countP fun i => decide (a < 2 ^ i)) ∧
    unary (.vpopc u) (fun a => (List.range u.ty.width).countP fun i => a.testBit i)

/-- 05 R150: each compare sets bit i of its mask to the condition of every active element i and leaves the other bits; with a NaN the
conditions and NV are those of the table.

05 R151, R152, 06 R194: VSEL takes each element below VL that the fragment mask admits from its first source where the mask bit is 1 and from
the third operand where it is 0; VFCLASS gives the class of 04 R117. -/
def Obligations.ComparesAndSelects : Prop :=
  (∀ (s : State) (o : Arith) (rnd : Fin 5), s.issues → o.vd.val + s.cur.rows ≤ 8 →
     let w := o.ty.width
     let third : List Nat := match o.third with | .v b => [b.val] | _ => []
     let int (x : Nat) : Int := if o.ty.signed && x.testBit (w - 1) then (x : Int) - 2 ^ w else x
     let tests (i : Instr) (c : Nat → Nat → Bool × Flags) : Prop := s.fits w (o.va.val :: third) →
       Tests i s o.msk.val o.vd.val fun r i => c (s.vGet (o.va.val + r) w i) (s.third o.ty o.third r i)
     let ints (i : Instr) (c : Int → Int → Bool) : Prop := o.ty.isInt = true → tests i fun a b => (c (int a) (int b), 0)
     let floats (i : Instr) (nan quiet : Bool) (c : FVal → FVal → Bool) : Prop := o.ty.isFloat = true → tests i fun a b =>
       let x := (fmtOf o.ty).decode a
       let y := (fmtOf o.ty).decode b
       if x.isNan || y.isNan then (nan, if !quiet || x.isSnan || y.isSnan then fNV else 0) else (c x y, 0)
     ints (.vcmpeq o) (fun a b => a == b) ∧ ints (.vcmpne o) (fun a b => a != b) ∧ ints (.vcmplt o) (fun a b => decide (a < b)) ∧
     ints (.vcmpge o) (fun a b => decide (b ≤ a)) ∧
     floats (.vfcmpeq rnd o) false true (fun x y => x.eqv y) ∧ floats (.vfcmpne rnd o) true true (fun x y => !x.eqv y) ∧
     floats (.vfcmplt rnd o) false false (fun x y => x.ltv y) ∧ floats (.vfcmpge rnd o) false false (fun x y => !x.ltv y) ∧
     floats (.vfcmple rnd o) false false (fun x y => !y.ltv x) ∧ floats (.vfcmpgt rnd o) false false (fun x y => y.ltv x) ∧
     floats (.vfcmpunord rnd o) true true (fun _ _ => false) ∧ floats (.vfcmpord rnd o) false true (fun _ _ => true)) ∧
  (∀ (s : State) (o : Arith) (u : Unary) (rnd : Fin 5), s.issues → u.ty.isArithFloat = true →
     let w := o.ty.width
     let third : List Nat := match o.third with | .v b => [b.val] | _ => []
     (s.fits w ([o.vd.val, o.va.val] ++ third) → Elementwise (.vsel o) s 0 o.vd.val w fun t r i =>
       (if (vget s.cur.files.m o.msk.val).getLsbD i then s.source t o.vd.val r (o.va.val + r) w i else s.thirdIn t o.ty o.third o.vd.val r i, 0)) ∧
     (s.fits u.ty.width [u.vd.val, u.va.val] → Elementwise (.vfclass rnd u) s u.msk.val u.vd.val u.ty.width fun t r i =>
       ((fmtOf u.ty).classify (s.source t u.vd.val r (u.va.val + r) u.ty.width i), 0)))

/-- 05 R153, R148, 01 R32: each floating-point word computes an element exactly and rounds it once, by FCTL.RM where X4 is 0 and else by the mode of
X4; VFMIN, VFMAX, VFABS and VFNEG round nothing. -/
def Obligations.FloatWords : Prop :=
  ∀ (s : State) (o : Arith) (u : Unary) (rnd : Fin 5), s.issues → o.ty.isArithFloat = true → u.ty.isArithFloat = true →
    let w := o.ty.width
    let F := fmtOf o.ty
    let G := fmtOf u.ty
    let rm := Rm.ofCode (if rnd = 0 then fieldOf s.cur.ctl.fctl 0 2 else rnd.val - 1)
    let third : List Nat := match o.third with | .v b => [b.val] | _ => []
    let is (i : Instr) (f : Nat → Nat → Nat → Nat × Flags) : Prop := s.fits w ([o.vd.val, o.va.val] ++ third) →
      Elementwise i s o.msk.val o.vd.val w fun t r i =>
        f (s.source t o.vd.val r (o.va.val + r) w i) (s.thirdIn t o.ty o.third o.vd.val r i) (s.vGet (o.vd.val + r) w i)
    let one (i : Instr) (f : Nat → Nat × Flags) : Prop := s.fits u.ty.width [u.vd.val, u.va.val] →
      Elementwise i s u.msk.val u.vd.val u.ty.width fun t r i => f (s.source t u.vd.val r (u.va.val + r) u.ty.width i)
    is (.vfadd rnd o) (fun a b _ => F.addBits rm a b) ∧ is (.vfsub rnd o) (fun a b _ => F.subBits rm a b) ∧
    is (.vfmul rnd o) (fun a b _ => F.mulBits rm a b) ∧ is (.vfdiv rnd o) (fun a b _ => F.divBits rm a b) ∧
    is (.vfmin rnd o) (fun a b _ => F.minMax false a b) ∧ is (.vfmax rnd o) (fun a b _ => F.minMax true a b) ∧
    is (.vfma rnd o) (F.fmaBits rm false false) ∧ is (.vfms rnd o) (F.fmaBits rm false true) ∧
    is (.vfnma rnd o) (F.fmaBits rm true false) ∧ is (.vfnms rnd o) (F.fmaBits rm true true) ∧
    one (.vfsqrt rnd u) (fun a => G.sqrtBits rm a) ∧ one (.vfabs rnd u) (fun a => (a % 2 ^ (u.ty.width - 1), 0)) ∧
    one (.vfneg rnd u) (fun a => (a ^^^ 2 ^ (u.ty.width - 1), 0))

/-- 05 R147, R154 to R156, 01 R33, R40: each conversion puts the converted element i of va + r in element i of vd + r, whatever the two widths are; SR
draws by element and advances SRSEED once. What the spec leaves open of 0 times infinity, of shares and distances at infinite or opposite codebook
entries, and of ties at equal nearness to zero is the model's (log entry 18).

05 R162, R163: VPACK clamps element i of va + r into element i, and of vb + r into element VL + i, of vd + r, with SAT; VUNPACK widens the lower or the
upper VL elements. -/
def Obligations.ConversionsAndPacking : Prop :=
  (∀ (s : State) (o : Unary) (dst : Ty) (rnd : Fin 6) (r5 : Fin 5) (cb : CbReg) (scale : Slot) (msk : MReg) (vd va : VReg), s.issues →
     let mode (r i : Nat) : Rm := if rnd = 5 then .sr (srDraw s.cur.ctl.srseed r i)
       else Rm.ofCode (if rnd = 0 then fieldOf s.cur.ctl.fctl 0 2 else rnd.val - 1)
     let mode5 := Rm.ofCode (if r5 = 0 then fieldOf s.cur.ctl.fctl 0 2 else r5.val - 1)
     let src (t : State) (r i : Nat) : Nat := s.source t o.vd.val r (o.va.val + r) o.ty.width i
     let draws := if rnd = 5 then 1 else 0
     let es := s.cur.cbEntries cb.val
     (s.fits (max o.ty.width dst.width) [o.vd.val, o.va.val] →
       Elementwise (.vcvt dst rnd o) s o.msk.val o.vd.val dst.width (fun t r i => convElem o.ty dst (mode r i) (src t r i)) draws ∧
       Elementwise (.vqcvt dst rnd cb scale o) s o.msk.val o.vd.val dst.width (fun t r i =>
         quant dst es ((s.cur.cbNan cb.val).getD 0) (mode r i) ((fmtOf o.ty).decode (src t r i))
           ((fmtOf .f32).decode ((s.cur.slot scale).toNat % 2 ^ 32))) draws) ∧
     (s.fits 16 [vd.val, va.val] →
       Elementwise (.vcbd msk cb r5 vd va) s msk.val vd.val 16 (fun t r i =>
         (elemGet (vget s.cur.files.cb cb.val) 16 (s.source t vd.val r (va.val + r) 4 i), 0)) ∧
       Elementwise (.vcbe msk cb r5 vd va) s msk.val vd.val 4 (fun t r i =>
         let x := (fmtOf .bf16).decode (s.source t vd.val r (va.val + r) 16 i)
         if x.isNan then (match s.cur.cbNan cb.val with | some c => (c, if x.isSnan then fNV else 0) | none => (0, fNV))
         else cbEncode es mode5 x))) ∧
  (∀ (s : State) (o : Binary) (u : Unary) (dst : Ty) (hi : Bool), s.issues →
     let int (ty : Ty) (x : Nat) : Int := if ty.signed && x.testBit (ty.width - 1) then (x : Int) - 2 ^ ty.width else x
     let lo : Int := if dst.signed then -(2 ^ (dst.width - 1)) else 0
     let top : Int := if dst.signed then 2 ^ (dst.width - 1) - 1 else 2 ^ dst.width - 1
     let clamp (x : Int) : Nat := (max lo (min top x) % 2 ^ dst.width).toNat
     let on (i : Nat) : Bool := (s.activeMask o.msk.val).getLsbD i
     let out (x : Int) : Bool := decide (x < lo ∨ top < x)
     let x (t : State) (v : VReg) (r i : Nat) : Int := int o.ty (s.source t o.vd.val r (v.val + r) o.ty.width i)
     (s.fits (max o.ty.width dst.width) [o.vd.val, o.va.val, o.vb.val] → 2 * s.cur.vl * dst.width ≤ s.cur.lanes * 64 →
       Rowwise (.vpack dst o) s o.vd.val dst.width (fun i => if i < s.cur.vl then on i else decide (i < 2 * s.cur.vl) && on (i - s.cur.vl) && s.cur.block.fm.getLsbD i)
         (fun t r i => if i < s.cur.vl then clamp (x t o.va r i) else clamp (x t o.vb r (i - s.cur.vl)))
         fun t r i => if on i && (out (x t o.va r i) || out (x t o.vb r i)) then fSAT else 0) ∧
     (s.fits (max u.ty.width dst.width) [u.vd.val, u.va.val] → 2 * s.cur.vl * u.ty.width ≤ s.cur.lanes * 64 →
       Rowwise (.vunpack dst hi u) s u.vd.val dst.width (fun i => decide (i < s.cur.vl) && (s.activeMask u.msk.val).getLsbD i)
         (fun t r i => (int u.ty (s.source t u.vd.val r (u.va.val + r) u.ty.width (if hi then s.cur.vl + i else i)) % 2 ^ dst.width).toNat)
         fun _ _ _ => 0))

/-- 05 R164, R165, 06 R194, 01 R34 to R36: a reduction combines element 0 of vd + r with the active elements of va + r, in ascending order, into element 0,
if the fragment mask admits it, and leaves the others; a floating-point sum under CANON = 1 adds the pairwise sum of each block of 32, and under CANON = 0
gives a value that the spec leaves open (log entry 7); the element at which a signalling start of MIN and MAX raises NV is the model's (log entry 18). -/
def Obligations.ReductionWords : Prop :=
  ∀ (s : State) (o : Unary) (rnd : Fin 5), s.issues → s.fits o.ty.width [o.vd.val, o.va.val] →
    let w := o.ty.width
    let F := fmtOf o.ty
    let rm := Rm.ofCode (if rnd = 0 then fieldOf s.cur.ctl.fctl 0 2 else rnd.val - 1)
    let int (x : Nat) : Int := if o.ty.signed && x.testBit (w - 1) then (x : Int) - 2 ^ w else x
    let els := s.actives o.msk.val
    let wr (i : Nat) : Bool := i == 0 && s.cur.block.fm.getLsbD 0
    let x (t : State) (r i : Nat) : Nat := s.source t o.vd.val r (o.va.val + r) w i
    let init (r : Nat) : Nat := s.vGet (o.vd.val + r) w 0
    let reduces (i : Instr) (f : Nat → Nat → Nat × Flags) : Prop :=
      Rowwise i s o.vd.val w wr (fun t r _ => els.foldl (fun a i => (f a (x t r i)).1) (init r))
        fun t r i => if els.contains i then (f ((els.takeWhile (· < i)).foldl (fun a i => (f a (x t r i)).1) (init r)) (x t r i)).2 else 0
    let ints (i : Instr) (f : Nat → Nat → Nat) : Prop := o.ty.isInt = true → reduces i fun a b => (f a b, 0)
    let floats (i : Instr) (f : Nat → Nat → Nat × Flags) : Prop := o.ty.isArithFloat = true → reduces i f
    let block (t : State) (r k : Nat) : Option Nat × Flags :=
      (treeSum F rm 5 ((List.range 32).map fun j => (if els.contains (32 * k + j) then some (x t r (32 * k + j)) else none, 0))).headD (none, 0)
    let add (t : State) (r a k : Nat) : Nat × Flags :=
      match (block t r k).1 with | some b => let c := F.addBits rm a b; (c.1, (block t r k).2 ||| c.2) | none => (a, 0)
    ints (.vredsum rnd o) (fun a b => (a + b) % 2 ^ w) ∧ ints (.vredmin rnd o) (fun a b => if int b < int a then b else a) ∧
    ints (.vredmax rnd o) (fun a b => if int a < int b then b else a) ∧ ints (.vredand o) (fun a b => a &&& b) ∧
    ints (.vredor o) (fun a b => a ||| b) ∧ ints (.vredxor o) (fun a b => a ^^^ b) ∧
    floats (.vredmin rnd o) (fun a b => F.minMax false a b) ∧ floats (.vredmax rnd o) (fun a b => F.minMax true a b) ∧
    floats (.vredso rnd o) (fun a b => F.addBits rm a b) ∧
    (o.ty.isArithFloat = true → s.cur.ctl.fctl.getLsbD 2 = true →
      Rowwise (.vredsum rnd o) s o.vd.val w wr
        (fun t r _ => (List.range ((s.cur.vl + 31) / 32)).foldl (fun a k => (add t r a k).1) (init r))
        fun t r i => if i % 32 = 0 then (add t r ((List.range (i / 32)).foldl (fun a k => (add t r a k).1) (init r)) (i / 32)).2 else 0) ∧
    (o.ty.isArithFloat = true → s.cur.ctl.fctl.getLsbD 2 = false → (∀ fl, s.cur.ctl.fpx fl = false) →
      ∃ t, exec (.vredsum rnd o) s = .next t ∧ GroupFrame s t o.vd.val ∧ t.cur.ctl = s.cur.ctl ∧
        (∀ r i, r < s.cur.rows → w * i + w ≤ 4096 → (wr i = false ∨ els = []) → t.vGet (o.vd.val + r) w i = s.vGet (o.vd.val + r) w i))

/-- 05 R166: an inclusive scan gives element i the combination of the active elements up to i, an exclusive one that of those below i, from the
identity of its operation. -/
def Obligations.ScanWords : Prop :=
  ∀ (s : State) (o : Unary) (rnd : Fin 5), s.issues → s.fits o.ty.width [o.vd.val, o.va.val] →
    let w := o.ty.width
    let F := fmtOf o.ty
    let rm := Rm.ofCode (if rnd = 0 then fieldOf s.cur.ctl.fctl 0 2 else rnd.val - 1)
    let int (x : Nat) : Int := if o.ty.signed && x.testBit (w - 1) then (x : Int) - 2 ^ w else x
    let els := s.actives o.msk.val
    let x (t : State) (r i : Nat) : Nat := s.source t o.vd.val r (o.va.val + r) w i
    let scans (i ex : Instr) (id : Nat) (f : Nat → Nat → Nat × Flags) : Prop :=
      let run (t : State) (r i : Nat) (l : List Nat) : Nat := (l.takeWhile (· < i)).foldl (fun a i => (f a (x t r i)).1) id
      let fl (t : State) (r i : Nat) : Flags := if els.contains i then (f (run t r i els) (x t r i)).2 else 0
      Rowwise i s o.vd.val w els.contains (fun t r i => run t r (i + 1) els) fl ∧
      Rowwise ex s o.vd.val w els.contains (fun t r i => run t r i els) fl
    let ints (i ex : Instr) (id : Nat) (f : Nat → Nat → Nat) : Prop := o.ty.isInt = true → scans i ex id fun a b => (f a b, 0)
    let floats (i ex : Instr) (id : Nat) (f : Nat → Nat → Nat × Flags) : Prop := o.ty.isArithFloat = true → scans i ex id f
    ints (.vscansum rnd o) (.vscanexsum rnd o) 0 (fun a b => (a + b) % 2 ^ w) ∧
    ints (.vscanmin rnd o) (.vscanexmin rnd o) (if o.ty.signed then 2 ^ (w - 1) - 1 else 2 ^ w - 1) (fun a b => if int b < int a then b else a) ∧
    ints (.vscanmax rnd o) (.vscanexmax rnd o) (if o.ty.signed then 2 ^ (w - 1) else 0) (fun a b => if int a < int b then b else a) ∧
    ints (.vscanand o) (.vscanexand o) (2 ^ w - 1) (fun a b => a &&& b) ∧ ints (.vscanor o) (.vscanexor o) 0 (fun a b => a ||| b) ∧
    ints (.vscanxor o) (.vscanexxor o) 0 (fun a b => a ^^^ b) ∧
    floats (.vscansum rnd o) (.vscanexsum rnd o) (F.encode .rne (.fin true 0 0)).1 (fun a b => F.addBits rm a b) ∧
    floats (.vscanmin rnd o) (.vscanexmin rnd o) (F.encode .rne (.inf false)).1 (fun a b => F.minMax false a b) ∧
    floats (.vscanmax rnd o) (.vscanexmax rnd o) (F.encode .rne (.inf true)).1 (fun a b => F.minMax true a b)

/-- 05 R167, 06 R194: the permutes move elements of each row whole: they read a row of their sources before they write the row of vd, and leave
inactive elements. That VBCAST takes a scalar or immediate for every va, even past v63, is the model's reading (log entry 27). -/
def Obligations.PermuteWords : Prop :=
  ∀ (s : State) (a : Arith) (b : Binary) (u : Unary) (m : MReg) (ty : Ty) (vd : VReg), s.issues →
    let vl := s.cur.vl
    let on (msk : MReg) (i : Nat) : Bool := decide (i < vl) && (s.activeMask msk.val).getLsbD i
    let below (msk : MReg) (i : Nat) : Nat := ((s.actives msk.val).takeWhile (· < i)).length
    let fm (i : Nat) : Bool := decide (i < vl) && s.cur.block.fm.getLsbD i
    let k (x : Third) : Nat := match x with | .s v => (s.cur.slot v).toNat | .i16 imm => imm.toNat | _ => 0
    let moves (i : Instr) (vd : VReg) (ty : Ty) (wr : Nat → Bool) (res : State → Nat → Nat → Nat) : Prop :=
      Rowwise i s vd.val ty.width wr res fun _ _ _ => 0
    let A (t : State) (r i : Nat) : Nat := s.source t a.vd.val r (a.va.val + r) a.ty.width i
    let B (t : State) (v : VReg) (w r i : Nat) : Nat := s.source t b.vd.val r (v.val + r) w i
    let U (t : State) (r i : Nat) : Nat := s.source t u.vd.val r (u.va.val + r) u.ty.width i
    let wa := on a.msk
    let wb := on b.msk
    (s.fits a.ty.width [a.vd.val, a.va.val] →
      moves (.vslideup a) a.vd a.ty (fun i => wa i && decide (k a.third ≤ i)) (fun t r i => A t r (i - k a.third)) ∧
      moves (.vslidedn a) a.vd a.ty wa (fun t r i => if i + k a.third < vl then A t r (i + k a.third) else 0) ∧
      (∀ n : VReg, a.third = .v n → n.val < s.cur.lanes * 64 / a.ty.width → moves (.vbcast a) a.vd a.ty wa fun t r _ => A t r n.val)) ∧
    (s.fits a.ty.width [a.vd.val] → (∀ n, a.third ≠ .v n) → moves (.vbcast a) a.vd a.ty wa fun _ r i => s.third a.ty a.third r i) ∧
    (s.fits ty.width [vd.val] → moves (.viota m ty vd) vd ty (on m) fun _ _ i => i % 2 ^ ty.width) ∧
    (s.fits u.ty.width [u.vd.val, u.va.val] →
      moves (.vcompress u) u.vd u.ty fm (fun t r i =>
        (((s.actives u.msk.val)[(((List.range vl).filter fm).takeWhile (· < i)).length]?).map (U t r)).getD 0) ∧
      moves (.vexpand u) u.vd u.ty (on u.msk) (fun t r i => U t r (below u.msk i))) ∧
    (s.fits (max b.ty.width 16) [b.vd.val, b.va.val, b.vb.val] → moves (.vperm b) b.vd b.ty wb fun t r i =>
      let j := B t b.vb 16 r i
      if j < vl then B t b.va b.ty.width r j else 0) ∧
    (s.fits b.ty.width [b.vd.val, b.va.val, b.vb.val] → vl % 2 = 0 →
      let pick (i : Nat) : VReg := if i % 2 = 0 then b.va else b.vb
      moves (.vtrne b) b.vd b.ty wb (fun t r i => B t (pick i) b.ty.width r (i / 2 * 2)) ∧
      moves (.vtrno b) b.vd b.ty wb (fun t r i => B t (pick i) b.ty.width r (i / 2 * 2 + 1)) ∧
      moves (.vzipl b) b.vd b.ty wb (fun t r i => B t (pick i) b.ty.width r (i / 2)) ∧
      moves (.vziph b) b.vd b.ty wb (fun t r i => B t (pick i) b.ty.width r (vl / 2 + i / 2)))

/-- 01 R38, R39, 05 R158 to R160: VAMAX folds the magnitudes of the active elements that are no NaN into the current slot; VAMSTEP moves to the next slot
of the window and clears it; VQSCALE gives the largest power of two that keeps the window's maximum within the target, and 2^127 where the
target's codebook has an infinite entry. -/
def Obligations.AmaxHistory : Prop :=
  ∀ (s : State) (msk : MReg) (ty qty : Ty) (h : AmhReg) (va : VReg) (xd : XReg) (cb : CbReg), s.issues →
    let A := vget s.cur.files.amh h.val
    let W := fieldOf s.cur.ctl.fctl 8 4 + 1
    let ap := A.ap.toNat % W
    let slot (a : Amh) (i : Nat) : Nat := (vget a.slots i).toNat
    let vals := (List.range s.cur.rows).flatMap fun r => (s.actives msk.val).map fun i => s.vGet (va.val + r) ty.width i
    let nan (x : Nat) : Bool := ((fmtOf ty).decode x).isNan
    let mag (x : Nat) : Nat := ((fmtOf .f32).encode .rup ((fmtOf ty).decode x).mag).1
    let only (t : State) : Prop := (∀ k < 4, k ≠ h.val → vget t.cur.files.amh k = vget s.cur.files.amh k) ∧ t.cur.files.v = s.cur.files.v ∧
      t.cur.files.x = s.cur.files.x ∧ t.cur.files.m = s.cur.files.m ∧ t.cur.files.k = s.cur.files.k ∧ t.cur.files.z = s.cur.files.z ∧
      t.cur.files.cb = s.cur.files.cb ∧ t.cur.ctl = s.cur.ctl
    let M := (List.range W).foldl (fun m i => max m (slot A i)) 0
    (ty.isFloat = true → s.fits ty.width [va.val] → s.cur.ctl.fpx fNV = false →
      ∃ t, exec (.vamax msk ty h va) s = .next t ∧ WordFrame s t ∧ only t ∧
        (let B := vget t.cur.files.amh h.val
         B.ap = A.ap ∧ (∀ i < 16, i ≠ ap → slot B i = slot A i) ∧ slot B ap = ((vals.filter fun x => !nan x).map mag).foldl max (slot A ap)) ∧
        t.cur.fstat = s.cur.fstat ||| (if vals.any nan then fNV else 0)) ∧
    (∃ t, exec (.vamstep h) s = .next t ∧ WordFrame s t ∧ only t ∧ t.cur.fstat = s.cur.fstat ∧
      (let B := vget t.cur.files.amh h.val
       let next := (A.ap.toNat + 1) % W
       B.ap.toNat = next ∧ slot B next = 0 ∧ ∀ i < 16, i ≠ next → slot B i = slot A i)) ∧
    Controls (.vqscale qty xd h cb) s (fun t => (∀ r, r ≠ xd → t.cur.files.x[r] = s.cur.files.x[r]) ∧ t.cur.vl = s.cur.vl ∧ t.cur.rows = s.cur.rows ∧
      t.cur.reply = s.cur.reply ∧ (s.cur.fmaxOf qty cb.val = none → t.cur.files.x[xd] = 0x7FC00000) ∧ ∀ f, s.cur.fmaxOf qty cb.val = some f →
        let x := (t.cur.files.x[xd]).toNat
        (f.isZero = true → x = 0x7FC00000) ∧ (f.isZero = false → M = 0 → x = 0x3F800000) ∧ (f.isZero = false → M = 0x7F800000 → x = 0x00800000) ∧
        (f.isZero = false → f.isFin = false → 0 < M → M < 0x7F800000 → x = 0x7F000000) ∧
        (f.isZero = false → f.isFin = true → f.sign = false → 0 < M → M < 0x7F800000 →
          let m := ((fmtOf .f32).decode M).dy
          ∃ k : Int, f.dy.lt (m.scale k) = false ∧ f.dy.lt (m.scale (k + 1)) = true ∧ x = (min (max k (-126)) 127 + 127).toNat * 2 ^ 23))

/-- 05 R161, 01 R41: VBDOT adds to element 0 of each row the scaled sum of the products of each block of eight elements that has an active one, in
ascending order, each step rounded to nearest even, and with .fin scales the row by its tensor scales. The order of a row's
sources and its destination is the model's reading (log entry 32). -/
def Obligations.BlockDotProducts : Prop :=
  ∀ (s : State) (o : Dot), s.issues → s.fits o.ty.width [o.vd.val, o.va.val, o.vb.val, o.vsa.val, o.vsb.val] →
    let F := fmtOf .f32
    let vl := s.cur.vl
    let on := (s.actives o.msk.val).contains
    let src (t : State) (v : VReg) (w r i : Nat) : Nat := s.source t o.vd.val r (v.val + r) w i
    let val (cb : CbReg) (a : Nat) : FVal := if o.ty = .cb4 then cbVal (elemGet (vget s.cur.files.cb cb.val) 16 a) else (fmtOf o.ty).decode a
    let times (a b : FVal) : Nat × Flags := let p := a.mul b; let r := F.encode .rne p.1; (r.1, p.2 ||| r.2)
    let prod (t : State) (r i : Nat) : Nat × Flags := times (val o.cba (src t o.va o.ty.width r i)) (val o.cbb (src t o.vb o.ty.width r i))
    let sum (t : State) (r j : Nat) : Option Nat × Flags :=
      (treeSum F .rne 3 ((List.range 8).map fun k => (if on (8 * j + k) then some (prod t r (8 * j + k)).1 else none, 0))).headD (none, 0)
    let step (t : State) (r acc j : Nat) : Nat × Flags :=
      match (sum t r j).1 with
      | none => (acc, 0)
      | some x =>
        let a := (fmtOf .e5m2).decode (src t o.vsa 8 r j)
        let b := (fmtOf .e5m2).decode (src t o.vsb 8 r j)
        if a.isNan || b.isNan then (F.nan, (sum t r j).2 ||| fSCN)
        else
          let sc := times a b
          let m := F.mulBits .rne x sc.1
          let z := F.addBits .rne acc m.1
          (z.1, (sum t r j).2 ||| sc.2 ||| m.2 ||| z.2)
    let run (t : State) (r n : Nat) : Nat := (List.range n).foldl (fun a j => (step t r a j).1) (s.vGet (o.vd.val + r) 32 0)
    let tens := times ((fmtOf .bf16).decode ((s.cur.files.x[o.xta]).toNat % 2 ^ 16)) ((fmtOf .bf16).decode ((s.cur.files.x[o.xtb]).toNat % 2 ^ 16))
    let last (t : State) (r : Nat) : Nat × Flags := let x := F.mulBits .rne (run t r ((vl + 7) / 8)) tens.1; (x.1, tens.2 ||| x.2)
    Rowwise (.vbdot o) s o.vd.val 32 (fun i => i == 0 && s.cur.block.fm.getLsbD 0)
      (fun t r _ => if o.fin && decide (0 < vl) then (last t r).1 else run t r ((vl + 7) / 8))
      fun t r i => (if on i then (prod t r i).2 else 0) ||| (if i % 8 = 0 then (step t r (run t r (i / 8)) (i / 8)).2 else 0) |||
        (if o.fin ∧ i = 0 then (last t r).2 else 0)

/-! ## Stream memory words (05 R157, 06 R168 to R181, 12 R273, 16 R326, R327) -/

/-- 06 R169, R171, R173 to R176, 12 R268, R273, 04 R121, R122: a load word, in unit, stride, index or lane view, delivers to every active element the bytes at
its address, a cb4 element its nibble; .w leaves its full setts, .c and .t empty them, and .t tells by a bit of m[r] for each element whether it did: on an empty
sett it delivers nothing. On an empty sett .w and .c of one element leave a waiter at the home. Its pages are in the core's TLB; with more elements than one the
core's L1 is empty.

05 R157: CBLD loads 32 bytes into its codebook; an address that is not a multiple of 32 raises ALIGN. -/
def Obligations.VectorReads : Prop :=
  (∀ (s : State) (m : MemOps) (sc : Scope) (base : Slot) (x : Option XReg) (vb : VReg) (va : Nat → Nat → Word) (ls : Nat → Nat → Loc), s.issues → s.calm →
     s.unheld → s.oneSet m.msk.val →
     let msk := m.msk.val
     let w := m.ty.width
     let n := max 1 (w / 8)
     let v := m.v.val
     let all (fe : Bool) : Prop := s.standAll msk ⟨false, fe⟩ va n ls
     let part (r i y : Nat) : Nat := if w = 4 ∧ s.pos r i % 2 = 1 then y / 16 else y
     let vecs (t : State) : Prop := (∀ u, u < 64 → (u < v ∨ v + s.cur.rows ≤ u) → vget t.cur.files.v u = vget s.cur.files.v u) ∧
       ∀ r i, r < s.cur.rows → w * i + w ≤ 4096 → ¬ s.on msk r i → t.vGet (v + r) w i = s.vGet (v + r) w i
     let memory (t : State) (full : Bool) : Prop := (∀ a, Memory.get t.mem a = Memory.get s.mem a) ∧
       (∀ a, (∀ r i, s.on msk r i → settOf a ≠ settOf (ls r i).key) → t.full a = s.full a) ∧ ∀ r i, s.on msk r i → t.full (ls r i).key = full
     let gives (t : State) (full : Bool) : Prop := StreamFrame s t ∧ memory t full ∧ vecs t ∧ t.cur.files.m = s.cur.files.m ∧ t.cur.fstat = s.cur.fstat ∧
       ∀ r i, s.on msk r i → t.vGet (v + r) w i = part r i (s.valueAt (ls r i).key n) % 2 ^ w
     let full : Prop := ∀ r i, s.on msk r i → s.full (ls r i).key = true
     let plain (i : Instr) : Prop := all false → (s.core s.cur.coreNo).l1 = [] ∨ s.single msk →
       Elementwise i s msk v w fun _ r i => (part r i (s.loads (ls r i) n), 0)
     let waits (i : Instr) : Prop := s.single msk → s.full (ls 0 0).key = false → ∃ t y, exec i s = .next t ∧ t.waiters = s.waiters ++ [y] ∧
       y.key = settOf (ls 0 0).key ∧ y.cond = .full ∧ t.cur.sstall = 2 ∧ t.cur.cur.isSome = true ∧ t.cur.files = s.cur.files ∧ t.mem = s.mem ∧
       t.empties = s.empties
     let keeps (i : Instr) : Prop := all true → (full → ∃ t, exec i s = .next t ∧ gives t true) ∧ waits i
     let takes (i : Instr) : Prop := all true → (full → s.groupSetts msk w ls → s.oneKey msk ls → ∃ t, exec i s = .next t ∧ gives t false) ∧ waits i
     let tries (i : Instr) : Prop := all true → s.groupSetts msk w ls → s.oneKey msk ls → s.cur.rows ≤ 8 →
       ∃ t, exec i s = .next t ∧ StreamFrame s t ∧ memory t false ∧ vecs t ∧ t.cur.fstat = s.cur.fstat ∧
         (∀ r i, s.on msk r i → (s.full (ls r i).key = true → t.vGet (v + r) w i = part r i (s.valueAt (ls r i).key n) % 2 ^ w) ∧
           (s.full (ls r i).key = false → t.vGet (v + r) w i = s.vGet (v + r) w i) ∧ (vget t.cur.files.m r).getLsbD i = s.full (ls r i).key) ∧
         ∀ u j, u < 8 → ¬ s.on msk u j → (vget t.cur.files.m u).getLsbD j = (vget s.cur.files.m u).getLsbD j
     (s.unitPlaces msk w base x va → s.fits w [v] → plain (.vld m base x) ∧ keeps (.vldW sc m base x) ∧ takes (.vldC sc m base x) ∧ tries (.vldT sc m base x)) ∧
     (s.indexPlaces msk base vb.val va → s.fits (max w 64) [v, vb.val] → s.single msk ∨ s.disjoint v vb.val →
       plain (.vldx m base vb) ∧ keeps (.vldxW sc m base vb) ∧ takes (.vldxC sc m base vb) ∧ tries (.vldxT sc m base vb)) ∧
     (s.lanePlaces msk w vb.val va → s.fits (max w 16) [v, vb.val] → s.single msk ∨ s.disjoint v vb.val →
       plain (.vldl m vb) ∧ keeps (.vldlW sc m vb) ∧ takes (.vldlC sc m vb) ∧ tries (.vldlT sc m vb))) ∧
  (∀ (s : State) (cb : CbReg) (base : Slot) (l : Loc), s.issues → s.calm → s.unheld →
     let a := s.cur.slot base
     (s.stands ⟨false, false⟩ a 32 l → ∃ t, exec (.cbld cb base) s = .next t ∧ WordFrame s t ∧ t.cur.fstat = s.cur.fstat ∧ t.cur.ctl = s.cur.ctl ∧
       vget t.cur.files.cb cb.val = BitVec.ofNat 256 (s.loads l 32) ∧ (∀ u < 4, u ≠ cb.val → vget t.cur.files.cb u = vget s.cur.files.cb u) ∧
       t.cur.files.v = s.cur.files.v ∧ t.cur.files.x = s.cur.files.x ∧ t.cur.files.m = s.cur.files.m ∧ t.cur.files.k = s.cur.files.k) ∧
     (a.toNat % 32 ≠ 0 → StopsWith (.cbld cb base) s 0x03 a))

/-- 06 R169, R171, R173 to R176, R181, 12 R273: a store word writes the bits of every active element at its address, here in places that do not overlap, and no
other nibble; .f, on empty setts, and .s leave the setts full, and a plain store leaves their bits. On a full sett .f of one element leaves a waiter at the home.
VSTN adds the number of its active elements to its progress word. -/
def Obligations.VectorStores : Prop :=
  ∀ (s : State) (m : MemOps) (sc : Scope) (base : Slot) (x : Option XReg) (vb : VReg) (px : XReg) (va : Nat → Nat → Word) (ls : Nat → Nat → Loc) (p : Loc),
    s.issues → s.calm → s.unheld → s.oneSet m.msk.val → Memory.wf s.mem = true →
    let msk := m.msk.val
    let w := m.ty.width
    let n := max 1 (w / 8)
    let v := m.v.val
    let e (r i : Nat) : Nat := s.vGet (v + r) w i
    let all (fe : Bool) : Prop := s.standAll msk ⟨true, fe⟩ va n ls ∧ s.apart msk w ls ∧ (fe = true → s.oneKey msk ls)
    let stores (i : Instr) (fe : Bool) (full : Option Bool) : Prop := all fe →
      ∃ t, exec i s = .next t ∧ StreamFrame s t ∧ t.cur.files = s.cur.files ∧ t.cur.fstat = s.cur.fstat ∧ s.wroteAll t msk w ls e full
    let empty : Prop := (∀ r i, s.on msk r i → s.full (ls r i).key = false) ∧ s.groupSetts msk w ls
    let fills (i : Instr) : Prop := (empty → stores i true (some true)) ∧
      (all true → s.single msk → s.full (ls 0 0).key = true → ∃ t y, exec i s = .next t ∧ t.waiters = s.waiters ++ [y] ∧ y.key = settOf (ls 0 0).key ∧
        y.cond = .empty ∧ t.cur.cur.isSome = true ∧ t.cur.files = s.cur.files ∧ t.mem = s.mem ∧ t.empties = s.empties)
    let counts (i : Instr) (fe : Bool) (full : Option Bool) : Prop := all fe → s.stands ⟨true, false⟩ (s.cur.files.x[px]) 8 p →
      inWindow (s.cur.files.x[px]).toNat = false → (∀ r i, s.on msk r i → settOf p.key ≠ settOf (ls r i).key) →
      (s.single msk ∨ ∀ r i, s.on msk r i → lineOf p.key = lineOf (ls r i).key → p.enc = (ls r i).enc) →
      ∃ t, exec i s = .next t ∧ StreamFrame s t ∧ t.cur.files = s.cur.files ∧ t.cur.fstat = s.cur.fstat ∧
        s.wroteAll t msk w ls e full (fun q => p.key ≤ q / 2 ∧ q / 2 < p.key + 8) ∧
        t.valueAt p.key 8 = (s.valueAt p.key 8 + s.cur.rows * (s.actives msk).length) % 2 ^ 64
    (s.unitPlaces msk w base x va → s.fits w [v] →
      stores (.vst m base x) false none ∧ fills (.vstF sc m base x) ∧ stores (.vstS sc m base x) true (some true)) ∧
    (s.unitPlaces msk w base none va → s.fits w [v] →
      counts (.vstn m base px) false none ∧ (empty → counts (.vstnF sc m base px) true (some true)) ∧ counts (.vstnS sc m base px) true (some true)) ∧
    (s.indexPlaces msk base vb.val va → s.fits (max w 64) [v, vb.val] →
      stores (.vstx m base vb) false none ∧ fills (.vstxF sc m base vb) ∧ stores (.vstxS sc m base vb) true (some true)) ∧
    (s.lanePlaces msk w vb.val va → s.fits (max w 16) [v, vb.val] →
      stores (.vstl m vb) false none ∧ fills (.vstlF sc m vb) ∧ stores (.vstlS sc m vb) true (some true))

/-- 16 R325 to R327: VAMO gives every active element the old value at its address, to vd, and writes the new one there; VBUPD writes the new value alone. Integer
functions follow R325 by name, and FADD rounds to nearest even and raises its flags. The places do not overlap. That a CAS compares with the old element of vd is
the model's reading (log entry 32). -/
def Obligations.VectorAtomics : Prop :=
  ∀ (s : State) (o : Binary) (ord : Order) (sc : Scope) (base : Slot) (va : Nat → Nat → Word) (ls : Nat → Nat → Loc), s.issues → s.calm → s.unheld →
    s.oneSet o.msk.val → Memory.wf s.mem = true → s.chains = [] → o.ty ≠ .cb4 →
    let msk := o.msk.val
    let w := o.ty.width
    let n := w / 8
    let vd := o.vd.val
    let b (r i : Nat) : Nat := s.vGet (o.va.val + r) w i
    let old (r i : Nat) : Nat := s.valueAt (ls r i).key n
    let all : Prop := s.standAll msk ⟨true, false⟩ va n ls ∧ s.apart msk w ls ∧ s.oneKey msk ls
    let fetches (i : Instr) (new : Nat → Nat → Nat × Flags) : Prop := s.indexPlaces msk base o.vb.val va → s.fits (max w 64) [vd, o.va.val, o.vb.val] →
      s.single msk ∨ (s.disjoint vd o.vb.val ∧ (vd = o.va.val ∨ s.disjoint vd o.va.val)) → all →
      ∃ t, exec i s = .next t ∧ StreamFrame s t ∧ s.wroteAll t msk w ls (fun r i => (new r i).1) none ∧ addsFlags s t msk (fun r i => (new r i).2) ∧
        (∀ r i, s.on msk r i → t.vGet (vd + r) w i = old r i) ∧
        (∀ u, u < 64 → (u < vd ∨ vd + s.cur.rows ≤ u) → vget t.cur.files.v u = vget s.cur.files.v u) ∧
        (∀ r i, r < s.cur.rows → w * i + w ≤ 4096 → ¬ s.on msk r i → t.vGet (vd + r) w i = s.vGet (vd + r) w i) ∧
        t.cur.files.x = s.cur.files.x ∧ t.cur.files.m = s.cur.files.m
    let updates (i : Instr) (new : Nat → Nat → Nat) : Prop := s.unitPlaces msk w base none va → s.fits w [o.va.val] → all →
      ∃ t, exec i s = .next t ∧ StreamFrame s t ∧ s.wroteAll t msk w ls new none ∧ t.cur.files = s.cur.files ∧ t.cur.fstat = s.cur.fstat
    let both (i j : Instr) (f : Nat → Nat → Nat) : Prop := fetches i (fun r k => (f (old r k) (b r k), 0)) ∧ updates j fun r k => f (old r k) (b r k)
    let less (x y : Nat) : Bool := decide (signedOf w x < signedOf w y)
    both (.vamoadd ord sc base o) (.vbupdadd o.msk o.ty o.va base) (fun x y => (x + y) % 2 ^ w) ∧
    both (.vamomin ord sc base o) (.vbupdmin o.msk o.ty o.va base) (fun x y => if less x y then x else y) ∧
    both (.vamomax ord sc base o) (.vbupdmax o.msk o.ty o.va base) (fun x y => if less x y then y else x) ∧
    both (.vamominn ord sc base o) (.vbupdminn o.msk o.ty o.va base) min ∧ both (.vamomaxn ord sc base o) (.vbupdmaxn o.msk o.ty o.va base) max ∧
    both (.vamoand ord sc base o) (.vbupdand o.msk o.ty o.va base) (fun x y => x &&& y) ∧
    both (.vamoor ord sc base o) (.vbupdor o.msk o.ty o.va base) (fun x y => x ||| y) ∧
    both (.vamoxor ord sc base o) (.vbupdxor o.msk o.ty o.va base) (fun x y => x ^^^ y) ∧
    fetches (.vamoswap ord sc base o) (fun r i => (b r i, 0)) ∧
    fetches (.vamocas ord sc base o) (fun r i => (if old r i = s.vGet (vd + r) w i then b r i else old r i, 0)) ∧
    fetches (.vamofaddF32 ord sc base o) (fun r i => (fmtOf .f32).addBits .rne (old r i) (b r i)) ∧
    fetches (.vamofaddBf16 ord sc base o) (fun r i => (fmtOf .bf16).addBits .rne (old r i) (b r i))

/-! ## The cluster (14 R307, R311 to R317) -/

/-- 14 R311 to R314: VSEND fills for each active element, in ascending order, the slot at its receiver's tail and moves that tail on; a receiver outside the
group raises PROT. An arrival that waits at its port is applied in the same way; VMRECV consumes for each active element the next slot from the head of the
strand's own mailbox, and moves the head past them. -/
def Obligations.Mailboxes : Prop :=
  ∀ (s : State) (msk : MReg) (ty : Ty) (va vb vd : VReg) (cluster core half : Nat) (a : Arrival) (ls : Nat → Nat → Loc), s.calm →
    let fits (c h : Nat) (n : Nat) (data : Nat) (t : State) : Prop :=
      let k := padKey (mailSlot (c % 48) h ((s.core c).tail h).toNat) (c / 48)
      wroteOnly s t k n data (some true) ∧ (t.core c).tail h = (s.core c).tail h + 1
    let slot (c h : Nat) : Loc := clusterLoc (c / 48) (mailSlot (c % 48) h ((s.core c).tail h).toNat)
    Memory.wf s.mem = true →
    (s.issues → s.unheld →
      let M := msk.val
      let x (r i : Nat) : Nat := s.vGet (vb.val + r) 64 i
      let p (r i : Nat) : Nat × Nat := s.cur.memberPlace (x r i)
      let c (r i : Nat) : Nat := s.cur.cluster * 48 + (p r i).1
      -- elements that go to one mailbox before an element, and in all
      let sent (q : Nat × Nat) (n : Nat) : Nat := ((List.range n).filter fun k => (s.activeMask M).getLsbD (k % s.cur.vl) && p (k / s.cur.vl) (k % s.cur.vl) == q).length
      let slotOf (r i : Nat) : Loc :=
        clusterLoc s.cur.cluster (mailSlot (p r i).1 (p r i).2 (((s.core (c r i)).tail (p r i).2).toNat + sent (p r i) (s.pos r i)))
      s.fits 64 [va.val, vb.val] → ty.width = 64 →
      (∀ r i, s.on M r i → s.cur.ident.gsize.toNat ≤ x r i → (∀ q j, s.on M q j → x q j ≥ s.cur.ident.gsize.toNat → s.pos r i ≤ s.pos q j) →
        StopsWith (.vsend msk ty va vb) s 0x05 (BitVec.ofNat 64 (x r i))) ∧
      ((∀ r i, s.on M r i → x r i < s.cur.ident.gsize.toNat ∧ (p r i).1 < 48 ∧ (s.core (c r i)).arrivals = [] ∧ s.full (slotOf r i).key = false ∧
          s.lineRead (slotOf r i) = .good) → (∀ q, sent q (s.cur.rows * s.cur.vl) ≤ 256) →
        ∃ t, exec (.vsend msk ty va vb) s = .next t ∧ StreamFrame s t ∧ t.cur.files = s.cur.files ∧ t.cur.fstat = s.cur.fstat ∧
          s.wroteAll t M 64 slotOf (fun r i => s.vGet (va.val + r) 64 i) (some true) ∧
          ∀ k h, k < 48 → h < 2 → (t.core (s.cur.cluster * 48 + k)).tail h =
            (s.core (s.cur.cluster * 48 + k)).tail h + BitVec.ofNat 8 (sent (k, h) (s.cur.rows * s.cur.vl)))) ∧
    (s.issues → s.unheld → s.oneSet msk.val →
      let M := msk.val
      let w := ty.width
      let own (r i : Nat) : Word := BitVec.ofNat 64 (mailSlot (fieldOf s.cur.ident.core 0 6) (fieldOf s.cur.ident.core 6 1)
        (s.cur.ident.mbxhead.toNat + r * (s.actives M).length + ((s.actives M).filter fun j => j < i).length))
      s.fits w [vd.val] → s.cur.rows * (s.actives M).length ≤ 256 → s.standAll M ⟨false, true⟩ own (max 1 (w / 8)) ls →
      (∀ r i, s.on M r i → s.full (ls r i).key = true) →
        ∃ t, exec (.vmrecv msk ty vd) s = .next t ∧ StreamFrame s t ∧ t.cur.fstat = s.cur.fstat ∧ t.cur.files.x = s.cur.files.x ∧ t.cur.files.m = s.cur.files.m ∧
          (∀ r i, s.on M r i → t.vGet (vd.val + r) w i = s.valueAt (ls r i).key (max 1 (w / 8)) % 2 ^ w ∧ t.full (ls r i).key = false) ∧
          (∀ a, Memory.get t.mem a = Memory.get s.mem a) ∧ (∀ a, (∀ r i, s.on M r i → settOf a ≠ settOf (ls r i).key) → t.full a = s.full a) ∧
          t.cur.ident.mbxhead = s.cur.ident.mbxhead + BitVec.ofNat 8 (s.cur.rows * (s.actives M).length) ∧
          (∀ u, u < 64 → (u < vd.val ∨ vd.val + s.cur.rows ≤ u) → vget t.cur.files.v u = vget s.cur.files.v u) ∧
          ∀ r i, r < s.cur.rows → w * i + w ≤ 4096 → ¬ s.on M r i → t.vGet (vd.val + r) w i = s.vGet (vd.val + r) w i) ∧
    (core < 48 → half < 2 →
      let c := cluster * 48 + core
      ((∀ b ∈ (s.core c).arrivals, b.half ≠ half) → exec (.mailboxArrival cluster core half) s = .next s) ∧
      ((s.core c).arrivals.find? (fun b => b.half == half) = some a → a.sid = s.cur.id → s.cur.cur.isSome = true → s.cur.pod0.waiter = none →
        s.cur.pod0.exhausted = false → s.full (slot c half).key = false → s.lineRead (slot c half) = .good →
        ∃ t, exec (.mailboxArrival cluster core half) s = .next t ∧ fits c half 8 a.data.toNat t ∧
          (∀ b ∈ (t.core c).arrivals, ¬ (b.half = half ∧ b.sid = a.sid)) ∧ t.cur.files = s.cur.files ∧ t.cur.gen = s.cur.gen))

/-- 14 R315: VLOCK of one element tries to empty its lock: it sets its mask bit and joins the list of held locks when the sett was full, and clears the
bit when it was not or 64 locks are held. VUNLOCK fills the sett and drops the lock from the list.

14 R316, R317, R307: FARRIVE counts at its barrier and notes the phase; the last arrival fills the release sett of its phase, empties the other, and
begins the next phase. BWAIT passes a full release sett and waits at an empty one. BSET sets the count and begins phase 0. A number that the group does
not hold raises PROT. -/
def Obligations.LocksAndBarriers : Prop :=
  (∀ (s : State) (msk md : MReg) (ty : Ty) (va : VReg) (l : Loc), s.issues → s.calm → s.unheld → s.single msk.val →
     let a : Word := BitVec.ofNat 64 (s.vGet va.val 64 0)
     s.stands ⟨false, true⟩ a 8 l →
     let after (i : Instr) (full : Bool) (locks : List Word) (bit : Option Bool) : Prop :=
       ∃ t, exec i s = .next t ∧ StreamFrame s t ∧ (∀ k, Memory.get t.mem k = Memory.get s.mem k) ∧ t.full l.key = full ∧
         (∀ k, settOf k ≠ settOf l.key → t.full k = s.full k) ∧ t.cur.ident = { s.cur.ident with locks := locks } ∧ t.cur.files.v = s.cur.files.v ∧
         t.cur.files.x = s.cur.files.x ∧ (∀ m < 8, (m ≠ md.val ∨ bit = none) → vget t.cur.files.m m = vget s.cur.files.m m) ∧
         ∀ b, bit = some b → (vget t.cur.files.m md.val).getLsbD 0 = b ∧
           ∀ i, i ≠ 0 → (vget t.cur.files.m md.val).getLsbD i = (vget s.cur.files.m md.val).getLsbD i
     let locks := s.cur.ident.locks
     (locks.length < 64 → s.full l.key = true → after (.vlock msk ty md va) false (locks ++ [a]) (some true)) ∧
     (s.full l.key = false ∨ 64 ≤ locks.length → after (.vlock msk ty md va) (s.full l.key) locks (some false)) ∧
     after (.vunlock msk ty va) true (locks.erase a) none) ∧
  (∀ (s : State) (sc : Scope) (b : Fin 16) (n : BitVec 16) (p : Nat), s.issues → s.calm → s.unheld →
     let c := s.cur.cluster
     let bar := vget (s.cluster c).barriers p
     let key (q : Nat) : Nat := barrierKey c p q
     let ph : Nat := if bar.ph then 1 else 0
     let only (t : State) : Prop := StreamFrame s t ∧ (∀ a, Memory.get t.mem a = Memory.get s.mem a) ∧ t.cur.files = s.cur.files ∧
       (∀ a, settOf a ≠ settOf (key 0) → settOf a ≠ settOf (key 1) → t.full a = s.full a) ∧ t.cur.fstat = s.cur.fstat
     let my := s.releaseSett b.val p (fieldOf s.cur.ident.barph b.val 1)
     (s.physBarrier b.val = none → StopsWith (.farrive sc b) s 0x05 (BitVec.ofNat 64 b.val) ∧ StopsWith (.bwait b) s 0x05 (BitVec.ofNat 64 b.val) ∧
       StopsWith (.bset b n) s 0x05 (BitVec.ofNat 64 b.val)) ∧
     (s.physBarrier b.val = some p →
       (∃ t, exec (.farrive sc b) s = .next t ∧ only t ∧ fieldOf t.cur.ident.barph b.val 1 = ph ∧
         (if bar.arr + 1 = bar.cnt then
           vget (t.cluster c).barriers p = { bar with arr := 0, ph := !bar.ph } ∧ t.full (key ph) = true ∧ t.full (key (1 - ph)) = false
          else vget (t.cluster c).barriers p = { bar with arr := bar.arr + 1 } ∧ t.full (key 0) = s.full (key 0) ∧ t.full (key 1) = s.full (key 1))) ∧
       (s.lineRead my = .good → s.full my.key = true → ∃ t, exec (.bwait b) s = .next t ∧ WordFrame s t ∧ t.cur.files = s.cur.files) ∧
       (s.lineRead my = .good → s.full my.key = false →
         ∃ t y, exec (.bwait b) s = .next t ∧ t.waiters = s.waiters ++ [y] ∧ y.key = settOf my.key ∧ y.cond = .full ∧ t.cur.sstall = 8 ∧
           t.cur.cur.isSome = true ∧ t.mem = s.mem ∧ t.empties = s.empties) ∧
       (∃ t, exec (.bset b n) s = .next t ∧ only t ∧ vget (t.cluster c).barriers p = ⟨n.toNat, 0, false⟩ ∧ t.full (key 0) = false ∧
         t.full (key 1) = true)))

/-! ## Anchored words (07 R198 to R217) -/

/-- 07 R201 to R205: AADD, ASUB and ASCL round each block's new anchor once to nearest even, carry its residual into the deviations, requantise each
active cell at the new step, and write the entries of the blocks that hold an active cell. That a power of two acts alike beyond 2^17 either way is the model's reading (log
entry 35). -/
def Obligations.AnchoredSums : Prop :=
  ∀ (s : State) (ka kb kd : KReg) (o : Binary) (a : Arith), s.issues → s.blocksFit → o.ty.isDev = true → a.ty.isDev = true →
    let F := fmtOf .f64
    let vl := s.cur.vl
    let val (e : Anchor) : FVal := F.decode e.a.toNat
    let dev (t : State) (ty : Ty) (vd v : VReg) (r i : Nat) : Int := signedOf ty.width (s.source t vd.val r (v.val + r) ty.width i)
    let entry (c : FVal × Flags) (e : Int) : Anchor := ⟨BitVec.ofNat 64 (F.encode .rne c.1).1, BitVec.ofInt 16 (max (-32768) (min 32767 e))⟩
    let fin (c : FVal) : Bool := c.isFin && (F.decode (F.encode .rne c).1).isFin
    let ρ (c : FVal) : Dy := c.dy.add (F.decode (F.encode .rne c).1).dy.neg
    let cell (msk n : Nat) (ty : Ty) (c : FVal × Flags) (x : Dy) (e : Int) : Nat × Flags :=
      let y := if fin c.1 then s.requant ty (x.add (ρ c.1)) e else (0, 0)
      (y.1, if s.lowest msk n then y.2 ||| (c.2 &&& fNV) ||| ((F.encode .rne c.1).2 &&& fOF) else y.2)
    let sum (neg : Bool) (q : Nat) : FVal × Flags :=
      let b := val (s.cur.kGet kb.val q)
      (val (s.cur.kGet ka.val q)).add .rne (if neg then b.negate else b)
    let step (q : Nat) : Int := max (s.cur.kGet ka.val q).e.toInt (s.cur.kGet kb.val q).e.toInt
    let sums (i : Instr) (neg : Bool) : Prop := s.fits o.ty.width [o.vd.val, o.va.val, o.vb.val] →
      Anchored i s o.msk.val o.vd.val o.ty.width (some kd.val) (fun t r i =>
        let q := (r * vl + i) / s.ablk
        let db := dev t o.ty o.vd o.vb r i
        cell o.msk.val (r * vl + i) o.ty (sum neg q)
          (Dy.add ⟨dev t o.ty o.vd o.va r i, (s.cur.kGet ka.val q).e.toInt⟩ ⟨if neg then -db else db, (s.cur.kGet kb.val q).e.toInt⟩) (step q))
        fun q => entry (sum neg q) (step q)
    let scales (i : Instr) (c : FVal) (t : Int) : Prop := s.fits a.ty.width [a.vd.val, a.va.val] →
      let e (q : Nat) : Int := (s.cur.kGet kd.val q).e.toInt
      let p (q : Nat) : FVal × Flags := (val (s.cur.kGet kd.val q)).mul c
      Anchored i s a.msk.val a.vd.val a.ty.width (some kd.val) (fun u r i =>
        let q := (r * vl + i) / s.ablk
        let y := cell a.msk.val (r * vl + i) a.ty (p q) ((Dy.mk (dev u a.ty a.vd a.va r i) (e q)).mul c.dy) (e q + t)
        if c.isZero then (0, if s.lowest a.msk.val (r * vl + i) then ((p q).2 &&& fNV) ||| ((F.encode .rne (p q).1).2 &&& fOF) else 0) else y)
        fun q => entry (p q) (e q + t)
    let operand : Word := match a.third with | .s x => s.cur.slot x | .i16 imm => imm.signExtend 64 | .i32 imm => imm.signExtend 64 | .i64 imm => imm | .v _ => 0
    let t := max (-131072) (min 131072 operand.toInt)
    let c := F.decode operand.toNat
    sums (.aadd ka kb kd o) false ∧ sums (.asub ka kb kd o) true ∧ scales (.asclPow2 kd a) (.fin false 1 t) t ∧
    scales (.asclScl kd a) c (match c with | .fin _ m e => if m = 0 then 0 else e + m.log2 + 1 | _ => 0)

/-- 07 R206 to R211: AMUL multiplies block by block at the least step that holds its results; AXPAND gives the four terms of a product; ADIF takes
differences of cells h apart, with the anchors of two blocks where they meet; REANC recentres every block that holds an active cell by its policy (its
headroom on i8 is the model's reading, log entry 26); ACVT converts from and to plain types. That AXPAND counts a cell's flags once in EIDX, and
that REANC leaves a cell whose fragment mask bit is 0, is the model's (log entry 18), as are the fourth term of AXPAND taken as +0 where it is zero and a
power of two beyond the range of a step (log entry 35). -/
def Obligations.AnchoredProducts : Prop :=
  ∀ (s : State) (ka kb kd : KReg) (o : Binary) (u : Unary) (h : Fin 32) (plain : Ty), s.issues → s.blocksFit → o.ty.isDev = true → u.ty.isDev = true →
    let F := fmtOf .f64
    let vl := s.cur.vl
    let rm := s.cur.ctl.rm
    let ent (k : KReg) (q : Nat) : Anchor := s.cur.kGet k.val q
    let val (e : Anchor) : FVal := F.decode e.a.toNat
    let st (e : Anchor) : Int := e.e.toInt
    let N := s.cur.rows * vl
    let dev (ty : Ty) (v : VReg) (n : Nat) : Int := signedOf ty.width (s.vGet (v.val + n / vl) ty.width (n % vl))
    let entry (c : FVal) (e : Int) : Anchor := ⟨BitVec.ofNat 64 (F.encode .rne c).1, BitVec.ofInt 16 (max (-32768) (min 32767 e))⟩
    let fin (c : FVal) : Bool := c.isFin && (F.decode (F.encode .rne c).1).isFin
    let ρ (c : FVal) : Dy := c.dy.add (F.decode (F.encode .rne c).1).dy.neg
    let within (lo hi : Int) (x : Dy) (e : Int) : Prop := lo ≤ (x.toInt rm e).1 ∧ (x.toInt rm e).1 ≤ hi
    let top (ty : Ty) : Int := 2 ^ (ty.width - 1)
    let raise (msk n : Nat) (c : FVal × Flags) (y : Nat × Flags) : Nat × Flags :=
      (y.1, if s.lowest msk n then y.2 ||| (c.2 &&& fNV) ||| ((F.encode .rne c.1).2 &&& fOF) else y.2)
    -- AMUL
    (s.fits o.ty.width [o.vd.val, o.va.val, o.vb.val] →
      let p (q : Nat) : FVal × Flags := (val (ent ka q)).mul (val (ent kb q))
      let base (q : Nat) : Int := max (st (ent ka q) + st (ent kb q)) (-32768)
      let x (n : Nat) : Dy :=
        let a := ent ka (n / s.ablk)
        let b := ent kb (n / s.ablk)
        let da := dev o.ty o.va n
        let db := dev o.ty o.vb n
        (((val a).dy.mul ⟨db, st b⟩).add ((val b).dy.mul ⟨da, st a⟩)).add ((Dy.mk (da * db) (st a + st b)).add (ρ (p (n / s.ablk)).1))
      let cell (n q : Nat) : Prop := n < N ∧ n / s.ablk = q ∧ s.cellOn o.msk.val n = true
      ∃ e : Nat → Int,
        (∀ q, s.blockOn o.msk.val q → base q ≤ e q ∧ (fin (p q).1 = false → e q = base q) ∧
          (fin (p q).1 = true → (∀ n, cell n q → within (-(top o.ty)) (top o.ty - 1) (x n) (e q)) ∧
            (e q = base q ∨ ∃ n, cell n q ∧ ¬ within (-(top o.ty)) (top o.ty - 1) (x n) (e q - 1)))) ∧
        Anchored (.amul ka kb kd o) s o.msk.val o.vd.val o.ty.width (some kd.val) (fun _ r i =>
          let n := r * vl + i
          raise o.msk.val n (p (n / s.ablk)) (if fin (p (n / s.ablk)).1 then s.requant o.ty (x n) (e (n / s.ablk)) else (0, 0)))
          fun q => entry (p q).1 (e q)) ∧
    -- AXPAND
    (s.fits 64 [o.va.val, o.vb.val] → o.vd.val + 4 * s.cur.rows ≤ 64 →
      let term (v : FVal × Flags) : Nat × Flags := let c := F.encode rm v.1; (c.1, v.2 ||| c.2)
      let terms (n : Nat) : List (Nat × Flags) :=
        let a := ent ka (n / s.ablk)
        let b := ent kb (n / s.ablk)
        let da := dev o.ty o.va n
        let db := dev o.ty o.vb n
        [term ((val a).mul (val b)), term ((val a).mul (FVal.ofDy ⟨db, st b⟩ false)), term ((val b).mul (FVal.ofDy ⟨da, st a⟩ false)),
          term (FVal.ofDy ⟨da * db, st a + st b⟩ false, 0)]
      let fl (n : Nat) : Flags := (terms n).foldl (fun f y => f ||| y.2) 0
      (∀ n, s.cur.ctl.fpx (fl n) = false) →
        ∃ t, exec (.axpand ka kb o) s = .next t ∧ WordFrame s t ∧ t.cur.ctl = s.cur.ctl ∧ t.cur.files.k = s.cur.files.k ∧
          (∀ k r i, k < 4 → s.on o.msk.val r i → t.vGet (o.vd.val + k * s.cur.rows + r) 64 i = ((terms (r * vl + i)).getD k (0, 0)).1) ∧
          (∀ k r i, k < 4 → r < s.cur.rows → i < 64 → ¬ s.on o.msk.val r i →
            t.vGet (o.vd.val + k * s.cur.rows + r) 64 i = s.vGet (o.vd.val + k * s.cur.rows + r) 64 i) ∧
          (∀ v, v < 64 → (v < o.vd.val ∨ o.vd.val + 4 * s.cur.rows ≤ v) → vget t.cur.files.v v = vget s.cur.files.v v) ∧
          addsFlags s t o.msk.val fun r i => fl (r * vl + i)) ∧
    -- ADIF
    (s.fits u.ty.width [u.vd.val, u.va.val] → u.vd.val + s.cur.rows ≤ u.va.val ∨ u.va.val + s.cur.rows ≤ u.vd.val →
      Anchored (.adif kd h u) s u.msk.val u.vd.val u.ty.width none (fun _ r i =>
        let n := r * vl + i
        if n < h.val ∨ N ≤ n + h.val then (s.vGet (u.vd.val + r) u.ty.width i, 0)
        else
          let bu := (n + h.val) / s.ablk
          let bl := (n - h.val) / s.ablk
          let eu := ent kd bu
          let el := ent kd bl
          let du := dev u.ty u.va (n + h.val)
          let dl := dev u.ty u.va (n - h.val)
          if bu = bl then s.requant u.ty ⟨du - dl, st eu⟩ (st (ent kd (n / s.ablk)))
          else if (val eu).isFin && (val el).isFin then
            s.requant u.ty (((Dy.mk du (st eu)).add ⟨-dl, st el⟩).add ((val eu).dy.add (val el).dy.neg)) (st (ent kd (n / s.ablk)))
          else (0, fNV))
        fun _ => ⟨0, 0⟩) ∧
    -- REANC
    (s.fits u.ty.width [u.vd.val, u.va.val] →
      let H : Int := if u.ty.width = 8 then 32 else 2 ^ (u.ty.width - 2)
      let inBlock (q n : Nat) : Prop := n < N ∧ n / s.ablk = q
      let on (q : Nat) : Prop := s.blockOn u.msk.val q ∧ (val (ent kd q)).isFin = true
      ∃ m : Nat → Int, (∀ q, on q → ∃ lo hi : Int, (∃ n, inBlock q n ∧ dev u.ty u.va n = lo) ∧ (∃ n, inBlock q n ∧ dev u.ty u.va n = hi) ∧
          (∀ n, inBlock q n → lo ≤ dev u.ty u.va n ∧ dev u.ty u.va n ≤ hi) ∧
          (2 * m q = lo + hi ∨ ((2 * m q = lo + hi + 1 ∨ 2 * m q = lo + hi - 1) ∧ m q % 2 = 0))) ∧
        (let c (q : Nat) : FVal × Flags := (val (ent kd q)).add .rne (FVal.ofDy ⟨m q, st (ent kd q)⟩ false)
         let y (n : Nat) : Dy := (Dy.mk (dev u.ty u.va n - m (n / s.ablk)) (st (ent kd (n / s.ablk)))).add (ρ (c (n / s.ablk)).1)
         let reanchors (i : Instr) (floor : Nat → Option Int) : Prop := ∃ e : Nat → Int,
           (∀ q, on q → fin (c q).1 = true → match floor q with
             | none => e q = st (ent kd q)
             | some f => f ≤ e q ∧ (∀ n, inBlock q n → within (-H) (H - 1) (y n) (e q)) ∧ (e q = f ∨ ∃ n, inBlock q n ∧ ¬ within (-H) (H - 1) (y n) (e q - 1))) ∧
           (∀ q, on q → fin (c q).1 = false → e q = st (ent kd q)) ∧
           let res (n : Nat) : Nat × Flags :=
             raise u.msk.val n (c (n / s.ablk)) (if fin (c (n / s.ablk)).1 then s.requant u.ty (y n) (e (n / s.ablk)) else (0, 0))
           ((∀ n < N, s.cellOn u.msk.val n = true → on (n / s.ablk) →
               s.cur.ctl.fpx (res n).2 = false ∧ (s.cur.ctl.dovSat = true ∨ (res n).2.getLsbD 6 = false)) →
             ∃ t, exec i s = .next t ∧ WordFrame s t ∧ t.cur.ctl = s.cur.ctl ∧
               (∀ r i, r < s.cur.rows → i < vl → (on ((r * vl + i) / s.ablk) ∧ s.cur.block.fm.getLsbD i = true → t.vGet (u.vd.val + r) u.ty.width i = (res (r * vl + i)).1) ∧
                 (¬ (on ((r * vl + i) / s.ablk) ∧ s.cur.block.fm.getLsbD i = true) → t.vGet (u.vd.val + r) u.ty.width i = s.vGet (u.vd.val + r) u.ty.width i)) ∧
               (∀ v, v < 64 → (v < u.vd.val ∨ u.vd.val + s.cur.rows ≤ v) → vget t.cur.files.v v = vget s.cur.files.v v) ∧
               (∀ k q, k < 16 → q < 64 → ((k = kd.val ∧ on q) → t.cur.kGet k q = entry (c q).1 (e q)) ∧
                 (¬ (k = kd.val ∧ on q) → t.cur.kGet k q = s.cur.kGet k q)) ∧
               ∀ b, t.cur.fstat.getLsbD b = true ↔ s.cur.fstat.getLsbD b = true ∨
                 ∃ n < N, s.cellOn u.msk.val n = true ∧ on (n / s.ablk) ∧ (res n).2.getLsbD b = true)
         reanchors (.reancCentre kd u) (fun _ => none) ∧ reanchors (.reancWiden kd u) (fun q => some (st (ent kd q))) ∧
         reanchors (.reancNarrow kd u) fun _ => some (-32768))) ∧
    -- ACVT
    (s.fits (max u.ty.width plain.width) [u.vd.val, u.va.val] → (plain.isInt = true ∨ plain.isFloat = true) →
      let e (r i : Nat) : Anchor := ent kd ((r * vl + i) / s.ablk)
      Anchored (.acvtFromanc kd plain u) s u.msk.val u.vd.val plain.width none (fun t r i =>
        let d := signedOf u.ty.width (s.source t u.vd.val r (u.va.val + r) u.ty.width i)
        let v := (val (e r i)).add rm (FVal.ofDy ⟨d, st (e r i)⟩ false)
        let x := if plain.isInt then valToInt rm plain.width plain.signed v.1 else (fmtOf plain).encode rm v.1
        (x.1, v.2 ||| x.2)) (fun _ => ⟨0, 0⟩) ∧
      Anchored (.acvtToanc kd plain u) s u.msk.val u.vd.val u.ty.width none (fun t r i =>
        let b := s.source t u.vd.val r (u.va.val + r) plain.width i
        let x := if plain.isInt then
            FVal.ofDy ⟨if plain.signed && b.testBit (plain.width - 1) then (b : Int) - 2 ^ plain.width else b, 0⟩ false
          else (fmtOf plain).decode b
        if x.isFin && (val (e r i)).isFin then s.requant u.ty (x.dy.add (val (e r i)).dy.neg) (st (e r i)) else (0, fNV)) fun _ => ⟨0, 0⟩)

/-- 07 R212 to R216: AMOVK moves the entries whose mask bits are active between an anchor register and two vector registers. ALD loads, for every block that
holds an active cell, its entry and the deviations of its active cells; ALD.W waits for full headers and leaves them full. AST stores both; AST.R consumes each
full header, writes, and fills the header. On an empty header of the first block ALD.W and AST.R leave a waiter at its home. The core's L1 is empty, and what a
store writes does not overlap. A close that its word has sent answers whether the header was emptied since the watch; another has no effect. -/
def Obligations.AnchoredMoves : Prop :=
  ∀ (s : State) (sc : Scope) (msk : MReg) (ty : Ty) (v : VReg) (k : KReg) (base : Slot) (xa : XReg) (h d : Nat → Loc),
    let w := ty.width
    let n := w / 8
    let M := msk.val
    let vl := s.cur.vl
    let cell (c : Nat) : Prop := c < s.cur.rows * vl ∧ s.cellOn M c = true
    let entryOn (j : Nat) : Prop := j < (if s.cur.half then 32 else 64) ∧ (s.activeMask M).getLsbD j = true
    let keeps (t : State) : Prop := t.cur.ctl = s.cur.ctl ∧ t.cur.fstat = s.cur.fstat ∧ t.cur.files.x = s.cur.files.x ∧ t.cur.files.m = s.cur.files.m ∧
      t.cur.files.z = s.cur.files.z ∧ t.cur.files.cb = s.cur.files.cb ∧ t.cur.files.amh = s.cur.files.amh
    let others (t : State) (lo n : Nat) : Prop := ∀ u, u < 64 → (u < lo ∨ lo + n ≤ u) → vget t.cur.files.v u = vget s.cur.files.v u
    (s.issues → v.val < 63 →
      (∃ t, exec (.amovkKv msk ty v k) s = .next t ∧ WordFrame s t ∧ keeps t ∧ t.cur.files.k = s.cur.files.k ∧ others t v.val 2 ∧
        ∀ j < 64, (entryOn j → t.vGet v.val 64 j = (s.cur.kGet k.val j).a.toNat ∧
            t.vGet (v.val + 1) 64 j = ((s.cur.kGet k.val j).e.signExtend 64).toNat) ∧
          (¬ entryOn j → t.vGet v.val 64 j = s.vGet v.val 64 j ∧ t.vGet (v.val + 1) 64 j = s.vGet (v.val + 1) 64 j)) ∧
      ∃ t, exec (.amovkVk msk ty v k) s = .next t ∧ WordFrame s t ∧ keeps t ∧ t.cur.files.v = s.cur.files.v ∧
        ∀ u j, u < 16 → j < 64 → ((u = k.val ∧ entryOn j) → t.cur.kGet u j = ⟨BitVec.ofNat 64 (s.vGet v.val 64 j), BitVec.ofNat 16 (s.vGet (v.val + 1) 64 j)⟩) ∧
          (¬ (u = k.val ∧ entryOn j) → t.cur.kGet u j = s.cur.kGet u j)) ∧
    (s.issues → s.calm → s.unheld → ty.isDev = true → s.fits w [v.val] → s.blocksFit → (s.core s.cur.coreNo).l1 = [] →
      (∀ y ∈ s.waiters, y.id < s.nextWaiter) →
      let e (q : Nat) : Anchor := s.cur.kGet k.val q
      let places (st : Bool) : Prop := (∀ c, cell c → s.stands ⟨st, false⟩ (s.cur.slot base + BitVec.ofNat 64 (c * n)) n (d c)) ∧
        ∀ q, s.blockOn M q → s.stands ⟨st, false⟩ (s.cur.files.x[xa] + BitVec.ofNat 64 (16 * q)) 16 (h q)
      let waited (st : Bool) : Prop := ∀ q, s.blockOn M q → s.stands ⟨st, true⟩ (s.cur.files.x[xa] + BitVec.ofNat 64 (16 * q)) 16 (h q)
      let full : Prop := ∀ q, s.blockOn M q → s.full (h q).key = true
      let waits (i : Instr) : Prop := ∀ q, s.blockOn M q → (∀ p < q, ¬ s.blockOn M p) → s.full (h q).key = false → ∃ t y, exec i s = .next t ∧
        t.waiters = s.waiters ++ [y] ∧ y.key = settOf (h q).key ∧ y.cond = .full ∧ t.cur.cur.isSome = true ∧ t.cur.files = s.cur.files ∧ t.mem = s.mem ∧
        t.empties = s.empties
      let loaded (i : Instr) : Prop := ∃ t, exec i s = .next t ∧ WordFrame s t ∧ keeps t ∧ others t v.val s.cur.rows ∧
        (∀ r i, s.on M r i → t.vGet (v.val + r) w i = s.valueAt (d (r * vl + i)).key n) ∧
        (∀ r i, r < s.cur.rows → w * i + w ≤ 4096 → ¬ s.on M r i → t.vGet (v.val + r) w i = s.vGet (v.val + r) w i) ∧
        ∀ u q, u < 16 → q < 64 → ((u = k.val ∧ s.blockOn M q) → t.cur.kGet u q =
            ⟨BitVec.ofNat 64 (s.valueAt (h q).key 8), BitVec.ofNat 16 (s.valueAt ((h q).key + 8) 8)⟩) ∧
          (¬ (u = k.val ∧ s.blockOn M q) → t.cur.kGet u q = s.cur.kGet u q)
      let stored (i : Instr) : Prop := ∃ t, exec i s = .next t ∧ StreamFrame s t ∧ t.cur.files = s.cur.files ∧ t.cur.fstat = s.cur.fstat ∧
        (∀ q, s.blockOn M q → t.valueAt (h q).key 8 = (e q).a.toNat ∧ t.valueAt ((h q).key + 8) 8 = (e q).e.toNat) ∧
        (∀ c, cell c → t.valueAt (d c).key n = s.vGet (v.val + c / vl) w (c % vl)) ∧
        (∀ a, (∀ q, s.blockOn M q → a < (h q).key ∨ (h q).key + 16 ≤ a) → (∀ c, cell c → a < (d c).key ∨ (d c).key + n ≤ a) →
          Memory.get t.mem a = Memory.get s.mem a) ∧ ∀ a, t.full a = s.full a
      let apart (a b : Loc) (m : Nat) (x : Nat) : Prop := a.key + m ≤ b.key ∨ b.key + x ≤ a.key
      let separate : Prop := (∀ q c, s.blockOn M q → cell c → apart (h q) (d c) 16 n) ∧ (∀ q p, s.blockOn M q → s.blockOn M p → q ≠ p → apart (h q) (h p) 16 16) ∧
        (∀ c b, cell c → cell b → c ≠ b → apart (d c) (d b) n n) ∧
        (∀ a b, ((∃ q, s.blockOn M q ∧ a = h q) ∨ ∃ c, cell c ∧ a = d c) → ((∃ q, s.blockOn M q ∧ b = h q) ∨ ∃ c, cell c ∧ b = d c) →
          lineOf a.key = lineOf b.key → a.enc = b.enc)
      (places false → loaded (.ald msk ty v k base xa)) ∧
      (places false → waited false → (full → (∀ q, s.blockOn M q → s.homeLoad (h q).key < 64) → loaded (.aldW sc msk ty v k base xa)) ∧
        waits (.aldW sc msk ty v k base xa)) ∧
      (Memory.wf s.mem = true → separate → places true → stored (.ast msk ty v k base xa) ∧
        (waited true → (full → stored (.astR sc msk ty v k base xa)) ∧ waits (.astR sc msk ty v k base xa)))) ∧
    ∀ (c : Cur) (id blk : Nat) (y : Waiter), s.cur.cur = some c →
      let p := s.cur.pod0
      let sent : Prop := (∃ x ∈ c.staged, x.1 = 2 ^ 20 + 1) ∧ (p.row * s.cur.vl + p.idx) / s.ablk = blk
      (¬ sent → Idles (.watchClose s.cur.id blk) s) ∧
      (sent → c.watch = some id → findBy Waiter.id id s.waiters = some y → ∃ c', exec (.watchClose s.cur.id blk) s =
          .next { s with waiters := dropBy Waiter.id id s.waiters, cur := { s.cur with cur := some c' } } ∧
        (y.cancelled = false → c' = { c with watch := none, staged := c.staged ++ [(2 ^ 20, 1)] }) ∧
        (y.cancelled = true → c'.watch = none ∧ c'.staged = [] ∧ ∀ p l, c.pods = p :: l → c'.pods = { p with budget := p.budget - 1 } :: l))

/-! ## The matrix engine (11 R248 to R261) -/

/-- 11 R250 to R254, R260, R261: MCLAIM takes the claim and sets the tile width; MFREE clears every tile and gives the claim up; MCLR clears the named
tiles; MRD and MWR move tile rows to and from vector registers; MLD and MST load and store a tile, row after row at a stride: MLD with the core's L1 empty, or of
width 1, and MST where its elements do not overlap. Without a claim, or with rows past the tile, they raise MAT. -/
def Obligations.TileMoves : Prop :=
  ∀ (s : State) (w : Fin 64) (tiles : BitVec 8) (msk : MReg) (ty : Ty) (z : ZReg) (v : VReg) (row : Fin 32) (hint : Fin 16) (base : Slot) (xs : XReg)
    (ls : Nat → Nat → Loc), s.issues →
    let claim (st : Strand) : Bool := st.mctl.getLsbD 8
    let width (st : Strand) : Nat := fieldOf st.mctl 0 6
    let mvl := width s.cur
    let rest (t : State) : Prop := t.cur.ctl = s.cur.ctl ∧ t.cur.fstat = s.cur.fstat ∧ t.cur.files.x = s.cur.files.x ∧ t.cur.files.m = s.cur.files.m ∧
      t.cur.files.k = s.cur.files.k ∧ t.cur.files.cb = s.cur.files.cb ∧ t.cur.files.amh = s.cur.files.amh
    let tilesAs (t : State) (f : Nat → Nat → Nat → Nat) : Prop := ∀ u m n, u < 8 → m < 32 → n < 32 → t.cur.zGet u m n = f u m n
    let reach := !s.cur.half || decide (z.val < 4)
    let moves (j n : Nat) : Prop := j < s.cur.rows ∧ n < mvl ∧ (s.activeMask msk.val).getLsbD n = true
    (∃ t, exec (.mclaim w) s = .next t ∧ WordFrame s t ∧ rest t ∧ t.cur.files.v = s.cur.files.v ∧ t.cur.files.z = s.cur.files.z ∧
      claim t.cur = true ∧ width t.cur = w.val ∧ fieldOf t.cur.mctl 9 5 = fieldOf s.cur.mctl 9 5) ∧
    (∃ t, exec .mfree s = .next t ∧ WordFrame s t ∧ rest t ∧ t.cur.files.v = s.cur.files.v ∧
      (claim s.cur = true → claim t.cur = false ∧ width t.cur = 0 ∧ fieldOf t.cur.mctl 9 5 = fieldOf s.cur.mctl 9 5 ∧
        ∀ u m n, u < (if s.cur.half then 4 else 8) → m < 32 → n < 32 → t.cur.zGet u m n = 0) ∧
      (claim s.cur = false → t.cur.mctl = s.cur.mctl ∧ t.cur.files.z = s.cur.files.z)) ∧
    (claim s.cur = true → s.cur.half = false ∨ tiles.toNat < 16 → ∃ t, exec (.mclr tiles) s = .next t ∧ WordFrame s t ∧ rest t ∧
      t.cur.files.v = s.cur.files.v ∧ t.cur.mctl = s.cur.mctl ∧ tilesAs t fun u m n => if tiles.getLsbD u then 0 else s.cur.zGet u m n) ∧
    (claim s.cur = true → mvl ≤ 32 → reach = true → v.val + s.cur.rows ≤ 64 → row.val + s.cur.rows ≤ 32 →
      (∃ t, exec (.mrd msk ty z v row) s = .next t ∧ GroupFrame s t v.val ∧ t.cur.ctl = s.cur.ctl ∧ t.cur.fstat = s.cur.fstat ∧
        t.cur.mctl = s.cur.mctl ∧ ∀ j n, j < s.cur.rows → n < 128 → (moves j n → t.vGet (v.val + j) 32 n = s.cur.zGet z.val (row.val + j) n) ∧
          (¬ moves j n → t.vGet (v.val + j) 32 n = s.vGet (v.val + j) 32 n)) ∧
      ∃ t, exec (.mwr msk ty z v row) s = .next t ∧ WordFrame s t ∧ rest t ∧ t.cur.files.v = s.cur.files.v ∧ t.cur.mctl = s.cur.mctl ∧
        ∀ u m n, u < 8 → m < 32 → n < 32 → ((u = z.val ∧ row.val ≤ m ∧ moves (m - row.val) n) →
            t.cur.zGet u m n = s.vGet (v.val + (m - row.val)) 32 n) ∧
          (¬ (u = z.val ∧ row.val ≤ m ∧ moves (m - row.val) n) → t.cur.zGet u m n = s.cur.zGet u m n)) ∧
    (claim s.cur = true → reach = true → v.val + s.cur.rows ≤ 64 → 32 < row.val + s.cur.rows →
      StopsWith (.mrd msk ty z v row) s 0x10 2 ∧ StopsWith (.mwr msk ty z v row) s 0x10 2) ∧
    (claim s.cur = false → (s.cur.half = false ∨ tiles.toNat < 16 → StopsWith (.mclr tiles) s 0x10 1) ∧
      (reach = true → v.val + s.cur.rows ≤ 64 → StopsWith (.mrd msk ty z v row) s 0x10 1 ∧ StopsWith (.mwr msk ty z v row) s 0x10 1) ∧
      (reach = true → StopsWith (.mld ty z hint base xs) s 0x10 1 ∧ StopsWith (.mst ty z hint base xs) s 0x10 1)) ∧
    (claim s.cur = true → mvl ≤ 32 → reach = true → s.calm → s.unheld → ty ≠ .cb4 →
      let stand (st : Bool) : Prop := ∀ m n, m < mvl → n < mvl →
        s.stands ⟨st, false⟩ (s.cur.slot base + BitVec.ofNat 64 m * s.cur.files.x[xs] + BitVec.ofNat 64 (4 * n)) 4 (ls m n)
      (stand false → (s.core s.cur.coreNo).l1 = [] ∨ mvl = 1 → ∃ t, exec (.mld ty z hint base xs) s = .next t ∧ WordFrame s t ∧ rest t ∧
        t.cur.files.v = s.cur.files.v ∧ t.cur.mctl = s.cur.mctl ∧
        tilesAs t fun u m n => if u = z.val ∧ m < mvl ∧ n < mvl then s.loads (ls m n) 4 else s.cur.zGet u m n) ∧
      (stand true → Memory.wf s.mem = true → (∀ m n p q, m < mvl → n < mvl → p < mvl → q < mvl → (m, n) ≠ (p, q) →
          (ls m n).key + 4 ≤ (ls p q).key ∨ (ls p q).key + 4 ≤ (ls m n).key) →
        ∃ t, exec (.mst ty z hint base xs) s = .next t ∧ StreamFrame s t ∧ t.cur.files = s.cur.files ∧ t.cur.fstat = s.cur.fstat ∧ t.cur.mctl = s.cur.mctl ∧
          (∀ m n, m < mvl → n < mvl → t.valueAt (ls m n).key 4 = s.cur.zGet z.val m n) ∧
          (∀ a, (∀ m n, m < mvl → n < mvl → a < (ls m n).key ∨ (ls m n).key + 4 ≤ a) → Memory.get t.mem a = Memory.get s.mem a) ∧
          ∀ a, t.full a = s.full a))

/-- 11 R249, R255 to R259: MMA and MOPA leave the stream once the engine has captured their operands, and the engine's retirement then updates the tile:
modulo 2^32 for i8 and n8; for floating-point operands with one rounding to nearest even in f32 for each 32 values of k, where operands and sum are
finite and the sum is not zero. A strand without captured words has nothing to retire; without a claim they raise MAT. -/
def Obligations.TileProducts : Prop :=
  ∀ (s : State) (msk : MReg) (ty : Ty) (zd : ZReg) (va vb : VReg) (m1 n1 : Fin 32) (ca cb : CbReg), s.issues → s.cur.half = false ∨ zd.val < 4 →
    let f := fmtOf .f32
    let claim := s.cur.mctl.getLsbD 8
    let mvl := fieldOf s.cur.mctl 0 6
    let on (k : Nat) : Bool := (s.activeMask msk.val).getLsbD k
    let bitsOf (v i : Nat) : Nat := s.vGet v ty.width i
    let num (v i : Nat) : Int := if ty = .i8 ∧ 128 ≤ bitsOf v i then (bitsOf v i : Int) - 256 else bitsOf v i
    let val (c : CbReg) (v i : Nat) : FVal := if ty = .cb4 then (fmtOf .bf16).decode (s.cur.cbGet c.val (bitsOf v i)) else (fmtOf ty).decode (bitsOf v i)
    let total (ks : List Nat) (p : Nat → Dy) (z : Dy) : Dy := z.add (ks.foldl (fun a k => a.add (p k)) Dy.zero)
    -- the sums of element (m, n) over `K` values of k, of which `on` are active
    let sums (K : Nat) (on : Nat → Bool) (a b : Nat → Nat × Nat) (z r : Nat) : Prop :=
      let p (k : Nat) : Dy := (val ca (a k).1 (a k).2).dy.mul (val cb (b k).1 (b k).2).dy
      ((ty = .i8 ∨ ty = .n8) → (r : Int) = ((List.range K).foldl (fun x k => if on k then x + num (a k).1 (a k).2 * num (b k).1 (b k).2 else x) (z : Int)) % 2 ^ 32) ∧
      ((ty.isFloat = true ∨ ty = .cb4) → ∃ zs : Nat → Nat, zs 0 = z ∧ zs ((K + 31) / 32) = r ∧ ∀ q < (K + 31) / 32,
        let ks := (List.range K).filter fun k => k / 32 == q && on k
        (ks = [] → zs (q + 1) = zs q) ∧
        (ks ≠ [] → (∀ k ∈ ks, (val ca (a k).1 (a k).2).isFin = true ∧ (val cb (b k).1 (b k).2).isFin = true) → (f.decode (zs q)).isFin = true →
          (total ks p (f.decode (zs q)).dy).m ≠ 0 → zs (q + 1) = (f.encode .rne (FVal.ofDy (total ks p (f.decode (zs q)).dy) false)).1))
    let updates (i : Instr) (M N K : Nat) (mOn : Nat → Bool) (kOn : Nat → Bool) (a b : Nat → Nat → Nat × Nat) : Prop :=
      ∃ t u, exec i s = .next t ∧ t.cur.cur = none ∧ t.cur.files = s.cur.files ∧ Event.matrixWordRetire s.cur.id ∈ t.events ∧
        exec (.matrixWordRetire s.cur.id) t = .next u ∧ WordFrame s u ∧ u.cur.ctl = s.cur.ctl ∧ u.cur.captured = [] ∧
        u.cur.files = { s.cur.files with z := u.cur.files.z, dirty := u.cur.files.dirty } ∧
        ∀ y m n, y < 8 → m < 32 → n < 32 →
          ((y = zd.val ∧ m < M ∧ n < N ∧ mOn m = true) → sums K kOn (a m) (b n) (s.cur.zGet y m n) (u.cur.zGet y m n)) ∧
          (¬ (y = zd.val ∧ m < M ∧ n < N ∧ mOn m = true) → u.cur.zGet y m n = s.cur.zGet y m n)
    let M := m1.val + 1
    let N := n1.val + 1
    (claim = true → s.fits ty.width [] → 0 < s.cur.vl → va.val + M ≤ 64 → vb.val + N ≤ 64 →
      updates (.mma msk ty zd va vb m1 n1 ca cb) M N s.cur.vl (fun _ => true) on (fun m k => (va.val + m, k)) fun n k => (vb.val + n, k)) ∧
    (claim = true → 0 < mvl → mvl ≤ 32 →
      updates (.mopa msk ty zd va vb ca cb) mvl mvl 1 on (fun _ => true) (fun m _ => (va.val, m)) fun n _ => (vb.val, n)) ∧
    (claim = false → s.fits ty.width [] → va.val + M ≤ 64 → vb.val + N ≤ 64 →
      StopsWith (.mma msk ty zd va vb m1 n1 ca cb) s 0x10 1 ∧ StopsWith (.mopa msk ty zd va vb ca cb) s 0x10 1) ∧
    exec (.matrixWordRetire s.cur.id) s = .next s

/-! ## Waiting, parking and leaving the core (04 R122, 13 R283 to R287, 14 R305 to R309) -/

/-- 04 R122, 14 R305: an access whose sett has changed checks again at its home, and a rejected one is sent again. A waiting load then finds its sett full,
reads it, writes its register and leaves the sett full; on an empty sett it waits anew. A pod tries its access again. A waiter whose sett has not changed
stays as it is, and so does one whose wait another fault has ended (04 R103) or whose partition is out of service (22 R401).

14 R309, 03 R99, 08 R221: an access whose budget is gone marks its sett and is checked once more in the same step: unmet, its strand begins to leave its
core, to be parked; with parking off, a waiting load raises FEB at its sett instead, as a deferred fault. PARK links the record; a WAKE of a strand whose
save is under way is noted, and one of a parked strand makes it ready.

13 R286, R287: the image holds each register at its offset, the header and the held word first; a vector register as far as it has been written, tiles only
with MCTL.MACT, and no register that is clean.

13 R284 to R287, 03 R99: a pre-emption request of a running strand begins its save, and waits while a handler is active. At the expiry of PREMAX the word
in progress stops. The save waits for what its strand has under way to be answered, and lets its pods reach their boundaries; then it writes the strand's image, and its completion leaves the strand parked, or ready where it was pre-empted or woken meanwhile; a
restore from its image lets it run. A save or a restore that faults ends the strand, as does an image of another format or shape (14 R318: a record that
cannot be written leaves it running, its access to fault). That a pod's check takes two steps, its turn and its stream's (log entry 31), that a strand is
ready at once after a pre-emption that was asked for (log entry 37), and what a save waits for (log entry 24), are the model's. -/
def Obligations.WaitersAndContexts : Prop :=
  (∀ (s : State) (w : Waiter) (p : PendLoad) (k : Nat), findBy Waiter.id w.id s.waiters = some w → s.calm →
     let n := sizeBytes p.size
     let v := s.valueAt p.loc.key n
     let x : Word := if p.sext then BitVec.ofInt 64 (signedOf (8 * n) v) else BitVec.ofNat 64 (v % 2 ^ (8 * n))
     let left := s.waiters.filter fun y => y.id != w.id
     let again (i : Instr) : Prop :=
       (w.src = .load s.cur.id p.id → (s.cur.pend.find? fun q => q.id == p.id && q.waiter == some w.id) = some p → p.target = none → p.loc.gw = false →
         p.plain = false → p.bad = none → s.lineRead p.loc = .good →
         (s.full p.loc.key = true → Answers i s fun t => t.cur.pend = (s.cur.pend.filter fun q => q.id != p.id) ∧ t.waiters = left ∧ s.keepsMemory t ∧
           t.cur.gen.read p.sd = (if p.sd = 0 then 0 else x) ∧ (∀ r, r ≠ p.sd → t.cur.gen.read r = s.cur.gen.read r) ∧ t.cur.gen.pc = s.cur.gen.pc ∧
           t.others = s.others) ∧
         (s.full p.loc.key = false → Answers i s fun t => ∃ y, t.waiters = left ++ [y] ∧ y.key = settOf p.loc.key ∧ y.cond = .full ∧ t.cur.gen = s.cur.gen ∧
           t.mem = s.mem ∧ t.empties = s.empties ∧ t.others = s.others)) ∧
       (w.src = .pod s.cur.id k → Answers i s fun t => t.waiters = left ∧ t.sched = .focus s.cur.id :: .stream :: s.sched ∧ t.cur.gen = s.cur.gen ∧
         t.cur.files = s.cur.files ∧ t.mem = s.mem ∧ t.empties = s.empties ∧ t.others = s.others ∧
         t.cur.cur = s.cur.cur.map fun c => { c with pods := c.pods.map fun q => if q.waiter == some w.id then { q with waiter := none } else q })
     (w.changed = false ∨ w.spent = true ∨ s.waiterLost w = true → Idles (.waiterRecheck w.id) s) ∧
     (w.rejected = false ∨ s.waiterLost w = true → Idles (.rejectRetry w.id) s) ∧
     (s.waiterLost w = false → (w.changed = true → w.watch = false → w.spent = false → again (.waiterRecheck w.id)) ∧
       (w.rejected = true → again (.rejectRetry w.id)))) ∧
  (∀ (s : State) (w : Waiter) (p : PendLoad) (key part head : Nat) (u v x : State),
     let st := s.cur
     let regs (t : State) : Prop := ∀ r, t.cur.gen.read r = st.gen.read r
     let stays : Prop := ∀ g, s.group st.gid = some g → g.pre = false ∧ g.evicted = false
     (findBy Waiter.id w.id s.waiters = some w → w.sid = some st.id → s.waiterLost w = false →
       (s.mayPark w = true → w.cond = .full → s.full w.key = false → Answers (.markAndRecheck w.id) s fun t => ⟨w.key, false⟩ ∈ t.marks ∧
         t.cur.status = .saving ∧ t.cur.parkKey = some w.key ∧ t.cur.parkCond = w.cond ∧ Event.park st.id w.key ∈ t.events ∧ regs t ∧ t.mem = s.mem ∧
         t.empties = s.empties) ∧
       (s.mayPark w = false → w.src = .load st.id p.id → (st.pend.find? fun q => q.id == p.id && q.waiter == some w.id) = some p → p.target = none →
         st.fault = none → Answers (.markAndRecheck w.id) s fun t => (∃ f, t.cur.fault = some f ∧ f.cause = 0x07 ∧ f.val = p.loc.va &&& ~~~7 ∧ f.deferred = true ∧
           f.stream = false ∧ f.ipc = p.ipc ∧ ∃ e, f.entry = some e ∧ e.id = p.id) ∧ regs t ∧ t.mem = s.mem ∧ t.empties = s.empties)) ∧
     (st.parkKey ≠ some key → Idles (.park st.id key) s) ∧
     (st.parkKey = some key → st.status = .saving → s.benchGet st.part ((s.part st.part).bucket key) 8 = (u, .ok head) →
       u.benchPut st.part u.cur.record.toNat (u.cur.parkRecord head key) = (v, .ok ()) →
       v.benchPut st.part ((s.part st.part).bucket key) (leBytes v.cur.record.toNat 8) = (x, .ok ()) → x.quiet x.cur.part →
       Answers (.park st.id key) s fun t => t.mem = x.mem ∧ t.cur.recState = 0 ∧ t.cur.status = .saving ∧ regs t) ∧
     (s.partOfKey key = none → Idles (.wake key) s) ∧
     (s.partOfKey key = some part → (s.part part).parkbase ≠ 0 → st.part = part → st.parkKey = some key →
       bucketRecords part (s.strands.length + 1) ((s.part part).bucket key) s = (u, [st.record.toNat]) →
       (st.status = .saving → u.benchPut part (u.cur.record.toNat + 25) [2] = (v, .ok ()) →
         Answers (.wake key) s fun t => t.cur = { v.cur with recState := 2 }) ∧
       (st.status = .parked → stays → Answers (.wake key) s fun t => t.cur.status = .ready ∧ t.cur.parkKey = none ∧ regs t ∧
         Event.contextRestore st.id ∈ t.events))) ∧
  (∀ (st : Strand) (time i g : Nat),
     let f := st.files
     let img := st.imagePieces time
     let slot (tag o : Nat) (bs : List Byte) : Prop := (f.dirty.getLsbD tag = true → (o, bs) ∈ img) ∧
       (f.dirty.getLsbD tag = false → ∀ p ∈ img, p.1 ≠ o)
     let within (o : Nat) (bs : List Byte) : Prop := ∃ p ∈ img, p.1 ≤ o ∧ (p.2.drop (o - p.1)).take bs.length = bs
     (within 0 (leBytes 1 2) ∧ within 3 (leBytes (if st.parkKey.isSome then 0 else 0x20) 1) ∧ within 4 (leBytes st.lanes 1) ∧ within 8 (leBytes st.icg.length 2) ∧
       within 10 (leBytes st.ics.length 2) ∧ within 16 (leBytes time 8) ∧ within 24 (leBytes st.image.toNat 8)) ∧
     (∃ n, within 2 (leBytes n 1) ∧ n < 64 ∧ n.testBit 0 = true ∧ n.testBit 1 = st.half ∧ n.testBit 2 = st.cur.isSome ∧ n.testBit 3 = st.parkKey.isSome ∧
       (n.testBit 4 = true ↔ st.sbuf ≠ [] ∨ ∃ p ∈ st.pend, p.target = none) ∧ (n.testBit 5 = true ↔ ∃ c, st.cur = some c ∧ c.e.call = true ∧ c.blk = false)) ∧
     (∀ c, st.cur = some c → within 0x40 (leBytes (c.heldWord % 2 ^ 64) 8) ∧ within 0x48 (leBytes (c.heldWord / 2 ^ 64 % 2 ^ 48) 8) ∧ within 0x50 (leBytes c.e.carried.toNat 8) ∧ within 0x58 (leBytes c.e.prov.toNat 8) ∧ within 0x60 (leBytes c.e.seq.toNat 8) ∧
       ∀ k : Fin 8, within (0x68 + 8 * k.val) (leBytes c.startix[k].toNat 8)) ∧
     (∀ r : SReg, within (0x100 + 8 * r.val) (leBytes st.gen.s[r].toNat 8)) ∧
     (i < 256 → within (0x200 + 8 * i) (leBytes ((st.reg i).getD 0).toNat 8)) ∧
     (i < 64 → within (0x3080 + i) (leBytes (vget f.vlt i) 1) ∧ slot i (0x4000 + 512 * i) (leBytes (vget f.v i).toNat (8 * vget f.vlt i))) ∧
     (i < 8 → slot (64 + i) (0x2A00 + 128 * i) (leBytes (vget f.m i).toNat (if st.half then 64 else 128))) ∧
     (i < 16 → g < st.lanes → f.dirty.getLsbD (72 + i) = true →
       within (0xC000 + 1024 * i + 16 * g) (leBytes (vget (vget f.k i) g).a.toNat 8 ++ leBytes (vget (vget f.k i) g).e.toNat 8)) ∧
     (i < 16 → f.dirty.getLsbD (72 + i) = false → ∀ p ∈ img, p.1 ≠ 0xC000 + 1024 * i) ∧
     (i < 8 → (st.mctl.getLsbD 8 = true → st.half = false ∨ i < 4 → slot (88 + i) (0x10000 + 4096 * i) (leBytes (vget f.z i).toNat 4096)) ∧
       (st.mctl.getLsbD 8 = false → ∀ p ∈ img, p.1 ≠ 0x10000 + 4096 * i)) ∧
     (i < 4 → slot (96 + i) (0x2E00 + 32 * i) (leBytes (vget f.cb i).toNat 32) ∧ slot (100 + i) (0x2E80 + 128 * i)
       (((vget f.amh i).slots.toList.flatMap fun x => leBytes x.toNat 4) ++ leBytes (vget f.amh i).ap.toNat 1))) ∧
  (∀ (s u v : State) (c : Nat) (x : Nat),
     let st := s.cur
     let i := st.id
     let y := (s.withdraw i).onCur Strand.stopMerge
     let regs (t : State) : Prop := ∀ r, t.cur.gen.read r = st.gen.read r
     let stays : Prop := ∀ g, s.group st.gid = some g → g.pre = false ∧ g.evicted = false
     (st.status ≠ .running → Idles (.preemptRequest i) s) ∧
     (st.status = .running → st.handling = true ∨ st.fault.isSome = true → Answers (.preemptRequest i) s fun t => t = { s with cur := { st with preempt := true } }) ∧
     (st.status = .running → st.handling = false → st.fault = none → Answers (.preemptRequest i) s fun t => t.cur.status = .saving ∧ t.cur.preempt = false ∧
       regs t ∧ t.cur.gen.pc = st.gen.pc ∧ t.mem = s.mem ∧ t.empties = s.empties ∧ (if st.cur.isSome then .premaxExpiry i else .contextSave i) ∈ t.events) ∧
     (st.status ≠ .saving → Idles (.premaxExpiry i) s ∧ Idles (.contextSave i) s ∧ Idles (.saveComplete i) s) ∧
     (st.status ≠ .ready → Idles (.contextRestore i) s) ∧
     (∀ w, st.status = .saving → st.cur = some w → Answers (.premaxExpiry i) s fun t => t.cur.fstat = st.fstat ||| w.run.flags ∧
       t.cur.cur = some { w with run := Run.none } ∧ t.events = s.events ++ [.contextSave i] ∧ regs t ∧ t.mem = s.mem) ∧
     (st.status = .saving → s.awaited st = true → Idles (.contextSave i) s) ∧
     (st.status = .saving → s.awaited st = false → s.mustFinish st = true → Answers (.contextSave i) s fun t =>
       t = { s with sched := .focus i :: .stream :: s.sched, events := s.events ++ [.contextSave i] }) ∧
     (st.status = .saving → s.awaited st = false → s.mustFinish st = false → st.captured = [] → (∀ k ∈ st.copies, k.st ≠ .running) →
       (y.imageWrite (y.cur.imagePieces y.pkg.time) = (u, .ok ()) → Answers (.contextSave i) s fun t => t.mem = u.mem ∧ t.cur.status = .saving ∧ regs t ∧
         Event.saveComplete i ∈ t.events) ∧
       (y.imageWrite (y.cur.imagePieces y.pkg.time) = (u, .error c) → Answers (.contextSave i) s fun t => t.cur.status = .ended)) ∧
     (st.status = .saving → stays →
       (st.parkKey = none ∨ st.recState = 2 → Answers (.saveComplete i) s fun t => t.cur.status = .ready ∧ t.cur.parkKey = none ∧ regs t ∧
         Event.contextRestore i ∈ t.events) ∧
       (st.parkKey.isSome = true → st.recState ≠ 2 → s.benchPut st.part (st.record.toNat + 25) [1] = (u, .ok ()) →
         Answers (.saveComplete i) s fun t => t.cur.status = .parked ∧ t.cur.parkKey = st.parkKey ∧ t.mem = u.mem ∧ regs t) ∧
       (st.parkKey.isSome = true → st.recState ≠ 2 → st.fault = none → s.benchPut st.part (st.record.toNat + 25) [1] = (u, .error c) →
         Answers (.saveComplete i) s fun t => t.cur.status = .running ∧ t.cur.parkKey = none ∧ regs t)) ∧
     (st.status = .ready → stays →
       (s.imageRead 0 8 = (u, .ok x) → x % 2 ^ 16 = 1 → x / 2 ^ 32 % 2 ^ 8 = u.cur.lanes →
         andThenOk loadContext (andThenOk loadQueue (andThenOk loadHeld loadLocks)) (u.l1Invalidate u.cur.coreNo true) = (v, .ok ()) →
         v.cur.pend = [] → Answers (.contextRestore i) s fun t => t.cur.status = .running ∧ t.cur.gen = v.cur.gen ∧ t.cur.ctl = v.cur.ctl ∧
           t.cur.files.x = v.cur.files.x ∧ t.cur.files.v = v.cur.files.v ∧ t.mem = v.mem) ∧
       (s.imageRead 0 8 = (u, .error c) → Answers (.contextRestore i) s fun t => t.cur.status = .ended) ∧
       (s.imageRead 0 8 = (u, .ok x) → x % 2 ^ 16 ≠ 1 ∨ x / 2 ^ 32 % 2 ^ 8 ≠ u.cur.lanes → Answers (.contextRestore i) s fun t => t.cur.status = .ended)))

/-! ## Engines and traps (08 R229, 12 R276, R279, 16 R324) -/

/-- 16 R324, 12 R275, R276, R279, 08 R220, R229: a chained atomic is applied as the store buffer applies it. A copy of one sett moves its eight bytes,
leaves the bit as its mode says, and retires without error. A fault that is due is taken: of the stream with the word in progress as held word, of an
access left behind as a deferred one with that access set aside, a breakpoint that such an access has met at its instruction. An INT is taken at a boundary
with the resume PC; an INT that may not be taken yet is pending, and lapses with its strand: when one may be taken, and that it lapses, are the model's reading (log
entry 30). -/
def Obligations.EnginesAndTraps : Prop :=
  ∀ (s : State) (e : SbEntry) (c : Copy) (cp : Copy) (ls ld : Loc) (f : Pend) (w : Cur) (line : Nat) (val : Word),
    let st := s.cur
    let i := st.id
    let one : State := { s with chains := s.chains.filter fun x => !(x.line == lineOf line && x.result.isNone) }
    let toS (t : State) (cause : Word) (v epc prov : Word) : Prop := t.cur.gen.level = .s ∧ t.cur.gen.pc = st.stvec ∧ t.cur.sbank.cause = cause ∧
      t.cur.sbank.val = v ∧ t.cur.sbank.epc = epc ∧ t.cur.sbank.prov = prov ∧ t.cur.sbank.hdl = true ∧ t.cur.kbank = st.kbank ∧ t.cur.cur = none ∧
      (∀ r, t.cur.gen.read r = st.gen.read r) ∧ t.mem = s.mem ∧ t.empties = s.empties
    let sTrap : Prop := st.sbank.hdl = false ∧ st.kbank.hdl = false ∧ st.stvec ≠ 0
    ((∀ x ∈ s.chains, x.line = lineOf line → x.result.isSome = true) → exec (.combiningApply line) s = .next s.remoteAll) ∧
    (∀ k, (s.chains.filter fun x => x.line == lineOf line && x.result.isNone) = [k] → k.src = .buf i e.id → lineOf e.loc.key = lineOf line →
      (st.sbuf.find? fun x => x.id == e.id) = some e → one.bufHead = some e → st.status = .running → s.lost st.part = false → one.chained e = false →
      ∃ t, exec (.storeBufferPerform i) one = .next t ∧ exec (.combiningApply line) s = .next t.remoteAll) ∧
    ((∀ x ∈ st.copies, x.st ≠ .running) → st.status ≠ .saving → Idles (.copyRetire i c.handle) s) ∧
    (findBy Copy.handle c.handle st.copies = some c → c.st = .running → c.kind = .copy → c.len = 8 → c.done = [] → c.gw = none → c.buf = none →
      c.mode = .plain ∨ c.mode = .withBits ∨ c.mode = .setFull ∨ c.mode = .setEmpty → st.status = .running → s.lost st.part = false → s.calm → Memory.wf s.mem = true →
      s.resolveStream ⟨false, c.mode != .plain⟩ c.src.toNat = (s, .ok ls) → s.resolveStream ⟨true, c.mode != .plain⟩ c.dst.toNat = (s, .ok ld) →
      ls.gw = false → ld.gw = false → s.lineRead ls = .good →
      Answers (.copyRetire i c.handle) s fun t =>
        wroteOnly s t ld.key 8 (s.valueAt ls.key 8)
          (match c.mode with | .withBits => some (s.full ls.key) | .setFull => some true | .setEmpty => some false | _ => none) ∧
        (findBy Copy.handle c.handle t.cur.copies = some cp → cp.st = .retired ∧ cp.err = 0) ∧ t.cur.gen = st.gen ∧ t.cur.files = st.files) ∧
    (st.faultReady = false → st.breakReady = none → Idles (.takeTrap i) s) ∧
    (st.fault = some f → st.faultReady = true → f.stream = false → f.deferred = true → sTrap → delegBit f.cause = none ∨ st.ktvec = 0 →
      Answers (.takeTrap i) s fun t => toS t (BitVec.ofNat 64 (f.cause + 0x200)) f.val st.gen.pc f.ipc ∧ t.cur.sbank.ipc = f.ipc ∧
        t.cur.sbank.failed = f.entry ∧ t.cur.sbuf = [] ∧ t.cur.pend = [] ∧ t.cur.fefail = (if f.cause = 0x07 then f.val else st.fefail)) ∧
    (st.breakReady = some f → sTrap → delegBit f.cause = none ∨ st.ktvec = 0 →
      Answers (.takeTrap i) s fun t => toS t (BitVec.ofNat 64 f.cause) f.val st.gen.pc f.ipc ∧ t.cur.sbank.ipc = f.ipc ∧ t.cur.brks = st.brks.erase f) ∧
    (st.fault = some f → st.faultReady = true → f.stream = true → st.cur = some w → w.blk = false → sTrap → delegBit f.cause = none ∨ st.ktvec = 0 →
      Answers (.takeTrap i) s fun t => toS t (BitVec.ofNat 64 (f.cause + 0x100 + if w.e.call then 0x1000 else 0)) f.val w.e.succ w.e.prov ∧
        t.cur.sbank.seq = w.e.seq.setWidth 64 ∧ t.cur.sbank.xq = w.e.carried ∧ t.cur.sbank.startix = w.startix) ∧
    (st.status = .ended ∨ st.status = .unbound → Idles (.int i val) s) ∧
    (st.status ≠ .ended → st.status ≠ .unbound → st.intReady = false ∨ st.ints ≠ [] →
      Answers (.int i val) s fun t => t = { s with cur := { st with ints := st.ints ++ [val] } }) ∧
    (st.intReady = true → st.ints = [] → sTrap → Answers (.int i val) s fun t => toS t 0x21 val st.gen.pc st.gen.pc)

/-! ## Translations, samples and registers of the package (13 R293 to R297, 16 R331, R334, 19 R357, R358, R374, R375, 22 R402, R407, R408, 23 R416) -/

/-- 16 R331, R334, 13 R294 to R296, 19 R374: TLBI_PAGE and TLBI_ALL drop the translations that they name from every TLB, of cores, clusters and ports, and keep the others, once no word
holds a pin that they wait for; until then they stay due; a window of the hot-page tracker ends with no counts; a sample of a core writes the 64 bytes of
its record at SMPPTR and moves on; a counter that overflows sets its bit of PMOVF and, with OVI, raises an INT; PGWAKE walks the page, which is of
the size its SZ names, and wakes a strand parked in it.

13 R293 to R295, 19 R357, R358, R375, 22 R402, R407, R408, 23 R416, 24 R428, 25 R436: writes of the registers that stand outside a strand. HMASK takes 35
bits where the partition is quiescent; SMPCTL and EVCTL refuse EN without a buffer; PMCNT takes 48 bits; a descriptor that is read again sets its queue; a key
that is loaded is valid, and lines under the key it replaces fail their tags; a partitioning replaces the partitions; an ingress entry and a report are as
given. No byte of memory changes. The map of a partitioning, its default and the signature of a report are the model's (log entries 2, 11); so are the
check of a SMPCTL that leaves EN 0 (log entry 25), and that lines under a replaced key fail their tags at once (log entries 19, 40). -/
def Obligations.RegistersOfThePackage : Prop :=
  (∀ (s u : State) (part core die : Nat) (va : Word) (sz : Fin 3) (n : Fin 16),
     let st := s.cur
     let tlbs (t : State) (keep : TlbEntry → Bool) : Prop := (t.cores.map CoreSt.dtlb = s.cores.map fun c => c.dtlb.filter keep) ∧
       (t.clusters.map ClusterSt.tlb = s.clusters.map fun c => c.tlb.filter keep) ∧ t.pkg.ptlb = s.pkg.ptlb.map (fun l => l.filter keep) ∧ t.cur.gen = st.gen ∧ t.cur.files = st.files ∧ t.mem = s.mem ∧
       t.empties = s.empties
     let ptr := (s.core core).smpptr.toNat
     let y := s.pageWalked (s.part part) va.toNat sz.val
     let pageSz := match sz.val with | 0 => 16 | 1 => 21 | _ => 30
     let inPage (a b : Nat) : Bool := let k := max b pageSz; a % 2 ^ 57 / 2 ^ k == va.toNat % 2 ^ 57 / 2 ^ k
     (s.pinsHeld part (fun _ _ => true) = false → Answers (.tlbiAll part) s (fun t => tlbs t fun e => e.part != part)) ∧
     (s.pinsHeld part inPage = false → Answers (.tlbiPage part va sz) s (fun t => tlbs t fun e => !(e.part == part && inPage e.va e.bits))) ∧
     (s.pinsHeld part (fun _ _ => true) = true → exec (.tlbiAll part) s = .next { s with events := s.events ++ [.tlbiAll part] }) ∧
     (s.pinsHeld part inPage = true → exec (.tlbiPage part va sz) s = .next { s with events := s.events ++ [.tlbiPage part va sz] }) ∧
     Answers (.hpWindowReset die) s (fun t => t.die die = { s.die die with counts := [], told := [] } ∧ (∀ d, d ≠ die → t.die d = s.die d) ∧ s.keepsStrands t ∧
       t.mem = s.mem ∧ t.empties = s.empties) ∧
     ((∀ t ∈ s.strands, t.coreNo ≠ core) → Idles (.sample core) s) ∧
     (s.others = [] → st.coreNo = core → st.status = .running → (s.core core).smpctl.getLsbD 0 = true → (s.core core).smpctl.getLsbD 13 = false →
       ptr + 128 ≤ (s.core core).smpsize.toNat → s.unitPutMany st.part core ((s.core core).smpbase.toNat + ptr) (s.sampleRecord false) = (u, .ok ()) →
       (s.sampleRecord false).length = 64 ∧
       Answers (.sample core) s fun t => t.mem = u.mem ∧ t.empties = u.empties ∧ (t.core core).smpptr = BitVec.ofNat 64 (ptr + 64) ∧ t.cur = st) ∧
     Answers (.counterOverflow core n) s (fun t => (t.core core).pmovf = (s.core core).pmovf ||| (1#16 <<< n.val) ∧ (t.core core).pmcnt = (s.core core).pmcnt ∧
       s.keepsStrands t ∧ t.mem = s.mem ∧ ∀ b, s.boundStrand core = some b → (vget (s.core core).pmsel n.val).getLsbD 11 = true →
         Event.int b.id (BitVec.ofNat 64 (0x100 + n.val)) ∈ t.events) ∧
     ((s.part part).ttb = 0 → Idles (.pgwake part va sz) s) ∧
     (s.others = [] → (st.parkKey.any fun k => y.keyIn (s.part part) va.toNat sz.val k) = false → exec (.pgwake part va sz) s = .next y) ∧
     (s.others = [] → st.part = part → (∃ k, st.parkKey = some k ∧ y.keyIn (s.part part) va.toNat sz.val k = true) →
       (st.status = .saving → y.benchPut part (st.record.toNat + 25) [2] = (u, .ok ()) →
         Answers (.pgwake part va sz) s fun t => t.cur = { u.cur with recState := 2 } ∧ t.mem = u.mem) ∧
       (st.status = .parked → (∀ g, s.group st.gid = some g → g.pre = false ∧ g.evicted = false) →
         Answers (.pgwake part va sz) s fun t => t.cur.status = .ready ∧ t.cur.parkKey = none ∧ Event.contextRestore st.id ∈ t.events))) ∧
  (∀ (s u : State) (part core num d : Nat) (val : Word) (n : Fin 16) (q : Fin 64) (e : Fin 16) (dies : List (BitVec 4)) (slot : Fin 64)
     (entry : Option Ingress) (nonce : BitVec 384),
     let P (t : State) : Part := t.part part
     let same (t : State) : Prop := s.keepsStrands t ∧ t.mem = s.mem ∧ t.empties = s.empties
     let lq (t : State) : LQueue := vget (P t).queues q.val
     (s.quiescent part = false → Idles (.hmaskWrite part val) s) ∧
     (s.quiescent part = true → Answers (.hmaskWrite part val) s fun t => (P t).hmask = val &&& 0x7FFFFFFFF ∧ same t ∧ ∀ p, p ≠ part → t.part p = s.part p) ∧
     (val.getLsbD 0 = true → (s.core core).smpsize = 0 ∨ val.toNat / 2 ^ 8 % 2 ^ 5 < 8 ∨ 24 < val.toNat / 2 ^ 8 % 2 ^ 5 → Idles (.smpctlWrite core val) s) ∧
     (val.getLsbD 0 = false ∨ ((s.core core).smpsize ≠ 0 ∧ 8 ≤ val.toNat / 2 ^ 8 % 2 ^ 5 ∧ val.toNat / 2 ^ 8 % 2 ^ 5 ≤ 24) →
       Answers (.smpctlWrite core val) s fun t => (t.core core).smpctl &&& 0x3F01 = val &&& 0x3F01 ∧ same t ∧ ∀ k, k ≠ core → t.core k = s.core k) ∧
     (val.getLsbD 0 = true → (P s).evsize = 0 → Idles (.evctlWrite part val) s) ∧
     (val.getLsbD 0 = false ∨ (P s).evsize ≠ 0 → Answers (.evctlWrite part val) s fun t => (P t).evctl.getLsbD 0 = val.getLsbD 0 ∧ same t ∧
       ∀ p, p ≠ part → t.part p = s.part p) ∧
     Answers (.pmcntWrite core n val) s (fun t => vget (t.core core).pmcnt n.val = val &&& 0xFFFFFFFFFFFF ∧ same t ∧
       ∀ k < 16, k ≠ n.val → vget (t.core core).pmcnt k = vget (s.core core).pmcnt k) ∧
     ((P s).qtbase = 0 → Answers (.qupd part q) s fun t => (lq t).en = false ∧ same t) ∧
     ((P s).qtbase ≠ 0 → s.unitGetMany part (P s).benchCore ((P s).qtbase.toNat + 32 * q.val) 32 = (u, .ok d) → d / 2 ^ 64 % 2 ^ 8 < 16 →
       d / 2 ^ 72 % 2 ^ 8 ≤ 7 → d / 2 ^ 80 % 2 ^ 8 = 1 → d / 2 ^ 88 % 2 ^ 168 = 0 → d % 2 ^ 64 % 128 = 0 → Answers (.qupd part q) s fun t => (lq t).en = true ∧
         (lq t).slots = BitVec.ofNat 64 d ∧ (lq t).log2n = d / 2 ^ 64 % 2 ^ 8 ∧ (lq t).prio = d / 2 ^ 72 % 2 ^ 8 ∧ Event.take part q ∈ t.events ∧ t.mem = u.mem ∧
         s.keepsStrands t) ∧
     ((num < 0x0F0 ∨ 0x233 < num) → Idles (.mcRegisterWrite part num val) s) ∧
     (s.quiescent part = true → Answers (.mcRegisterWrite part 0x100 val) s fun t => (P t).hmask = val &&& 0x7FFFFFFFF ∧ same t) ∧
     (s.quiescent part = false → Idles (.mcRegisterWrite part 0x100 val) s) ∧
     Answers (.keyLoad part e) s (fun t => (P t).keyval = (P s).keyval ||| (1#16 <<< e.val) ∧ same t ∧ t.lines = s.lines ∧ t.nextKey = s.nextKey + 1 ∧
       vget (P t).keys e.val = s.nextKey ∧ (∀ k < 16, k ≠ e.val → vget (P t).keys k = vget (P s).keys k) ∧
       ∀ l x, isHbm l.key = true → t.lineInfo l.key = some x → x.poison = false → x.enc ≠ s.nextKey → l.enc = s.nextKey → t.lineRead l = .badTag) ∧
     ((∃ x ∈ dies, x ∉ [1#4, 2#4, 4#4, 8#4, 3#4, 12#4, 15#4]) → Idles (.partitionConfig dies) s) ∧
     ((∀ x ∈ dies, x ∈ [1#4, 2#4, 4#4, 8#4, 3#4, 12#4, 15#4]) → (dies.map BitVec.toNat).sum = (dies.foldl (· ||| ·) 0#4).toNat →
       Answers (.partitionConfig dies) s fun t => t.parts.map Part.dies = dies ∧ same t) ∧
     Answers (.ingressEntrySet slot entry) s (fun t => vget t.pkg.ingress slot.val = entry ∧ same t ∧
       ∀ k < 64, k ≠ slot.val → vget t.pkg.ingress k = vget s.pkg.ingress k) ∧
     Answers (.attestationRequest nonce) s (fun t => same t ∧ ∃ text sig, t.pkg.out = s.pkg.out ++ [.report text sig] ∧
       text.drop (text.length - 48) = leBytes nonce.toNat 48))

/-! ## The bench (14 R298, R299, 19 R357 to R373) -/

/-- 19 R360, R363 to R367, R371: a full header at the head of an enabled queue is taken: its node reads its KCB, and the header is emptied; on an empty one
the bench waits. A node leaves Taken in its turn, and is Ready once it waits for no predecessor and its tiles are free; it ages by a level for each full 1
ms, which may make it the one to bind; the chosen one binds. When the last strand has ended, DONE holds the node's status and is full, and the node is gone. Where the spec names several
steps of the bench at once, their order is the model's (log entry 37). -/
def Obligations.NodesAdvance : Prop :=
  ∀ (s u : State) (part : Nat) (q : Fin 64) (l : Loc) (k : Nat) (n : Node),
    let p := s.part part
    let lq := vget p.queues q.val
    let nid := n.id
    let mem (t : State) : Prop := t.mem = s.mem ∧ t.empties = s.empties
    let slot := lq.slots.toNat + 128 * lq.head
    s.upsets = [] → (∀ x, s.lost x = false) →
    (lq.en = false → Idles (.take part q) s) ∧
    (lq.en = true → s.quiet part → s.resolveFor part p.benchCore slot = (s, .ok l) → l.fev = true → l.gw = false → s.lineRead l = .good →
      (s.full l.key = false → Answers (.take part q) s fun t => mem t ∧ ∃ y, t.waiters = (s.waiters.filter fun w => w.src != .queue part q.val) ++ [y] ∧
        y.key = settOf l.key ∧ y.cond = .full ∧ y.src = .queue part q.val) ∧
      (s.full l.key = true → s.valueAt l.key 8 % 64 = 0 → s.unitGetMany part p.benchCore (s.valueAt l.key 8) 256 = (u, .ok k) → kcbAt k 40 8 = 0 →
        (∀ m ∈ s.nodes, m.id < s.nextNode) → Answers (.take part q) s fun t => t.full l.key = false ∧ t.mem = u.mem ∧ Event.nodeReady s.nextNode ∈ t.events ∧
          (vget (t.part part).queues q.val).head = (lq.head + 1) % 2 ^ lq.log2n ∧
          ∃ m, t.node s.nextNode = some m ∧ m.part = part ∧ m.q = q.val ∧ m.st = .taken ∧ m.kcb = BitVec.ofNat 64 (s.valueAt l.key 8) ∧
            m.entry = BitVec.ofNat 64 (kcbAt k 16 8) ∧ m.gsize = kcbAt k 6 1 ∧ m.prio = lq.prio ∧ m.reject = kcbReject k)) ∧
    (s.node nid = none → Idles (.nodeReady nid) s ∧ Idles (.age nid) s ∧ Idles (.nodeDone nid) s) ∧
    (s.node nid = some n → s.quiet n.part →
      (n.st = .taken → s.prevAllows n = false → Idles (.nodeReady nid) s) ∧
      (n.st = .taken → s.prevAllows n = true → n.reject ≠ 0 → (s.nodes.map Node.id).Nodup → Answers (.nodeReady nid) s fun t => mem t ∧
        Event.nodeDone nid ∈ t.events ∧ ∃ m, t.node nid = some m ∧ m.st = .done ∧ m.tiles = [] ∧ m.reject = n.reject ∧ m.done = n.done) ∧
      (n.st = .taken ∨ n.st = .waiting → s.prevAllows n = true → n.reject = 0 → n.preds = [0, 0, 0, 0] → s.tilesFree n = true →
        Answers (.nodeReady nid) s fun t => Event.select n.part ∈ t.events ∧ mem t ∧ ∃ m, t.node nid = some m ∧ m.st = .ready ∧
          m.prio = (vget (s.part n.part).queues n.q).prio ∧ m.eff = m.prio ∧ m.readyAt = s.pkg.time) ∧
      (n.st ≠ .ready → Idles (.age nid) s) ∧
      (n.st = .ready → (s.pkg.time - n.readyAt) / 1000000 = n.raises + 1 → Answers (.age nid) s fun t => mem t ∧
        t.node nid = some { n with raises := n.raises + 1, eff := if 7 ≤ n.eff then n.eff else n.eff + 1 } ∧ Event.select n.part ∈ t.events) ∧
      (n.st = .running → n.ended ≠ n.total → Idles (.nodeDone nid) s) ∧
      (n.st = .running ∧ n.ended = n.total ∨ n.st = .done → n.gw = none →
        s.resolveFor n.part (s.part n.part).benchCore n.done.toNat = (s, .ok l) → l.gw = false → l.wr = true → l.fev = true → s.lineRead l = .good →
        Memory.wf s.mem = true → Answers (.nodeDone nid) s fun t => t.node nid = none ∧ wroteOnly s t l.key 8 n.status (some true) ∧
          ∀ st ∈ t.others, st.nid = nid → st.status = .unbound)) ∧
    (s.quiet part → (∀ m ∈ s.nodes, m.part = part → m.st = .ready → (s.pkg.time - m.readyAt) / 1000000 ≤ m.raises) →
      (s.choose part = none → Answers (.select part) s fun t => t.nodes = s.nodes ∧ mem t) ∧
      (s.choose part = some n → s.bindingNode part = none → Answers (.select part) s fun t => t.node n.id = some { n with st := .binding, prio := n.eff } ∧
        (t.part part).order = p.order ++ [n.id] ∧ Event.bind part ∈ t.events ∧ mem t))

/-- 14 R298, R299, 19 R368 to R370, R372, R373: the binding node's next group is bound whole, each strand running at the node's entry with its arguments;
where it fits nowhere, for want of cores, barriers or image slots, the bench may take the cores of one group, whose strands leave them. A group that has
left is evicted, its cores free, where the eviction area has room for it, and later restored, its ready strands returning, unless a node of higher priority binds. Which cores and which victim the
bench takes among several is the model's (log entry 37). -/
def Obligations.GroupsBind : Prop :=
  ∀ (s u : State) (part cl : Nat) (cores : List Nat) (n : Node) (g : Group) (c : Nat),
    let no (x : Nat) : Nat := g.cluster * 48 + x
    let gid := g.id
    (s.bindingNode part = none → Idles (.bind part) s ∧ Idles (.benchPreempt part) s) ∧
    (s.bindingNode part = some n →
      let fits := decide (n.gsize ≤ (s.freeSlots n.part).length) && (s.pickCluster n).isSome
      (fits = false → Answers (.bind part) s fun t => t = s.due (.benchPreempt part)) ∧
      (n.part = part → n.gsize ≤ (s.freeSlots part).length → s.pickCluster n = some (cl, cores) → Answers (.bind part) s fun t =>
        (∃ h, t.group s.nextGroup = some h ∧ h.nid = n.id ∧ h.cluster = cl ∧ h.cores = cores ∧ h.gidx = n.nextG ∧ h.half = n.half ∧ h.evicted = false) ∧
        (∀ x ∈ cores, (t.core (cl * 48 + x)).owner = some s.nextGroup ∧ (t.core (cl * 48 + x)).cur = n.half) ∧
        ∀ i < n.gsize, ∃ st ∈ t.strands, st.id = 96 * (s.nextGroup + 1) + i ∧ st.status = .running ∧ st.gen.pc = n.entry ∧ st.gen.level = .k ∧
          st.half = n.half ∧ st.ident.gidx = BitVec.ofNat 32 n.nextG ∧ st.ident.sidx = BitVec.ofNat 7 i ∧ st.deleg = n.deleg ∧ st.ktvec = n.ktvec ∧
          ∀ j : Fin 15, vget st.gen.s (10 + j.val) = n.args.getD j.val 0) ∧
      ((s.groups.any fun h => h.part == part && h.pre) = true ∨ s.victim n = none ∨ fits = true → Idles (.benchPreempt part) s) ∧
      ((s.groups.any fun h => h.part == part && h.pre) = false → s.victim n = some g → fits = false →
        Answers (.benchPreempt part) s fun t => t.group gid = some { g with pre := true } ∧
          (s.others = [] → s.cur.gid = gid → s.cur.status = .running → s.cur.handling = false → s.cur.fault = none → t.cur.status = .saving))) ∧
    (s.group gid = none → Idles (.evict gid) s ∧ Idles (.evictRestore gid) s) ∧
    (s.group gid = some g →
      let slots := (s.freeEvSlots g.part).take g.cores.length
      let outranked := (s.bindingNode g.part).any fun m => decide ((s.node g.nid).elim 0 Node.prio < m.prio)
      let back : State := (g.cores.foldl (fun s x => s.takeCore (no x) gid g.half) s)
      let held : State := back.putCluster { back.cluster g.cluster with
        holders := g.bars.foldl (fun h b => vset h b (some gid)) (back.cluster g.cluster).holders }
      (g.evicted = true → Idles (.evict gid) s) ∧ (g.evicted = false ∨ outranked = true → Idles (.evictRestore gid) s) ∧
      (g.evicted = false → s.groupOff gid = true → slots.length < g.cores.length →
        (g.pre = false → Idles (.evict gid) s) ∧ (g.pre = true → Answers (.evict gid) s fun t => t.group gid = some { g with pre := false } ∧
          t.mem = s.mem ∧ ∀ st ∈ s.strands, st.gid = gid → st.status = .ready → Event.contextRestore st.id ∈ t.events)) ∧
      (g.evicted = false → s.groupOff gid = true → slots.length = g.cores.length → (∀ x ∈ g.cores, (s.core (no x)).owner = some gid) →
        (evictCores g (g.cores.zip slots) true s = (u, .ok ()) → Answers (.evict gid) s fun t =>
          t.group gid = some { g with pre := false, evicted := true, evSlots := slots } ∧ (∀ x ∈ g.cores, (t.core (no x)).owner = none) ∧
            Event.evictRestore gid ∈ t.events) ∧
        (evictCores g (g.cores.zip slots) true s = (u, .error c) → Answers (.evict gid) s fun t => t.group gid = some { g with pre := false })) ∧
      (g.evicted = true → outranked = false → (∀ x ∈ g.cores, (s.core (no x)).service = true ∧ (s.core (no x)).owner = none) →
        (∀ b ∈ g.bars, vget (s.cluster g.cluster).holders b = none) → (∃ st ∈ s.strands, st.gid = gid ∧ st.status = .ready) →
        restoreCores g (g.cores.zip g.evSlots) true held = (u, .ok ()) → Answers (.evictRestore gid) s fun t =>
          t.group gid = some { g with evicted := false, evSlots := [] } ∧ (∀ x ∈ g.cores, (t.core (no x)).owner = some gid) ∧
            ∀ st ∈ s.strands, st.gid = gid → st.status = .ready → Event.contextRestore st.id ∈ t.events))

/-! ## The package (14 R303, R318, 22 R401, R411, R414, R415, 24 R421 to R429, 25 R431, R433, R443, R444) -/

/-- 14 R303, R318, 22 R401, R411, R414, R415, 25 R431, R433, R443, R444: a hint joins the queue of its pseudo-channel, which holds eight, and opens its row
or is dropped and counted; an alert begins a back-off that pays the postponed refreshes. A retry of a link of the package counts in LINKRT; the third
failure in a row halves a link, or takes a cluster link, or one that is halved already, out of service; a base-die link out of service takes its partition out. A port
shows its state in PSTAT. Whether a refresh is postponed, and when the hint receiver takes a hint, is left free (log entry 13); that a refresh that is
made pays the postponed ones, and what PSTAT.SEC shows, is the model's (log entry 38). -/
def Obligations.BanksAndLinks : Prop :=
  ∀ (s : State) (st ch b row : Nat) (k : Link) (port part d : Nat) (p : Part),
    let bank (t : State) : BankSt := t.bank st ch b
    let same (t : State) : Prop := s.keepsStrands t ∧ t.mem = s.mem ∧ t.empties = s.empties
    let only (t : State) : Prop := same t ∧ ∀ x y z, (x, y, z) ≠ (st, ch, b) → t.bank x y z = s.bank x y z
    let others (t : State) : Prop := ∀ x y z, (x, y) ≠ (st, ch) → t.bank x y z = s.bank x y z
    let queued := s.pkg.hintq.filter fun h => h.stack == st && h.chan == ch
    let l := s.link k
    let stat (t : State) : BitVec 8 := vget t.pkg.pstat port
    let turned (hs : List Hint) (t : State) : Prop := ∃ out : List Hint, out.Sublist hs ∧
      (s.partOfDie (st / 2) = some p → (t.part p.id).hdrop = satInc p.hdrop out.length) ∧ ∀ x ∈ hs, x ∉ out → Event.hintRowClose st ch x.bank ∈ t.events
    let counted (t : State) : Prop := ∀ x, s.partOfDie (linkDie k) = some x → x.id = p.id → (t.part p.id).linkrt = satInc x.linkrt 1
    (8 ≤ queued.length → Answers (.hint st ch b row) s fun t => t.pkg.hintq = s.pkg.hintq ∧ same t ∧ (∀ x y z, t.bank x y z = s.bank x y z) ∧
      (s.partOfDie (st / 2) = some p → (t.part p.id).hints = satInc p.hints 1 ∧ (t.part p.id).hdrop = satInc p.hdrop 1)) ∧
    (queued.length < 8 → Answers (.hint st ch b row) s fun t => same t ∧ others t ∧ (s.partOfDie (st / 2) = some p → (t.part p.id).hints = satInc p.hints 1) ∧
      ((t.pkg.hintq = s.pkg.hintq ++ [⟨st, ch, b, row⟩] ∧ (∀ z, t.bank st ch z = s.bank st ch z) ∧
          (s.partOfDie (st / 2) = some p → (t.part p.id).hdrop = p.hdrop)) ∨
        (t.pkg.hintq = (s.pkg.hintq.filter fun h => !(h.stack == st && h.chan == ch)) ∧ turned (queued ++ [⟨st, ch, b, row⟩]) t ∧
          (queued = [] → (bank t = bank s ∧ (s.partOfDie (st / 2) = some p → (t.part p.id).hdrop = satInc p.hdrop 1)) ∨
            (bank t = { bank s with hinted := some row } ∧ (bank s).postponed < 8 ∧ (bank s).backoff = false ∧
              Event.hintRowClose st ch b ∈ t.events ∧ (s.partOfDie (st / 2) = some p → (t.part p.id).hdrop = p.hdrop)))))) ∧
    Answers (.hintRowClose st ch b) s (fun t => same t ∧ others t ∧ (queued = [] → bank t = { bank s with hinted := none } ∧ only t) ∧
      ((t.pkg.hintq = s.pkg.hintq ∧ bank t = { bank s with hinted := none } ∧ only t) ∨
        (t.pkg.hintq = (s.pkg.hintq.filter fun h => !(h.stack == st && h.chan == ch)) ∧ turned queued t))) ∧
    Answers (.refresh st ch b) s (fun t => (bank t = { bank s with postponed := min 8 ((bank s).postponed + 1)
                                                                   hinted := if (bank s).postponed < 8 then (bank s).hinted else none } ∨
      (bank t = { bank s with postponed := 0, hinted := none } ∧ (bank s).backoff = false)) ∧ only t) ∧
    Answers (.activationAlert st ch b) s (fun t => (bank t).backoff = true ∧ (bank t).postponed = 0 ∧ (bank t).hinted = none ∧
      (bank t).rfm = (bank s).rfm + 1 ∧ only t ∧ Event.backoffEnd st ch b ∈ t.events) ∧
    Answers (.backoffEnd st ch b) s (fun t => bank t = { bank s with backoff := false } ∧ only t) ∧
    (k.real = false → ∀ failed, Idles (.linkRetry k failed) s) ∧
    (k.real = true → Answers (.linkRetry k false) s fun t => (t.link k).fails = 0 ∧ (t.link k).oos = l.oos ∧ (t.link k).half = l.half ∧ counted t ∧ same t) ∧
    (k.real = true → Answers (.linkRetry k true) s fun t => counted t ∧ same t ∧
      (l.fails + 1 < 3 → (t.link k).fails = l.fails + 1 ∧ (t.link k).oos = l.oos ∧ (t.link k).half = l.half) ∧
      (3 ≤ l.fails + 1 → (t.link k).fails = 0 ∧ ((t.link k).oos = true ↔ l.oos = true ∨ l.half = true ∨ ∃ c x, k = .cluster c x) ∧
        ((t.link k).half = true ↔ l.half = true ∨ ¬ ∃ c x, k = .cluster c x) ∧
        (k = .base d → l.half = true → s.partOfDie (d / 2) = some p → p.id ∈ t.pkg.dead ∧ t.pkg.faultN = false))) ∧
    Answers (.tc0Window part d) s (fun t => (t.part part).tc0dem = satInc (s.part part).tc0dem d ∧ same t) ∧
    (port < 52 →
      (s.portOos port = true → Idles (.portLinkUp port) s) ∧
      (s.portOos port = false → Answers (.portLinkUp port) s fun t => stat t &&& 0x05 = 0x05 ∧ same t ∧
        stat t &&& 0x30 = if (s.link (.port port)).half then 0x10 else 0x20) ∧
      Answers (.portLinkDown port false) s (fun t => (stat t).getLsbD 0 = false ∧ (stat t).getLsbD 3 = (stat s).getLsbD 3 ∧ same t) ∧
      ((s.link (.port port)).half = false → Answers (.portLinkDown port true) s fun t =>
        (t.link (.port port)).half = true ∧ stat t &&& 0x30 = 0x10 ∧ (stat t).getLsbD 3 = (stat s).getLsbD 3 ∧ same t) ∧
      ((s.link (.port port)).half = true → Answers (.portLinkDown port true) s fun t =>
        (t.link (.port port)).oos = true ∧ (stat t).getLsbD 3 = true ∧ (stat t).getLsbD 0 = false ∧ same t) ∧
      Answers (.portFrameRetry port false) s (fun t => (t.link (.port port)).fails = 0 ∧ stat t = stat s ∧ same t) ∧
      (3 ≤ (s.link (.port port)).fails + 1 → (s.link (.port port)).half = false → Answers (.portFrameRetry port true) s fun t =>
        (t.link (.port port)).half = true ∧ stat t &&& 0x30 = 0x10 ∧ same t) ∧
      (3 ≤ (s.link (.port port)).fails + 1 → (s.link (.port port)).half = true → Answers (.portFrameRetry port true) s fun t =>
        (t.link (.port port)).oos = true ∧ (stat t).getLsbD 3 = true ∧ (stat t).getLsbD 0 = false ∧ same t) ∧
      ∀ locked, Answers (.ptpMessage port locked) s fun t => (stat t).getLsbD 1 = true ∧ t.pkg.lock = locked ∧ same t) ∧
    Answers .ptpLockLoss s (fun t => t = { s with pkg := { s.pkg with lock := false } })

/-- 14 R318, 24 R421 to R423, R427, R429: a window above 2,800 W lowers the clock by a step of 0.1 GHz, and at 0.8 GHz is a fatal error; a hot die lowers it
and THERM_ALERT_N falls; a step up comes 100 ms after a window below 95% of the limit; CLT_OK low sets 0.8 GHz, and after 1 s takes the power away. The arbiter
acts on an array whose corrected errors of an hour pass its threshold. A core out of service ends the groups on it. RESET_N, under power, and the return of
power leave the whole module as after reset, but for TIME, which the boot sets, the node number and the pins, unless a boot step fails (what survives,
what TIME is set to, how long THERM_ALERT_N stays low, the hour, and what a failed boot leaves are the model's, log entries 12, 14, 21, 38). -/
def Obligations.PowerAndReset : Prop :=
  ∀ (s : State) (watts die core rail array : Nat) (g : Group),
    let p := s.pkg
    let is (q : Pkg) (t : State) : Prop := t = { s with pkg := q }
    let down := max 8 (p.clk - 1)
    let resets (i : Instr) : Prop := Answers i s fun t => t = { State.reset with
      pkg := { State.reset.pkg with time := t.pkg.time, fnode := p.fnode, cltOk := p.cltOk, cltLowAt := p.cltLowAt, out := p.out
                                    clk := if p.cltOk then 14 else 8, noRaise := !p.cltOk }
      sched := s.sched, upsets := s.upsets, podLag := s.podLag, tick := s.tick }
    (2800 < watts → 8 < p.clk → Answers (.powerWindow watts) s (is { p with clk := down, noRaise := true })) ∧
    (2800 < watts → p.clk ≤ 8 → Answers (.powerWindow watts) s (is { p with fatal := true, faultN := false })) ∧
    (watts < 2660 → Answers (.powerWindow watts) s (is { p with noRaise := false, raiseAt := if p.noRaise then p.time else p.raiseAt })) ∧
    (2660 ≤ watts → watts ≤ 2800 → Answers (.powerWindow watts) s (is { p with noRaise := true })) ∧
    Answers (.thermalThreshold die) s (fun t => is { p with clk := down, thermN := false, noRaise := true, therm := t.pkg.therm } t ∧ die ∈ t.pkg.therm) ∧
    (p.noRaise = false → p.cltOk = true → p.raiseAt + 100000000 ≤ p.time →
      (13 ≤ p.clk → Answers .clockRaise s (is { p with clk := 14, raiseAt := p.time, therm := [], thermN := true })) ∧
      (p.clk < 13 → Answers .clockRaise s (is { p with clk := p.clk + 1, raiseAt := p.time }))) ∧
    (p.noRaise = true ∨ p.cltOk = false ∨ p.time < p.raiseAt + 100000000 → Idles .clockRaise s) ∧
    Answers .cltOkFall s (is { p with cltOk := false, clk := 8, cltLowAt := p.time, noRaise := true }) ∧ Answers .cltOkRise s (is { p with cltOk := true }) ∧
    (p.cltOk = true → Idles .coolantTimeout s) ∧
    (p.cltOk = false → Answers .coolantTimeout s (is { p with fatal := true, faultN := false, pgood := false, pwrEn := false })) ∧
    (p.noUv.contains rail = true → Idles (.undervoltWindow rail true) s) ∧
    (p.noUv.contains rail = false → Answers (.undervoltWindow rail true) s fun t => (rail, true) ∈ t.pkg.rails ∧ is { p with rails := t.pkg.rails } t) ∧
    Answers (.undervoltWindow rail false) s (fun t => (rail, true) ∉ t.pkg.rails ∧ is { p with rails := t.pkg.rails } t) ∧
    ((∃ a ∈ p.arrays, Config.railOf a.array = rail ∧ Config.failureRate a.array < a.under) → Answers (.undervoltReturn rail) s fun t =>
      (rail, true) ∉ t.pkg.rails ∧ t.pkg.noUv.contains rail = true ∧ is { p with rails := t.pkg.rails, noUv := t.pkg.noUv } t) ∧
    ((∀ a ∈ p.arrays, Config.railOf a.array = rail → a.under ≤ Config.failureRate a.array) → Idles (.undervoltReturn rail) s) ∧
    ((∃ a ∈ p.arrays, a.array = array ∧ Config.failureRate array < a.nominal) → Answers (.predictiveFailure array) s fun t =>
      array ∈ t.pkg.predicted ∧ is { p with predicted := t.pkg.predicted } t) ∧
    ((∀ a ∈ p.arrays, a.array = array → a.nominal ≤ Config.failureRate array) → Idles (.predictiveFailure array) s) ∧
    ((∀ x ∈ s.groups, ¬ (x.cluster = core / 48 ∧ core % 48 ∈ x.cores)) → Answers (.coreOutOfService core) s fun t =>
      t.core core = { s.core core with service := false } ∧ (∀ x, x ≠ core → t.core x = s.core x) ∧ s.keepsStrands t ∧ t.mem = s.mem) ∧
    (s.groups = [g] → g.cluster = core / 48 → core % 48 ∈ g.cores → (∀ x ∈ s.strands, x.gid = g.id) → Answers (.coreOutOfService core) s fun t =>
      (t.core core).service = false ∧ ∀ x ∈ t.strands, x.status = .ended) ∧
    (Upset.bootFails ∉ s.upsets → (p.pgood = true → resets .resetN) ∧ (p.cltOk = true → p.pwrEn = false ∨ p.pgood = false ∨ p.fatal = true → resets .pwrEn)) ∧
    (p.pgood = true → Upset.bootFails ∈ s.upsets → Answers .resetN s fun t => t.pkg.fatal = true ∧ t.pkg.faultN = false ∧ t.mem = []) ∧
    (p.pgood = false → Idles .resetN s) ∧ (p.cltOk = false → Idles .pwrEn s)

/-! ## Remote operations (25 R434 to R437) -/

/-- 25 R434 to R436, R442, R444: a packet that has come before changes nothing. An operation that passes its checks, and that no earlier one of its context must
precede, is applied at its home, counts at its port and is answered with reason 0: writes and reads of
one line, an atomic, and the forms on one sett, each as the local form of its name. A wait with time 0 ends at once with FEB, and one that has lasted its time
ends so; a job without an ingress entry is answered PRIV, and nothing is applied. An operation with REL, or of an ordered context, that comes before its turn
waits.

25 R437: the answer of a remote node completes what waits for it: a load writes its register with the data, over which bytes lie that its own buffer gave;
an error is its fault, deferred; and an answer that has not come in time is MEMUE. An answer to no request, or to one that has its answer, changes nothing.
That a request of a full/empty access names its whole sett, and that the load shifts its bytes out of it, is the model's (log entry 17), and so is
what counts as a packet that has come before (log entry 41). -/
def Obligations.RemoteWork : Prop :=
  (∀ (s : State) (op : RemoteOp) (l : Loc) (part : Nat) (w : RemoteWait),
     let remote : List Instr := [.remotePlainWrite op, .remotePlainRead op, .remoteAtomic op, .remoteFill op, .remoteSetFull op, .remoteWaitingRead op,
       .remoteConsumingRead op, .remoteTryConsume op, .remoteSetEmpty op, .remoteTryFill op]
     let inTurn : Prop := op.flags.getLsbD 0 = true ∨ op.ordered = true → (s.pdc op.pdc).next = op.psn ∧ (s.pdc op.pdc).late = []
     (s.repeated op = true → ∀ i ∈ remote, Idles i s) ∧ (s.repeated op = false → inTurn → s.upsets = [] → s.remotes = [] → Memory.wf s.mem = true → op.port < 52 →
     let acked (t : State) (reason : BitVec 8) (data : List Byte) (status : List Bool) : Prop :=
       t.pkg.out = s.pkg.out ++ [.ack op.port op.psn reason data status] ∧ t.remotes = [] ∧ t.cur.gen = s.cur.gen ∧ t.cur.files = s.cur.files
     let counts (t : State) : Prop := vget t.pkg.pdcnt op.port = vget s.pkg.pdcnt op.port + 1
     let passes (k : OpKind) (form : BitVec 8) (o : RemoteOp) : Prop := s.remoteCheck k { o with form := form } = .ok part ∧
       s.remoteLoc (s.part part) k { o with form := form } op.addr.toNat = .ok l ∧ s.lineRead l = .good ∧ s.lost part = false
     let wr : RemoteOp := { op with size := 0 }
     let rd : RemoteOp := { op with size := 0, data := [] }
     let v := s.valueAt l.key 8
     let keeps (t : State) (full : Bool) : Prop := (∀ a, Memory.get t.mem a = Memory.get s.mem a) ∧ (∀ a, settOf a ≠ settOf l.key → t.full a = s.full a) ∧
       t.full l.key = full
     let n := op.data.length
     (s.ingressOf op.job = none → opIll .write { op with form := 1, size := 0 } = false → Answers (.remoteFill op) s fun t =>
       acked t 0x02 [] [] ∧ t.mem = s.mem ∧ t.empties = s.empties) ∧
     (op.form = 0 → 0 < n → op.addr.toNat % 128 + n ≤ 128 → passes .write 0 { wr with len := n } →
       Answers (.remotePlainWrite op) s fun t => acked t 0 [] [] ∧ counts t ∧ wroteOnly s t l.key n (leValue op.data) none) ∧
     (op.form = 0 → 0 < op.len → op.addr.toNat % 128 + op.len ≤ 128 → passes .read 0 rd →
       Answers (.remotePlainRead op) s fun t => acked t 0 (leBytes (s.valueAt l.key op.len) op.len) [] ∧ counts t ∧ s.keepsMemory t) ∧
     (op.form = 0 → op.size = 8 → op.fn = 0 → 8 ≤ n → op.addr.toNat % 128 + 8 ≤ 128 → s.chains = [] → passes .atomic 0 { op with len := 8 } →
       Answers (.remoteAtomic op) s fun t => acked t 0 (leBytes v 8) [] ∧ counts t ∧ wroteOnly s t l.key 8 ((v + leValue (op.data.take 8)) % 2 ^ 64) none) ∧
     (op.len = 8 → n = 8 →
       (passes .write 1 wr →
         (s.full l.key = false → Answers (.remoteFill op) s fun t => acked t 0 [] [] ∧ counts t ∧ wroteOnly s t l.key 8 (leValue op.data) (some true)) ∧
         (s.full l.key = true → op.wait = 0 → Answers (.remoteFill op) s fun t => acked t 0x07 [] [] ∧ counts t ∧ keeps t true) ∧
         (s.full l.key = true → op.wait ≠ 0 → Answers (.remoteFill op) s fun t => counts t ∧ keeps t true ∧ t.pkg.out = s.pkg.out ∧
           ∃ y, t.waiters = s.waiters ++ [y] ∧ y.key = settOf l.key ∧ y.cond = .empty)) ∧
       (passes .write 2 wr → Answers (.remoteSetFull op) s fun t => acked t 0 [] [] ∧ counts t ∧ wroteOnly s t l.key 8 (leValue op.data) (some true)) ∧
       (passes .read 3 rd → s.full l.key = true → Answers (.remoteWaitingRead op) s fun t => acked t 0 (leBytes v 8) [] ∧ counts t ∧ keeps t true) ∧
       (passes .read 4 rd → s.full l.key = true → Answers (.remoteConsumingRead op) s fun t => acked t 0 (leBytes v 8) [] ∧ counts t ∧ keeps t false) ∧
       (passes .read 5 rd → Answers (.remoteTryConsume op) s fun t => counts t ∧ keeps t false ∧
         if s.full l.key then acked t 0 (leBytes v 8) [true] else acked t 0 (leBytes 0 8) [false]) ∧
       (passes .write 6 wr → Answers (.remoteSetEmpty op) s fun t => acked t 0 [] [] ∧ counts t ∧ keeps t false) ∧
       (passes .write 7 wr → Answers (.remoteTryFill op) s fun t => counts t ∧
         if s.full l.key then acked t 0 [] [true] ∧ keeps t true else acked t 0 [] [false] ∧ wroteOnly s t l.key 8 (leValue op.data) (some true))) ∧
     (Idles (.remoteWaitExpiry w.rid) s) ∧
     (w.op = op → w.waiter.isSome = true → Answers (.remoteWaitExpiry w.rid) { s with remotes := [w] } fun t => acked t 0x07 w.read w.status ∧ t.mem = s.mem ∧
       t.empties = s.empties ∧ ∀ y ∈ t.waiters, y.src ≠ .remote w.rid)) ∧
     (s.repeated op = false → op.flags.getLsbD 0 = true ∨ op.ordered = true → psnLt (s.pdc op.pdc).next op.psn = true → s.upsets = [] → s.remotes = [] →
       op.form = 0 → 0 < op.data.length → op.addr.toNat % 128 + op.data.length ≤ 128 → (∃ part, s.remoteCheck .write { op with size := 0, len := op.data.length } = .ok part) → Answers (.remotePlainWrite op) s fun t =>
         (∃ y, t.remotes = [y] ∧ y.op.psn = op.psn ∧ y.waiter = none) ∧ t.pkg.out = s.pkg.out ∧ t.mem = s.mem ∧ t.empties = s.empties)) ∧
  (∀ (s : State) (q : GwReq) (r : GwReply) (p : PendLoad),
     let st := s.cur
     let n := sizeBytes p.size
     let v := leValue (overlay (leBytes (leValue r.data >>> (8 * if p.plain then 0 else p.loc.key % 8)) n) p.fwd)
     let x : Word := if p.sext then BitVec.ofInt 64 (signedOf (8 * n) v) else BitVec.ofNat 64 (v % 2 ^ (8 * n))
     let fails (i : Instr) (cause : Nat) : Prop := Answers i s fun t => (∃ f, t.cur.fault = some f ∧ f.cause = cause ∧ f.val = faultVal cause p.loc.va ∧ f.deferred = true) ∧
       t.cur.pend = (st.pend.filter fun y => y.id != p.id) ∧ (∀ r, t.cur.gen.read r = st.gen.read r) ∧ t.mem = s.mem ∧ t.empties = s.empties
     (findBy GwReq.id q.id s.gwReqs = none ∨ (findBy GwReq.id q.id s.gwReqs = some q ∧ q.reply.isSome = true) →
       Idles (.gwAck q.id r) s ∧ Idles (.gwTimeout q.id) s) ∧
     (findBy GwReq.id q.id s.gwReqs = some q → q.reply = none → q.src = .load st.id p.id → findBy PendLoad.id p.id st.pend = some p → p.target = none →
       p.loc.gw = true → p.gw = some q.id → p.bad = none →
       (r.reason = 0 → (∀ i < 4, (vget st.bpctl i).getLsbD 0 = false) → Answers (.gwAck q.id r) s fun t =>
         t.cur.gen.read p.sd = (if p.sd = 0 then 0 else x) ∧ (∀ y, y ≠ p.sd → t.cur.gen.read y = st.gen.read y) ∧
         t.cur.pend = (st.pend.filter fun y => y.id != p.id) ∧ t.mem = s.mem ∧ t.empties = s.empties ∧ findBy GwReq.id q.id t.gwReqs = none) ∧
       (r.reason ≠ 0 → r.reason.toNat < 8 → st.fault = none → fails (.gwAck q.id r) r.reason.toNat) ∧ (st.fault = none → fails (.gwTimeout q.id) 0x06)))

/-! ## The machine: decoding, steps, reset, memory -/

/-- 02 R46, R50 to R55: for every well-formed generator instruction, the decoding of its encoding is the instruction. -/
def Obligations.GeneratorEncodingsDecode : Prop :=
  ∀ (i : Instr) (w : Nat), i.wf = true → encodeGen i = some w → decodeGen w = .ok i ∧ w < 2 ^ (16 * (w % 8 + 1))

/-- 02 R47, R48, R56 to R63: for every well-formed stream word, the decoding of its encoding is the word. -/
def Obligations.StreamEncodingsDecode : Prop :=
  ∀ (i : Instr) (w : Nat), i.wf = true → encodeStream i = some w → decodeStream w = .ok i ∧ w < 2 ^ (16 * (w % 8 + 1))

/-- 02 R43, R64: what decodes is well-formed, and is the encoding of what it decodes to, bit for bit; only hints, whose tails are ignored
(02 R65), have more encodings than one. -/
def Obligations.DecodedWordsAreEncodings : Prop :=
  ∀ (i : Instr) (w : Nat), w < 2 ^ (16 * (w % 8 + 1)) →
    (decodeGen w = .ok i → i.wf = true ∧ (encodeGen i = some w ∨ ∃ k tl a, i = .ghint k tl a)) ∧
    (decodeStream w = .ok i → i.wf = true ∧ (encodeStream i = some w ∨ ∃ k tl a, i = .vhint k tl a))

/-- Words whose bits the tables of forms in binary give (02, 04 R129, 05, 06, 07, 11, 14) decode to the forms beside them. -/
def Obligations.WordsOfTheTables : Prop :=
  (decodeGen 0x00A40C81).toOption = some (.add 3 4 5) ∧ (decodeGen 0xFFFFFFE61902).toOption = some (.addi 6 6 (-1)) ∧
  (decodeGen 0x000002051DBA).toOption = some (.ldW .b8 false 7 5 16) ∧ (decodeGen 0x2430).toOption = some (.fence .acq .dv) ∧
  (decodeGen 0x000001051E3A).toOption = some (.stF .b8 7 5 8) ∧ (decodeGen 0xFFFFFF840ED2).toOption = some (.blt 3 4 (-4)) ∧
  (decodeGen 0x0005000A2722).toOption = some (.emit 5 9 10 0) ∧ (decodeGen 0x2CA40F79).toOption = some (.tileset .bf16 3 4 5) ∧
  (decodeStream 0x0098920830C2).toOption = some (.vfadd 2 ⟨3, .f32, 8, 8, .v 24⟩) ∧ (decodeStream 0x00023080_80000603).toOption = some (.vldW .dv ⟨0, .f64, 0, 2⟩ (.x 2) none) ∧
  (decodeStream 0x08052102008A).toOption = some (.vcmplt ⟨0, .i32, 2, 4, .v 5⟩) ∧ (decodeStream 0x000204010002_0293).toOption = some (.aadd 0 1 2 ⟨0, .i8, 2, 0, 1⟩) ∧
  (decodeStream 0x000104029000031B).toOption = some (.mma 0 .f32 0 0 2 1 1 0 0) ∧ (decodeStream 0x00053100124A).toOption = some (.vsend 1 .i64 4 5) ∧
  (decodeStream 0x80030011).toOption = some (.vsetvl .f64 3 0)

/-- 02 R44, R64, 03 R94, R95: a step of the generator executes the instruction that its PC's bytes decode to, once they are fetched; bytes that
decode to none raise ILL. Whose turn it is, is the model's (log entry 4). -/
def Obligations.GeneratorStepsExecute : Prop :=
  ∀ (s u v : State) (w : Nat) (n : Word), s.genMoves u → u.cur.genReady = true → u.fetchAt u.cur.gen.pc 0 = (v, .ok (w, n)) →
    (v.fetched w n).cur.pcBreak = none →
    (∀ i, decodeGen w = .ok i → step s = ends (exec i (v.fetched w n))) ∧
    (∀ e, decodeGen w = .error e → step s = ends (genIll (v.fetched w n)))

/-- 02 R45, 03 R90, 06 R186: a step of the stream executes the word in progress, the word of its block, or the next word of its queue, once the
control writes before it have taken effect. Whose turn it is, is the model's (log entry 4). -/
def Obligations.StreamStepsExecute : Prop :=
  ∀ (s u : State) (i : Instr), s.streamMoves u →
    (∀ c, u.cur.cur = some c → (c.e.call = false ∨ c.blk = true) → decodeStream c.w = .ok i → step s = ends (exec i u)) ∧
    (u.cur.cur = none → u.cur.block.call = none → ∀ q k e, popQueue u.cur.queue u.cur.ctl = (q, k, some e) →
      (e.call = false → decodeStream e.bits = .ok i →
        step s = ends (exec i (u.onCur fun st => { st with queue := q, ctl := k, cur := some (Cur.fresh e) }))) ∧
      (e.call = true → step s =
        ends (exec (.blockCall (BitVec.ofNat 64 e.bits)) (u.onCur fun st => { st with queue := q, ctl := k, cur := some (Cur.fresh e) })))) ∧
    (∀ e v w n, u.cur.cur = none → u.cur.block.call = some e → u.fetchAt u.cur.block.spc 1 = (v, .ok (w, n)) → decodeStream w = .ok i →
      step s = ends (exec i (v.onCur fun st => { st with cur := some { Cur.fresh e with blk := true, spc := u.cur.block.spc, nspc := n, w := w } })))

/-- A step of the machine's own that is chosen, or due while no turn is chosen, is the instruction of the opcode table that it names (log entry
4), unless an earlier one of its home is to come first (14 R309); before a sample the streams of its core come to a word, and their generators to their next
instruction (23 R418, log entry 9). After a fatal error nothing runs but a reset or the return of power (24 R421, R429). -/
def Obligations.EventStepsExecute : Prop :=
  ∀ (s : State) (e : Event),
    (∀ n rest, s.goes → s.sched = .event n :: rest → s.events[n]? = some e → (s.events.take n).any (keepsBehind e) = false →
      s.sampleHeld e = false → step s = ends (exec (eventInstr e) ({ s with sched := rest, events := s.events.eraseIdx n }.beforeSample e))) ∧
    ((∀ core, e ≠ .sample core) → s.beforeSample e = s) ∧
    (s.goes → s.sched = [] → s.events.find? s.dueNow = some e →
      step s = ends (exec (eventInstr e) ({ s with events := s.events.erase e }.beforeSample e))) ∧
    (s.pkg.fatal = true → s.events.find? revives = some e → step s = ends (exec (eventInstr e) { s with events := s.events.erase e })) ∧
    (s.pkg.fatal = true → (∀ x ∈ s.events, revives x = false) → step s = .fault .fatalError)

/-- Values that the spec gives for reset: FCTL (01 R25), FENAB (R27), FSTAT (R26), SRSEED (R33), the amax histories (R38), VL, ROWS and ABLK (03 R76,
R77, R79), vector registers and tiles (15, 11 R247), CHKCTL and CHKCNT (08 R235), the trap vectors, MCTL (11 R248), VBYP (12 R270), PREMAX (13 R283),
breakpoints (R291), counters (R293), SMPCTL (R295), FEMODE and FEBUDGET (14 R306), HPCTL (16 R334), HMASK (22 R407), and memory, zero and full (17
R338). -/
def Obligations.ResetValues : Prop :=
  let s := State.reset
  let c := s.cur
  c.ctl.fctl = 0xF04 ∧ c.ctl.fenab = 0 ∧ c.fstat = 0 ∧ c.ctl.srseed = 1 ∧ (∀ h < 4, ∀ k < 16, vget (vget c.files.amh h).slots k = 0) ∧
  (∀ h < 4, (vget c.files.amh h).ap = 0) ∧ c.vl = 0 ∧ c.rows = 1 ∧ c.ctl.ablk = 4 ∧ (∀ v < 64, vget c.files.v v = 0) ∧ (∀ z < 8, vget c.files.z z = 0) ∧
  c.ctl.chkctl = 0x42 ∧ c.chkcnt = 0 ∧ c.ktvec = 0 ∧ c.stvec = 0 ∧ c.mctl = 0 ∧ c.vbyp = 0x10000 ∧ c.premax = 0x7D0 ∧
  (∀ i < 4, vget c.bpctl i = 0 ∧ vget c.bpval i = 0) ∧ c.ctl.femode = 1 ∧ c.ctl.febudget = 0x1000 ∧
  (∀ k, (s.core k).smpctl = 0x1000 ∧ (s.core k).pmovf = 0 ∧ (s.core k).pmlost = 0 ∧
    ∀ i < 16, vget (s.core k).pmsel i = 0 ∧ vget (s.core k).pmcnt i = 0) ∧
  (∀ d, (s.die d).hpctl = 0x1000028 ∧ (s.die d).hpptr = 0 ∧ (s.die d).pinskip = 0) ∧
  (s.part 0).hmask = 0x7FFFFFFC0 ∧ (∀ a, Memory.get s.mem a = 0 ∧ s.full a = true)

/-- The memory of the machine is in canonical form (the model's own form of it) at reset. -/
def Obligations.ResetMemoryForm : Prop := Memory.wf State.reset.mem = true

/-- Every step keeps the canonical form of memory: addresses strictly rising, and no entry equal to the zero that an unlisted byte reads as (17
R338; the form is the model's own). -/
def Obligations.StepKeepsMemoryForm : Prop :=
  ∀ (s t : State), Memory.wf s.mem = true → step s = .next t → Memory.wf t.mem = true
end

