-- ==== Sys2Proof/Laws/Bits.lean ====
section
/-!
SUPPORT. Laws of register files, bit fields and packed elements (01 R10): what an entry or element reads as after a write.
-/
namespace Sys2Proof.Machine

theorem vget_vset_same {α : Type} {n : Nat} [NeZero n] (v : Vector α n) (i : Nat) (a : α) : vget (vset v i a) i = a := by
  simp [vget, vset]

theorem vget_vset_ne {α : Type} {n : Nat} [NeZero n] (v : Vector α n) (i j : Nat) (a : α) (h : i % n ≠ j % n) :
    vget (vset v i a) j = vget v j := by
  simp only [vget, vset]; exact Vector.getElem_set_ne _ _ h

/-- A field replaced, bit by bit. -/
theorem testBit_putBits (x lo len v j : Nat) :
    (putBits x lo len v).testBit j = if lo ≤ j ∧ j < lo + len then v.testBit (j - lo) else x.testBit j := by
  have hx : x = 2 ^ (lo + len) * (x / 2 ^ (lo + len)) + (2 ^ lo * (x / 2 ^ lo % 2 ^ len) + x % 2 ^ lo) := by
    have h1 := Nat.div_add_mod x (2 ^ lo)
    have h2 := Nat.div_add_mod (x / 2 ^ lo) (2 ^ len)
    rw [Nat.pow_add, ← Nat.div_div_eq_div_mul, Nat.mul_assoc, ← Nat.add_assoc, ← Nat.mul_add, h2, h1]
  have hlo : x % 2 ^ lo < 2 ^ lo := Nat.mod_lt _ (Nat.two_pow_pos lo)
  have hb : ∀ y, 2 ^ lo * (y % 2 ^ len) + x % 2 ^ lo < 2 ^ (lo + len) := by
    intro y
    have : y % 2 ^ len < 2 ^ len := Nat.mod_lt _ (Nat.two_pow_pos len)
    calc 2 ^ lo * (y % 2 ^ len) + x % 2 ^ lo < 2 ^ lo * (y % 2 ^ len) + 2 ^ lo := by omega
      _ = 2 ^ lo * (y % 2 ^ len + 1) := by rw [Nat.mul_add, Nat.mul_one]
      _ ≤ 2 ^ lo * 2 ^ len := Nat.mul_le_mul_left _ this
      _ = 2 ^ (lo + len) := (Nat.pow_add ..).symm
  have e : putBits x lo len v = 2 ^ (lo + len) * (x / 2 ^ (lo + len)) + (2 ^ lo * (v % 2 ^ len) + x % 2 ^ lo) := by
    unfold putBits bits
    rw [Nat.shiftRight_eq_div_pow, Nat.shiftLeft_eq, Nat.shiftLeft_eq, Nat.mul_comm _ (2 ^ lo), Nat.mul_comm _ (2 ^ lo)]
    omega
  rw [e, Nat.testBit_two_pow_mul_add _ (hb v)]
  conv => rhs; rw [hx, Nat.testBit_two_pow_mul_add _ (hb _)]
  by_cases h1 : j < lo + len
  · rw [if_pos h1, if_pos h1, Nat.testBit_two_pow_mul_add _ hlo, Nat.testBit_two_pow_mul_add _ hlo]
    by_cases h2 : j < lo
    · rw [if_pos h2, if_pos h2, if_neg (by omega)]
    · rw [if_neg h2, if_pos ⟨by omega, h1⟩, Nat.testBit_mod_two_pow]
      simp; omega
  · rw [if_neg h1, if_neg h1, if_neg (by omega)]

theorem testBit_bits (x lo len j : Nat) : (bits x lo len).testBit j = (decide (j < len) && x.testBit (lo + j)) := by
  unfold bits; rw [Nat.testBit_mod_two_pow, Nat.testBit_shiftRight]

theorem bits_lt (x lo len : Nat) : bits x lo len < 2 ^ len := Nat.mod_lt _ (Nat.two_pow_pos len)

/-- The element that was written, as its low bits. -/
theorem elemGet_elemSet_same {n : Nat} (x : BitVec n) (w i v : Nat) (h : w * i + w ≤ n) : elemGet (elemSet x w i v) w i = v % 2 ^ w := by
  apply Nat.eq_of_testBit_eq
  intro j
  rw [elemGet, testBit_bits, elemSet, setField, BitVec.toNat_ofNat, Nat.testBit_mod_two_pow, Nat.testBit_mod_two_pow, testBit_putBits]
  by_cases hj : j < w
  · rw [if_pos ⟨by omega, by omega⟩]; simp [hj, show w * i + j < n by omega]
  · simp [hj]

/-- Every other element. -/
theorem elemGet_elemSet_ne {n : Nat} (x : BitVec n) (w i j v : Nat) (h : i ≠ j) : elemGet (elemSet x w i v) w j = elemGet x w j := by
  apply Nat.eq_of_testBit_eq
  intro b
  rw [elemGet, elemGet, testBit_bits, testBit_bits, elemSet, setField, BitVec.toNat_ofNat, Nat.testBit_mod_two_pow, testBit_putBits]
  by_cases hb : b < w
  · have : ¬ (w * i ≤ w * j + b ∧ w * j + b < w * i + w) := by
      rintro ⟨h1, h2⟩
      rcases Nat.lt_or_gt_of_ne h with hl | hl
      · have : w * (i + 1) ≤ w * j := Nat.mul_le_mul_left w hl
        rw [Nat.mul_add, Nat.mul_one] at this; omega
      · have : w * (j + 1) ≤ w * i := Nat.mul_le_mul_left w hl
        rw [Nat.mul_add, Nat.mul_one] at this; omega
    rw [if_neg this]
    by_cases hn : w * j + b < n
    · simp [hb, hn]
    · simp [hn]
      intro _
      exact Nat.testBit_lt_two_pow (Nat.lt_of_lt_of_le x.isLt (Nat.pow_le_pow_right (by omega) (by omega)))
  · simp [hb]

theorem elemGet_lt {n : Nat} (x : BitVec n) (w i : Nat) : elemGet x w i < 2 ^ w := bits_lt _ _ _

end Sys2Proof.Machine
end

