-- ==== Sys2Proof/Laws/State.lean ====
section
/-!
SUPPORT. Every field of the state after every update, one lemma each.
-/
namespace Sys2Proof.Machine

@[simp] theorem State.onCur_cur (s : State) (f : Strand → Strand) : (s.onCur f).cur = f s.cur := rfl
@[simp] theorem State.onCur_others (s : State) (f : Strand → Strand) : (s.onCur f).others = s.others := rfl
@[simp] theorem State.onCur_mem (s : State) (f : Strand → Strand) : (s.onCur f).mem = s.mem := rfl
@[simp] theorem State.onCur_empties (s : State) (f : Strand → Strand) : (s.onCur f).empties = s.empties := rfl
@[simp] theorem State.onCur_marks (s : State) (f : Strand → Strand) : (s.onCur f).marks = s.marks := rfl
@[simp] theorem State.onCur_waiters (s : State) (f : Strand → Strand) : (s.onCur f).waiters = s.waiters := rfl
@[simp] theorem State.onCur_nextWaiter (s : State) (f : Strand → Strand) : (s.onCur f).nextWaiter = s.nextWaiter := rfl
@[simp] theorem State.onCur_lines (s : State) (f : Strand → Strand) : (s.onCur f).lines = s.lines := rfl
@[simp] theorem State.onCur_cores (s : State) (f : Strand → Strand) : (s.onCur f).cores = s.cores := rfl
@[simp] theorem State.onCur_clusters (s : State) (f : Strand → Strand) : (s.onCur f).clusters = s.clusters := rfl
@[simp] theorem State.onCur_dies (s : State) (f : Strand → Strand) : (s.onCur f).dies = s.dies := rfl
@[simp] theorem State.onCur_parts (s : State) (f : Strand → Strand) : (s.onCur f).parts = s.parts := rfl
@[simp] theorem State.onCur_nodes (s : State) (f : Strand → Strand) : (s.onCur f).nodes = s.nodes := rfl
@[simp] theorem State.onCur_groups (s : State) (f : Strand → Strand) : (s.onCur f).groups = s.groups := rfl
@[simp] theorem State.onCur_nextNode (s : State) (f : Strand → Strand) : (s.onCur f).nextNode = s.nextNode := rfl
@[simp] theorem State.onCur_nextGroup (s : State) (f : Strand → Strand) : (s.onCur f).nextGroup = s.nextGroup := rfl
@[simp] theorem State.onCur_remotes (s : State) (f : Strand → Strand) : (s.onCur f).remotes = s.remotes := rfl
@[simp] theorem State.onCur_nextRemote (s : State) (f : Strand → Strand) : (s.onCur f).nextRemote = s.nextRemote := rfl
@[simp] theorem State.onCur_gwReqs (s : State) (f : Strand → Strand) : (s.onCur f).gwReqs = s.gwReqs := rfl
@[simp] theorem State.onCur_nextGw (s : State) (f : Strand → Strand) : (s.onCur f).nextGw = s.nextGw := rfl
@[simp] theorem State.onCur_chains (s : State) (f : Strand → Strand) : (s.onCur f).chains = s.chains := rfl
@[simp] theorem State.onCur_progs (s : State) (f : Strand → Strand) : (s.onCur f).progs = s.progs := rfl
@[simp] theorem State.onCur_nextKey (s : State) (f : Strand → Strand) : (s.onCur f).nextKey = s.nextKey := rfl
@[simp] theorem State.onCur_pkg (s : State) (f : Strand → Strand) : (s.onCur f).pkg = s.pkg := rfl
@[simp] theorem State.onCur_events (s : State) (f : Strand → Strand) : (s.onCur f).events = s.events := rfl
@[simp] theorem State.onCur_sched (s : State) (f : Strand → Strand) : (s.onCur f).sched = s.sched := rfl
@[simp] theorem State.onCur_upsets (s : State) (f : Strand → Strand) : (s.onCur f).upsets = s.upsets := rfl
@[simp] theorem State.onCur_podLag (s : State) (f : Strand → Strand) : (s.onCur f).podLag = s.podLag := rfl
@[simp] theorem State.onCur_tick (s : State) (f : Strand → Strand) : (s.onCur f).tick = s.tick := rfl
@[simp] theorem State.onCur_tally (s : State) (f : Strand → Strand) : (s.onCur f).tally = s.tally := rfl

@[simp] theorem State.putCore_cur (s : State) (c : CoreSt) : (s.putCore c).cur = s.cur := rfl
@[simp] theorem State.putCore_others (s : State) (c : CoreSt) : (s.putCore c).others = s.others := rfl
@[simp] theorem State.putCore_mem (s : State) (c : CoreSt) : (s.putCore c).mem = s.mem := rfl
@[simp] theorem State.putCore_empties (s : State) (c : CoreSt) : (s.putCore c).empties = s.empties := rfl
@[simp] theorem State.putCore_marks (s : State) (c : CoreSt) : (s.putCore c).marks = s.marks := rfl
@[simp] theorem State.putCore_waiters (s : State) (c : CoreSt) : (s.putCore c).waiters = s.waiters := rfl
@[simp] theorem State.putCore_nextWaiter (s : State) (c : CoreSt) : (s.putCore c).nextWaiter = s.nextWaiter := rfl
@[simp] theorem State.putCore_lines (s : State) (c : CoreSt) : (s.putCore c).lines = s.lines := rfl
@[simp] theorem State.putCore_cores (s : State) (c : CoreSt) : (s.putCore c).cores = putBy CoreSt.id c s.cores := rfl
@[simp] theorem State.putCore_clusters (s : State) (c : CoreSt) : (s.putCore c).clusters = s.clusters := rfl
@[simp] theorem State.putCore_dies (s : State) (c : CoreSt) : (s.putCore c).dies = s.dies := rfl
@[simp] theorem State.putCore_parts (s : State) (c : CoreSt) : (s.putCore c).parts = s.parts := rfl
@[simp] theorem State.putCore_nodes (s : State) (c : CoreSt) : (s.putCore c).nodes = s.nodes := rfl
@[simp] theorem State.putCore_groups (s : State) (c : CoreSt) : (s.putCore c).groups = s.groups := rfl
@[simp] theorem State.putCore_nextNode (s : State) (c : CoreSt) : (s.putCore c).nextNode = s.nextNode := rfl
@[simp] theorem State.putCore_nextGroup (s : State) (c : CoreSt) : (s.putCore c).nextGroup = s.nextGroup := rfl
@[simp] theorem State.putCore_remotes (s : State) (c : CoreSt) : (s.putCore c).remotes = s.remotes := rfl
@[simp] theorem State.putCore_nextRemote (s : State) (c : CoreSt) : (s.putCore c).nextRemote = s.nextRemote := rfl
@[simp] theorem State.putCore_gwReqs (s : State) (c : CoreSt) : (s.putCore c).gwReqs = s.gwReqs := rfl
@[simp] theorem State.putCore_nextGw (s : State) (c : CoreSt) : (s.putCore c).nextGw = s.nextGw := rfl
@[simp] theorem State.putCore_chains (s : State) (c : CoreSt) : (s.putCore c).chains = s.chains := rfl
@[simp] theorem State.putCore_progs (s : State) (c : CoreSt) : (s.putCore c).progs = s.progs := rfl
@[simp] theorem State.putCore_nextKey (s : State) (c : CoreSt) : (s.putCore c).nextKey = s.nextKey := rfl
@[simp] theorem State.putCore_pkg (s : State) (c : CoreSt) : (s.putCore c).pkg = s.pkg := rfl
@[simp] theorem State.putCore_events (s : State) (c : CoreSt) : (s.putCore c).events = s.events := rfl
@[simp] theorem State.putCore_sched (s : State) (c : CoreSt) : (s.putCore c).sched = s.sched := rfl
@[simp] theorem State.putCore_upsets (s : State) (c : CoreSt) : (s.putCore c).upsets = s.upsets := rfl
@[simp] theorem State.putCore_podLag (s : State) (c : CoreSt) : (s.putCore c).podLag = s.podLag := rfl
@[simp] theorem State.putCore_tick (s : State) (c : CoreSt) : (s.putCore c).tick = s.tick := rfl
@[simp] theorem State.putCore_tally (s : State) (c : CoreSt) : (s.putCore c).tally = s.tally := rfl

@[simp] theorem State.putCluster_cur (s : State) (c : ClusterSt) : (s.putCluster c).cur = s.cur := rfl
@[simp] theorem State.putCluster_others (s : State) (c : ClusterSt) : (s.putCluster c).others = s.others := rfl
@[simp] theorem State.putCluster_mem (s : State) (c : ClusterSt) : (s.putCluster c).mem = s.mem := rfl
@[simp] theorem State.putCluster_empties (s : State) (c : ClusterSt) : (s.putCluster c).empties = s.empties := rfl
@[simp] theorem State.putCluster_marks (s : State) (c : ClusterSt) : (s.putCluster c).marks = s.marks := rfl
@[simp] theorem State.putCluster_waiters (s : State) (c : ClusterSt) : (s.putCluster c).waiters = s.waiters := rfl
@[simp] theorem State.putCluster_nextWaiter (s : State) (c : ClusterSt) : (s.putCluster c).nextWaiter = s.nextWaiter := rfl
@[simp] theorem State.putCluster_lines (s : State) (c : ClusterSt) : (s.putCluster c).lines = s.lines := rfl
@[simp] theorem State.putCluster_cores (s : State) (c : ClusterSt) : (s.putCluster c).cores = s.cores := rfl
@[simp] theorem State.putCluster_clusters (s : State) (c : ClusterSt) : (s.putCluster c).clusters = putBy ClusterSt.id c s.clusters := rfl
@[simp] theorem State.putCluster_dies (s : State) (c : ClusterSt) : (s.putCluster c).dies = s.dies := rfl
@[simp] theorem State.putCluster_parts (s : State) (c : ClusterSt) : (s.putCluster c).parts = s.parts := rfl
@[simp] theorem State.putCluster_nodes (s : State) (c : ClusterSt) : (s.putCluster c).nodes = s.nodes := rfl
@[simp] theorem State.putCluster_groups (s : State) (c : ClusterSt) : (s.putCluster c).groups = s.groups := rfl
@[simp] theorem State.putCluster_nextNode (s : State) (c : ClusterSt) : (s.putCluster c).nextNode = s.nextNode := rfl
@[simp] theorem State.putCluster_nextGroup (s : State) (c : ClusterSt) : (s.putCluster c).nextGroup = s.nextGroup := rfl
@[simp] theorem State.putCluster_remotes (s : State) (c : ClusterSt) : (s.putCluster c).remotes = s.remotes := rfl
@[simp] theorem State.putCluster_nextRemote (s : State) (c : ClusterSt) : (s.putCluster c).nextRemote = s.nextRemote := rfl
@[simp] theorem State.putCluster_gwReqs (s : State) (c : ClusterSt) : (s.putCluster c).gwReqs = s.gwReqs := rfl
@[simp] theorem State.putCluster_nextGw (s : State) (c : ClusterSt) : (s.putCluster c).nextGw = s.nextGw := rfl
@[simp] theorem State.putCluster_chains (s : State) (c : ClusterSt) : (s.putCluster c).chains = s.chains := rfl
@[simp] theorem State.putCluster_progs (s : State) (c : ClusterSt) : (s.putCluster c).progs = s.progs := rfl
@[simp] theorem State.putCluster_nextKey (s : State) (c : ClusterSt) : (s.putCluster c).nextKey = s.nextKey := rfl
@[simp] theorem State.putCluster_pkg (s : State) (c : ClusterSt) : (s.putCluster c).pkg = s.pkg := rfl
@[simp] theorem State.putCluster_events (s : State) (c : ClusterSt) : (s.putCluster c).events = s.events := rfl
@[simp] theorem State.putCluster_sched (s : State) (c : ClusterSt) : (s.putCluster c).sched = s.sched := rfl
@[simp] theorem State.putCluster_upsets (s : State) (c : ClusterSt) : (s.putCluster c).upsets = s.upsets := rfl
@[simp] theorem State.putCluster_podLag (s : State) (c : ClusterSt) : (s.putCluster c).podLag = s.podLag := rfl
@[simp] theorem State.putCluster_tick (s : State) (c : ClusterSt) : (s.putCluster c).tick = s.tick := rfl
@[simp] theorem State.putCluster_tally (s : State) (c : ClusterSt) : (s.putCluster c).tally = s.tally := rfl

@[simp] theorem State.putDie_cur (s : State) (d : DieSt) : (s.putDie d).cur = s.cur := rfl
@[simp] theorem State.putDie_others (s : State) (d : DieSt) : (s.putDie d).others = s.others := rfl
@[simp] theorem State.putDie_mem (s : State) (d : DieSt) : (s.putDie d).mem = s.mem := rfl
@[simp] theorem State.putDie_empties (s : State) (d : DieSt) : (s.putDie d).empties = s.empties := rfl
@[simp] theorem State.putDie_marks (s : State) (d : DieSt) : (s.putDie d).marks = s.marks := rfl
@[simp] theorem State.putDie_waiters (s : State) (d : DieSt) : (s.putDie d).waiters = s.waiters := rfl
@[simp] theorem State.putDie_nextWaiter (s : State) (d : DieSt) : (s.putDie d).nextWaiter = s.nextWaiter := rfl
@[simp] theorem State.putDie_lines (s : State) (d : DieSt) : (s.putDie d).lines = s.lines := rfl
@[simp] theorem State.putDie_cores (s : State) (d : DieSt) : (s.putDie d).cores = s.cores := rfl
@[simp] theorem State.putDie_clusters (s : State) (d : DieSt) : (s.putDie d).clusters = s.clusters := rfl
@[simp] theorem State.putDie_dies (s : State) (d : DieSt) : (s.putDie d).dies = putBy DieSt.id d s.dies := rfl
@[simp] theorem State.putDie_parts (s : State) (d : DieSt) : (s.putDie d).parts = s.parts := rfl
@[simp] theorem State.putDie_nodes (s : State) (d : DieSt) : (s.putDie d).nodes = s.nodes := rfl
@[simp] theorem State.putDie_groups (s : State) (d : DieSt) : (s.putDie d).groups = s.groups := rfl
@[simp] theorem State.putDie_nextNode (s : State) (d : DieSt) : (s.putDie d).nextNode = s.nextNode := rfl
@[simp] theorem State.putDie_nextGroup (s : State) (d : DieSt) : (s.putDie d).nextGroup = s.nextGroup := rfl
@[simp] theorem State.putDie_remotes (s : State) (d : DieSt) : (s.putDie d).remotes = s.remotes := rfl
@[simp] theorem State.putDie_nextRemote (s : State) (d : DieSt) : (s.putDie d).nextRemote = s.nextRemote := rfl
@[simp] theorem State.putDie_gwReqs (s : State) (d : DieSt) : (s.putDie d).gwReqs = s.gwReqs := rfl
@[simp] theorem State.putDie_nextGw (s : State) (d : DieSt) : (s.putDie d).nextGw = s.nextGw := rfl
@[simp] theorem State.putDie_chains (s : State) (d : DieSt) : (s.putDie d).chains = s.chains := rfl
@[simp] theorem State.putDie_progs (s : State) (d : DieSt) : (s.putDie d).progs = s.progs := rfl
@[simp] theorem State.putDie_nextKey (s : State) (d : DieSt) : (s.putDie d).nextKey = s.nextKey := rfl
@[simp] theorem State.putDie_pkg (s : State) (d : DieSt) : (s.putDie d).pkg = s.pkg := rfl
@[simp] theorem State.putDie_events (s : State) (d : DieSt) : (s.putDie d).events = s.events := rfl
@[simp] theorem State.putDie_sched (s : State) (d : DieSt) : (s.putDie d).sched = s.sched := rfl
@[simp] theorem State.putDie_upsets (s : State) (d : DieSt) : (s.putDie d).upsets = s.upsets := rfl
@[simp] theorem State.putDie_podLag (s : State) (d : DieSt) : (s.putDie d).podLag = s.podLag := rfl
@[simp] theorem State.putDie_tick (s : State) (d : DieSt) : (s.putDie d).tick = s.tick := rfl
@[simp] theorem State.putDie_tally (s : State) (d : DieSt) : (s.putDie d).tally = s.tally := rfl

@[simp] theorem State.putPart_cur (s : State) (p : Part) : (s.putPart p).cur = s.cur := rfl
@[simp] theorem State.putPart_others (s : State) (p : Part) : (s.putPart p).others = s.others := rfl
@[simp] theorem State.putPart_mem (s : State) (p : Part) : (s.putPart p).mem = s.mem := rfl
@[simp] theorem State.putPart_empties (s : State) (p : Part) : (s.putPart p).empties = s.empties := rfl
@[simp] theorem State.putPart_marks (s : State) (p : Part) : (s.putPart p).marks = s.marks := rfl
@[simp] theorem State.putPart_waiters (s : State) (p : Part) : (s.putPart p).waiters = s.waiters := rfl
@[simp] theorem State.putPart_nextWaiter (s : State) (p : Part) : (s.putPart p).nextWaiter = s.nextWaiter := rfl
@[simp] theorem State.putPart_lines (s : State) (p : Part) : (s.putPart p).lines = s.lines := rfl
@[simp] theorem State.putPart_cores (s : State) (p : Part) : (s.putPart p).cores = s.cores := rfl
@[simp] theorem State.putPart_clusters (s : State) (p : Part) : (s.putPart p).clusters = s.clusters := rfl
@[simp] theorem State.putPart_dies (s : State) (p : Part) : (s.putPart p).dies = s.dies := rfl
@[simp] theorem State.putPart_parts (s : State) (p : Part) : (s.putPart p).parts = putBy Part.id p s.parts := rfl
@[simp] theorem State.putPart_nodes (s : State) (p : Part) : (s.putPart p).nodes = s.nodes := rfl
@[simp] theorem State.putPart_groups (s : State) (p : Part) : (s.putPart p).groups = s.groups := rfl
@[simp] theorem State.putPart_nextNode (s : State) (p : Part) : (s.putPart p).nextNode = s.nextNode := rfl
@[simp] theorem State.putPart_nextGroup (s : State) (p : Part) : (s.putPart p).nextGroup = s.nextGroup := rfl
@[simp] theorem State.putPart_remotes (s : State) (p : Part) : (s.putPart p).remotes = s.remotes := rfl
@[simp] theorem State.putPart_nextRemote (s : State) (p : Part) : (s.putPart p).nextRemote = s.nextRemote := rfl
@[simp] theorem State.putPart_gwReqs (s : State) (p : Part) : (s.putPart p).gwReqs = s.gwReqs := rfl
@[simp] theorem State.putPart_nextGw (s : State) (p : Part) : (s.putPart p).nextGw = s.nextGw := rfl
@[simp] theorem State.putPart_chains (s : State) (p : Part) : (s.putPart p).chains = s.chains := rfl
@[simp] theorem State.putPart_progs (s : State) (p : Part) : (s.putPart p).progs = s.progs := rfl
@[simp] theorem State.putPart_nextKey (s : State) (p : Part) : (s.putPart p).nextKey = s.nextKey := rfl
@[simp] theorem State.putPart_pkg (s : State) (p : Part) : (s.putPart p).pkg = s.pkg := rfl
@[simp] theorem State.putPart_events (s : State) (p : Part) : (s.putPart p).events = s.events := rfl
@[simp] theorem State.putPart_sched (s : State) (p : Part) : (s.putPart p).sched = s.sched := rfl
@[simp] theorem State.putPart_upsets (s : State) (p : Part) : (s.putPart p).upsets = s.upsets := rfl
@[simp] theorem State.putPart_podLag (s : State) (p : Part) : (s.putPart p).podLag = s.podLag := rfl
@[simp] theorem State.putPart_tick (s : State) (p : Part) : (s.putPart p).tick = s.tick := rfl
@[simp] theorem State.putPart_tally (s : State) (p : Part) : (s.putPart p).tally = s.tally := rfl

@[simp] theorem State.count_cur (s : State) (e n : Nat) : (s.count e n).cur = s.cur := rfl
@[simp] theorem State.count_others (s : State) (e n : Nat) : (s.count e n).others = s.others := rfl
@[simp] theorem State.count_mem (s : State) (e n : Nat) : (s.count e n).mem = s.mem := rfl
@[simp] theorem State.count_empties (s : State) (e n : Nat) : (s.count e n).empties = s.empties := rfl
@[simp] theorem State.count_marks (s : State) (e n : Nat) : (s.count e n).marks = s.marks := rfl
@[simp] theorem State.count_waiters (s : State) (e n : Nat) : (s.count e n).waiters = s.waiters := rfl
@[simp] theorem State.count_nextWaiter (s : State) (e n : Nat) : (s.count e n).nextWaiter = s.nextWaiter := rfl
@[simp] theorem State.count_lines (s : State) (e n : Nat) : (s.count e n).lines = s.lines := rfl
@[simp] theorem State.count_cores (s : State) (e n : Nat) : (s.count e n).cores = s.cores := rfl
@[simp] theorem State.count_clusters (s : State) (e n : Nat) : (s.count e n).clusters = s.clusters := rfl
@[simp] theorem State.count_dies (s : State) (e n : Nat) : (s.count e n).dies = s.dies := rfl
@[simp] theorem State.count_parts (s : State) (e n : Nat) : (s.count e n).parts = s.parts := rfl
@[simp] theorem State.count_nodes (s : State) (e n : Nat) : (s.count e n).nodes = s.nodes := rfl
@[simp] theorem State.count_groups (s : State) (e n : Nat) : (s.count e n).groups = s.groups := rfl
@[simp] theorem State.count_nextNode (s : State) (e n : Nat) : (s.count e n).nextNode = s.nextNode := rfl
@[simp] theorem State.count_nextGroup (s : State) (e n : Nat) : (s.count e n).nextGroup = s.nextGroup := rfl
@[simp] theorem State.count_remotes (s : State) (e n : Nat) : (s.count e n).remotes = s.remotes := rfl
@[simp] theorem State.count_nextRemote (s : State) (e n : Nat) : (s.count e n).nextRemote = s.nextRemote := rfl
@[simp] theorem State.count_gwReqs (s : State) (e n : Nat) : (s.count e n).gwReqs = s.gwReqs := rfl
@[simp] theorem State.count_nextGw (s : State) (e n : Nat) : (s.count e n).nextGw = s.nextGw := rfl
@[simp] theorem State.count_chains (s : State) (e n : Nat) : (s.count e n).chains = s.chains := rfl
@[simp] theorem State.count_progs (s : State) (e n : Nat) : (s.count e n).progs = s.progs := rfl
@[simp] theorem State.count_nextKey (s : State) (e n : Nat) : (s.count e n).nextKey = s.nextKey := rfl
@[simp] theorem State.count_pkg (s : State) (e n : Nat) : (s.count e n).pkg = s.pkg := rfl
@[simp] theorem State.count_events (s : State) (e n : Nat) : (s.count e n).events = s.events := rfl
@[simp] theorem State.count_sched (s : State) (e n : Nat) : (s.count e n).sched = s.sched := rfl
@[simp] theorem State.count_upsets (s : State) (e n : Nat) : (s.count e n).upsets = s.upsets := rfl
@[simp] theorem State.count_podLag (s : State) (e n : Nat) : (s.count e n).podLag = s.podLag := rfl
@[simp] theorem State.count_tick (s : State) (e n : Nat) : (s.count e n).tick = s.tick := rfl
@[simp] theorem State.count_tally (s : State) (e n : Nat) : (s.count e n).tally = ⟨s.cur.coreNo, s.cur.stratB, e, n⟩ :: s.tally := rfl

@[simp] theorem State.putNode_cur (s : State) (n : Node) : (s.putNode n).cur = s.cur := rfl
@[simp] theorem State.putNode_others (s : State) (n : Node) : (s.putNode n).others = s.others := rfl
@[simp] theorem State.putNode_mem (s : State) (n : Node) : (s.putNode n).mem = s.mem := rfl
@[simp] theorem State.putNode_empties (s : State) (n : Node) : (s.putNode n).empties = s.empties := rfl
@[simp] theorem State.putNode_marks (s : State) (n : Node) : (s.putNode n).marks = s.marks := rfl
@[simp] theorem State.putNode_waiters (s : State) (n : Node) : (s.putNode n).waiters = s.waiters := rfl
@[simp] theorem State.putNode_nextWaiter (s : State) (n : Node) : (s.putNode n).nextWaiter = s.nextWaiter := rfl
@[simp] theorem State.putNode_lines (s : State) (n : Node) : (s.putNode n).lines = s.lines := rfl
@[simp] theorem State.putNode_cores (s : State) (n : Node) : (s.putNode n).cores = s.cores := rfl
@[simp] theorem State.putNode_clusters (s : State) (n : Node) : (s.putNode n).clusters = s.clusters := rfl
@[simp] theorem State.putNode_dies (s : State) (n : Node) : (s.putNode n).dies = s.dies := rfl
@[simp] theorem State.putNode_parts (s : State) (n : Node) : (s.putNode n).parts = s.parts := rfl
@[simp] theorem State.putNode_nodes (s : State) (n : Node) : (s.putNode n).nodes = putBy Node.id n s.nodes := rfl
@[simp] theorem State.putNode_groups (s : State) (n : Node) : (s.putNode n).groups = s.groups := rfl
@[simp] theorem State.putNode_nextNode (s : State) (n : Node) : (s.putNode n).nextNode = s.nextNode := rfl
@[simp] theorem State.putNode_nextGroup (s : State) (n : Node) : (s.putNode n).nextGroup = s.nextGroup := rfl
@[simp] theorem State.putNode_remotes (s : State) (n : Node) : (s.putNode n).remotes = s.remotes := rfl
@[simp] theorem State.putNode_nextRemote (s : State) (n : Node) : (s.putNode n).nextRemote = s.nextRemote := rfl
@[simp] theorem State.putNode_gwReqs (s : State) (n : Node) : (s.putNode n).gwReqs = s.gwReqs := rfl
@[simp] theorem State.putNode_nextGw (s : State) (n : Node) : (s.putNode n).nextGw = s.nextGw := rfl
@[simp] theorem State.putNode_chains (s : State) (n : Node) : (s.putNode n).chains = s.chains := rfl
@[simp] theorem State.putNode_progs (s : State) (n : Node) : (s.putNode n).progs = s.progs := rfl
@[simp] theorem State.putNode_nextKey (s : State) (n : Node) : (s.putNode n).nextKey = s.nextKey := rfl
@[simp] theorem State.putNode_pkg (s : State) (n : Node) : (s.putNode n).pkg = s.pkg := rfl
@[simp] theorem State.putNode_events (s : State) (n : Node) : (s.putNode n).events = s.events := rfl
@[simp] theorem State.putNode_sched (s : State) (n : Node) : (s.putNode n).sched = s.sched := rfl
@[simp] theorem State.putNode_upsets (s : State) (n : Node) : (s.putNode n).upsets = s.upsets := rfl
@[simp] theorem State.putNode_podLag (s : State) (n : Node) : (s.putNode n).podLag = s.podLag := rfl
@[simp] theorem State.putNode_tick (s : State) (n : Node) : (s.putNode n).tick = s.tick := rfl
@[simp] theorem State.putNode_tally (s : State) (n : Node) : (s.putNode n).tally = s.tally := rfl

@[simp] theorem State.putGroup_cur (s : State) (g : Group) : (s.putGroup g).cur = s.cur := rfl
@[simp] theorem State.putGroup_others (s : State) (g : Group) : (s.putGroup g).others = s.others := rfl
@[simp] theorem State.putGroup_mem (s : State) (g : Group) : (s.putGroup g).mem = s.mem := rfl
@[simp] theorem State.putGroup_empties (s : State) (g : Group) : (s.putGroup g).empties = s.empties := rfl
@[simp] theorem State.putGroup_marks (s : State) (g : Group) : (s.putGroup g).marks = s.marks := rfl
@[simp] theorem State.putGroup_waiters (s : State) (g : Group) : (s.putGroup g).waiters = s.waiters := rfl
@[simp] theorem State.putGroup_nextWaiter (s : State) (g : Group) : (s.putGroup g).nextWaiter = s.nextWaiter := rfl
@[simp] theorem State.putGroup_lines (s : State) (g : Group) : (s.putGroup g).lines = s.lines := rfl
@[simp] theorem State.putGroup_cores (s : State) (g : Group) : (s.putGroup g).cores = s.cores := rfl
@[simp] theorem State.putGroup_clusters (s : State) (g : Group) : (s.putGroup g).clusters = s.clusters := rfl
@[simp] theorem State.putGroup_dies (s : State) (g : Group) : (s.putGroup g).dies = s.dies := rfl
@[simp] theorem State.putGroup_parts (s : State) (g : Group) : (s.putGroup g).parts = s.parts := rfl
@[simp] theorem State.putGroup_nodes (s : State) (g : Group) : (s.putGroup g).nodes = s.nodes := rfl
@[simp] theorem State.putGroup_groups (s : State) (g : Group) : (s.putGroup g).groups = putBy Group.id g s.groups := rfl
@[simp] theorem State.putGroup_nextNode (s : State) (g : Group) : (s.putGroup g).nextNode = s.nextNode := rfl
@[simp] theorem State.putGroup_nextGroup (s : State) (g : Group) : (s.putGroup g).nextGroup = s.nextGroup := rfl
@[simp] theorem State.putGroup_remotes (s : State) (g : Group) : (s.putGroup g).remotes = s.remotes := rfl
@[simp] theorem State.putGroup_nextRemote (s : State) (g : Group) : (s.putGroup g).nextRemote = s.nextRemote := rfl
@[simp] theorem State.putGroup_gwReqs (s : State) (g : Group) : (s.putGroup g).gwReqs = s.gwReqs := rfl
@[simp] theorem State.putGroup_nextGw (s : State) (g : Group) : (s.putGroup g).nextGw = s.nextGw := rfl
@[simp] theorem State.putGroup_chains (s : State) (g : Group) : (s.putGroup g).chains = s.chains := rfl
@[simp] theorem State.putGroup_progs (s : State) (g : Group) : (s.putGroup g).progs = s.progs := rfl
@[simp] theorem State.putGroup_nextKey (s : State) (g : Group) : (s.putGroup g).nextKey = s.nextKey := rfl
@[simp] theorem State.putGroup_pkg (s : State) (g : Group) : (s.putGroup g).pkg = s.pkg := rfl
@[simp] theorem State.putGroup_events (s : State) (g : Group) : (s.putGroup g).events = s.events := rfl
@[simp] theorem State.putGroup_sched (s : State) (g : Group) : (s.putGroup g).sched = s.sched := rfl
@[simp] theorem State.putGroup_upsets (s : State) (g : Group) : (s.putGroup g).upsets = s.upsets := rfl
@[simp] theorem State.putGroup_podLag (s : State) (g : Group) : (s.putGroup g).podLag = s.podLag := rfl
@[simp] theorem State.putGroup_tick (s : State) (g : Group) : (s.putGroup g).tick = s.tick := rfl
@[simp] theorem State.putGroup_tally (s : State) (g : Group) : (s.putGroup g).tally = s.tally := rfl

@[simp] theorem State.due_cur (s : State) (e : Event) : (s.due e).cur = s.cur := rfl
@[simp] theorem State.due_others (s : State) (e : Event) : (s.due e).others = s.others := rfl
@[simp] theorem State.due_mem (s : State) (e : Event) : (s.due e).mem = s.mem := rfl
@[simp] theorem State.due_empties (s : State) (e : Event) : (s.due e).empties = s.empties := rfl
@[simp] theorem State.due_marks (s : State) (e : Event) : (s.due e).marks = s.marks := rfl
@[simp] theorem State.due_waiters (s : State) (e : Event) : (s.due e).waiters = s.waiters := rfl
@[simp] theorem State.due_nextWaiter (s : State) (e : Event) : (s.due e).nextWaiter = s.nextWaiter := rfl
@[simp] theorem State.due_lines (s : State) (e : Event) : (s.due e).lines = s.lines := rfl
@[simp] theorem State.due_cores (s : State) (e : Event) : (s.due e).cores = s.cores := rfl
@[simp] theorem State.due_clusters (s : State) (e : Event) : (s.due e).clusters = s.clusters := rfl
@[simp] theorem State.due_dies (s : State) (e : Event) : (s.due e).dies = s.dies := rfl
@[simp] theorem State.due_parts (s : State) (e : Event) : (s.due e).parts = s.parts := rfl
@[simp] theorem State.due_nodes (s : State) (e : Event) : (s.due e).nodes = s.nodes := rfl
@[simp] theorem State.due_groups (s : State) (e : Event) : (s.due e).groups = s.groups := rfl
@[simp] theorem State.due_nextNode (s : State) (e : Event) : (s.due e).nextNode = s.nextNode := rfl
@[simp] theorem State.due_nextGroup (s : State) (e : Event) : (s.due e).nextGroup = s.nextGroup := rfl
@[simp] theorem State.due_remotes (s : State) (e : Event) : (s.due e).remotes = s.remotes := rfl
@[simp] theorem State.due_nextRemote (s : State) (e : Event) : (s.due e).nextRemote = s.nextRemote := rfl
@[simp] theorem State.due_gwReqs (s : State) (e : Event) : (s.due e).gwReqs = s.gwReqs := rfl
@[simp] theorem State.due_nextGw (s : State) (e : Event) : (s.due e).nextGw = s.nextGw := rfl
@[simp] theorem State.due_chains (s : State) (e : Event) : (s.due e).chains = s.chains := rfl
@[simp] theorem State.due_progs (s : State) (e : Event) : (s.due e).progs = s.progs := rfl
@[simp] theorem State.due_nextKey (s : State) (e : Event) : (s.due e).nextKey = s.nextKey := rfl
@[simp] theorem State.due_pkg (s : State) (e : Event) : (s.due e).pkg = s.pkg := rfl
@[simp] theorem State.due_events (s : State) (e : Event) : (s.due e).events = s.events ++ [e] := rfl
@[simp] theorem State.due_sched (s : State) (e : Event) : (s.due e).sched = s.sched := rfl
@[simp] theorem State.due_upsets (s : State) (e : Event) : (s.due e).upsets = s.upsets := rfl
@[simp] theorem State.due_podLag (s : State) (e : Event) : (s.due e).podLag = s.podLag := rfl
@[simp] theorem State.due_tick (s : State) (e : Event) : (s.due e).tick = s.tick := rfl
@[simp] theorem State.due_tally (s : State) (e : Event) : (s.due e).tally = s.tally := rfl

end Sys2Proof.Machine
end

