-- ==== Sys2Proof/Laws/Sweep.lean ====
section
/-!
SUPPORT. Laws of the sweep over pods (03 R83 to R85, 05 R146): a word whose units neither wait nor fault ends, whatever the order in which
its pods move.
-/
namespace Sys2Proof.Machine

/-! ## Places -/

/-- Element widths. -/
def widthOk (w : Nat) : Prop := w = 4 ∨ w = 8 ∨ w = 16 ∨ w = 32 ∨ w = 64

theorem Ty_width_ok (t : Ty) : widthOk t.width := by cases t <;> simp [widthOk, Ty.width]

/-- The pod of element `i` with `L` lanes. -/
def podIdx (w L i : Nat) : Nat := i / (64 / w) % L / 8

theorem Strand.podOf_eq (st : Strand) (w i : Nat) : st.podOf w i = podIdx w st.lanes i := rfl

theorem Strand.lanes_cases (st : Strand) : st.lanes = 32 ∨ st.lanes = 64 := by
  unfold Strand.lanes; cases st.half <;> simp

theorem Strand.pods_lanes (st : Strand) : st.pods = st.lanes / 8 := by
  unfold Strand.pods Strand.lanes; cases st.half <;> rfl

/-- Place (r, i) is not before place (a, b). -/
def placeLe (a b r i : Nat) : Prop := a < r ∨ (a = r ∧ b ≤ i)

theorem not_posLt (a b r i : Nat) : posLt r i a b = false ↔ placeLe a b r i := by
  unfold posLt placeLe; simp only [Bool.or_eq_false_iff, Bool.and_eq_false_iff, decide_eq_false_iff_not, beq_eq_false_iff_ne]; omega

/-- Where `podNorm` puts a pod: at its end, or at an element of its own below VL, with no element of its own skipped. -/
theorem Strand.podNorm_spec (st : Strand) {w p row idx : Nat} (hw : widthOk w) (hp : p < st.lanes / 8) (hr : row < st.rows) :
    let q := st.podNorm w p row idx
    ((q.1 = st.rows ∧ q.2 = 0) ∨ (q.1 < st.rows ∧ q.2 < st.vl ∧ podIdx w st.lanes q.2 = p)) ∧ placeLe row idx q.1 q.2 ∧
      ∀ r i, r < st.rows → i < st.vl → podIdx w st.lanes i = p → placeLe row idx r i → placeLe q.1 q.2 r i := by
  intro q
  have hq : q = st.podNorm w p row idx := rfl
  unfold Strand.podNorm Strand.podBase at hq
  rw [if_neg (by omega)] at hq
  dsimp only at hq
  unfold placeLe podIdx
  have hK : 0 < 64 / w := by rcases hw with rfl | rfl | rfl | rfl | rfl <;> decide
  generalize 64 / w = K at *
  have lt (x i : Nat) : i < K * x ↔ i / K < x := by rw [Nat.div_lt_iff_lt_mul hK, Nat.mul_comm]
  have dm (x : Nat) : K * x / K = x := Nat.mul_div_cancel_left x hK
  have mono (i j : Nat) (h : i ≤ j) : i / K ≤ j / K := Nat.div_le_div_right h
  have e8 (y : Nat) : K * y + 8 * K = K * (y + 8) := by rw [Nat.mul_add, Nat.mul_comm 8 K]
  rw [← Nat.div_div_eq_div_mul, e8] at hq
  simp only [Nat.zero_mul, Nat.zero_add] at hq
  have f1 : ∀ a, a % st.lanes / 8 = p → ¬ a < 8 * p := by rcases st.lanes_cases with hL | hL <;> rw [hL] <;> omega
  rcases st.lanes_cases with hL | hL <;> rw [hL] at hq hp f1 ⊢ <;>
    (split at hq
     · rename_i h0; rw [lt] at h0
       split at hq
       · rw [hq]; dsimp only; rw [dm]
         refine ⟨Or.inr ⟨hr, ‹_›, by omega⟩, Or.inr ⟨rfl, ?_⟩, fun r i h1 h2 h3 h4 => ?_⟩
         · exact Nat.le_of_lt ((lt _ idx).2 h0)
         · rcases h4 with h4 | ⟨h4, h5⟩
           · exact Or.inl h4
           · have := mono _ _ h5
             exact Or.inr ⟨h4, by rw [← Nat.not_lt, lt]; omega⟩
       · rename_i hv
         split at hq
         · rename_i h; simp at h; rw [hq]; dsimp only; rw [dm]
           refine ⟨Or.inr ⟨by omega, h.2, by omega⟩, Or.inl (by omega), fun r i h1 h2 h3 h4 => ?_⟩
           rcases h4 with h4 | ⟨h4, h5⟩
           · by_cases hr1 : r = row + 1
             · exact Or.inr ⟨hr1.symm, by rw [← Nat.not_lt, lt]; exact f1 _ h3⟩
             · exact Or.inl (by omega)
           · exfalso
             have := mono _ _ h5
             refine hv (Nat.lt_of_le_of_lt ?_ h2); rw [← Nat.not_lt, lt]; omega
         · rename_i h; simp at h; rw [hq]; dsimp only
           refine ⟨Or.inl ⟨rfl, rfl⟩, Or.inl hr, fun r i h1 h2 h3 h4 => ?_⟩
           exfalso
           rcases h4 with h4 | ⟨h4, h5⟩
           · have := h (by omega)
             refine absurd (Nat.lt_of_le_of_lt ?_ h2) (Nat.not_lt.2 this); rw [← Nat.not_lt, lt]; exact f1 _ h3
           · have := mono _ _ h5
             refine hv (Nat.lt_of_le_of_lt ?_ h2); rw [← Nat.not_lt, lt]; omega
     · rename_i h0; rw [lt] at h0
       split at hq
       · rename_i h8; rw [lt] at h8
         split at hq
         · rw [hq]; dsimp only
           exact ⟨Or.inr ⟨hr, ‹_›, by omega⟩, Or.inr ⟨rfl, Nat.le_refl _⟩, fun r i h1 h2 h3 h4 => h4⟩
         · rename_i hv
           split at hq
           · rename_i h; simp at h; rw [hq]; dsimp only; rw [dm]
             refine ⟨Or.inr ⟨by omega, h.2, by omega⟩, Or.inl (by omega), fun r i h1 h2 h3 h4 => ?_⟩
             rcases h4 with h4 | ⟨h4, h5⟩
             · by_cases hr1 : r = row + 1
               · exact Or.inr ⟨hr1.symm, by rw [← Nat.not_lt, lt]; exact f1 _ h3⟩
               · exact Or.inl (by omega)
             · exfalso; omega
           · rename_i h; simp at h; rw [hq]; dsimp only
             refine ⟨Or.inl ⟨rfl, rfl⟩, Or.inl hr, fun r i h1 h2 h3 h4 => ?_⟩
             exfalso
             rcases h4 with h4 | ⟨h4, h5⟩
             · have := h (by omega)
               refine absurd (Nat.lt_of_le_of_lt ?_ h2) (Nat.not_lt.2 this); rw [← Nat.not_lt, lt]; exact f1 _ h3
             · omega
       · rename_i h8; rw [lt] at h8
         split at hq
         · rw [hq]; dsimp only; rw [dm]
           refine ⟨Or.inr ⟨hr, ‹_›, by omega⟩, Or.inr ⟨rfl, ?_⟩, fun r i h1 h2 h3 h4 => ?_⟩
           · exact Nat.le_of_lt ((lt _ idx).2 (by omega))
           · rcases h4 with h4 | ⟨h4, h5⟩
             · exact Or.inl h4
             · have := mono _ _ h5
               exact Or.inr ⟨h4, by rw [← Nat.not_lt, lt]; omega⟩
         · rename_i hv
           split at hq
           · rename_i h; simp at h; rw [hq]; dsimp only; rw [dm]
             refine ⟨Or.inr ⟨by omega, h.2, by omega⟩, Or.inl (by omega), fun r i h1 h2 h3 h4 => ?_⟩
             rcases h4 with h4 | ⟨h4, h5⟩
             · by_cases hr1 : r = row + 1
               · exact Or.inr ⟨hr1.symm, by rw [← Nat.not_lt, lt]; exact f1 _ h3⟩
               · exact Or.inl (by omega)
             · exfalso
               have := mono _ _ h5
               refine hv (Nat.lt_of_le_of_lt ?_ h2); rw [← Nat.not_lt, lt]; omega
           · rename_i h; simp at h; rw [hq]; dsimp only
             refine ⟨Or.inl ⟨rfl, rfl⟩, Or.inl hr, fun r i h1 h2 h3 h4 => ?_⟩
             exfalso
             rcases h4 with h4 | ⟨h4, h5⟩
             · have := h (by omega)
               refine absurd (Nat.lt_of_le_of_lt ?_ h2) (Nat.not_lt.2 this); rw [← Nat.not_lt, lt]; exact f1 _ h3
             · have := mono _ _ h5
               refine hv (Nat.lt_of_le_of_lt ?_ h2); rw [← Nat.not_lt, lt]; omega)

/-! ## What is left to do -/

/-- Whether the pods still have element (r, i) ahead. -/
def ahead (w L : Nat) (pods : List Pod) (x : Nat × Nat) : Bool :=
  match pods[podIdx w L x.2]? with
  | some q => !posLt x.1 x.2 q.row q.idx
  | none => false

theorem ahead_iff {w L : Nat} {pods : List Pod} {r i : Nat} :
    ahead w L pods (r, i) = true ↔ ∃ q, pods[podIdx w L i]? = some q ∧ placeLe q.row q.idx r i := by
  unfold ahead
  cases h : pods[podIdx w L i]? with
  | none => simp
  | some q => simp [← not_posLt]

/-- The elements of a tile. -/
def grid (R V : Nat) : List (Nat × Nat) := (List.range R).flatMap fun r => (List.range V).map fun i => (r, i)

theorem mem_grid {R V r i : Nat} : (r, i) ∈ grid R V ↔ r < R ∧ i < V := by
  simp [grid]

theorem grid_length (R V : Nat) : (grid R V).length = R * V := by
  induction R with
  | zero => simp [grid]
  | succ R ih =>
    have : grid (R + 1) V = grid R V ++ (List.range V).map fun i => (R, i) := by
      simp [grid, List.range_succ]
    rw [this, List.length_append, ih]; simp [Nat.add_mul]

theorem countP_lt {α : Type} {p q : α → Bool} {l : List α} (h : ∀ x ∈ l, q x = true → p x = true) {x : α} (hx : x ∈ l) (hp : p x = true)
    (hq : q x = false) : l.countP q < l.countP p := by
  induction l with
  | nil => cases hx
  | cons a t ih =>
    have ht : ∀ x ∈ t, q x = true → p x = true := fun y hy => h y (List.mem_cons_of_mem _ hy)
    have hle : t.countP q ≤ t.countP p := by
      clear ih hx
      induction t with
      | nil => simp
      | cons b u ihu =>
        have := ihu (fun y hy => h y (by simp at hy ⊢; rcases hy with rfl | hy <;> simp [*])) fun y hy => ht y (List.mem_cons_of_mem _ hy)
        have hb := ht b (List.mem_cons_self ..)
        simp only [List.countP_cons]
        cases h1 : q b <;> cases h2 : p b <;> simp_all <;> omega
    simp only [List.countP_cons]
    rcases List.mem_cons.1 hx with rfl | hx'
    · rw [hp, hq]; simp; omega
    · have := ih ht hx'
      have ha := h a (List.mem_cons_self ..)
      cases h1 : q a <;> cases h2 : p a <;> simp_all <;> omega

/-- Elements left. -/
def remaining (w L R V : Nat) (pods : List Pod) : Nat := (grid R V).countP (ahead w L pods)

theorem remaining_le (w L R V : Nat) (pods : List Pod) : remaining w L R V pods ≤ R * V := by
  unfold remaining; rw [← grid_length]; exact List.countP_le_length

/-- A pod that stands where it should: at its end, or at an element of its own with nothing done beyond it; it waits for nothing. -/
def Pod.inPlace (w L R V p : Nat) (q : Pod) : Prop :=
  (q.row < R → q.idx < V ∧ podIdx w L q.idx = p) ∧ q.done = [] ∧ q.waiter = none ∧ q.halt = false

/-- The state of a word whose sweep nothing disturbs. -/
structure Swept (w R V : Nat) (s : State) : Prop where
  width : widthOk w
  rows : s.cur.rows = R
  vl : s.cur.vl = V
  rowsLe : R ≤ 32
  vlLe : V ≤ 16384
  upsets : s.upsets = []
  due : s.cur.word.due = none
  brk : s.cur.word.brk = []
  goesOn : s.cur.status ≠ .saving
  pins : s.cur.word.pinEnd = 0
  len : s.cur.word.pods.length = s.cur.lanes / 8
  pods : ∀ (p : Nat) (q : Pod), s.cur.word.pods[p]? = some q → q.inPlace w s.cur.lanes R V p

theorem Strand.podNorm_inPlace {st : Strand} {w p row idx : Nat} (hw : widthOk w) (hp : p < st.lanes / 8) :
    (st.podAt (st.podNorm w p row idx)).inPlace w st.lanes st.rows st.vl p := by
  refine ⟨fun h => ?_, rfl, rfl, rfl⟩
  by_cases hr : row < st.rows
  · rcases (st.podNorm_spec hw hp hr (idx := idx)).1 with ⟨h1, -⟩ | ⟨-, h2, h3⟩
    · change (st.podNorm w p row idx).1 < _ at h; omega
    · exact ⟨h2, h3⟩
  · change (st.podNorm w p row idx).1 < _ at h
    unfold Strand.podNorm at h; rw [if_pos (by omega)] at h; exact absurd h (Nat.lt_irrefl _)

/-- Moving an open pod on leaves fewer elements. -/
theorem remaining_set {w L R V p : Nat} {pods : List Pod} {q q' : Pod} (hq : pods[p]? = some q) (hr : q.row < R)
    (hin : q.inPlace w L R V p) (hlt : posLt q.row q.idx q'.row q'.idx = true) :
    remaining w L R V (pods.set p q') < remaining w L R V pods := by
  obtain ⟨hv, hp⟩ := hin.1 hr
  have hlen : p < pods.length := by
    rcases Nat.lt_or_ge p pods.length with h | h
    · exact h
    · rw [List.getElem?_eq_none h] at hq; cases hq
  refine countP_lt (x := (q.row, q.idx)) ?_ (mem_grid.2 ⟨hr, hv⟩) ?_ ?_
  · rintro ⟨r, i⟩ - h
    rw [ahead_iff] at h ⊢
    obtain ⟨x, hx, hle⟩ := h
    by_cases hpi : podIdx w L i = p
    · rw [hpi, List.getElem?_set_self hlen] at hx
      cases hx
      refine ⟨q, by rw [hpi]; exact hq, ?_⟩
      unfold posLt at hlt; unfold placeLe at *; simp at hlt; omega
    · rw [List.getElem?_set_ne fun e => hpi e.symm] at hx
      exact ⟨x, hx, hle⟩
  · rw [ahead_iff]; exact ⟨q, by rw [hp]; exact hq, Or.inr ⟨rfl, Nat.le_refl _⟩⟩
  · unfold ahead; dsimp only; rw [hp, List.getElem?_set_self hlen]; simp [hlt]

/-! ## Rounds -/

/-- What one unit of a pod does in a word whose units neither wait nor fault: an invariant is kept and the pod goes to its next place. -/
def UnitKeeps (u : PodUnit) (w : Nat) (I : State → Prop) : Prop :=
  ∀ s p q, I s → s.cur.word.pods[p]? = some q → q.row < s.cur.rows →
    ∃ s' q', podUnit u w p s = (s', none, .whole) ∧ I s' ∧ s'.cur.word.pods = s.cur.word.pods.set p q' ∧
      posLt q.row q.idx q'.row q'.idx = true ∧ s'.cur.lanes = s.cur.lanes

theorem foldl_min_le (f : Nat → Nat) (l : List Nat) (b : Nat) : l.foldl (fun m p => min m (f p)) b ≤ b ∧ ∀ p ∈ l, l.foldl (fun m p => min m (f p)) b ≤ f p := by
  induction l generalizing b with
  | nil => simp
  | cons a t ih =>
    obtain ⟨h1, h2⟩ := ih (min b (f a))
    refine ⟨Nat.le_trans h1 (Nat.min_le_left ..), fun p hp => ?_⟩
    rcases List.mem_cons.1 hp with rfl | hp
    · exact Nat.le_trans h1 (Nat.min_le_right ..)
    · exact h2 p hp

theorem foldl_min_mem (f : Nat → Nat) (l : List Nat) (b : Nat) (h : l ≠ []) (hb : ∀ p ∈ l, f p < b) :
    ∃ p ∈ l, l.foldl (fun m p => min m (f p)) b = f p := by
  induction l generalizing b with
  | nil => exact absurd rfl h
  | cons a t ih =>
    simp only [List.foldl_cons]
    by_cases ht : t = []
    · subst ht; exact ⟨a, by simp, by have := hb a (by simp); simp; omega⟩
    · by_cases hm : ∀ p ∈ t, f p < min b (f a)
      · obtain ⟨p, hp, e⟩ := ih _ ht hm
        exact ⟨p, List.mem_cons_of_mem _ hp, e⟩
      · -- the least of the tail is not below `f a`
        have key : ∀ (l : List Nat) (b : Nat), (∃ p ∈ l, l.foldl (fun m p => min m (f p)) b = f p) ∨ l.foldl (fun m p => min m (f p)) b = b := by
          intro l
          induction l with
          | nil => intro b; exact Or.inr rfl
          | cons c u ihu =>
            intro b
            simp only [List.foldl_cons]
            rcases ihu (min b (f c)) with ⟨p, hp, e⟩ | e
            · exact Or.inl ⟨p, List.mem_cons_of_mem _ hp, e⟩
            · rcases Nat.le_total b (f c) with hc | hc
              · right; rw [e]; omega
              · left; exact ⟨c, List.mem_cons_self .., by rw [e]; omega⟩
        rcases key t (min b (f a)) with ⟨p, hp, e⟩ | e
        · exact ⟨p, List.mem_cons_of_mem _ hp, e⟩
        · exact ⟨a, List.mem_cons_self .., by rw [e]; have := hb a (List.mem_cons_self ..); omega⟩

/-- The pods that may move are open, and each is named once. -/
theorem State.eligible_open {s : State} {seq : Bool} {w t : Nat} {b : List Nat} {p : Nat} (h : p ∈ s.eligible seq w t b) :
    ∃ q, s.cur.word.pods[p]? = some q ∧ q.row < s.cur.rows := by
  unfold State.eligible at h
  dsimp only at h
  have : p ∈ (List.range s.cur.word.pods.length).filter fun p =>
      match s.cur.word.pods[p]? with | some q => decide (q.row < s.cur.rows) | none => false := by
    split at h <;> exact (List.mem_filter.1 h).1
  have := (List.mem_filter.1 this).2
  split at this
  · rename_i q hq; exact ⟨q, hq, by simpa using this⟩
  · cases this

theorem State.eligible_nodup (s : State) (seq : Bool) (w t : Nat) (b : List Nat) : (s.eligible seq w t b).Nodup := by
  unfold State.eligible
  dsimp only
  split <;> exact (List.nodup_range.filter _).filter _

theorem Swept.steps_lt {w R V : Nat} {s : State} (h : Swept w R V s) {p : Nat} {q : Pod} (hq : s.cur.word.pods[p]? = some q)
    (hr : q.row < s.cur.rows) : s.cur.podSteps w q < 2 ^ 32 := by
  have hv := ((h.pods p q hq).1 (h.rows ▸ hr)).1
  have hk : 0 < 64 / w * s.cur.lanes := by
    rcases s.cur.lanes_cases with e | e <;> rw [e] <;> rcases h.width with rfl | rfl | rfl | rfl | rfl <;> decide
  have h1 := h.vlLe
  have h2 := h.rowsLe
  have h3 := h.rows
  unfold Strand.podSteps
  rw [h.vl]
  generalize 64 / w * s.cur.lanes = c at *
  dsimp only
  have a1 : (V + c - 1) / c ≤ V := by
    rw [Nat.div_le_iff_le_mul hk]
    rcases V with _ | V
    · omega
    · have := Nat.le_mul_of_pos_right (V + 1) hk; omega
  have a2 : q.idx / c ≤ q.idx := Nat.div_le_self ..
  have a3 : q.row * ((V + c - 1) / c) ≤ 32 * 16384 := Nat.mul_le_mul (by omega) (by omega)
  omega

/-- Once every pod's lag has passed, some open pod may move. -/
theorem Swept.eligible_ne {w R V : Nat} {s : State} (h : Swept w R V s) (seq : Bool) {t : Nat} (ht : seq = true ∨ 24 ≤ t) {p : Nat} {q : Pod}
    (hq : s.cur.word.pods[p]? = some q) (hr : q.row < s.cur.rows) : s.eligible seq w t [] ≠ [] := by
  have hp : p < s.cur.word.pods.length := by
    rcases Nat.lt_or_ge p s.cur.word.pods.length with h | h
    · exact h
    · rw [List.getElem?_eq_none h] at hq; cases hq
  unfold State.eligible
  dsimp only
  generalize ho : (List.range s.cur.word.pods.length).filter (fun p =>
      match s.cur.word.pods[p]? with | some q => decide (q.row < s.cur.rows) | none => false) = open'
  have hmem : p ∈ open' := by rw [← ho]; exact List.mem_filter.2 ⟨List.mem_range.2 hp, by rw [hq]; simpa using hr⟩
  have hop : ∀ x ∈ open', ∃ y, s.cur.word.pods[x]? = some y ∧ y.row < s.cur.rows := by
    intro x hx
    rw [← ho] at hx
    have := (List.mem_filter.1 hx).2
    split at this
    · rename_i y hy; exact ⟨y, hy, by simpa using this⟩
    · cases this
  have hne : open' ≠ [] := List.ne_nil_of_mem hmem
  cases seq with
  | true =>
    simp only [if_true]
    obtain ⟨x, hx, e⟩ := foldl_min_mem (fun p => match s.cur.word.pods[p]? with | some q => q.row * 2 ^ 16 + q.idx | none => 0) open' (2 ^ 64) hne (by
      intro x hx
      obtain ⟨y, hy, hyr⟩ := hop x hx
      simp only [hy]
      have := ((h.pods x y hy).1 (h.rows ▸ hyr)).1
      have h1 := h.vlLe
      have h2 := h.rowsLe
      have h3 := h.rows
      omega)
    exact List.ne_nil_of_mem (List.mem_filter.2 ⟨hx, by rw [Bool.and_eq_true]; exact ⟨beq_iff_eq.2 e.symm, rfl⟩⟩)
  | false =>
    simp only [Bool.false_eq_true, if_false]
    have ht : 24 ≤ t := by simpa using ht
    obtain ⟨x, hx, e⟩ := foldl_min_mem (fun p => match s.cur.word.pods[p]? with | some q => s.cur.podSteps w q | none => 0) open' (2 ^ 32) hne (by
      intro x hx
      obtain ⟨y, hy, hyr⟩ := hop x hx
      simp only [hy]
      exact h.steps_lt hy hyr)
    have hlag : s.lag x ≤ t := by unfold State.lag; omega
    exact List.ne_nil_of_mem (List.mem_filter.2 ⟨hx, by
      rw [Bool.and_eq_true, Bool.and_eq_true]
      exact ⟨⟨rfl, decide_eq_true hlag⟩, decide_eq_true (Nat.lt_of_le_of_lt (Nat.le_of_eq e.symm) (Nat.lt_add_of_pos_right (by decide)))⟩⟩)

/-- A round moves every pod that may move, and leaves fewer elements. -/
theorem round_keeps {u : PodUnit} {w R V : Nat} {I : State → Prop} (hI : ∀ s, I s → Swept w R V s) (hu : UnitKeeps u w I) (el : List Nat)
    (s : State) (b : List Nat) (wh : Bool) (hs : I s) (hn : el.Nodup)
    (ho : ∀ p ∈ el, ∃ q, s.cur.word.pods[p]? = some q ∧ q.row < s.cur.rows) :
    ∃ s' wh', el.foldl (fun (a : State × Option Stop × List Nat × Bool) p =>
        match podUnit u w p a.1 with
        | (s, st, g) => (s, lowestStop a.2.1 st, if g == .blocked then p :: a.2.2.1 else a.2.2.1, a.2.2.2 || g == .whole))
        (s, none, b, wh) = (s', none, b, wh') ∧ I s' ∧ s'.cur.lanes = s.cur.lanes ∧
      remaining w s'.cur.lanes R V s'.cur.word.pods + el.length ≤ remaining w s.cur.lanes R V s.cur.word.pods := by
  induction el generalizing s wh with
  | nil => exact ⟨s, wh, rfl, hs, rfl, by simp⟩
  | cons p t ih =>
    obtain ⟨q, hq, hr⟩ := ho p (List.mem_cons_self ..)
    obtain ⟨s1, q', e, h1, hp, hlt, hl⟩ := hu s p q hs hq hr
    have hr1 : s1.cur.rows = s.cur.rows := ((hI s1 h1).rows).trans (hI s hs).rows.symm
    obtain ⟨s2, wh2, e2, h2, hl2, hm⟩ := ih s1 (wh || true) h1 (List.nodup_cons.1 hn).2 (by
      intro x hx
      obtain ⟨y, hy, hyr⟩ := ho x (List.mem_cons_of_mem _ hx)
      have hne : p ≠ x := fun e => (List.nodup_cons.1 hn).1 (e ▸ hx)
      exact ⟨y, by rw [hp, List.getElem?_set_ne hne]; exact hy, hr1 ▸ hyr⟩)
    refine ⟨s2, wh2, ?_, h2, hl2.trans hl, ?_⟩
    · rw [List.foldl_cons, ← e2]
      simp only [e, lowestStop]
      rfl
    · have hd := remaining_set hq ((hI s hs).rows ▸ hr) ((hI s hs).pods p q hq) hlt
      rw [hp, hl] at hm
      rw [List.length_cons]
      omega

/-- A sweep whose units neither wait nor fault ends with every pod at its end. -/
theorem sweepRounds_done {u : PodUnit} {w R V : Nat} {I : State → Prop} (seq : Bool) (hI : ∀ s, I s → Swept w R V s) (hu : UnitKeeps u w I)
    (fuel t : Nat) (s : State) (hs : I s) (hf : remaining w s.cur.lanes R V s.cur.word.pods + (24 - t) < fuel) :
    ∃ s', sweepRounds u seq false w fuel t [] s = (s', none) ∧ I s' ∧ s'.cur.podsDone = true := by
  induction fuel generalizing t s with
  | zero => omega
  | succ fuel ih =>
    rw [sweepRounds]
    dsimp only
    generalize hel : s.eligible seq w t [] = el
    by_cases hnil : el = []
    · subst hnil
      by_cases hc : seq = true ∨ 24 ≤ t
      · rw [if_pos (by simp; exact hc.imp id id)]
        refine ⟨s, rfl, hs, ?_⟩
        unfold Strand.podsDone
        rw [List.all_eq_true]
        intro q hq
        obtain ⟨p, hp, e⟩ := List.mem_iff_getElem.1 hq
        rcases Nat.lt_or_ge q.row s.cur.rows with hr | hr
        · exact absurd hel ((hI s hs).eligible_ne seq hc (p := p) (by rw [List.getElem?_eq_getElem hp, e]) hr)
        · simpa using hr
      · rw [if_neg (by
          intro h
          simp only [List.isEmpty_nil, Bool.true_and, Bool.or_eq_true, decide_eq_true_eq] at h
          exact hc h)]
        simp only [List.foldl_nil, Bool.false_and, Bool.false_eq_true, if_false]
        have : t < 24 := Nat.lt_of_not_le fun h => hc (.inr h)
        exact ih (t + 1) s hs (by omega)
    · rw [if_neg (by simp [hnil])]
      obtain ⟨s1, wh, e, h1, hl, hm⟩ := round_keeps hI hu el s [] false hs (hel ▸ s.eligible_nodup seq w t [])
        (fun p hp => State.eligible_open (by rw [hel]; exact hp))
      rw [e]
      simp only [Bool.false_and, Bool.false_eq_true, if_false]
      have : 1 ≤ el.length := List.length_pos_iff.2 hnil
      exact ih (t + 1) s1 h1 (by omega)

/-- A word whose units neither wait nor fault ends: `fin` acts on a state with every pod at its end. -/
theorem sweep_done {s : State} {u : PodUnit} {w R V : Nat} {I : State → Prop} (seq : Bool) (fin : State → Res)
    (hI : ∀ s, I s → Swept w R V s) (hu : UnitKeeps u w I) (hs : I (s.startSweep w)) (hst : (s.startSweep w).cur.stepping = false) :
    ∃ s', sweep s w seq u fin = fin s' ∧ I s' ∧ s'.cur.podsDone = true := by
  have hrc : (s.startSweep w).cur.rows * (s.startSweep w).cur.vl + 64 = s.cur.allRounds := by
    unfold State.startSweep; split <;> rfl
  unfold sweep sweepFrom
  rw [← hrc]
  dsimp only
  generalize s.startSweep w = s1 at *
  by_cases hd : s1.cur.podsDone = true
  · rw [if_pos (by rw [hd, (hI s1 hs).due]; rfl)]; exact ⟨s1, rfl, hs, hd⟩
  · rw [if_neg (by simp [hd])]
    generalize hbl : List.filter _ (List.range s1.cur.pods) = bl
    obtain rfl : bl = [] := by
      rw [← hbl, List.filter_eq_nil_iff]
      intro p hp
      cases hq : s1.cur.word.pods[p]? with
      | none => simp
      | some q => simp [((hI s1 hs).pods p q hq).2.2.1]
    rw [hst]
    have hb := hI s1 hs
    obtain ⟨s2, e, h2, hd2⟩ := sweepRounds_done (seq || false) hI hu (s1.cur.rows * s1.cur.vl + 64) 0 s1 hs (by
      have := remaining_le w s1.cur.lanes R V s1.cur.word.pods
      rw [hb.rows, hb.vl]; omega)
    rw [e]
    dsimp only
    rw [(hI s2 h2).due]
    dsimp only
    rw [if_pos hd2]
    exact ⟨s2, rfl, h2, hd2⟩

end Sys2Proof.Machine
end

