-- ==== Sys2Proof/Laws/Elem.lean ====
section
/-!
SUPPORT. Laws of element-wise words (05 R144 to R146): with no check that fails and no flag that traps, every active element gets its
result, whatever the order in which the pods move, and nothing else changes but flags and events.
-/
namespace Sys2Proof.Machine

/-- A state in which the word of `s1` has gone on: only its progress, the stream's files and the counters differ. -/
def During (s1 s : State) : Prop :=
  s = { s1 with cur := { s1.cur with files := s.cur.files, cur := s.cur.cur }, tally := s.tally }

theorem During.refl (s : State) : During s s := rfl

/-- What an element-wise word needs of its destination: how files take a result, and how it is read back. `keep` is what of the files
stays as it is. -/
structure Dest where
  put : Files → (r i v : Nat) → Files
  get : Files → (r i : Nat) → Nat
  norm : Nat → Nat
  keep : Files → Prop

/-- The laws of a destination of `R` rows and `V` elements. -/
structure Dest.ok (D : Dest) (R V : Nat) : Prop where
  get_put : ∀ f r i v r' i', r < R → i < V → r' < R → i' < V → D.get (D.put f r i v) r' i' = if r' = r ∧ i' = i then D.norm v else D.get f r' i'
  keep_put : ∀ f r i v, r < R → i < V → D.keep f → D.keep (D.put f r i v)

/-- The invariant of an element-wise word: what has been covered has its result, what has not is as at the start. -/
structure ElemInv (s1 : State) (w R V : Nat) (D : Dest) (res : Nat → Nat → Nat × Flags) (s : State) : Prop where
  swept : Swept w R V s
  same : During s1 s
  word : ∃ c : Cur, s.cur.cur = some { s1.cur.word with pods := c.pods, run := c.run, stage := 1 }
  keep : D.keep s.cur.files
  vals : ∀ r i, r < R → i < V → D.get s.cur.files r i =
    if s1.cur.word.mask.getLsbD i = true ∧ ahead w s1.cur.lanes s.cur.word.pods (r, i) = false then D.norm (res r i).1 else D.get s1.cur.files r i
  flags : ∀ b, s.cur.word.run.flags.getLsbD b = true ↔ ∃ r i, r < R ∧ i < V ∧ s1.cur.word.mask.getLsbD i = true ∧
    ahead w s1.cur.lanes s.cur.word.pods (r, i) = false ∧ (res r i).2.getLsbD b = true

theorem Run.raise_flags (r : Run) (row idx : Nat) (fl : Flags) : (r.raise row idx fl false).flags = r.flags ||| fl := by
  unfold Run.raise
  split
  · rename_i h
    have : fl = 0 := by simpa using h
    rw [this]; simp
  · rfl

theorem Run.raiseAll_flags (r : Run) (row : Nat) (out : List Raised) (h : ∀ o ∈ out, o.consult = false) (b : Nat) :
    (r.raiseAll row out).flags.getLsbD b = true ↔ r.flags.getLsbD b = true ∨ ∃ o ∈ out, o.flags.getLsbD b = true := by
  induction out generalizing r with
  | nil => simp [Run.raiseAll]
  | cons o t ih =>
    change ((r.raise row o.idx o.flags o.consult).raiseAll row t).flags.getLsbD b = true ↔ _
    rw [ih _ fun x hx => h x (List.mem_cons_of_mem _ hx), h o (List.mem_cons_self ..), Run.raise_flags]
    simp only [BitVec.getLsbD_or, Bool.or_eq_true, List.mem_cons, exists_eq_or_imp]
    exact or_assoc

/-- Puts of a row in the files. -/
def Dest.putAll (D : Dest) (f : Files) (r : Nat) (res : List (Nat × Nat)) : Files := res.foldl (fun f x => D.put f r x.1 x.2) f

theorem Dest.ok.putAll_keep {D : Dest} {R V : Nat} (h : D.ok R V) {r : Nat} (hr : r < R) (l : List (Nat × Nat)) (hl : ∀ x ∈ l, x.1 < V) (f : Files)
    (hf : D.keep f) : D.keep (D.putAll f r l) := by
  induction l generalizing f with
  | nil => exact hf
  | cons x t ih => exact ih (fun y hy => hl y (List.mem_cons_of_mem _ hy)) _ (h.keep_put f r x.1 x.2 hr (hl x (List.mem_cons_self ..)) hf)

theorem Dest.ok.putAll_get {D : Dest} {R V : Nat} (h : D.ok R V) {r : Nat} (hr : r < R) (els : List Nat) (g : Nat → Nat) (hl : ∀ x ∈ els, x < V)
    (f : Files) {r' i' : Nat} (hr' : r' < R) (hi' : i' < V) :
    D.get (D.putAll f r (els.map fun i => (i, g i))) r' i' = if r' = r ∧ i' ∈ els then D.norm (g i') else D.get f r' i' := by
  induction els generalizing f with
  | nil => simp [Dest.putAll]
  | cons x t ih =>
    change D.get (D.putAll (D.put f r x (g x)) r (t.map fun i => (i, g i))) r' i' = _
    rw [ih (fun y hy => hl y (List.mem_cons_of_mem _ hy)), h.get_put _ _ _ _ _ _ hr (hl x (List.mem_cons_self ..)) hr' hi']
    by_cases h1 : r' = r
    · by_cases h2 : i' ∈ t
      · simp [h1, h2]
      · by_cases h3 : i' = x
        · subst h3; simp [h1, h2]
        · simp [h1, h2, h3]
    · simp [h1]

theorem During.cur {s1 s : State} (h : During s1 s) : s.cur = { s1.cur with files := s.cur.files, cur := s.cur.cur } := by
  unfold During at h; exact congrArg State.cur h

theorem podIdx_group {w L i j : Nat} (h : i / (64 / w) = j / (64 / w)) : podIdx w L i = podIdx w L j := by unfold podIdx; rw [h]

/-- The active elements that a pod has before it in its element group. -/
def groupEls (k idx V : Nat) (mask : BitVec 1024) : List Nat :=
  (List.range k).filterMap fun j =>
    let i := idx / k * k + j
    if idx ≤ i && i < V && mask.getLsbD i && !([] : List Nat).contains i then some i else none

theorem mem_groupEls {k idx V i : Nat} {mask : BitVec 1024} (hk : 0 < k) :
    i ∈ groupEls k idx V mask ↔ i / k = idx / k ∧ idx ≤ i ∧ i < V ∧ mask.getLsbD i = true := by
  unfold groupEls
  simp only [List.mem_filterMap, List.mem_range, List.contains_nil, Bool.not_false, Bool.and_true]
  constructor
  · rintro ⟨j, hj, h⟩
    split at h
    · rename_i hc
      simp only [Bool.and_eq_true, decide_eq_true_eq] at hc
      cases h
      refine ⟨?_, hc.1.1, hc.1.2, hc.2⟩
      rw [Nat.mul_comm, Nat.mul_add_div hk, Nat.div_eq_of_lt hj, Nat.add_zero]
    · cases h
  · rintro ⟨h1, h2, h3, h4⟩
    have h5 := Nat.div_add_mod i k
    refine ⟨i % k, Nat.mod_lt _ hk, ?_⟩
    have e : idx / k * k + i % k = i := by rw [← h1, Nat.mul_comm]; exact h5
    rw [e, if_pos (by simp [h2, h3, h4])]

/-- What a unit of a pod leaves that did all it had before it in its group. -/
def State.unitDone (s : State) (p : Nat) (q : Pod) (next : Nat × Nat) (out : List Raised) : State :=
  (s.onWord fun c => { c with run := c.run.raiseAll q.row out, pods := c.pods.set p (s.cur.podAt next) }).count 0x04 1

theorem State.meetShadow_none {s : State} (h : s.upsets = []) (r g i : Nat) : s.meetShadow r g i = (s, none) := by
  unfold State.meetShadow State.shadowAt
  rw [h]
  split
  · rfl
  · rename_i h; split at h <;> cases h

/-- A unit that nothing disturbs. -/
theorem podUnit_did {u : PodUnit} {w p : Nat} {s s2 : State} {q : Pod} {out : List Raised} (hq : s.cur.word.pods[p]? = some q) (hd : q.done = [])
    (hh : q.halt = false) (hu : s.upsets = []) (h0 : groupEls (64 / w) q.idx s.cur.vl s.cur.word.mask = [] → s2 = s ∧ out = [])
    (h1 : groupEls (64 / w) q.idx s.cur.vl s.cur.word.mask ≠ [] →
      u s p q.row (groupEls (64 / w) q.idx s.cur.vl s.cur.word.mask) = (s2, .did out))
    (hp : s2.cur.word.pods = s.cur.word.pods) (hb : s2.cur.word.brk = []) (hn : s.cur.word.pinEnd = 0) (hc : s.cur.word.due = none)
    (hs : s.cur.status ≠ .saving) :
    podUnit u w p s = (s2.unitDone p q (s.cur.podNorm w p q.row ((q.idx / (64 / w) + 1) * (64 / w))) out, none, .whole) := by
  unfold podUnit
  rw [hq]
  dsimp only
  rw [if_neg (by simp [State.beyondPins, hn, hh, Strand.closed, hc, hs]), State.meetShadow_none hu, hd]
  dsimp only
  have e : (List.range (64 / w)).filterMap (fun j => if (decide (q.idx ≤ q.idx / (64 / w) * (64 / w) + j) && decide (q.idx / (64 / w) * (64 / w) + j < s.cur.vl) &&
      s.cur.word.mask.getLsbD (q.idx / (64 / w) * (64 / w) + j) && !([] : List Nat).contains (q.idx / (64 / w) * (64 / w) + j)) = true
      then some (q.idx / (64 / w) * (64 / w) + j) else none) = groupEls (64 / w) q.idx s.cur.vl s.cur.word.mask := rfl
  rw [e]
  generalize groupEls (64 / w) q.idx s.cur.vl s.cur.word.mask = els at *
  cases els with
  | nil =>
    obtain ⟨rfl, rfl⟩ := h0 rfl
    dsimp only [List.isEmpty_nil, if_true]
    simp only [hq, Option.all_some, beq_self_eq_true, Bool.and_self, if_true]
    have h4 : ((s2.onWord fun c => { c with run := c.run.raiseAll q.row [], pods := c.pods.set p (s2.cur.podAt (s2.cur.podNorm w p q.row ((q.idx / (64 / w) + 1) * (64 / w)))) }).count 0x04 1).cur.word.brk = [] := hb
    rw [h4]
    rfl
  | cons x l =>
    rw [h1 (by simp)]
    dsimp only [List.isEmpty_cons]
    rw [hp, hq]
    have h4 : ((s2.onWord fun c => { c with run := c.run.raiseAll q.row out, pods := c.pods.set p (s2.cur.podAt (s.cur.podNorm w p q.row ((q.idx / (64 / w) + 1) * (64 / w)))) }).count 0x04 1).cur.word.brk = [] := hb
    simp only [Bool.false_eq_true, if_false, Option.all_some, beq_self_eq_true, Bool.and_self, if_true]
    rw [h4]
    rfl

/-- One unit of an element-wise word. -/
theorem elemUnit_keeps {s1 : State} {w R V : Nat} {D : Dest} (hD : D.ok R V) {res : Nat → Nat → Nat × Flags}
    {op : State → (r i : Nat) → Nat × Flags} {put : State → (r i v : Nat) → State}
    (hput : ∀ s r i v, During s1 s → put s r i v = s.onCur fun st => { st with files := D.put st.files r i v })
    (hop : ∀ s r i, During s1 s → (∃ c : Cur, s.cur.cur = some { s1.cur.word with pods := c.pods, run := c.run, stage := 1 }) → D.keep s.cur.files →
      r < R → i < V → (∀ r', r' < R → D.get s.cur.files r' i =
        if r' < r ∧ s1.cur.word.mask.getLsbD i = true then D.norm (res r' i).1 else D.get s1.cur.files r' i) → op s r i = res r i)
    (hfp : ∀ r i, r < R → i < V → s1.cur.word.mask.getLsbD i = true → s1.cur.ctl.fpx (res r i).2 = false) :
    UnitKeeps (elemUnit op put) w (ElemInv s1 w R V D res) := by
  intro s p q hI hq hr
  have hw := hI.swept.width
  have hK : 0 < 64 / w := by rcases hw with rfl | rfl | rfl | rfl | rfl <;> decide
  have hrR : q.row < R := hI.swept.rows ▸ hr
  obtain ⟨hqV, hqp⟩ := (hI.swept.pods p q hq).1 hrR
  have hdone := (hI.swept.pods p q hq).2.1
  have hhalt := (hI.swept.pods p q hq).2.2.2
  have hcur := hI.same.cur
  have hlanes : s.cur.lanes = s1.cur.lanes := by rw [hcur]; rfl
  have hctl : s.cur.ctl = s1.cur.ctl := by rw [hcur]
  obtain ⟨c, hc⟩ := hI.word
  have hword : s.cur.word = { s1.cur.word with pods := c.pods, run := c.run, stage := 1 } := by unfold Strand.word; rw [hc]; rfl
  have hpl : p < s.cur.word.pods.length := by
    rcases Nat.lt_or_ge p s.cur.word.pods.length with h | h
    · exact h
    · rw [List.getElem?_eq_none h] at hq; cases hq
  have hp8 : p < s.cur.lanes / 8 := hI.swept.len ▸ hpl
  -- the elements of the unit
  have hmask : s.cur.word.mask = s1.cur.word.mask := by rw [hword]
  have hV : s.cur.vl = V := hI.swept.vl
  let els := groupEls (64 / w) q.idx V s1.cur.word.mask
  have hels : ∀ i, i ∈ els ↔ i / (64 / w) = q.idx / (64 / w) ∧ q.idx ≤ i ∧ i < V ∧ s1.cur.word.mask.getLsbD i = true := fun i => mem_groupEls hK
  have helsV : ∀ i ∈ els, i < V := fun i hi => ((hels i).1 hi).2.2.1
  -- an element of the pod's own that it has not passed is ahead
  have hahead : ∀ i, i / (64 / w) = q.idx / (64 / w) → q.idx ≤ i → ahead w s1.cur.lanes s.cur.word.pods (q.row, i) = true := by
    intro i h1 h2
    rw [ahead_iff]
    refine ⟨q, ?_, Or.inr ⟨rfl, h2⟩⟩
    rw [← hlanes, podIdx_group h1, hqp]; exact hq
  have hres : ∀ i ∈ els, op s q.row i = res q.row i := by
    intro i hi
    have h := (hels i).1 hi
    refine hop s q.row i hI.same hI.word hI.keep hrR h.2.2.1 ?_
    intro r' hr'
    rw [hI.vals r' i hr' h.2.2.1]
    have hpod : s.cur.word.pods[podIdx w s1.cur.lanes i]? = some q := by rw [← hlanes, podIdx_group h.1, hqp]; exact hq
    have hlt : ahead w s1.cur.lanes s.cur.word.pods (r', i) = false ↔ r' < q.row := by
      rw [← Bool.not_eq_true, ahead_iff, hpod]
      simp only [Option.some.injEq, exists_eq_left']
      unfold placeLe
      have := h.2.1
      omega
    simp only [hlt, and_comm]
  have hmap : els.map (fun i => (i, op s q.row i)) = els.map fun i => (i, res q.row i) := List.map_congr_left fun i hi => by rw [hres i hi]
  let out : List Raised := els.map fun i => ⟨i, (res q.row i).2, false⟩
  let files := D.putAll s.cur.files q.row (els.map fun i => (i, (res q.row i).1))
  let s2 : State := { s with cur := { s.cur with files := files } }
  have hgf : s.cur.ctl.groupFault out = none := by
    unfold Ctl.groupFault
    rw [List.find?_eq_none.2]
    intro o ho
    obtain ⟨i, hi, rfl⟩ := List.mem_map.1 ho
    have h := (hels i).1 hi
    rw [hctl, hfp q.row i hrR h.2.2.1 h.2.2.2]; simp
  have hfold : ∀ (l : List Nat) (t : State), During s1 t →
      (l.map fun i => (i, res q.row i)).foldl (fun t x => put t q.row x.1 x.2.1) t =
        { t with cur := { t.cur with files := D.putAll t.cur.files q.row (l.map fun i => (i, (res q.row i).1)) } } := by
    intro l
    induction l with
    | nil => intro t _; rfl
    | cons x l ih =>
      intro t ht
      rw [List.map_cons, List.foldl_cons, hput t q.row x (res q.row x).1 ht, ih]
      · rfl
      · unfold During at *; unfold State.onCur; rw [ht]
  have hunit := podUnit_did (u := elemUnit op put) (w := w) (p := p) (s := s) (s2 := s2) (q := q) (out := out) hq hdone hhalt hI.swept.upsets
    (fun h0 => by
      rw [hV, hmask] at h0
      have h1 : els = [] := h0
      exact ⟨by simp [s2, files, h1, Dest.putAll], by simp [out, h1]⟩)
    (fun _ => by
      rw [hV, hmask]
      change elemUnit op put s p q.row els = _
      unfold elemUnit
      dsimp only
      rw [hmap, List.map_map]
      change (match s.cur.ctl.groupFault out with | some f => (s, f) | none => _) = _
      rw [hgf]
      dsimp only
      rw [hfold els s hI.same]
      rfl)
    rfl hI.swept.brk hI.swept.pins hI.swept.due hI.swept.goesOn
  have hs2d : During s1 s2 := by unfold During at *; rw [show s2 = { s with cur := { s.cur with files := files } } from rfl, hI.same]
  have hspec := s.cur.podNorm_spec hw hp8 hr (idx := (q.idx / (64 / w) + 1) * (64 / w))
  have hin : (s.cur.podAt (s.cur.podNorm w p q.row ((q.idx / (64 / w) + 1) * (64 / w)))).inPlace w s.cur.lanes s.cur.rows s.cur.vl p :=
    Strand.podNorm_inPlace hw hp8
  generalize hq' : s.cur.podAt (s.cur.podNorm w p q.row ((q.idx / (64 / w) + 1) * (64 / w))) = q' at hin
  have hrow' : q'.row = (s.cur.podNorm w p q.row ((q.idx / (64 / w) + 1) * (64 / w))).1 := by rw [← hq']; rfl
  have hidx' : q'.idx = (s.cur.podNorm w p q.row ((q.idx / (64 / w) + 1) * (64 / w))).2 := by rw [← hq']; rfl
  dsimp only at hspec
  rw [← hrow', ← hidx'] at hspec
  have hpods : (s2.unitDone p q (s.cur.podNorm w p q.row ((q.idx / (64 / w) + 1) * (64 / w))) out).cur.word.pods = s.cur.word.pods.set p q' := by
    rw [← hq']; rfl
  have hlt : q.idx < (q.idx / (64 / w) + 1) * (64 / w) := by
    have := Nat.div_add_mod q.idx (64 / w)
    have := Nat.mod_lt q.idx hK
    rw [Nat.add_mul, Nat.mul_comm]; omega
  have hcov : ∀ r i, r < R → i < V → (ahead w s1.cur.lanes (s.cur.word.pods.set p q') (r, i) = false ↔
      ahead w s1.cur.lanes s.cur.word.pods (r, i) = false ∨ (r = q.row ∧ i / (64 / w) = q.idx / (64 / w) ∧ q.idx ≤ i)) := by
    intro r i hrR' hiV
    rw [← Bool.not_eq_true, ← Bool.not_eq_true, ahead_iff, ahead_iff]
    by_cases hpi : podIdx w s1.cur.lanes i = p
    · rw [hpi, List.getElem?_set_self hpl, hq]
      simp only [Option.some.injEq, exists_eq_left']
      have h3 := hspec.2.2 r i (by rw [hI.swept.rows]; exact hrR') (by rw [hV]; exact hiV) (by rw [hlanes]; exact hpi)
      have h2 := hspec.2.1
      have hdiv : r = q.row → q.idx ≤ i → ((q.idx / (64 / w) + 1) * (64 / w) ≤ i ↔ i / (64 / w) ≠ q.idx / (64 / w)) := by
        intro _ hle
        rw [← Nat.le_div_iff_mul_le hK]
        have := Nat.div_le_div_right (c := 64 / w) hle
        omega
      unfold placeLe at *
      by_cases hre : r = q.row
      · subst hre
        by_cases hle : q.idx ≤ i
        · have := hdiv rfl hle
          by_cases hg : i / (64 / w) = q.idx / (64 / w)
          · have hiG : i < (q.idx / (64 / w) + 1) * (64 / w) := Nat.lt_of_not_le fun h => this.1 h hg
            refine ⟨fun _ => Or.inr ⟨rfl, hg, hle⟩, fun _ h => ?_⟩
            clear h3 this
            generalize (q.idx / (64 / w) + 1) * (64 / w) = G at *
            omega
          · have hiG := this.2 hg
            have h4 := h3 (Or.inr ⟨rfl, hiG⟩)
            refine ⟨fun h => absurd h4 h, ?_⟩
            rintro (h | ⟨_, h, _⟩)
            · exact absurd (Or.inr ⟨rfl, hle⟩) h
            · exact absurd h hg
        · refine ⟨fun _ => Or.inl (by omega), fun _ h => ?_⟩
          clear h3 hdiv
          generalize (q.idx / (64 / w) + 1) * (64 / w) = G at *
          omega
      · constructor
        · intro h
          refine Or.inl fun h4 => h (h3 (Or.inl (by omega)))
        · rintro (h | ⟨h, _⟩) h4
          · apply h
            clear h3 hdiv
            generalize (q.idx / (64 / w) + 1) * (64 / w) = G at *
            omega
          · exact absurd h hre
    · rw [List.getElem?_set_ne fun e => hpi e.symm]
      constructor
      · exact Or.inl
      · rintro (h | ⟨rfl, h, -⟩)
        · exact h
        · exfalso; apply hpi; rw [podIdx_group h, ← hlanes, hqp]
  refine ⟨_, q', hunit, ?_, hpods, ?_, rfl⟩
  · refine ⟨⟨hw, hI.swept.rows, hV, hI.swept.rowsLe, hI.swept.vlLe, hI.swept.upsets, hI.swept.due, hI.swept.brk, hI.swept.goesOn, hI.swept.pins, ?_, ?_⟩, ?_, ?_, ?_, ?_, ?_⟩
    · rw [hpods, List.length_set]; exact hI.swept.len
    · intro x y hy
      rw [hpods] at hy
      by_cases hx : p = x
      · subst hx
        rw [List.getElem?_set_self hpl] at hy
        cases hy
        have := hin
        rw [hI.swept.rows, hV] at this
        exact this
      · rw [List.getElem?_set_ne hx] at hy
        exact hI.swept.pods x y hy
    · unfold During at *; unfold State.unitDone State.onWord State.onCur State.count; rw [hs2d]
    · exact ⟨{ c with pods := c.pods.set p q', run := c.run.raiseAll q.row out }, by
        unfold State.unitDone State.onWord State.onCur State.count
        have h5 : s2.cur.word = { s1.cur.word with pods := c.pods, run := c.run, stage := 1 } := hword
        dsimp only
        rw [h5, ← hq']
        rfl⟩
    · exact hD.putAll_keep hrR _ (by
        intro x hx
        obtain ⟨i, hi, rfl⟩ := List.mem_map.1 hx
        exact helsV i hi) _ hI.keep
    · intro r i hr' hi'
      rw [hpods]
      change D.get files r i = _
      rw [hD.putAll_get hrR els _ helsV s.cur.files hr' hi', hI.vals r i hr' hi']
      have h6 := hcov r i hr' hi'
      by_cases hm : s1.cur.word.mask.getLsbD i = true
      · by_cases h7 : r = q.row ∧ i / (64 / w) = q.idx / (64 / w) ∧ q.idx ≤ i
        · rw [if_pos ⟨h7.1, (hels i).2 ⟨h7.2.1, h7.2.2, hi', hm⟩⟩, if_pos ⟨hm, h6.2 (Or.inr h7)⟩, h7.1]
        · rw [if_neg (by rintro ⟨e, he⟩; exact h7 ⟨e, ((hels i).1 he).1, ((hels i).1 he).2.1⟩)]
          have h8 : ahead w s1.cur.lanes (s.cur.word.pods.set p q') (r, i) = ahead w s1.cur.lanes s.cur.word.pods (r, i) := by
            cases h9 : ahead w s1.cur.lanes s.cur.word.pods (r, i) with
            | false => exact h6.2 (Or.inl h9)
            | true =>
              cases h10 : ahead w s1.cur.lanes (s.cur.word.pods.set p q') (r, i) with
              | true => rfl
              | false =>
                rcases h6.1 h10 with h | h
                · rw [h9] at h; cases h
                · exact absurd h h7
          rw [h8]
      · rw [if_neg (by rintro ⟨_, he⟩; exact hm ((hels i).1 he).2.2.2), if_neg (by rintro ⟨h, _⟩; exact hm h), if_neg (by rintro ⟨h, _⟩; exact hm h)]
    · intro b
      rw [hpods]
      change ((s.cur.word.run.raiseAll q.row out).flags.getLsbD b = true) ↔ _
      rw [Run.raiseAll_flags _ _ _ (by
        intro o ho
        obtain ⟨i, _, rfl⟩ := List.mem_map.1 ho
        rfl), hI.flags b]
      constructor
      · rintro (⟨r, i, h1, h2, h3, h4, h5⟩ | ⟨o, ho, h⟩)
        · exact ⟨r, i, h1, h2, h3, (hcov r i h1 h2).2 (Or.inl h4), h5⟩
        · obtain ⟨i, hi, rfl⟩ := List.mem_map.1 ho
          have h7 := (hels i).1 hi
          exact ⟨q.row, i, hrR, h7.2.2.1, h7.2.2.2, (hcov _ _ hrR h7.2.2.1).2 (Or.inr ⟨rfl, h7.1, h7.2.1⟩), h⟩
      · rintro ⟨r, i, h1, h2, h3, h4, h5⟩
        rcases (hcov r i h1 h2).1 h4 with h | ⟨rfl, h6, h7⟩
        · exact Or.inl ⟨r, i, h1, h2, h3, h, h5⟩
        · exact Or.inr ⟨_, List.mem_map.2 ⟨i, (hels i).2 ⟨h6, h7, h2, h3⟩, rfl⟩, h5⟩
  · have h2 := hspec.2.1
    unfold placeLe at h2
    unfold posLt
    simp only [Bool.or_eq_true, Bool.and_eq_true, decide_eq_true_eq, beq_iff_eq]
    omega

/-! ## Issue -/

/-- The state in which a word that passes its checks is performed. -/
def State.issued (s : State) (msk : Nat) : State :=
  (s.onWord fun c => { c with issued := true, checked := s.cur.checks c, masked := true, mask := s.activeMask msk }).onCur fun st => { st with chkcnt := st.chkcnt + 1 }

theorem wordBreak_none {st : Strand} (h : ∀ i < 4, (vget st.bpctl i).getLsbD 0 = false) (c : Cur) : st.wordBreak c = none := by
  unfold Strand.wordBreak
  split
  · rfl
  · rw [List.find?_eq_none]
    intro i hi
    dsimp only
    rw [h i (List.mem_range.1 hi)]
    simp

/-- A word whose checks hold is issued. -/
theorem issueWord_issues {s : State} (h : s.issues) (msk : Nat) (matrix : Bool) (body : State → Res) :
    issueWord s msk matrix true body = body (s.issued msk) := by
  obtain ⟨c, hc, hi, hm, -, -, -, hdue, -⟩ := h.word
  have hw : s.cur.word = c := by unfold Strand.word; rw [hc]; rfl
  unfold issueWord State.issued State.onWord State.onCur
  rw [h.captured, hw, hi, hdue, wordBreak_none h.breaks]
  simp [hw, hm]

theorem vecWord_issues {s : State} (h : s.issues) {msk : Nat} {tys : List Ty} {iw groups masks : List Nat} {extra : Bool} {body : State → Res}
    (hok : s.cur.issueOk tys iw groups masks = true) (he : extra = true) :
    vecWord s msk tys iw groups masks extra body = body (s.issued msk) := by
  unfold vecWord; rw [hok, he]; exact issueWord_issues h msk false body

theorem State.issued_word {s : State} (h : s.issues) (msk : Nat) :
    ∃ c, s.cur.cur = some c ∧ (s.issued msk).cur.cur = some { c with issued := true, checked := s.cur.checks c, masked := true, mask := s.activeMask msk } ∧
      (s.issued msk).cur.word = { c with issued := true, checked := s.cur.checks c, masked := true, mask := s.activeMask msk } := by
  obtain ⟨c, hc, -⟩ := h.word
  have hw : s.cur.word = c := by unfold Strand.word; rw [hc]; rfl
  refine ⟨c, hc, ?_, ?_⟩
  · unfold State.issued State.onWord State.onCur; dsimp only; rw [hw]
  · unfold State.issued State.onWord State.onCur Strand.word; dsimp only; rw [hc]; rfl

/-! ## The whole word -/

/-- A word that has been issued and is to be performed from its start. -/
structure State.begins (s : State) : Prop where
  word : ∃ c, s.cur.cur = some c ∧ c.stage = 0 ∧ c.pods = [] ∧ c.due = none ∧ c.brk = [] ∧ c.pinEnd = 0 ∧ c.run = Run.none
  goesOn : s.cur.status ≠ .saving
  steps : s.cur.stepping = false
  upsets : s.upsets = []
  shape : s.cur.rows ≤ 32 ∧ s.cur.vl ≤ 1024

theorem State.issues.begins {s : State} (h : s.issues) (msk : Nat) : (s.issued msk).begins := by
  obtain ⟨c, hc, hi1, -⟩ := s.issued_word h msk
  obtain ⟨c', hc', hiss, hmsk, hst, hpods, hpin, hdue, hbrk, hrun, -⟩ := h.word
  obtain rfl : c = c' := by rw [hc] at hc'; exact Option.some.inj hc'
  refine ⟨⟨_, hi1, hst, hpods, hdue, hbrk, hpin, hrun⟩, h.goesOn, ?_, h.upsets, h.shape⟩
  unfold Strand.stepping
  rw [show (s.issued msk).cur.dbgctl = s.cur.dbgctl from rfl, h.steps]
  rfl

theorem State.startSweep_begins {s : State} (h : s.begins) (w : Nat) :
    s.startSweep w = s.onWord fun c => { c with pods := s.cur.startPods w, stage := 1 } := by
  obtain ⟨c, hc, hst, -⟩ := h.word
  unfold State.startSweep
  rw [if_neg]
  unfold Strand.word
  rw [hc]
  simp [hst]

theorem Strand.startPods_spec {s : State} (h : s.begins) {w p : Nat} {q : Pod} (hq : (s.cur.startPods w)[p]? = some q) :
    p < s.cur.lanes / 8 ∧ q = s.cur.podAt (s.cur.podNorm w p 0 0) := by
  obtain ⟨c, hc, -, hp, -⟩ := h.word
  have he : s.cur.word.pods = [] := by unfold Strand.word; rw [hc]; exact hp
  unfold Strand.startPods at hq
  rw [List.getElem?_map] at hq
  cases hr : (List.range s.cur.pods)[p]? with
  | none => rw [hr] at hq; cases hq
  | some x =>
    rw [hr] at hq
    obtain ⟨hlt, hx⟩ := List.getElem?_eq_some_iff.1 hr
    rw [List.getElem_range] at hx
    rw [List.length_range] at hlt
    subst hx
    rw [he] at hq
    rw [Strand.pods_lanes] at hlt
    exact ⟨hlt, by simpa using hq.symm⟩

theorem Strand.startPods_length (st : Strand) (w : Nat) : (st.startPods w).length = st.lanes / 8 := by
  unfold Strand.startPods; rw [List.length_map, List.length_range, Strand.pods_lanes]

/-- At the start every element is ahead. -/
theorem ahead_start {s : State} (h : s.begins) {w r i : Nat} (hw : widthOk w) (hr : r < s.cur.rows) (hi : i < s.cur.vl) :
    ahead w s.cur.lanes (s.cur.startPods w) (r, i) = true := by
  have hL := s.cur.lanes_cases
  have hp : podIdx w s.cur.lanes i < s.cur.lanes / 8 := by
    unfold podIdx; rcases hL with e | e <;> rw [e] <;> omega
  rw [ahead_iff]
  obtain ⟨q, hq⟩ : ∃ q, (s.cur.startPods w)[podIdx w s.cur.lanes i]? = some q :=
    ⟨_, List.getElem?_eq_getElem (by rw [Strand.startPods_length]; exact hp)⟩
  refine ⟨q, hq, ?_⟩
  obtain ⟨-, rfl⟩ := Strand.startPods_spec h hq
  have hspec := s.cur.podNorm_spec hw (p := podIdx w s.cur.lanes i) (row := 0) (idx := 0) hp (by omega)
  exact hspec.2.2 r i hr hi rfl (by unfold placeLe; omega)

theorem State.onWord_cur {s : State} {c : Cur} (hc : s.cur.cur = some c) (f : Cur → Cur) : (s.onWord f).cur.word = f c := by
  have hw : s.cur.word = c := by unfold Strand.word; rw [hc]; rfl
  change f s.cur.word = f c
  rw [hw]

theorem ElemInv.start {s : State} (h : s.begins) {w : Nat} (hw : widthOk w) {D : Dest} (hkeep : D.keep s.cur.files) (res : Nat → Nat → Nat × Flags) :
    ElemInv s w s.cur.rows s.cur.vl D res (s.startSweep w) := by
  rw [State.startSweep_begins h]
  obtain ⟨c, hc, hst, hpods, hdue, hbrk, hpin, hrun⟩ := h.word
  have hcw : s.cur.word = c := by unfold Strand.word; rw [hc]; rfl
  have hwd := State.onWord_cur hc fun c => { c with pods := s.cur.startPods w, stage := 1 }
  generalize hu : s.onWord (fun c => { c with pods := s.cur.startPods w, stage := 1 }) = u at *
  have hfiles : u.cur.files = s.cur.files := by rw [← hu]; rfl
  have hlanes : u.cur.lanes = s.cur.lanes := by rw [← hu]; rfl
  have hrows : u.cur.rows = s.cur.rows := by rw [← hu]; rfl
  have hvl : u.cur.vl = s.cur.vl := by rw [← hu]; rfl
  have hp : u.cur.word.pods = s.cur.startPods w := by rw [hwd]
  refine ⟨⟨hw, hrows, hvl, h.shape.1, Nat.le_trans h.shape.2 (by decide), by rw [← hu]; exact h.upsets, by rw [hwd]; exact hdue, by rw [hwd]; exact hbrk, by rw [← hu]; exact h.goesOn, by rw [hwd]; exact hpin, ?_, ?_⟩, by rw [← hu]; rfl,
    ⟨{ c with pods := s.cur.startPods w }, ?_⟩, by rw [hfiles]; exact hkeep, ?_, ?_⟩
  · rw [hp, Strand.startPods_length, hlanes]
  · intro p q hq
    rw [hp] at hq
    obtain ⟨hp', rfl⟩ := Strand.startPods_spec h hq
    rw [hlanes]
    exact Strand.podNorm_inPlace hw hp'
  · rw [← hu]
    change some { s.cur.word with pods := s.cur.startPods w, stage := 1 } = some { s.cur.word with pods := s.cur.startPods w, run := c.run, stage := 1 }
    rw [hcw]
  · intro r i hr hi
    rw [if_neg, hfiles]
    rintro ⟨-, h2⟩
    rw [hp, ahead_start h hw hr hi] at h2
    cases h2
  · intro b
    rw [hp, hwd]
    dsimp only
    rw [hrun]
    constructor
    · intro h1; simp [Run.none] at h1
    · rintro ⟨r, i, h1, h2, -, h3, -⟩
      rw [ahead_start h hw h1 h2] at h3
      cases h3

/-- An element-wise word that nothing disturbs: every element is covered, and the word ends. -/
theorem elemSweep_run {s : State} (h : s.begins) {w : Nat} (hw : widthOk w) {D : Dest} (hD : D.ok s.cur.rows s.cur.vl)
    {res : Nat → Nat → Nat × Flags} {op : State → (r i : Nat) → Nat × Flags} {put : State → (r i v : Nat) → State} {fin : State → Res}
    (hput : ∀ u r i v, During s u → put u r i v = u.onCur fun st => { st with files := D.put st.files r i v })
    (hkeep : D.keep s.cur.files)
    (hop : ∀ u r i, During s u → (∃ c : Cur, u.cur.cur = some { s.cur.word with pods := c.pods, run := c.run, stage := 1 }) →
      D.keep u.cur.files → r < s.cur.rows → i < s.cur.vl → (∀ r', r' < s.cur.rows → D.get u.cur.files r' i =
        if r' < r ∧ s.cur.word.mask.getLsbD i = true then D.norm (res r' i).1 else D.get s.cur.files r' i) → op u r i = res r i)
    (hfp : ∀ r i, r < s.cur.rows → i < s.cur.vl → s.cur.word.mask.getLsbD i = true → s.cur.ctl.fpx (res r i).2 = false) :
    ∃ u, sweep s w false (elemUnit op put) fin = fin u ∧ During s u ∧ D.keep u.cur.files ∧
      (∀ r i, r < s.cur.rows → i < s.cur.vl → D.get u.cur.files r i =
        if s.cur.word.mask.getLsbD i = true then D.norm (res r i).1 else D.get s.cur.files r i) ∧
      (∃ c : Cur, u.cur.cur = some { s.cur.word with pods := c.pods, run := c.run, stage := 1 }) ∧
      ∀ b, u.cur.word.run.flags.getLsbD b = true ↔
        ∃ r i, r < s.cur.rows ∧ i < s.cur.vl ∧ s.cur.word.mask.getLsbD i = true ∧ (res r i).2.getLsbD b = true := by
  obtain ⟨u, hu, hI, hd⟩ := sweep_done (s := s) (u := elemUnit op put) (I := ElemInv s w s.cur.rows s.cur.vl D res)
    false fin (fun _ h => h.swept) (elemUnit_keeps hD hput hop hfp) (ElemInv.start h hw hkeep res)
    (by rw [State.startSweep_begins h]; exact h.steps)
  have hend : ∀ r i, r < s.cur.rows → ahead w s.cur.lanes u.cur.word.pods (r, i) = false := by
    intro r i hr
    cases ha : ahead w s.cur.lanes u.cur.word.pods (r, i) with
    | false => rfl
    | true =>
      rw [ahead_iff] at ha
      obtain ⟨q, hq, hle⟩ := ha
      have hq' := (List.all_eq_true.1 hd) q (List.mem_of_getElem? hq)
      have h1 : u.cur.rows = s.cur.rows := hI.swept.rows
      simp only [decide_eq_true_eq] at hq'
      unfold placeLe at hle
      omega
  refine ⟨u, hu, hI.same, hI.keep, fun r i hr hi => ?_, hI.word, fun b => ?_⟩
  · rw [hI.vals r i hr hi, hend r i hr]; simp
  · rw [hI.flags b]
    constructor
    · rintro ⟨r, i, h1, h2, h3, -, h5⟩; exact ⟨r, i, h1, h2, h3, h5⟩
    · rintro ⟨r, i, h1, h2, h3, h5⟩; exact ⟨r, i, h1, h2, h3, hend r i h1, h5⟩

/-! ## Vector destinations -/

/-- The files other than the vector registers of a group, the elements of the group beyond VL, and the tags of the save engine. -/
structure KeepVec (f0 : Files) (vd R V w : Nat) (f : Files) : Prop where
  vecs : ∀ v, v < 64 → (v < vd ∨ vd + R ≤ v) → vget f.v v = vget f0.v v
  tail : ∀ r i, r < R → V ≤ i → elemGet (vget f.v (vd + r)) w i = elemGet (vget f0.v (vd + r)) w i
  files : f.x = f0.x ∧ f.m = f0.m ∧ f.k = f0.k ∧ f.z = f0.z ∧ f.cb = f0.cb ∧ f.amh = f0.amh

/-- A group of vector registers as a destination. -/
def Dest.vec (f0 : Files) (lanes vd R V w : Nat) : Dest :=
  { put := fun f r i v => ({ f with v := vset f.v (vd + r) (elemSet (vget f.v (vd + r)) w i v) }).markV (vd + r) (w * i / 64) lanes
    get := fun f r i => elemGet (vget f.v (vd + r)) w i
    norm := fun v => v % 2 ^ w
    keep := KeepVec f0 vd R V w }

theorem Dest.vec_ok (f0 : Files) {lanes vd R V w : Nat} (hg : vd + R ≤ 64) (hV : w * V ≤ 4096) : (Dest.vec f0 lanes vd R V w).ok R V where
  get_put := by
    intro f r i v r' i' hr hi hr' hi'
    change elemGet (vget (vset f.v (vd + r) _) (vd + r')) w i' = _
    by_cases h : r' = r
    · subst h
      rw [vget_vset_same]
      by_cases h2 : i' = i
      · subst h2
        rw [elemGet_elemSet_same]
        · simp [Dest.vec]
        · have : w * (i' + 1) ≤ w * V := Nat.mul_le_mul_left w hi
          rw [Nat.mul_add] at this; omega
      · rw [elemGet_elemSet_ne _ _ _ _ _ fun e => h2 e.symm, if_neg (by rintro ⟨_, e⟩; exact h2 e)]; rfl
    · rw [vget_vset_ne _ _ _ _ (by omega), if_neg (by rintro ⟨e, _⟩; exact h e)]; rfl
  keep_put := by
    intro f r i v hr hi hk
    refine ⟨fun x hx h => ?_, fun r' i' hr' hi' => ?_, hk.files⟩
    · change vget (vset f.v (vd + r) _) x = _
      rw [vget_vset_ne _ _ _ _ (by omega)]
      exact hk.vecs x hx h
    · change elemGet (vget (vset f.v (vd + r) _) (vd + r')) w i' = _
      rw [← hk.tail r' i' hr' hi']
      by_cases h : r' = r
      · subst h
        rw [vget_vset_same, elemGet_elemSet_ne _ _ _ _ _ (by omega)]
      · rw [vget_vset_ne _ _ _ _ (by omega)]

theorem State.vGet_plain {s : State} (h : s.cur.lp = false) (v w i : Nat) : s.vGet v w i = elemGet (vget s.cur.files.v v) w i := by
  unfold State.vGet; rw [h]; rfl

theorem State.vPut_plain {s : State} (h : s.cur.lp = false) (v w i x : Nat) :
    s.vPut v w i x = s.onCur fun st =>
      { st with files := ({ st.files with v := vset st.files.v v (elemSet (vget st.files.v v) w i x) }).markV v (w * i / 64) st.lanes } := by
  unfold State.vPut; rw [h]; rfl

theorem During.lp {s u : State} (h : During s u) : u.cur.lp = s.cur.lp := by rw [h.cur]
theorem During.lanes {s u : State} (h : During s u) : u.cur.lanes = s.cur.lanes := by rw [h.cur]; rfl

/-- What a word leaves that retires after a state that it has only gone on in. -/
theorem State.finishWord_frame {s u : State} (msk : Nat) (h : During (s.issued msk) u) : WordFrame s u.finishWord := by
  have hc := h.cur
  have hm : u.mem = s.mem := by unfold During at h; exact (congrArg State.mem h).trans rfl
  have he : u.empties = s.empties := by unfold During at h; exact (congrArg State.empties h).trans rfl
  have ho : u.others = s.others := by unfold During at h; exact (congrArg State.others h).trans rfl
  refine ⟨⟨rfl, ?_, ?_, ⟨?_, ?_, ?_⟩, ⟨?_, ?_, ?_, ?_⟩, ⟨?_, ?_, ?_⟩, ho⟩, fun a => ?_, fun a => ?_⟩
  · change u.cur.gen = _; rw [hc]; rfl
  · change u.cur.ctl = { s.cur.ctl with srseed := u.cur.ctl.srseed }; rw [hc]; rfl
  · change u.cur.vl = _; rw [hc]; rfl
  · change u.cur.rows = _; rw [hc]; rfl
  · change u.cur.lanes = _; rw [hc]; rfl
  · change u.cur.queue = _; rw [hc]; rfl
  · change u.cur.reply = _; rw [hc]; rfl
  · change u.cur.sbuf = _; rw [hc]; rfl
  · change u.cur.pend = _; rw [hc]; rfl
  · change u.cur.kbank = _; rw [hc]; rfl
  · change u.cur.sbank = _; rw [hc]; rfl
  · change u.cur.fault = _; rw [hc]; rfl
  · change Memory.get u.mem a = _; rw [hm]
  · unfold State.full; change (!u.empties.contains (settOf a)) = _; rw [he]

theorem State.finishWord_files (u : State) : u.finishWord.cur.files = u.cur.files := rfl
theorem State.finishWord_lp (u : State) : u.finishWord.cur.lp = u.cur.lp := rfl
theorem State.finishWord_fstat (u : State) : u.finishWord.cur.fstat = u.cur.fstat ||| u.cur.word.run.flags := rfl

/-- An element-wise word with a vector destination that nothing disturbs: `res` is what `op` gives as long as column i of the group has its
results in the earlier rows and is as at the start from the row itself on, and the registers outside the group are as at the start. -/
theorem elemWord_done {s : State} (h : s.issues) (msk : Nat) {w vd : Nat} (hw : widthOk w) (hg : vd + s.cur.rows ≤ 64) (hV : w * s.cur.vl ≤ 4096)
    {res : Nat → Nat → Nat × Flags} {op : State → (r i : Nat) → Nat × Flags}
    (hop : ∀ u r i, During (s.issued msk) u → u.cur.word.e = s.cur.word.e → KeepVec s.cur.files vd s.cur.rows s.cur.vl w u.cur.files →
      r < s.cur.rows → i < s.cur.vl → (∀ r', r' < s.cur.rows → u.vGet (vd + r') w i =
        if r' < r ∧ (s.activeMask msk).getLsbD i = true then (res r' i).1 % 2 ^ w else s.vGet (vd + r') w i) → op u r i = res r i)
    (hfp : ∀ r i, s.on msk r i → s.cur.ctl.fpx (res r i).2 = false) :
    ∃ t, elemWord (s.issued msk) w vd op retireWord = .next t ∧ (∀ r i, s.on msk r i → t.vGet (vd + r) w i = (res r i).1 % 2 ^ w) ∧
      VectorFrame s t msk vd w ∧ t.cur.ctl = s.cur.ctl ∧ addsFlags s t msk fun r i => (res r i).2 := by
  obtain ⟨c, hc, hi1, hi2⟩ := s.issued_word h msk
  have hcw : s.cur.word = c := by unfold Strand.word; rw [hc]; rfl
  have hmask : (s.issued msk).cur.word.mask = s.activeMask msk := by rw [hi2]
  have hlp : (s.issued msk).cur.lp = false := h.plain
  obtain ⟨u, hu, hd, hk, hv, ⟨c', hw'⟩, hf⟩ := elemSweep_run (s := s.issued msk) (h.begins msk) hw
    (D := Dest.vec s.cur.files s.cur.lanes vd s.cur.rows s.cur.vl w) (Dest.vec_ok s.cur.files hg hV) (res := res) (op := op)
    (put := fun s r i v => s.vPut (vd + r) w i v) (fin := retireWord)
    (fun u r i v hd => by
      rw [State.vPut_plain (hd.lp.trans hlp)]
      unfold State.onCur
      dsimp only
      rw [hd.lanes]
      rfl)
    ⟨fun _ _ _ => rfl, fun _ _ _ _ => rfl, rfl, rfl, rfl, rfl, rfl, rfl⟩
    (fun u r i hd hwd hk hr hi hg' => by
      refine hop u r i hd ?_ hk hr hi ?_
      · obtain ⟨c'', hc''⟩ := hwd
        unfold Strand.word
        rw [hc'', hi2, hc]
        rfl
      · intro r' hr'
        rw [State.vGet_plain (hd.lp.trans hlp), State.vGet_plain h.plain, ← hmask]; exact hg' r' hr')
    (fun r i hr hi hm => hfp r i ⟨hr, hi, by rw [← hmask]; exact hm⟩)
  have hval : ∀ r i, u.finishWord.vGet (vd + r) w i = elemGet (vget u.cur.files.v (vd + r)) w i := fun r i => by
    rw [State.vGet_plain ((State.finishWord_lp u).trans (hd.lp.trans hlp)), State.finishWord_files]
  refine ⟨u.finishWord, hu, fun r i hon => ?_, ⟨⟨State.finishWord_frame msk hd, hk.vecs, hk.files⟩, fun r i hr _ hoff => ?_⟩, by change u.cur.ctl = _; rw [hd.cur]; rfl, fun b => ?_⟩
  · rw [hval]
    have := hv r i hon.1 hon.2.1
    rw [hmask, if_pos hon.2.2] at this
    exact this
  · rw [hval, State.vGet_plain h.plain]
    rcases Nat.lt_or_ge i s.cur.vl with hi | hi
    · have := hv r i hr hi
      rw [hmask, if_neg (fun hm => hoff ⟨hr, hi, hm⟩)] at this
      exact this
    · exact hk.tail r i hr hi
  · rw [State.finishWord_fstat, BitVec.getLsbD_or, Bool.or_eq_true]
    have hfs : u.cur.fstat = s.cur.fstat := by rw [hd.cur]; rfl
    rw [hfs, hf b]
    refine or_congr Iff.rfl ⟨?_, ?_⟩
    · rintro ⟨r, i, h1, h2, h3, h4⟩; exact ⟨r, i, ⟨h1, h2, by rw [← hmask]; exact h3⟩, h4⟩
    · rintro ⟨r, i, ⟨h1, h2, h3⟩, h4⟩; exact ⟨r, i, h1, h2, by rw [hmask]; exact h3, h4⟩

end Sys2Proof.Machine
end

