-- ==== Sys2Proof/Laws/Retire.lean ====
section
/-!
SUPPORT. Laws of the retirement of a generator instruction (04 R100, R134, 03 R95): what it writes and what it leaves.
-/
namespace Sys2Proof.Machine

/-- What a write of a history target does to the generator's registers. -/
def Gen.putTarget (g : Gen) (t : HistTarget) (v : Word) : Gen :=
  match t with
  | .s r => if r = 0 then g else { g with s := g.s.set r v }
  | .loop n => g.setLoopReg n v
  | .gfstat => { g with gfstat := v.setWidth 5 }
  | .ctl _ | .reply => g

def Gen.putTargets (g : Gen) (ws : List (HistTarget × Word)) : Gen := ws.foldl (fun g w => g.putTarget w.1 w.2) g

@[simp] theorem Gen.putTargets_nil (g : Gen) : g.putTargets [] = g := rfl
@[simp] theorem Gen.putTargets_cons (g : Gen) (w : HistTarget × Word) (ws : List (HistTarget × Word)) :
    g.putTargets (w :: ws) = (g.putTarget w.1 w.2).putTargets ws := rfl

theorem Strand.put_gen (st : Strand) (t : HistTarget) (v : Word) : (st.put t v).gen = st.gen.putTarget t v := by
  cases t <;> simp only [Strand.put, Gen.putTarget] <;> split <;> rfl

theorem Strand.recordOld_gen (st : Strand) (t : HistTarget) : (st.recordOld t).gen = st.gen := by
  unfold Strand.recordOld; split <;> rfl

theorem Strand.write_gen (st : Strand) (t : HistTarget) (v : Word) : (st.write t v).gen = st.gen.putTarget t v := by
  rw [Strand.write, Strand.put_gen, Strand.recordOld_gen]

theorem Strand.writes_gen (st : Strand) (ws : List (HistTarget × Word)) : (st.writes ws).gen = st.gen.putTargets ws := by
  induction ws generalizing st with
  | nil => rfl
  | cons w t ih =>
    change ((st.write w.1 w.2).writes t).gen = _
    rw [ih, Strand.write_gen]; rfl

/-- A strand with other generator registers, history buffer and reply queue. -/
def Strand.regs (st : Strand) (g : Gen) (h : List Hist) (r : List Word) : Strand := { st with gen := g, hist := h, reply := r }

/-- A write changes the generator's registers, the history buffer and the reply queue, and nothing else of the strand. -/
theorem Strand.write_regs (st : Strand) (t : HistTarget) (v : Word) : ∃ g h r, st.write t v = st.regs g h r := by
  unfold Strand.write Strand.recordOld
  cases t <;> simp only [Strand.put] <;> split <;> (try split) <;> exact ⟨_, _, _, rfl⟩

theorem Strand.writes_regs (st : Strand) (ws : List (HistTarget × Word)) : ∃ g h r, st.writes ws = st.regs g h r := by
  induction ws generalizing st with
  | nil => exact ⟨_, _, _, rfl⟩
  | cons w t ih =>
    obtain ⟨g, h, r, e⟩ := Strand.write_regs st w.1 w.2
    obtain ⟨g', h', r', e'⟩ := ih (st.regs g h r)
    exact ⟨g', h', r', by change (st.write w.1 w.2).writes t = _; rw [e, e']; rfl⟩

/-- Every target but the reply queue. -/
def noReply (ws : List (HistTarget × Word)) : Prop := ∀ w ∈ ws, w.1 ≠ .reply

theorem Strand.writes_reply (st : Strand) (ws : List (HistTarget × Word)) (h : noReply ws) : (st.writes ws).reply = st.reply := by
  induction ws generalizing st with
  | nil => rfl
  | cons w t ih =>
    change ((st.write w.1 w.2).writes t).reply = _
    rw [ih _ fun x hx => h x (List.mem_cons_of_mem _ hx)]
    have := h w (List.mem_cons_self ..)
    obtain ⟨a, v⟩ := w
    unfold Strand.write Strand.recordOld
    cases a <;> simp only [Strand.put] <;> split <;> (try split) <;> first | rfl | exact absurd rfl this

/-! ## The loop registers that a retirement writes -/

/-- Every target is a loop register. -/
def onlyLoops (ws : List (HistTarget × Word)) : Prop := ∀ w ∈ ws, ∃ n, w.1 = .loop n

theorem onlyLoops.append {a b : List (HistTarget × Word)} (ha : onlyLoops a) (hb : onlyLoops b) : onlyLoops (a ++ b) :=
  fun w hw => (List.mem_append.1 hw).elim (ha w) (hb w)

theorem onlyLoops.noReply {a : List (HistTarget × Word)} (ha : onlyLoops a) : noReply a :=
  fun w hw e => by obtain ⟨n, h⟩ := ha w hw; rw [h] at e; cases e

theorem Gen.endTest1_loops {g : Gen} {c : Nat} {npc : Word} {b : Bool} {ws : List (HistTarget × Word)} (h : g.endTest1 c npc = some (b, ws)) :
    onlyLoops ws := by
  unfold Gen.endTest1 at h
  split at h
  · split at h <;> (cases h; intro w hw; simp at hw)
    · rcases hw with rfl | rfl <;> exact ⟨_, rfl⟩
    · subst hw; exact ⟨_, rfl⟩
  · cases h

theorem Strand.endTest_loops (st : Strand) (npc : Word) : onlyLoops (st.endTest npc).2 := by
  unfold Strand.endTest
  dsimp only
  split
  · rename_i ws h; exact Gen.endTest1_loops h
  · have hf : ∀ x, st.gen.endTest1 (if st.gen.lctl.getLsbD 2 = true then 1 else 0) npc = x →
        onlyLoops (match x with | some (_, ws) => ws | none => []) := by
      intro x hx
      cases x with
      | none => intro w hw; cases hw
      | some p => exact Gen.endTest1_loops hx
    split
    · rename_i ws' h; exact (hf _ rfl).append (Gen.endTest1_loops h)
    · rename_i ws' h; exact (hf _ rfl).append (Gen.endTest1_loops h)
    · exact hf _ rfl

theorem Strand.jumpEnds_loops (st : Strand) (t : Word) : onlyLoops (st.jumpEnds t) := by
  unfold Strand.jumpEnds
  dsimp only
  refine ((?_ : onlyLoops _).append ?_).append ?_ <;> split <;> intro w hw <;> simp at hw <;> subst hw <;> exact ⟨_, rfl⟩

theorem Strand.advance_loops (st : Strand) (t : Option Word) : onlyLoops (st.advance t).2 := by
  cases t with
  | none => exact st.endTest_loops _
  | some t => exact st.jumpEnds_loops t

/-- What no loop register holds: the rest of the generator. -/
theorem Gen.putTargets_loops (g : Gen) (ws : List (HistTarget × Word)) (h : onlyLoops ws) :
    (g.putTargets ws).s = g.s ∧ (g.putTargets ws).pc = g.pc ∧ (g.putTargets ws).npc = g.npc ∧ (g.putTargets ws).ir = g.ir ∧
      (g.putTargets ws).level = g.level ∧ (g.putTargets ws).gfstat = g.gfstat := by
  induction ws generalizing g with
  | nil => exact ⟨rfl, rfl, rfl, rfl, rfl, rfl⟩
  | cons w t ih =>
    obtain ⟨n, hn⟩ := h w (List.mem_cons_self ..)
    have := ih (g.putTarget w.1 w.2) fun x hx => h x (List.mem_cons_of_mem _ hx)
    rw [Gen.putTargets_cons]
    refine ⟨this.1.trans ?_, this.2.1.trans ?_, this.2.2.1.trans ?_, this.2.2.2.1.trans ?_, this.2.2.2.2.1.trans ?_, this.2.2.2.2.2.trans ?_⟩ <;>
      rw [hn] <;> simp only [Gen.putTarget, Gen.setLoopReg] <;> split <;> rfl

theorem Gen.read_putTargets_loops (g : Gen) (ws : List (HistTarget × Word)) (h : onlyLoops ws) (r : SReg) :
    (g.putTargets ws).read r = g.read r := by
  simp only [Gen.read, (g.putTargets_loops ws h).1]

/-- With no loop active, a retirement goes to the next instruction or to its target, and writes no loop register. -/
theorem Strand.advance_noLoop (st : Strand) (t : Option Word) (h0 : st.gen.act 0 = false) (h1 : st.gen.act 1 = false) :
    st.advance t = (t.getD st.gen.npc, []) := by
  cases t with
  | some t => simp [Strand.advance, Strand.jumpEnds, h0, h1]
  | none =>
    simp only [Strand.advance, Strand.endTest, Option.getD_none]
    have e : ∀ c npc, c = 0 ∨ c = 1 → st.gen.endTest1 c npc = none := by
      intro c npc hc
      rcases hc with rfl | rfl <;> simp [Gen.endTest1, h0, h1]
    cases h2 : st.gen.lctl.getLsbD 2 <;> simp [e]

/-! ## Retirement -/

/-- A retirement changes the generator's registers, the history buffer, the reply queue and the stall marks. -/
theorem Strand.retired_regs (st : Strand) (ws : List (HistTarget × Word)) (t : Option Word) :
    ∃ g h r, st.retired ws t = { st.regs g h r with stall := wNone, skipBrk := false } := by
  obtain ⟨g, h, r, e⟩ := Strand.writes_regs st ws
  obtain ⟨g', h', r', e'⟩ := Strand.writes_regs (st.regs g h r) ((st.regs g h r).advance t).2
  exact ⟨{ g' with pc := ((st.regs g h r).advance t).1 }, h', r', by unfold Strand.retired; dsimp only; rw [e, e']; rfl⟩

theorem Strand.retired_reply (st : Strand) (ws : List (HistTarget × Word)) (t : Option Word) (h : noReply ws) :
    (st.retired ws t).reply = st.reply := by
  unfold Strand.retired
  dsimp only
  rw [Strand.writes_reply _ _ (Strand.advance_loops _ t).noReply, Strand.writes_reply st ws h]

/-- The generator's registers after a retirement: the instruction's writes, then those of the loop end test, then the PC. -/
theorem Strand.retired_gen (st : Strand) (ws : List (HistTarget × Word)) (t : Option Word) :
    (st.retired ws t).gen =
      { (st.gen.putTargets ws).putTargets ((st.writes ws).advance t).2 with pc := ((st.writes ws).advance t).1 } := by
  unfold Strand.retired
  dsimp only
  rw [Strand.writes_gen, Strand.writes_gen]

/-- An s register after a retirement. -/
theorem Strand.retired_read (st : Strand) (ws : List (HistTarget × Word)) (t : Option Word) (r : SReg) :
    (st.retired ws t).gen.read r = (st.gen.putTargets ws).read r := by
  rw [Strand.retired_gen]
  exact Gen.read_putTargets_loops _ _ (Strand.advance_loops _ t) r

theorem Strand.retired_pc (st : Strand) (ws : List (HistTarget × Word)) (t : Option Word) :
    (st.retired ws t).gen.pc = ((st.writes ws).advance t).1 := by
  rw [Strand.retired_gen]

theorem Strand.retired_level (st : Strand) (ws : List (HistTarget × Word)) (t : Option Word) :
    (st.retired ws t).gen.level = st.gen.level := by
  rw [Strand.retired_gen]
  refine ((Gen.putTargets_loops _ _ (Strand.advance_loops _ t)).2.2.2.2.1).trans ?_
  induction ws generalizing st with
  | nil => rfl
  | cons w ws ih =>
    have := ih (st.write w.1 w.2)
    rw [Strand.write_gen] at this
    rw [Gen.putTargets_cons, this]
    obtain ⟨a, v⟩ := w
    cases a <;> simp only [Gen.putTarget, Gen.setLoopReg] <;> split <;> rfl

theorem Strand.retired_gfstat (st : Strand) (ws : List (HistTarget × Word)) (t : Option Word) :
    (st.retired ws t).gen.gfstat = (st.gen.putTargets ws).gfstat := by
  rw [Strand.retired_gen]
  exact (Gen.putTargets_loops _ _ (Strand.advance_loops _ t)).2.2.2.2.2

/-- Reading a register after a write of one: s0 reads zero whatever is written to it (04 R100). -/
theorem Gen.read_putTarget_s (g : Gen) (d r : SReg) (v : Word) :
    (g.putTarget (.s d) v).read r = if r = 0 then 0 else if r = d then v else g.read r := by
  by_cases hr : r = 0
  · simp [Gen.read, hr]
  · by_cases hd : d = 0
    · subst hd; simp [Gen.putTarget, Gen.read, hr]
    · simp only [Gen.putTarget, Gen.read, hr, hd, if_false]
      by_cases h : r = d
      · subst h; simp
      · rw [if_neg h]
        have : d.val ≠ r.val := fun e => h (Fin.ext e.symm)
        exact Vector.getElem_set_ne _ _ this

/-- The instruction retires, or stalls for want of history entries. -/
theorem retire_cases (s : State) (ws : List (HistTarget × Word)) (t : Option Word) :
    (s.cur.histRoom ws t = true ∧ retire s ws t = .next ((s.onCur fun st => st.retired ws t).count 0x02 1)) ∨
      (s.cur.histRoom ws t = false ∧ retire s ws t = .next (s.stallGen wSCOREBOARD)) := by
  unfold retire stall
  cases h : s.cur.histRoom ws t <;> simp

theorem retire_room {s : State} {ws : List (HistTarget × Word)} {t : Option Word} (h : s.cur.histRoom ws t = true) :
    retire s ws t = .next ((s.onCur fun st => st.retired ws t).count 0x02 1) := by
  unfold retire; rw [if_pos h]

/-- With no word outstanding the history buffer is not used. -/
theorem Strand.histRoom_idle {st : Strand} (h : st.idle = true) (ws : List (HistTarget × Word)) (t : Option Word) : st.histRoom ws t = true := by
  unfold Strand.histRoom; rw [h]; rfl

/-- An instruction whose registers are free of pending accesses runs. -/
theorem withRegs_free {s : State} {rs : List SReg} {f : State → Res} (h : s.cur.isBusy rs = false) : withRegs s rs f = f s := by
  unfold withRegs; rw [h]; rfl

end Sys2Proof.Machine
end

