-- ==== Sys2Proof/Laws/Gen.lean ====
section
/-!
SUPPORT. Laws of the generator's instructions: an instruction that retires has its result and leaves the rest (04 R100), whenever the
history buffer has room (03 R95).
-/
namespace Sys2Proof.Machine

/-! ## Room in the history buffer -/

theorem Strand.put_hist (st : Strand) (t : HistTarget) (v : Word) : (st.put t v).hist = st.hist := by
  cases t <;> simp only [Strand.put] <;> split <;> rfl

theorem Strand.write_histUsed (st : Strand) (t : HistTarget) (v : Word) : (st.write t v).histUsed ≤ st.histUsed + 1 := by
  obtain ⟨g, h, r, e⟩ := Strand.write_regs st t v
  have hp : (st.write t v).pend = st.pend := by rw [e]; rfl
  have hr : (st.write t v).records = st.records := by rw [e]; rfl
  have hh : ((st.write t v).hist.filter fun h => h.target.counts).length ≤ (st.hist.filter fun h => h.target.counts).length + 1 := by
    rw [Strand.write, Strand.put_hist]
    unfold Strand.recordOld
    split
    · exact Nat.le_succ _
    · simp only [List.filter_append, List.length_append]
      exact Nat.add_le_add_left (List.length_filter_le _ _) _
  unfold Strand.histUsed
  rw [hp, hr]
  omega

theorem Strand.writes_histUsed (st : Strand) (ws : List (HistTarget × Word)) : (st.writes ws).histUsed ≤ st.histUsed + ws.length := by
  induction ws generalizing st with
  | nil => exact Nat.le_refl _
  | cons w t ih =>
    have h1 := ih (st.write w.1 w.2)
    have h2 := st.write_histUsed w.1 w.2
    change ((st.write w.1 w.2).writes t).histUsed ≤ st.histUsed + (t.length + 1)
    omega

theorem Gen.endTest1_length {g : Gen} {c : Nat} {npc : Word} {b : Bool} {ws : List (HistTarget × Word)} (h : g.endTest1 c npc = some (b, ws)) :
    ws.length ≤ 2 := by
  unfold Gen.endTest1 at h
  split at h
  · split at h <;> cases h <;> simp
  · cases h

theorem Strand.endTest_length (st : Strand) (npc : Word) : (st.endTest npc).2.length ≤ 4 := by
  unfold Strand.endTest
  dsimp only
  split
  · rename_i ws h; exact Nat.le_trans (Gen.endTest1_length h) (by decide)
  · have hf : ∀ x, st.gen.endTest1 (if st.gen.lctl.getLsbD 2 = true then 1 else 0) npc = x →
        (match x with | some (_, ws) => ws | none => []).length ≤ 2 := by
      intro x hx
      cases x with
      | none => simp
      | some p => exact Gen.endTest1_length hx
    split
    · rename_i ws' h; rw [List.length_append]; exact Nat.add_le_add (hf _ rfl) (Gen.endTest1_length h)
    · rename_i ws' h; rw [List.length_append]; exact Nat.add_le_add (hf _ rfl) (Gen.endTest1_length h)
    · exact Nat.le_trans (hf _ rfl) (by decide)

theorem Strand.advance_length (st : Strand) (t : Option Word) : (st.advance t).2.length ≤ 4 := by
  cases t with
  | none => exact st.endTest_length _
  | some t =>
    unfold Strand.advance Strand.jumpEnds
    dsimp only
    simp only [List.length_append]
    split <;> split <;> split <;> simp

theorem Strand.retired_hist (st : Strand) (ws : List (HistTarget × Word)) (t : Option Word) :
    (st.retired ws t).histUsed = ((st.writes ws).writes ((st.writes ws).advance t).2).histUsed := rfl

/-- With room, whatever one instruction writes finds a place in the history buffer. -/
theorem Strand.roomy_room {st : Strand} (h : st.roomy) {ws : List (HistTarget × Word)} (hw : ws.length ≤ 4) (t : Option Word) :
    st.histRoom ws t = true := by
  unfold Strand.histRoom
  rcases h with h | h
  · rw [h]; rfl
  · have h1 := Strand.writes_histUsed st ws
    have h2 := Strand.writes_histUsed (st.writes ws) ((st.writes ws).advance t).2
    have h3 := Strand.advance_length (st.writes ws) t
    rw [Strand.retired_hist, Bool.or_eq_true]
    exact .inr (decide_eq_true (by omega))

/-! ## The history while no word is outstanding -/

theorem Strand.regs_idle (st : Strand) (g : Gen) (h : List Hist) (r : List Word) : (st.regs g h r).idle = st.idle := rfl

theorem Strand.writes_hist_idle (st : Strand) (ws : List (HistTarget × Word)) (h : st.idle = true) : (st.writes ws).hist = st.hist := by
  induction ws generalizing st with
  | nil => rfl
  | cons w t ih =>
    obtain ⟨g, hh, r, e⟩ := Strand.write_regs st w.1 w.2
    change ((st.write w.1 w.2).writes t).hist = _
    rw [ih _ (by rw [e]; exact h), Strand.write, Strand.put_hist, Strand.recordOld, h]
    rfl

theorem Strand.retired_hist_idle (st : Strand) (ws : List (HistTarget × Word)) (t : Option Word) (h : st.idle = true) :
    (st.retired ws t).hist = st.hist := by
  change ((st.writes ws).writes _).hist = _
  obtain ⟨g, hh, r, e⟩ := Strand.writes_regs st ws
  rw [Strand.writes_hist_idle _ _ (by rw [e]; exact h), Strand.writes_hist_idle _ _ h]

/-! ## Writes of s registers and of GFSTAT -/

/-- Every target is an s register in `dests` or GFSTAT. -/
def onlyRegs (dests : List SReg) (ws : List (HistTarget × Word)) : Prop := ∀ w ∈ ws, (∃ r ∈ dests, w.1 = .s r) ∨ w.1 = .gfstat

theorem Gen.putTargets_regs {dests : List SReg} (g : Gen) (ws : List (HistTarget × Word)) (h : onlyRegs dests ws) :
    (∀ r, r ∉ dests → (g.putTargets ws).read r = g.read r) ∧ (g.putTargets ws).loops = g.loops ∧ (g.putTargets ws).lctl = g.lctl ∧
      (g.putTargets ws).npc = g.npc ∧ (g.putTargets ws).level = g.level ∧
      ∀ c, (g.putTargets ws).lend c = g.lend c ∧ (g.putTargets ws).lbeg c = g.lbeg c ∧ (g.putTargets ws).lc c = g.lc c := by
  induction ws generalizing g with
  | nil => exact ⟨fun _ _ => rfl, rfl, rfl, rfl, rfl, fun _ => ⟨rfl, rfl, rfl⟩⟩
  | cons w t ih =>
    have h1 := ih (g.putTarget w.1 w.2) fun x hx => h x (List.mem_cons_of_mem _ hx)
    rw [Gen.putTargets_cons]
    have h2 : (∀ r, r ∉ dests → (g.putTarget w.1 w.2).read r = g.read r) ∧ (g.putTarget w.1 w.2).loops = g.loops ∧
        (g.putTarget w.1 w.2).lctl = g.lctl ∧ (g.putTarget w.1 w.2).npc = g.npc ∧ (g.putTarget w.1 w.2).level = g.level ∧
        ∀ c, (g.putTarget w.1 w.2).lend c = g.lend c ∧ (g.putTarget w.1 w.2).lbeg c = g.lbeg c ∧ (g.putTarget w.1 w.2).lc c = g.lc c := by
      rcases h w (List.mem_cons_self ..) with ⟨d, hd, e⟩ | e
      · rw [e]
        refine ⟨fun r hr => ?_, ?_⟩
        · rw [Gen.read_putTarget_s]
          split
          · rename_i h0; simp [Gen.read, h0]
          · rw [if_neg (by intro e; subst e; exact hr hd)]
        · simp only [Gen.putTarget]; split <;> exact ⟨rfl, rfl, rfl, rfl, fun _ => ⟨rfl, rfl, rfl⟩⟩
      · rw [e]; exact ⟨fun _ _ => rfl, rfl, rfl, rfl, rfl, fun _ => ⟨rfl, rfl, rfl⟩⟩
    refine ⟨fun r hr => (h1.1 r hr).trans (h2.1 r hr), h1.2.1.trans h2.2.1, h1.2.2.1.trans h2.2.2.1, h1.2.2.2.1.trans h2.2.2.2.1,
      h1.2.2.2.2.1.trans h2.2.2.2.2.1, fun c => ⟨?_, ?_, ?_⟩⟩
    · exact (h1.2.2.2.2.2 c).1.trans (h2.2.2.2.2.2 c).1
    · exact (h1.2.2.2.2.2 c).2.1.trans (h2.2.2.2.2.2 c).2.1
    · exact (h1.2.2.2.2.2 c).2.2.trans (h2.2.2.2.2.2 c).2.2

theorem Gen.read_zero (g : Gen) : g.read 0 = 0 := by simp [Gen.read]

/-! ## Retirement: result and frame -/

/-- An instruction that retires with writes of s registers and GFSTAT leaves everything else (04 R100). -/
theorem retire_frame {s : State} {ws : List (HistTarget × Word)} {dests : List SReg} (t : Option Word) (hr : s.cur.roomy)
    (hw : onlyRegs dests ws) (hl : ws.length ≤ 4) :
    ∃ u, retire s ws t = .next u ∧ u.cur.gen.pc = ((s.cur.writes ws).advance t).1 ∧ u.cur.gen.gfstat = (s.cur.gen.putTargets ws).gfstat ∧
      (∀ r, u.cur.gen.read r = (s.cur.gen.putTargets ws).read r) ∧ GenFrame s u dests := by
  refine ⟨_, retire_room (s.cur.roomy_room hr hl t), s.cur.retired_pc ws t, s.cur.retired_gfstat ws t, fun r => s.cur.retired_read ws t r, ?_⟩
  have hp := Gen.putTargets_regs s.cur.gen ws hw
  obtain ⟨g, h, r, e⟩ := s.cur.retired_regs ws t
  have hreply := s.cur.retired_reply ws t (fun w hm => by rcases hw w hm with ⟨_, _, e⟩ | e <;> rw [e] <;> exact fun h => by cases h)
  refine ⟨fun r hr => (s.cur.retired_read ws t r).trans (hp.1 r hr), ?_, s.cur.retired_level ws t, fun h0 h1 => ?_,
    fun hi => s.cur.retired_hist_idle ws t hi, ?_, rfl, fun _ => rfl, fun _ => rfl⟩
  · exact Gen.read_zero _
  · have ha : ∀ c, (s.cur.writes ws).gen.act c = s.cur.gen.act c := by
      intro c; rw [Strand.writes_gen]; unfold Gen.act; rw [hp.2.2.1]
    change (s.cur.retired ws t).gen.loops = _
    rw [Strand.retired_gen, Strand.advance_noLoop _ _ ((ha 0).trans h0) ((ha 1).trans h1), Gen.putTargets_nil]
    exact hp.2.1
  · have h1 : (s.cur.retired ws t).reply = r := by rw [e]; rfl
    rw [← h1, hreply] at e
    change s.cur.retired ws t = { s.cur with gen := (s.cur.retired ws t).gen, hist := (s.cur.retired ws t).hist, stall := (s.cur.retired ws t).stall, skipBrk := (s.cur.retired ws t).skipBrk }
    rw [e]
    rfl

/-- Loop registers and the end tests do not look at the s registers and GFSTAT. -/
theorem Gen.putTargets_loops_with (g : Gen) (v : Vector Word 32) (f : BitVec 5) (ws : List (HistTarget × Word)) (h : onlyLoops ws) :
    ({ g with s := v, gfstat := f } : Gen).putTargets ws = { g.putTargets ws with s := v, gfstat := f } := by
  induction ws generalizing g with
  | nil => rfl
  | cons w t ih =>
    obtain ⟨n, hn⟩ := h w (List.mem_cons_self ..)
    rw [Gen.putTargets_cons, Gen.putTargets_cons, ← ih _ fun x hx => h x (List.mem_cons_of_mem _ hx), hn]
    congr 1
    simp only [Gen.putTarget, Gen.setLoopReg]
    split <;> rfl

theorem Strand.foldl_put_gen (st : Strand) (ws : List (HistTarget × Word)) :
    (ws.foldl (fun st w => st.put w.1 w.2) st).gen = st.gen.putTargets ws := by
  induction ws generalizing st with
  | nil => rfl
  | cons w t ih => rw [List.foldl_cons, ih, Strand.put_gen]; rfl

/-- Where the end tests send execution depends only on the loop registers. -/
theorem Strand.endTest_with {st st' : Strand} {v : Vector Word 32} {f : BitVec 5} (h : st'.gen = { st.gen with s := v, gfstat := f }) (npc : Word) :
    st'.endTest npc = st.endTest npc := by
  have e1 : ∀ (g : Gen) c, ({ g with s := v, gfstat := f } : Gen).endTest1 c npc = g.endTest1 c npc := fun _ _ => rfl
  have e2 : ∀ (g : Gen) c, ({ g with s := v, gfstat := f } : Gen).lbeg c = g.lbeg c := fun _ _ => rfl
  have e3 : st'.gen.lctl = st.gen.lctl := by rw [h]
  unfold Strand.endTest
  dsimp only
  rw [e3, show st'.gen.endTest1 (if st.gen.lctl.getLsbD 2 = true then 1 else 0) npc = _ from (congrArg (fun g => Gen.endTest1 g _ npc) h).trans (e1 _ _)]
  have hl : ∀ x, st.gen.endTest1 (if st.gen.lctl.getLsbD 2 = true then 1 else 0) npc = x →
      onlyLoops (match x with | some (_, ws) => ws | none => []) := by
    intro x hx
    cases x with
    | none => intro w hw; cases hw
    | some p => exact Gen.endTest1_loops hx
  cases h1 : st.gen.endTest1 (if st.gen.lctl.getLsbD 2 = true then 1 else 0) npc with
  | none =>
    dsimp only
    rw [Strand.foldl_put_gen, Strand.foldl_put_gen, Gen.putTargets_nil, Gen.putTargets_nil, h]
    rfl
  | some p =>
    obtain ⟨b, ws⟩ := p
    have hw : onlyLoops ws := Gen.endTest1_loops h1
    cases b with
    | true => dsimp only; rw [h]; rfl
    | false =>
      dsimp only
      rw [Strand.foldl_put_gen, Strand.foldl_put_gen, h, Gen.putTargets_loops_with _ _ _ _ hw]
      rfl

theorem Gen.putTargets_with {dests : List SReg} (g : Gen) (ws : List (HistTarget × Word)) (h : onlyRegs dests ws) :
    ∃ v f, g.putTargets ws = { g with s := v, gfstat := f } := by
  induction ws generalizing g with
  | nil => exact ⟨_, _, rfl⟩
  | cons w t ih =>
    obtain ⟨v, f, e⟩ := ih (g.putTarget w.1 w.2) fun x hx => h x (List.mem_cons_of_mem _ hx)
    rw [Gen.putTargets_cons, e]
    rcases h w (List.mem_cons_self ..) with ⟨d, _, e'⟩ | e' <;> rw [e']
    · simp only [Gen.putTarget]; split <;> exact ⟨_, _, rfl⟩
    · exact ⟨_, _, rfl⟩

theorem Strand.advance_writes {st : Strand} {dests : List SReg} {ws : List (HistTarget × Word)} (hw : onlyRegs dests ws) :
    (st.writes ws).advance none = st.advance none := by
  obtain ⟨v, f, e⟩ := Gen.putTargets_with st.gen ws hw
  rw [← Strand.writes_gen] at e
  unfold Strand.advance
  dsimp only
  rw [Strand.endTest_with e, e]

/-! ## Instructions that compute -/

/-- An instruction that writes one register and adds flags to GFSTAT. -/
theorem retire_computes {s : State} {sd : SReg} {v : Word} {fl : Flags} (hr : s.cur.roomy) :
    ∃ t, retire s ((.s sd, v) :: s.cur.gfWrites fl) none = .next t ∧ t.cur.gen.read sd = (if sd = 0 then 0 else v) ∧
      t.cur.gen.gfstat = s.cur.gen.gfstat ||| fl.setWidth 5 ∧ t.cur.gen.pc = (s.cur.advance none).1 ∧ GenFrame s t [sd] := by
  have hg : s.cur.gfWrites fl = [] ∧ s.cur.gen.gfstat ||| fl.setWidth 5 = s.cur.gen.gfstat ∨
      s.cur.gfWrites fl = [(.gfstat, (s.cur.gen.gfstat ||| fl.setWidth 5).setWidth 64)] := by
    unfold Strand.gfWrites
    by_cases h : s.cur.gen.gfstat ||| fl.setWidth 5 = s.cur.gen.gfstat
    · exact .inl ⟨by simp [h], h⟩
    · exact .inr (by simp [h])
  have hw : onlyRegs [sd] ((.s sd, v) :: s.cur.gfWrites fl) := by
    intro w hm
    rcases hg with ⟨e, _⟩ | e <;> rw [e] at hm <;> simp at hm
    · subst hm; exact .inl ⟨sd, by simp, rfl⟩
    · rcases hm with rfl | rfl
      · exact .inl ⟨sd, by simp, rfl⟩
      · exact .inr rfl
  have hl : ((HistTarget.s sd, v) :: s.cur.gfWrites fl).length ≤ 4 := by rcases hg with ⟨e, _⟩ | e <;> rw [e] <;> simp
  obtain ⟨t, e, hpc, hgf, hread, hf⟩ := retire_frame none hr hw hl
  refine ⟨t, e, (hread sd).trans ?_, hgf.trans ?_, hpc.trans (by rw [Strand.advance_writes hw]), hf⟩
  · rw [Gen.putTargets_cons]
    have : ∀ g : Gen, (g.putTargets (s.cur.gfWrites fl)).read sd = g.read sd := by
      intro g; rcases hg with ⟨e, _⟩ | e <;> rw [e] <;> rfl
    rw [this, Gen.read_putTarget_s, if_pos rfl]
  · rw [Gen.putTargets_cons]
    rcases hg with ⟨e, h⟩ | e <;> rw [e]
    · rw [h]; simp only [Gen.putTargets_nil, Gen.putTarget]; split <;> rfl
    · simp only [Gen.putTargets_cons, Gen.putTargets_nil, Gen.putTarget]
      ext i
      simp

theorem Strand.gfWrites_zero (st : Strand) : st.gfWrites 0 = [] := by simp [Strand.gfWrites]

theorem retireS_computes {s : State} {sd : SReg} {v : Word} (hr : s.cur.roomy) :
    ∃ t, retireS s sd v = .next t ∧ t.cur.gen.read sd = (if sd = 0 then 0 else v) ∧
      t.cur.gen.gfstat = s.cur.gen.gfstat ||| 0 ∧ t.cur.gen.pc = (s.cur.advance none).1 ∧ GenFrame s t [sd] := by
  have h := retire_computes (s := s) (sd := sd) (v := v) (fl := 0) hr
  rw [Strand.gfWrites_zero] at h
  exact h

/-- An instruction that writes no register. -/
theorem retire_goes {s : State} (t : Option Word) (hr : s.cur.roomy) :
    ∃ u, retire s [] t = .next u ∧ u.cur.gen.pc = (s.cur.advance t).1 ∧ u.cur.gen.gfstat = s.cur.gen.gfstat ∧ GenFrame s u [] := by
  obtain ⟨u, e, hpc, hgf, _, hf⟩ := retire_frame (ws := []) (dests := []) t hr (fun w h => by cases h) (Nat.zero_le _)
  exact ⟨u, e, hpc, hgf, hf⟩

/-- An instruction of the ALU computes its function (04 R110). -/
theorem alu_computes {s : State} {sd sa sb : SReg} {f : Word → Word → Word} (hf : s.free [sd, sa, sb]) (hr : s.cur.roomy) :
    ∃ t, alu s sd sa sb f = .next t ∧ t.cur.gen.read sd = (if sd = 0 then 0 else f (s.cur.gen.read sa) (s.cur.gen.read sb)) ∧
      t.cur.gen.gfstat = s.cur.gen.gfstat ||| 0 ∧ t.cur.gen.pc = (s.cur.advance none).1 ∧ GenFrame s t [sd] := by
  unfold alu
  rw [withRegs_free hf]
  exact retireS_computes hr

theorem alu1_computes {s : State} {sd sa : SReg} {f : Word → Word} (hf : s.free [sd, sa]) (hr : s.cur.roomy) :
    ∃ t, alu1 s sd sa f = .next t ∧ t.cur.gen.read sd = (if sd = 0 then 0 else f (s.cur.gen.read sa)) ∧
      t.cur.gen.gfstat = s.cur.gen.gfstat ||| 0 ∧ t.cur.gen.pc = (s.cur.advance none).1 ∧ GenFrame s t [sd] := by
  unfold alu1
  rw [withRegs_free hf]
  exact retireS_computes hr

/-- Fewer registers of a free list are free. -/
theorem State.free.mono {s : State} {rs qs : List SReg} (h : s.free rs) (hq : ∀ r ∈ qs, r ∈ rs) : s.free qs := by
  unfold State.free Strand.isBusy at *
  rw [List.any_eq_false] at *
  exact fun r hr => h r (hq r hr)

end Sys2Proof.Machine
end

