-- ==== Sys2Proof/Laws/Memory.lean ====
section
/-!
SUPPORT. Laws of memory: its canonical form, and what a byte reads as after a write.
-/
namespace Sys2Proof.Machine

theorem Memory.get_cons (k : Nat) (b : Byte) (t : List Host.Cell) (a : Nat) :
    Memory.get ((k, b) :: t) a = if a = k then b else if a < k then unlisted else Memory.get t a := by
  rw [Memory.get]
  by_cases h : a = k
  · subst h; simp
  · have h' : k.beq a = false := by rw [← Bool.not_eq_true, Nat.beq_eq]; exact fun e => h e.symm
    by_cases hl : a < k
    · have : a.blt k = true := by rw [Nat.blt_eq]; exact hl
      simp [h, h', hl, this]
    · have : a.blt k = false := by rw [← Bool.not_eq_true, Nat.blt_eq]; exact hl
      simp [h, h', hl, this]

theorem Memory.set_nil (a : Nat) (b : Byte) : Memory.set [] a b = if b = unlisted then [] else [(a, b)] := by
  rw [Memory.set, cond_eq_ite]; simp only [beq_iff_eq]

theorem Memory.set_cons (k : Nat) (c : Byte) (t : List Host.Cell) (a : Nat) (b : Byte) :
    Memory.set ((k, c) :: t) a b =
      if a = k then (if b = unlisted then t else (a, b) :: t)
      else if a < k then (if b = unlisted then (k, c) :: t else (a, b) :: (k, c) :: t)
      else (k, c) :: Memory.set t a b := by
  rw [Memory.set]
  simp only [cond_eq_ite, beq_iff_eq, Nat.beq_eq, Nat.blt_eq, eq_comm (a := k)]

/-- The canonical form, cell by cell: no cell holds what an unlisted one reads as, and the rest lies above. -/
theorem Memory.wf_cons (k : Nat) (b : Byte) (t : List Host.Cell) :
    Memory.wf ((k, b) :: t) = true ↔ b ≠ unlisted ∧ (∀ c ∈ t.head?, k < c.1) ∧ Memory.wf t = true := by
  cases t with
  | nil => simp [Memory.wf]
  | cons c t => obtain ⟨k', b'⟩ := c; simp [Memory.wf]; exact ⟨fun ⟨⟨x, y⟩, z⟩ => ⟨y, x, z⟩, fun ⟨x, y, z⟩ => ⟨⟨y, x⟩, z⟩⟩

theorem Memory.get_nil (a : Nat) : Memory.get [] a = unlisted := rfl

/-- Below the first cell nothing is listed. -/
theorem Memory.get_below {m : List Host.Cell} {a : Nat} (h : ∀ c ∈ m.head?, a < c.1) : Memory.get m a = unlisted := by
  cases m with
  | nil => rfl
  | cons c t =>
    obtain ⟨k, b⟩ := c
    have : a < k := h _ rfl
    rw [Memory.get_cons]; simp [this, Nat.ne_of_lt this]

theorem Memory.head_set {m : List Host.Cell} {a k : Nat} {b : Byte} (hm : ∀ c ∈ m.head?, k < c.1) (hw : Memory.wf m = true) (ha : k < a) :
    ∀ c ∈ (Memory.set m a b).head?, k < c.1 := by
  cases m with
  | nil => rw [Memory.set_nil]; split <;> simp [ha]
  | cons c t =>
    obtain ⟨k', b'⟩ := c
    have hk : k < k' := hm _ rfl
    obtain ⟨-, ht, -⟩ := (Memory.wf_cons ..).1 hw
    rw [Memory.set_cons]
    split
    · split
      · intro c hc; exact Nat.lt_trans hk (ht c hc)
      · intro c hc; simp at hc; subst hc; exact ha
    · split
      · split <;> intro c hc <;> simp at hc <;> subst hc <;> assumption
      · intro c hc; simp at hc; subst hc; exact hk

/-- A write keeps the canonical form. -/
theorem Memory.set_wf {m : List Host.Cell} (a : Nat) (b : Byte) (h : Memory.wf m = true) : Memory.wf (Memory.set m a b) = true := by
  induction m with
  | nil => rw [Memory.set_nil]; split
           · rfl
           · rename_i hb; exact (Memory.wf_cons ..).2 ⟨hb, by simp, rfl⟩
  | cons c t ih =>
    obtain ⟨k, x⟩ := c
    obtain ⟨hx, hh, ht⟩ := (Memory.wf_cons ..).1 h
    rw [Memory.set_cons]
    split
    · rename_i hak
      subst hak
      split
      · exact ht
      · rename_i hb; exact (Memory.wf_cons ..).2 ⟨hb, hh, ht⟩
    · split
      · rename_i hlt
        split
        · exact h
        · rename_i hb; exact (Memory.wf_cons ..).2 ⟨hb, fun c hc => by simp at hc; subst hc; exact hlt, h⟩
      · refine (Memory.wf_cons ..).2 ⟨hx, Memory.head_set hh ht (by omega), ih ht⟩

/-- A byte reads as what was written to it, and every other byte as before. -/
theorem Memory.get_set {m : List Host.Cell} (a : Nat) (b : Byte) (x : Nat) (h : Memory.wf m = true) :
    Memory.get (Memory.set m a b) x = if x = a then b else Memory.get m x := by
  induction m with
  | nil =>
    rw [Memory.set_nil]
    split
    · rename_i hb; simp [hb, Memory.get]
    · rw [Memory.get_cons]; simp [Memory.get]
  | cons c t ih =>
    obtain ⟨k, y⟩ := c
    obtain ⟨hy, hh, ht⟩ := (Memory.wf_cons ..).1 h
    rw [Memory.set_cons]
    split
    · rename_i hak
      subst hak
      split
      · rename_i hb
        rw [Memory.get_cons]
        by_cases hx : x = a
        · subst hx; simp [hb, Memory.get_below hh]
        · by_cases hlt : x < a
          · simp [hx, hlt]; exact Memory.get_below fun c hc => Nat.lt_trans hlt (hh c hc)
          · simp [hx, hlt]
      · simp only [Memory.get_cons]; by_cases hx : x = a <;> simp [hx]
    · rename_i hak
      split
      · rename_i hlt
        split
        · rename_i hb
          by_cases hx : x = a
          · subst hx; simp [hb, Memory.get_cons, hak, hlt]
          · simp [hx]
        · simp only [Memory.get_cons]
          by_cases hx : x = a
          · simp [hx]
          · by_cases hxa : x < a
            · simp [hx, hxa, show x < k by omega, show ¬ x = k by omega]
            · simp [hx, hxa]
      · rename_i hlt
        simp only [Memory.get_cons, ih ht]
        by_cases hx : x = a
        · subst hx; simp [hak, hlt]
        · simp [hx]

theorem Memory.setMany_wf {m : List Host.Cell} (a : Nat) (bs : List Byte) (h : Memory.wf m = true) :
    Memory.wf (Memory.setMany m a bs) = true := by
  induction bs generalizing m a with
  | nil => exact h
  | cons b t ih => exact ih (a + 1) (Memory.set_wf a b h)

/-- Consecutive bytes read as written, and every other byte as before. -/
theorem Memory.get_setMany {m : List Host.Cell} (a : Nat) (bs : List Byte) (x : Nat) (h : Memory.wf m = true) :
    Memory.get (Memory.setMany m a bs) x = if a ≤ x ∧ x < a + bs.length then bs.getD (x - a) 0 else Memory.get m x := by
  induction bs generalizing m a with
  | nil =>
    rw [if_neg (by simp only [List.length_nil]; omega)]; rfl
  | cons b t ih =>
    rw [Memory.setMany, ih (a + 1) (Memory.set_wf a b h), Memory.get_set a b x h]
    by_cases hx : x = a
    · subst hx
      rw [if_neg (by omega), if_pos rfl, if_pos (by simp)]; simp
    · by_cases hr : a + 1 ≤ x ∧ x < a + 1 + t.length
      · have : x - a = (x - (a + 1)) + 1 := by omega
        simp [hr, show a ≤ x ∧ x < a + (t.length + 1) by omega, this]
      · rw [if_neg hr, if_neg hx, if_neg]; simp only [List.length_cons]; omega

/-- In the canonical form every cell lies above what the first one does. -/
theorem Memory.above {m : List Host.Cell} {k : Nat} (h : Memory.wf m = true) (hh : ∀ c ∈ m.head?, k < c.1) : ∀ c ∈ m, k < c.1 := by
  induction m generalizing k with
  | nil => simp
  | cons x t ih =>
    obtain ⟨j, b⟩ := x
    obtain ⟨-, ht, hw⟩ := (Memory.wf_cons ..).1 h
    have hj : k < j := hh _ rfl
    intro c hc
    rcases List.mem_cons.1 hc with rfl | hc
    · exact hj
    · exact Nat.lt_trans hj (ih hw ht c hc)

theorem Memory.clear_wf {m : List Host.Cell} (a n : Nat) (h : Memory.wf m = true) : Memory.wf (Memory.clear m a n) = true := by
  induction m with
  | nil => rfl
  | cons c t ih =>
    obtain ⟨k, b⟩ := c
    obtain ⟨hb, hh, ht⟩ := (Memory.wf_cons ..).1 h
    unfold Memory.clear at *
    rw [List.filter_cons]
    split
    · exact (Memory.wf_cons ..).2 ⟨hb, fun c hc => Memory.above ht hh c (List.mem_filter.1 (List.mem_of_mem_head? hc)).1, ih ht⟩
    · exact ih ht

/-- Cleared bytes read zero, and every other byte as before. -/
theorem Memory.get_clear {m : List Host.Cell} (a n x : Nat) (h : Memory.wf m = true) :
    Memory.get (Memory.clear m a n) x = if a ≤ x ∧ x < a + n then unlisted else Memory.get m x := by
  induction m with
  | nil => simp [Memory.clear, Memory.get_nil]
  | cons c t ih =>
    obtain ⟨k, b⟩ := c
    obtain ⟨-, hh, ht⟩ := (Memory.wf_cons ..).1 h
    have ih := ih ht
    unfold Memory.clear at *
    rw [List.filter_cons]
    by_cases hk : a ≤ k ∧ k < a + n
    · rw [if_neg (by simp [hk]), ih, Memory.get_cons]
      by_cases hx : a ≤ x ∧ x < a + n
      · simp [hx]
      · rw [if_neg hx, if_neg hx, if_neg (by rintro rfl; exact hx hk)]
        split
        · exact Memory.get_below fun c hc => Nat.lt_trans ‹_› (hh c hc)
        · rfl
    · rw [if_pos (by simp; omega), Memory.get_cons, Memory.get_cons, ih]
      by_cases hx : a ≤ x ∧ x < a + n
      · rw [if_pos hx, if_neg (by rintro rfl; exact hk hx)]; split <;> simp
      · simp [hx]

theorem Memory.getMany_length (m : List Host.Cell) (a n : Nat) : (Memory.getMany m a n).length = n := by
  induction n generalizing a with
  | zero => rfl
  | succ n ih => simp [Memory.getMany, ih]

theorem Memory.getMany_congr {m m' : List Host.Cell} {a n : Nat} (h : ∀ x, a ≤ x → x < a + n → Memory.get m x = Memory.get m' x) :
    Memory.getMany m a n = Memory.getMany m' a n := by
  induction n generalizing a with
  | zero => rfl
  | succ n ih =>
    rw [Memory.getMany, Memory.getMany, h a (Nat.le_refl a) (by omega), ih fun x h1 h2 => h x (by omega) (by omega)]

/-- Bytes read back as they were written. -/
theorem Memory.getMany_setMany {m : List Host.Cell} (a : Nat) (bs : List Byte) (h : Memory.wf m = true) :
    Memory.getMany (Memory.setMany m a bs) a bs.length = bs := by
  induction bs generalizing m a with
  | nil => rfl
  | cons b t ih =>
    rw [List.length_cons, Memory.getMany, Memory.setMany, ih (a + 1) (Memory.set_wf a b h), Memory.get_setMany _ _ _ (Memory.set_wf a b h),
      if_neg (by omega), Memory.get_set a b a h, if_pos rfl]

theorem leBytes_length (v n : Nat) : (leBytes v n).length = n := by
  induction n generalizing v with
  | zero => rfl
  | succ n ih => simp [leBytes, ih]

theorem leValue_leBytes (v n : Nat) : leValue (leBytes v n) = v % 256 ^ n := by
  induction n generalizing v with
  | zero => simp [leBytes, leValue, Nat.mod_one]
  | succ n ih =>
    rw [leBytes, leValue, ih, BitVec.toNat_ofNat, show (256 : Nat) ^ (n + 1) = 256 * 256 ^ n from Nat.pow_succ', Nat.mod_mul]

/-- A value reads back as it was written. -/
theorem Memory.value_setMany {m : List Host.Cell} (a v n : Nat) (h : Memory.wf m = true) :
    Memory.value (Memory.setMany m a (leBytes v n)) a n = v % 256 ^ n := by
  have := Memory.getMany_setMany a (leBytes v n) h
  rw [leBytes_length] at this
  rw [Memory.value, this, leValue_leBytes]

/-- Memories in canonical form that read alike are equal. -/
theorem Memory.ext {m m' : List Host.Cell} (h : Memory.wf m = true) (h' : Memory.wf m' = true) (e : ∀ a, Memory.get m a = Memory.get m' a) : m = m' := by
  induction m generalizing m' with
  | nil =>
    cases m' with
    | nil => rfl
    | cons c t =>
      obtain ⟨k, b⟩ := c
      have := e k
      rw [Memory.get_cons, if_pos rfl, Memory.get_nil] at this
      exact absurd this.symm ((Memory.wf_cons ..).1 h').1
  | cons c t ih =>
    obtain ⟨k, b⟩ := c
    obtain ⟨hb, hh, ht⟩ := (Memory.wf_cons ..).1 h
    cases m' with
    | nil => have := e k; rw [Memory.get_cons, if_pos rfl, Memory.get_nil] at this; exact absurd this hb
    | cons c' t' =>
      obtain ⟨k', b'⟩ := c'
      obtain ⟨hb', hh', ht'⟩ := (Memory.wf_cons ..).1 h'
      have hk : k = k' := by
        have h1 := e k; have h2 := e k'
        simp only [Memory.get_cons, if_true] at h1 h2
        rcases Nat.lt_trichotomy k k' with hlt | heq | hlt
        · rw [if_neg (Nat.ne_of_lt hlt), if_pos hlt] at h1; exact absurd h1 hb
        · exact heq
        · rw [if_neg (Nat.ne_of_lt hlt), if_pos hlt] at h2; exact absurd h2.symm hb'
      subst hk
      have hbb : b = b' := by have := e k; simpa [Memory.get_cons] using this
      subst hbb
      rw [ih ht ht' fun a => ?_]
      have := e a
      rw [Memory.get_cons, Memory.get_cons] at this
      rcases Nat.lt_trichotomy a k with hlt | heq | hlt
      · rw [Memory.get_below fun c hc => Nat.lt_trans hlt (hh c hc), Memory.get_below fun c hc => Nat.lt_trans hlt (hh' c hc)]
      · subst heq; rw [Memory.get_below hh, Memory.get_below hh']
      · rw [if_neg (by omega), if_neg (by omega), if_neg (by omega), if_neg (by omega)] at this; exact this

/-! ## The operations of the machine that write memory -/

theorem State.settChanged_mem (s : State) (k : Nat) (p : Bool) : (s.settChanged k p).mem = s.mem := by
  unfold State.settChanged
  dsimp only
  split <;> rfl

theorem State.lineWritten_mem (s : State) (l : Loc) : (s.lineWritten l).mem = s.mem := by
  unfold State.lineWritten; split <;> (try split) <;> (try split) <;> rfl

theorem State.settsWritten_mem (s : State) (l : Loc) (n : Nat) : (s.settsWritten l n).mem = s.mem := by
  unfold State.settsWritten; split <;> rfl

theorem State.settsChanged_mem (ks : List Nat) (p : Bool) (s : State) :
    (ks.foldl (fun s k => s.settChanged k p) s).mem = s.mem := by
  induction ks generalizing s with
  | nil => rfl
  | cons k t ih => rw [List.foldl_cons, ih, State.settChanged_mem]

/-- A store at a home writes its bytes and no other. -/
theorem State.storeAt_mem (s : State) (l : Loc) (bs : List Byte) : (s.storeAt l bs).mem = Memory.setMany s.mem l.key bs := by
  unfold State.storeAt; dsimp only; rw [State.settsChanged_mem, State.settsWritten_mem, State.lineWritten_mem]

theorem State.storeAt_wf {s : State} (l : Loc) (bs : List Byte) (h : Memory.wf s.mem = true) : Memory.wf (s.storeAt l bs).mem = true := by
  rw [State.storeAt_mem]; exact Memory.setMany_wf _ _ h

theorem State.setFull_mem (s : State) (k : Nat) (b : Bool) : (s.setFull k b).mem = s.mem := by
  unfold State.setFull; dsimp only; split
  · rfl
  · rw [State.settChanged_mem]

theorem State.fillAt_mem (s : State) (l : Loc) (b : Bool) : (s.fillAt l b).mem = s.mem := by
  unfold State.fillAt; split
  · rfl
  · rw [State.setFull_mem, State.lineWritten_mem]

/-- A write of a vector element keeps the canonical form: outside the lanes it lies in the portable backing (20 R392). -/
theorem State.vPut_wf {s : State} (v w i x : Nat) (h : Memory.wf s.mem = true) : Memory.wf (s.vPut v w i x).mem = true := by
  unfold State.vPut; split
  · exact Memory.setMany_wf _ _ h
  · exact h

theorem State.maskPut_wf {s : State} (m i : Nat) (b : Bool) (h : Memory.wf s.mem = true) : Memory.wf (s.maskPut m i b).mem = true := by
  unfold State.maskPut; dsimp only; split
  · exact Memory.set_wf _ _ h
  · exact h

theorem State.reset_mem_wf : Memory.wf State.reset.mem = true := rfl

end Sys2Proof.Machine
end

