-- ==== Sys2Proof/Tests/Slice0.lean ====
section
/-!
SUPPORT. Tests: ill-formed terms that WellFormed refuses, words written out from the encoding tables of spec 02 with what they decode
to, steps with values from the spec's worked examples or worked out by hand, and, for every statement with hypotheses, states that meet them.
-/
namespace Sys2Proof.Tests
open Sys2Proof Sys2Proof.Machine

-- one theorem after another: each evaluation in the kernel keeps a stack of its own
set_option Elab.async false

/-! ## Ill-formed terms: one for each check of `Instr.wf` -/

theorem test_wf_refuses_generator : ([.fence .acq .st, .cvt .f32 .f32 0 1 2, .cvt .i32 .n64 0 1 2, .ld .b8 true 1 2 0, .ldW .b8 true 1 2 0,
    .ldC .b8 true 1 2 0, .ldct 3 1 0, .ldct 0 1 0, .amoadd .w32 .none .gr 1 2 3, .amomin .w32 .none .gr 1 2 3, .amomax .w32 .none .gr 1 2 3,
    .amominn .w32 .none .gr 1 2 3, .amomaxn .w32 .none .gr 1 2 3, .amoand .w32 .none .gr 1 2 3, .amoor .w32 .none .gr 1 2 3,
    .amoxor .w32 .none .gr 1 2 3, .amoswap .w32 .none .gr 1 2 3, .amocas .w32 .none .gr 1 2 3, .amofaddF32 .none .gr 1 2 3,
    .amofaddBf16 .none .gr 1 2 3, .cpyRed .i8 1 2 3 4, .cpyRedSetfull .f16 1 2 3 4, .tileset .f64 1 2 3, .tileset .f32 2 2 3, .tileset .f32 2 3 2,
    .tileset .f32 3 2 2] : List Instr).all (fun i => !i.wf) = true := by decide +kernel

theorem test_wf_refuses_types :
    ([.vadd, .vsub, .vadds, .vsubs, .vmul, .vmulh, .vdiv, .vrem, .vmin, .vmax, .vand, .vor, .vxor, .vshl, .vshr, .vsra, .vcmpeq, .vcmpne, .vcmplt,
      .vcmpge] : List (Arith → Instr)).all (fun f => !(f ⟨0, .f32, 0, 0, .v 0⟩).wf) = true ∧
    ([.vabs, .vneg, .vclz, .vpopc, .vredand, .vredor, .vredxor, .vscanand, .vscanor, .vscanxor, .vscanexand, .vscanexor, .vscanexxor] :
      List (Unary → Instr)).all (fun f => !(f ⟨0, .cb4, 0, 0⟩).wf) = true ∧
    ([.vfadd 0, .vfsub 0, .vfmul 0, .vfdiv 0, .vfmin 0, .vfmax 0, .vfma 0, .vfms 0, .vfnma 0, .vfnms 0] : List (Arith → Instr)).all (fun f =>
      !(f ⟨0, .e4m3, 0, 0, .v 0⟩).wf && !(f ⟨0, .f32, 0, 0, .i16 0⟩).wf) = true ∧
    ([.vfclass 0, .vfsqrt 0, .vfabs 0, .vfneg 0, .vredsum 0, .vredmin 0, .vredmax 0, .vredso 0, .vscansum 0, .vscanmin 0, .vscanmax 0, .vscanexsum 0,
      .vscanexmin 0, .vscanexmax 0] : List (Unary → Instr)).all (fun f => !(f ⟨0, .e5m2, 0, 0⟩).wf) = true ∧
    ([.vredsum 1, .vredmin 1, .vredmax 1, .vscansum 1, .vscanmin 1, .vscanmax 1, .vscanexsum 1, .vscanexmin 1, .vscanexmax 1] :
      List (Unary → Instr)).all (fun f => !(f ⟨0, .i8, 0, 0⟩).wf) = true := by decide +kernel

theorem test_wf_refuses_operands :
    ([.vcmpeq, .vcmpne, .vcmplt, .vcmpge] : List (Arith → Instr)).all (fun f => !(f ⟨0, .i8, 8, 0, .v 0⟩).wf) = true ∧
    ([.vfcmpeq 0, .vfcmpne 0, .vfcmplt 0, .vfcmpge 0, .vfcmple 0, .vfcmpgt 0, .vfcmpunord 0, .vfcmpord 0] : List (Arith → Instr)).all (fun f =>
      !(f ⟨0, .f32, 8, 0, .v 0⟩).wf && !(f ⟨0, .i32, 0, 0, .v 0⟩).wf && !(f ⟨0, .f32, 0, 0, .i32 0⟩).wf) = true ∧
    ([.vsetvl .i8 3 3, .vsetrowsImm 0, .vsetrowsImm 33, .vbr 0 1, .vsel ⟨0, .i8, 0, 0, .v 0⟩, .vsel ⟨1, .i8, 0, 0, .i16 0⟩, .vcvt .f32 0 ⟨0, .f32, 0, 0⟩,
      .vcvt .cb4 0 ⟨0, .f32, 0, 0⟩, .vcvt .f32 0 ⟨0, .cb4, 0, 0⟩, .vqcvt .f32 0 0 .xq ⟨0, .f32, 0, 0⟩, .vqcvt .e4m3 0 1 .xq ⟨0, .f32, 0, 0⟩,
      .vqcvt .e4m3 0 0 .xq ⟨0, .i32, 0, 0⟩, .vamax 0 .i32 0 0, .vqscale .f32 0 0 0, .vqscale .e4m3 0 0 1, .vbdot ⟨0, .f32, 0, 0, 0, 0, 0, 0, 0, 0, 0, false⟩,
      .vbdot ⟨0, .e4m3, 0, 0, 0, 0, 0, 0, 0, 1, 0, false⟩, .vbdot ⟨0, .e4m3, 0, 0, 0, 0, 0, 0, 0, 0, 1, false⟩, .vpack .i32 ⟨0, .i8, 0, 0, 0⟩,
      .vpack .cb4 ⟨0, .i8, 0, 0, 0⟩, .vunpack .i8 false ⟨0, .i32, 0, 0⟩, .vunpack .i8 false ⟨0, .cb4, 0, 0⟩, .vslideup ⟨0, .cb4, 0, 0, .i16 0⟩,
      .vslidedn ⟨0, .i8, 0, 0, .v 0⟩, .vslideup ⟨0, .i8, 0, 0, .i32 0⟩, .vbcast ⟨0, .i8, 0, 0, .i16 0⟩, .viota 0 .f32 0] : List Instr).all
        (fun i => !i.wf) = true := by decide +kernel

theorem test_wf_refuses_memory :
    ([fun m => .vld m .xq (some 0), fun m => .vldW .st m .xq (some 0), fun m => .vldC .st m .xq (some 0), fun m => .vldT .st m .xq (some 0),
      fun m => .vldx m .xq 0, fun m => .vldxW .st m .xq 0, fun m => .vldxC .st m .xq 0, fun m => .vldxT .st m .xq 0, fun m => .vldl m 0,
      fun m => .vldlW .st m 0, fun m => .vldlC .st m 0, fun m => .vldlT .st m 0, fun m => .vst m .xq (some 0), fun m => .vstF .st m .xq (some 0),
      fun m => .vstS .st m .xq (some 0), fun m => .vstx m .xq 0, fun m => .vstxF .st m .xq 0, fun m => .vstxS .st m .xq 0, fun m => .vstl m 0,
      fun m => .vstlF .st m 0, fun m => .vstlS .st m 0] : List (MemOps → Instr)).all (fun f => !(f ⟨0, .cb4, 0, 0⟩).wf) = true ∧
    ([.vamoadd, .vamomin, .vamomax, .vamominn, .vamomaxn, .vamoand, .vamoor, .vamoxor, .vamoswap, .vamocas] :
      List (Order → Scope → Slot → Binary → Instr)).all
        (fun f => !(f .none .st .xq ⟨0, .i16, 0, 0, 0⟩).wf && !(f .none .gr .xq ⟨0, .i32, 0, 0, 0⟩).wf) = true ∧
    ([.vbupdadd, .vbupdmin, .vbupdmax, .vbupdminn, .vbupdmaxn, .vbupdand, .vbupdor, .vbupdxor] : List (MReg → Ty → VReg → Slot → Instr)).all
        (fun f => !(f 0 .f32 0 .xq).wf) = true ∧
    ([.vamofaddF32 .none .st .xq ⟨0, .f64, 0, 0, 0⟩, .vamofaddF32 .none .sy .xq ⟨0, .f32, 0, 0, 0⟩, .vamofaddBf16 .none .st .xq ⟨0, .f16, 0, 0, 0⟩,
      .vamofaddBf16 .none .dv .xq ⟨0, .bf16, 0, 0, 0⟩, .vsend 0 .f32 0 0, .vmrecv 0 .i8 0, .vlock 0 .i32 0 0, .vunlock 0 .n32 0, .farrive .st 0, .bset 0 0,
      .bset 0 97] : List Instr).all (fun i => !i.wf) = true := by decide +kernel

theorem test_wf_refuses_anchored :
    ([.aadd 0 0 0, .asub 0 0 0, .amul 0 0 0, .axpand 0 0] : List (Binary → Instr)).all (fun f => !(f ⟨0, .i64, 0, 0, 0⟩).wf) = true ∧
    ([.adif 0 1, .reancCentre 0, .reancWiden 0, .reancNarrow 0, .acvtFromanc 0 .f64, .acvtToanc 0 .f64] : List (Unary → Instr)).all
      (fun f => !(f ⟨0, .n8, 0, 0⟩).wf) = true ∧
    ([.ald 0 .i64 0 0 .xq 0, .aldW .st 0 .n8 0 0 .xq 0, .ast 0 .f32 0 0 .xq 0, .astR .st 0 .i64 0 0 .xq 0, .adif 0 0 ⟨0, .i8, 0, 0⟩,
      .acvtFromanc 0 .cb4 ⟨0, .i8, 0, 0⟩, .acvtToanc 0 .cb4 ⟨0, .i8, 0, 0⟩, .amovkKv 0 .i64 0 0, .amovkKv 0 .i8 63 0, .amovkVk 0 .f32 0 0, .amovkVk 0 .i8 63 0,
      .asclPow2 0 ⟨0, .i64, 0, 0, .s .xq⟩, .asclPow2 0 ⟨0, .i8, 0, 0, .i64 0⟩, .asclScl 0 ⟨0, .f32, 0, 0, .s .xq⟩, .asclScl 0 ⟨0, .i8, 0, 0, .i16 0⟩] :
      List Instr).all (fun i => !i.wf) = true ∧
    ([.mclaim 0, .mclaim 33, .mma 0 .f64 0 0 0 0 0 0 0, .mma 0 .f32 0 0 0 0 0 1 0, .mma 0 .f32 0 0 0 0 0 0 1, .mopa 0 .i32 0 0 0 0 0, .mopa 0 .i8 0 0 0 1 0,
      .mopa 0 .i8 0 0 0 0 1, .mrd 0 .f64 0 0 0, .mwr 0 .n32 0 0 0, .mld .f64 0 0 .xq 0, .mst .i8 0 0 .xq 0] : List Instr).all (fun i => !i.wf) = true := by
  decide +kernel

/-! ## Decoding -/

/-- Words that 02 R64 gives the fate ILL: a reserved opcode, TL other than the format's, RSVZ, FORM 11, TY 0xF, a reserved X4, a field that must be zero. -/
theorem test_decode_refuses : [0x0000, 0x0681, 0x0009, 0x80C2, 0x1F82].map (fun w => (decodeGen w).toOption) = List.replicate 5 none ∧
    [0x0000, 0x0003C0, 0x8008, 0x00189208_0CC2, 0x0018F208_00C2, 0x01989208_00C2, 0x00402000_0082, 0x00189208_00C3].map
      (fun w => (decodeStream w).toOption) = List.replicate 8 none := by decide +kernel


/-- Words written out from 02 R46 and R50 to R55: each generator instruction. -/
theorem test_decode_gen_0 : [0x8, 0x10, 0x18, 0x8400022, 0x28, 0x1830, 0x3C30, 0x38, 0x438, 0x26200442, 0x220104A, 0xFFFFF8030852, 0x803005A,
      0xE61461, 0x3E40C81, 0x23E40C81, 0x43E40C81, 0x63E40C81, 0x7E40C81, 0x27E40C81, 0x47E40C81, 0x67E40C81, 0xBE40C81, 0x2BE40C81].map (fun w =>
      (decodeGen w).toOption) =
    ([.nop, .endI, .yield, .trap 0x42, .eret, .fence .rel .gr, .fence .all .sy, .vfenceSv, .vfenceVs, .sysr 1 0x131, .sysw 4 0x011, .iclk 2 3 (-64),
      .icunl 3 64, .launch 5 6 7, .add 3 4 31, .shl 3 4 31, .min 3 4 31, .divn 3 4 31, .sub 3 4 31, .shr 3 4 31, .max 3 4 31, .rem 3 4 31, .and 3 4
      31, .sra 3 4 31] : List Instr).map some := by decide +kernel

theorem test_decode_gen_1 : [0x4BE40C81, 0x6BE40C81, 0xFE40C81, 0x2FE40C81, 0x4FE40C81, 0x6C040C81, 0x13E40C81, 0x33E40C81, 0x53E40C81, 0x70040C81,
      0x17E40C81, 0x37E40C81, 0x57E40C81, 0x74040C81, 0x1BE40C81, 0x3BE40C81, 0x5BE40C81, 0x78040C81, 0x1FE40C81, 0x3FE40C81, 0x5FE40C81, 0x7C040C81,
      0x620489, 0x9C620489].map (fun w => (decodeGen w).toOption) =
    ([.minn 3 4 31, .remn 3 4 31, .or 3 4 31, .rol 3 4 31, .maxn 3 4 31, .clz 3 4, .xor 3 4 31, .ror 3 4 31, .mul 3 4 31, .ctz 3 4, .andn 3 4 31,
      .slt 3 4 31, .mulh 3 4 31, .popc 3 4, .orn 3 4 31, .sltn 3 4 31, .mulhn 3 4 31, .brev 3 4, .xnor 3 4 31, .seq 3 4 31, .div 3 4 31, .bswap 3 4,
      .fadd .f64 1 2 3, .feq .f32 1 2 3] : List Instr).map some := by decide +kernel

theorem test_decode_gen_2 : [0x4620489, 0xA0620489, 0x8620489, 0xA4620489, 0xC620489, 0xA8020489, 0x10020489, 0xAC020489, 0x14620489, 0xB0020489,
      0x18620489, 0xE4482491, 0x50882491, 0xFFFFFFC61D02, 0xFFFFFFC61D0A, 0xFFFFFFC61D12, 0xFFFFFFC61D1A, 0x7E61D22, 0x7E61D2A, 0x7E61D32,
      0xFFFFFFC61D3A, 0xFFFFFFC61D42, 0xFFFFFFA0154A, 0x80000000000012340554].map (fun w => (decodeGen w).toOption) =
    ([.fsub .f64 1 2 3, .flt .f32 1 2 3, .fmul .f64 1 2 3, .fle .f32 1 2 3, .fdiv .f64 1 2 3, .fclass .f32 1 2, .fsqrt .f64 1 2, .fneg .f32 1 2,
      .fmin .f64 1 2 3, .fabs .f32 1 2, .fmax .f64 1 2 3, .cvt .i64 .bf16 2 9 8, .cvt .f32 .n32 4 9 8, .addi 7 6 (-2), .andi 7 6 (-2), .ori 7 6 (-2),
      .xori 7 6 (-2), .shli 7 6 63, .shri 7 6 63, .srai 7 6 63, .slti 7 6 (-2), .sltni 7 6 (-2), .lpc 5 (-3), .li 1 0x8000000000001234] : List
      Instr).map some := by decide +kernel

theorem test_decode_gen_3 : [0xFFFFFF018982, 0xFFFFFF01099A, 0xFFFFFF0189AA, 0xFFFFFF0189D2, 0x521E2, 0x10525EA, 0x1051E0A, 0x1051E32, 0x1051E5A,
      0x50262, 0x205026A, 0x51A72, 0x2000A40E82, 0x3904A40E82, 0x2E08A40E82, 0x370CA40E82, 0x2010A40E82, 0x3D14A40E82, 0x2618A40E82, 0x3B1CA40E82,
      0x2020A40E82, 0x3524A40E82, 0x2D28A40E82, 0x102CA40E82].map (fun w => (decodeGen w).toOption) =
    ([.ld .b1 true 2 1 (-8), .ld .b8 false 2 1 (-8), .ldW .b2 true 2 1 (-8), .ldC .b4 true 2 1 (-8), .ldct 8 5 0, .feget 9 5 8, .st .b2 7 5 8, .stF
      .b4 7 5 8, .stS .b8 7 5 8, .feclr 5 0, .feset 5 16, .pwait 6 5 0, .amoadd .w32 .none .st 3 4 5, .amomin .w64 .acq .dv 3 4 5, .amomax .w32 .rel
      .sy 3 4 5, .amominn .w64 .ar .gr 3 4 5, .amomaxn .w32 .none .st 3 4 5, .amoand .w64 .acq .sy 3 4 5, .amoor .w32 .rel .gr 3 4 5, .amoxor .w64
      .ar .dv 3 4 5, .amoswap .w32 .none .st 3 4 5, .amocas .w64 .acq .gr 3 4 5, .amofaddF32 .acq .sy 3 4 5, .amofaddBf16 .none .st 3 4 5] : List
      Instr).map some := by decide +kernel

theorem test_decode_gen_4 : [0xFFFFFF840EC2, 0xFFFFFF840ECA, 0xFFFFFF840ED2, 0xFFFFFF840EDA, 0xFFFFFF840EE2, 0xFFFFFF840EEA, 0x20002F2, 0x4007EFA,
      0x9E0302, 0xFFFFFF86170A, 0x610712, 0xFF016A2722, 0xE61329, 0x61331, 0x3338, 0xFF40, 0x7F48, 0x600A41F62, 0x604A41F62, 0x608A41F62,
      0x60CA41F62, 0x610A41F62, 0x614A41F62, 0x10620A41F62].map (fun w => (decodeGen w).toOption) =
    ([.beq 3 4 (-4), .bne 3 4 (-4), .blt 3 4 (-4), .bge 3 4 (-4), .bltn 3 4 (-4), .bgen 3 4 (-4), .j 16, .jl 31 0x20, .jr 30 4, .jlr 5 6 (-4), .loop
      1 1 3, .emit 255 9 10 11, .emitw 4 6 7, .emitb 4 6, .rply 12, .eqwait 63, .qstat 31, .cpy 7 4 5 6, .cpyWith 7 4 5 6, .cpySetfull 7 4 5 6,
      .cpySetempty 7 4 5 6, .cpyBitsout 7 4 5 6, .cpyBitsin 7 4 5 6, .cpyMc 7 4 5 6 8] : List Instr).map some := by decide +kernel

theorem test_decode_gen_5 : [0x10628A41F62, 0x240640A41F62, 0xC0648A41F62, 0x70369, 0x72771, 0x38A40F79, 0xFFDE].map (fun w => (decodeGen
      w).toOption) =
    ([.cpyMcSetfull 7 4 5 6 8, .cpyRed .f32 7 4 5 6, .cpyRedSetfull .i64 7 4 5 6, .cpyw 7, .cpyq 9 7, .tileset .cb4 3 4 5, .ghint 3 6 63] : List
      Instr).map some := by decide +kernel

/-- Words written out from 02 R47 to R49 and R56 to R63: each stream word. -/
theorem test_decode_stream_0 : [0x8, 0x80E30011, 0x200019, 0x40419, 0xFFE0000F0022, 0x67029, 0x30, 0xFFFF0039, 0xA00050042, 0x48, 0x90051,
      0x800000003F01045B, 0x70000000F0463, 0x3F0F810082, 0x800014001F811483, 0xF28002F812483, 0xFFFE3C003F813883, 0x8000000104004F814884,
      0x800000000000000218005F815886, 0x2C3F6F816082, 0x400070BD7082, 0xF08000F810483, 0xFFFE1C001F811883, 0x8000000130002F812884].map (fun w =>
      (decodeStream w).toOption) =
    ([.vnop, .vsetvl .f64 3 14, .vsetrowsImm 32, .vsetrowsX 4, .vbstrip 15 (-32), .vbr 7 6, .vjoin, .vj (-1), .vloop 1 2 10, .vbret, .vrep 9, .vextr
      .i64 1 60 .xq, .vmvx 15 (.x 7), .vadd ⟨0, .i8, 1, 62, .v 63⟩, .vmulh ⟨1, .i16, 1, 62, .s .xq⟩, .vand ⟨2, .i32, 1, 62, .s (.x 15)⟩, .vsra ⟨3,
      .i64, 1, 62, .i16 0xFFFE⟩, .vsub ⟨4, .n8, 1, 62, .i32 0x80000001⟩, .vdiv ⟨5, .n16, 1, 62, .i64 0x8000000000000002⟩, .vor ⟨6, .n32, 1, 62, .v
      63⟩, .vabs ⟨7, .n64, 61, 2⟩, .vadds ⟨0, .i8, 1, 62, .s (.x 15)⟩, .vrem ⟨1, .i16, 1, 62, .i16 0xFFFE⟩, .vxor ⟨2, .i32, 1, 62, .i32 0x80000001⟩]
      : List Instr).map some := by decide +kernel

theorem test_decode_stream_1 : [0x440030BD3082, 0xC3F4F814082, 0x800020005F815483, 0xF34006F816483, 0x480070BD7082, 0x8000000110000F810884,
      0x800000000000000224001F811886, 0x383F2F812082, 0x4C0030BD3082, 0x3F0F87108A, 0x800004001F87148B, 0xF08002F87148B, 0xFFFE0C003F87188B,
      0x3F8F8520D2, 0x800004409F8524D3, 0xF0880AF8524D3, 0xCFFBF8520D2, 0x80001100CF8524D3, 0xF1400DF8524D3, 0x187F9F8520D2, 0x80001C808F8524D3,
      0x80000000EF817493, 0x3F8F8100C2, 0x800004408F8114C3].map (fun w => (decodeStream w).toOption) =
    ([.vneg ⟨3, .i64, 61, 2⟩, .vsubs ⟨4, .n8, 1, 62, .v 63⟩, .vmin ⟨5, .n16, 1, 62, .s .xq⟩, .vshl ⟨6, .n32, 1, 62, .s (.x 15)⟩, .vclz ⟨7, .n64, 61,
      2⟩, .vmul ⟨0, .i8, 1, 62, .i32 0x80000001⟩, .vmax ⟨1, .i16, 1, 62, .i64 0x8000000000000002⟩, .vshr ⟨2, .i32, 1, 62, .v 63⟩, .vpopc ⟨3, .i64,
      61, 2⟩, .vcmpeq ⟨1, .i8, 7, 62, .v 63⟩, .vcmpne ⟨1, .i16, 7, 62, .s .xq⟩, .vcmplt ⟨1, .i32, 7, 62, .s (.x 15)⟩, .vcmpge ⟨1, .i64, 7, 62, .i16
      0xFFFE⟩, .vfcmpeq 0 ⟨2, .f64, 5, 62, .v 63⟩, .vfcmpne 1 ⟨2, .f32, 5, 62, .s .xq⟩, .vfcmplt 2 ⟨2, .f16, 5, 62, .s (.x 15)⟩, .vfcmpge 3 ⟨2,
      .bf16, 5, 62, .v 63⟩, .vfcmple 4 ⟨2, .e4m3, 5, 62, .s .xq⟩, .vfcmpgt 0 ⟨2, .e5m2, 5, 62, .s (.x 15)⟩, .vfcmpunord 1 ⟨2, .f32, 5, 62, .v 63⟩,
      .vfcmpord 2 ⟨2, .f64, 5, 62, .s .xq⟩, .vsel ⟨7, .cb4, 1, 62, .s .xq⟩, .vfadd 0 ⟨0, .f64, 1, 62, .v 63⟩, .vfsub 1 ⟨1, .f64, 1, 62, .s .xq⟩] :
      List Instr).map some := by decide +kernel

theorem test_decode_stream_2 : [0x800000000000000208808F8128C6, 0x800000010CC09F8138C4, 0x1100A0BD00C2, 0xFFFE1400BF8108C3, 0xF1800AF8104C3,
      0x1C0080BD00C2, 0x2040B0BD30C2, 0x7F8F8100CA, 0x800004808F8114CB, 0xF08C08F8124CB, 0xD3F8F8130CA, 0x90BD00DA, 0x3140908A0102, 0x5F900A08A150B,
      0xC40E2482112, 0x500B248211A, 0x7000000020523, 0x4009200312A, 0xC000000013A, 0x480E0050132, 0x5414500108E0281144, 0x72184014A, 0xC0151840152,
      0x1000E1840152].map (fun w => (decodeStream w).toOption) =
    ([.vfmul 2 ⟨2, .f64, 1, 62, .i64 0x8000000000000002⟩, .vfdiv 3 ⟨3, .f32, 1, 62, .i32 0x80000001⟩, .vfsqrt 4 ⟨0, .f16, 61, 2⟩, .vfmin 0 ⟨0, .bf16,
      1, 62, .i16 0xFFFE⟩, .vfmax 0 ⟨0, .f16, 1, 62, .s (.x 15)⟩, .vfabs 0 ⟨0, .f64, 61, 2⟩, .vfneg 1 ⟨3, .bf16, 61, 2⟩, .vfma 1 ⟨0, .f64, 1, 62, .v
      63⟩, .vfms 2 ⟨1, .f64, 1, 62, .s .xq⟩, .vfnma 3 ⟨2, .f64, 1, 62, .s (.x 15)⟩, .vfnms 4 ⟨3, .f64, 1, 62, .v 63⟩, .vfclass 0 ⟨0, .f32, 61, 2⟩,
      .vcvt .e4m3 5 ⟨0, .f32, 10, 2⟩, .vqcvt .cb4 4 3 (.x 5) ⟨1, .f16, 10, 2⟩, .vcbd 2 3 1 8 9, .vcbe 2 1 4 8 9, .cbld 2 (.x 7), .vamax 3 .f32 1 8,
      .vamstep 3, .vqscale .cb4 5 1 2, .vbdot ⟨1, .cb4, 40, 0, 8, 16, 17, 4, 5, 0, 1, true⟩, .vpack .i8 ⟨0, .i32, 4, 6, 7⟩, .vunpack .i64 true ⟨0,
      .n16, 4, 6⟩, .vunpack .n8 false ⟨0, .cb4, 4, 6⟩] : List Instr).map some := by decide +kernel

theorem test_decode_stream_3 : [0x4092140182, 0x40A2140192, 0x800022140192, 0x48092141182, 0x480A2141192, 0x840022141192, 0x8C092142182,
      0x8C0A2142192, 0x880022142192, 0xC0012143182, 0xC0072143192, 0x8C0022143192, 0x100012144182, 0x100072144192, 0x900022144192, 0x140012145182,
      0x140072145192, 0x940022145192, 0x80B214118A, 0xF00008F8115C3, 0xFFFE00001F8119CB, 0x14910C31D2, 0xE0BD51DA, 0xD0BD51E2].map (fun w =>
      (decodeStream w).toOption) =
    ([.vredsum 1 ⟨0, .f32, 20, 8⟩, .vscansum 1 ⟨0, .f16, 20, 8⟩, .vscanexsum 0 ⟨0, .i32, 20, 8⟩, .vredmin 2 ⟨1, .f32, 20, 8⟩, .vscanmin 2 ⟨1, .f16,
      20, 8⟩, .vscanexmin 0 ⟨1, .i32, 20, 8⟩, .vredmax 3 ⟨2, .f32, 20, 8⟩, .vscanmax 3 ⟨2, .f16, 20, 8⟩, .vscanexmax 0 ⟨2, .i32, 20, 8⟩, .vredand ⟨3,
      .i16, 20, 8⟩, .vscanand ⟨3, .n64, 20, 8⟩, .vscanexand ⟨3, .i32, 20, 8⟩, .vredor ⟨4, .i16, 20, 8⟩, .vscanor ⟨4, .n64, 20, 8⟩, .vscanexor ⟨4,
      .i32, 20, 8⟩, .vredxor ⟨5, .i16, 20, 8⟩, .vscanxor ⟨5, .n64, 20, 8⟩, .vscanexxor ⟨5, .i32, 20, 8⟩, .vredso 2 ⟨1, .bf16, 20, 8⟩, .vslideup ⟨1,
      .f64, 1, 62, .s (.x 15)⟩, .vslidedn ⟨1, .i16, 1, 62, .i16 0xFFFE⟩, .vperm ⟨3, .f32, 12, 4, 20⟩, .vcompress ⟨5, .cb4, 61, 2⟩, .vexpand ⟨5,
      .e5m2, 61, 2⟩] : List Instr).map some := by decide +kernel

theorem test_decode_stream_4 : [0x3F9F8111EA, 0x400911F2, 0x14310C11FA, 0x414310C11FA, 0x814310C11FA, 0xC14310C11FA, 0x40902C2603, 0x114300A160B,
      0x315100A1212, 0x580002C80902C2604, 0x80002914300A160B, 0x2B15100A1212, 0x250C0902C2603, 0x25114300A160B, 0x5315100A1212, 0x580007D00902C2604,
      0x80007914300A160B, 0x7B15100A1212, 0x5800004409B00261C, 0x8000011432801623, 0x3151280122A, 0x6800000409B002634, 0x230809B00261B,
      0x2311432801623].map (fun w => (decodeStream w).toOption) =
    ([.vbcast ⟨1, .f32, 1, 62, .v 63⟩, .viota 1 .n8 9, .vtrne ⟨1, .i64, 12, 4, 20⟩, .vtrno ⟨1, .i64, 12, 4, 20⟩, .vzipl ⟨1, .i64, 12, 4, 20⟩, .vziph
      ⟨1, .i64, 12, 4, 20⟩, .vld ⟨2, .f32, 44, 1⟩ (.x 0) none, .vldx ⟨1, .i64, 10, 4⟩ (.x 0) 20, .vldl ⟨1, .i16, 10, 12⟩ 21, .vldW .gr ⟨2, .f32, 44,
      2⟩ .xq (some 5), .vldxW .gr ⟨1, .i64, 10, 4⟩ .xq 20, .vldlW .gr ⟨1, .i16, 10, 12⟩ 21, .vldC .dv ⟨2, .f32, 44, 3⟩ (.x 2) none, .vldxC .dv ⟨1,
      .i64, 10, 4⟩ (.x 2) 20, .vldlC .dv ⟨1, .i16, 10, 12⟩ 21, .vldT .sy ⟨2, .f32, 44, 4⟩ .xq (some 5), .vldxT .sy ⟨1, .i64, 10, 4⟩ .xq 20, .vldlT
      .sy ⟨1, .i16, 10, 12⟩ 21, .vst ⟨2, .f32, 44, 1⟩ .xq (some 5), .vstx ⟨1, .i64, 10, 4⟩ .xq 20, .vstl ⟨1, .i16, 10, 12⟩ 21, .vstn ⟨2, .f32, 44, 1⟩
      .xq 6, .vstF .dv ⟨2, .f32, 44, 2⟩ (.x 2) none, .vstxF .dv ⟨1, .i64, 10, 4⟩ (.x 2) 20] : List Instr).map some := by decide +kernel

theorem test_decode_stream_5 : [0x33151280122A, 0x6000230809B002634, 0x580005CC09B00261C, 0x8000591432801623, 0x5B151280122A, 0x6800058C09B002634,
      0x56103163C, 0x2800044053103163C, 0x3000288056103163C, 0x18000CC053103163C, 0x410056103163C, 0x3800054053103163C, 0x1000698056103163C,
      0x28000DC053103163C, 0x820056103163C, 0x1800064053103163C, 0x2000AA8059103163C, 0x38000EC05B103163C, 0x2402643, 0x8000040012402643,
      0x2080022402643, 0x80000C0032402643, 0x4100042402643, 0x8000140052402643].map (fun w => (decodeStream w).toOption) =
    ([.vstlF .dv ⟨1, .i16, 10, 12⟩ 21, .vstnF .dv ⟨2, .f32, 44, 2⟩ (.x 2) 6, .vstS .sy ⟨2, .f32, 44, 3⟩ .xq (some 5), .vstxS .sy ⟨1, .i64, 10, 4⟩ .xq
      20, .vstlS .sy ⟨1, .i16, 10, 12⟩ 21, .vstnS .sy ⟨2, .f32, 44, 3⟩ .xq 6, .vamoadd .none .st (.x 0) ⟨1, .n32, 3, 4, 5⟩, .vamomin .acq .dv .xq ⟨1,
      .i64, 3, 4, 5⟩, .vamomax .rel .sy (.x 2) ⟨1, .n32, 3, 4, 5⟩, .vamominn .ar .gr .xq ⟨1, .i64, 3, 4, 5⟩, .vamomaxn .none .st (.x 4) ⟨1, .n32, 3,
      4, 5⟩, .vamoand .acq .sy .xq ⟨1, .i64, 3, 4, 5⟩, .vamoor .rel .gr (.x 6) ⟨1, .n32, 3, 4, 5⟩, .vamoxor .ar .dv .xq ⟨1, .i64, 3, 4, 5⟩, .vamoswap
      .none .st (.x 8) ⟨1, .n32, 3, 4, 5⟩, .vamocas .acq .gr .xq ⟨1, .i64, 3, 4, 5⟩, .vamofaddF32 .rel .dv (.x 10) ⟨1, .f32, 3, 4, 5⟩, .vamofaddBf16
      .ar .sy .xq ⟨1, .bf16, 3, 4, 5⟩, .vbupdadd 2 .i8 9 (.x 0), .vbupdmin 2 .i16 9 .xq, .vbupdmax 2 .i32 9 (.x 2), .vbupdminn 2 .i64 9 .xq,
      .vbupdmaxn 2 .n8 9 (.x 4), .vbupdand 2 .n16 9 .xq] : List Instr).map some := by decide +kernel

theorem test_decode_stream_6 : [0x6180062402643, 0x80001C0072402643, 0x53100124A, 0x70061252, 0x7202025A, 0x32003262, 0x330269, 0xF0271,
      0x600003027A, 0x2000100C010051684, 0x2800030C000050684, 0x2000100C01140168C, 0x2000130400100068C, 0x510C821C61293, 0x510C821C6129B,
      0x510C821C612A3, 0x10C801D012AB, 0x7CC0010612B2, 0x100124812BA, 0x500124812BA, 0x900124812BA, 0x20C0010A12C2, 0x54C0010A12C2, 0xC0000C12CA].map
      (fun w => (decodeStream w).toOption) =
    ([.vbupdor 2 .n32 9 (.x 6), .vbupdxor 2 .n64 9 .xq, .vsend 1 .i64 4 5, .vmrecv 1 .n64 6, .vlock 0 .n64 2 8, .vunlock 3 .i64 8, .farrive .sy 3,
      .bwait 15, .bset 3 96, .ald 1 .i16 5 3 (.x 1) 2, .aldW .dv 0 .i8 5 3 .xq 2, .ast 1 .i16 5 3 (.x 1) 2, .astR .dv 0 .i8 4 1 (.x 1) 2, .aadd 3 4 5
      ⟨1, .i32, 6, 7, 8⟩, .asub 3 4 5 ⟨1, .i32, 6, 7, 8⟩, .amul 3 4 5 ⟨1, .i32, 6, 7, 8⟩, .axpand 3 4 ⟨1, .i8, 16, 7, 8⟩, .adif 3 31 ⟨1, .i8, 6, 4⟩,
      .reancCentre 4 ⟨1, .i16, 8, 9⟩, .reancWiden 4 ⟨1, .i16, 8, 9⟩, .reancNarrow 4 ⟨1, .i16, 8, 9⟩, .acvtFromanc 3 .f64 ⟨1, .i8, 10, 4⟩, .acvtToanc
      3 .n16 ⟨1, .i8, 10, 4⟩, .amovkKv 1 .i8 12 3] : List Instr).map some := by decide +kernel

theorem test_decode_stream_7 : [0x4C0030012CA, 0x3010012481AD3, 0x30500124816D3, 0x20301, 0x308, 0x810311, 0x1E7D20E003131B, 0x9B2011322,
      0x20009094132A, 0x200025021332, 0x400869003073B, 0x8000000620030743, 0x7FBE].map (fun w => (decodeStream w).toOption) =
    ([.amovkVk 1 .i8 12 3, .asclPow2 4 ⟨1, .i16, 8, 9, .i16 3⟩, .asclScl 4 ⟨1, .i16, 8, 9, .s (.x 3)⟩, .mclaim 2, .mfree, .mclr 0x81, .mma 1 .cb4 3 0
      32 31 30 0 1, .mopa 1 .bf16 1 8 9 0 0, .mrd 1 .f32 2 20 8, .mwr 1 .i32 2 20 8, .mld .f32 3 2 (.x 4) 6, .mst .i32 3 0 .xq 6, .vhint 7 6 31] :
      List Instr).map some := by decide +kernel


/-! ## States for the tests and witnesses -/

/-- A running strand of a whole-shape core after reset, its next instruction at 0x10002. -/
def base : State := State.reset.onCur fun st => { st with status := .running, gen := { st.gen with pc := 0x10002, npc := 0x10004 } }

/-- `base` with s1 = a, s2 = b, s3 = c. -/
def regs (a b c : Word) : State := base.onCur fun st => { st with gen := { st.gen with s := ((st.gen.s.set 1 a).set 2 b).set 3 c } }

/-- What a test reads of a next state. -/
def after {α : Type} (r : Res) (f : State → α) : Option α := match r with | .next t => some (f t) | _ => none

/-- The state after an instruction, for tests of what follows it. -/
def nextOf (r : Res) : State := match r with | .next t => t | _ => base

/-- An entry of the emit queue with carried scalar 0x55. -/
def entry0 : Entry := { call := false, bits := 0x8, carried := 0x55, prov := 0x10002, seq := 0, ord := 0, succ := 0x10004 }

/-- A state whose stream has a word in progress that has not been issued, with VL = n. -/
def word (n : Nat) : State := base.onCur fun st => { st with cur := some (Cur.fresh entry0), vl := n }

/-- `word 1` with one page at virtual 0x10000, RC, writable, with full/empty bits, in a group of core 0 alone. -/
def paged : State :=
  let s := (word 1).putCore { (word 1).core 0 with dtlb := [{ part := 0, va := 0x10000, bits := 16, leaf := 0x2020B }] }
  (s.putPart { s.part 0 with keyval := 1 }).onCur fun st =>
    { st with files := { st.files with x := (st.files.x.set 1 0x10000).set 2 0x10040 }, ident := { st.ident with gcores := 1, gsize := 1 }
              gen := { st.gen with s := st.gen.s.set 1 0x10000 } }

/-- The location of a virtual address of that page. -/
def locAt (va : Nat) : Loc := match (paged.resolve ⟨false, false⟩ va).2 with | .ok l => l | .error _ => Loc.nowhere

/-- A page without a word in progress: for the generator. -/
def pagedGen : State := paged.onCur fun st => { st with cur := none }

/-- Word in progress inside a block, with stream PC 0x20002. -/
def blockWord (n : Nat) : State := (word n).onCur fun st =>
  { st with cur := some { Cur.fresh entry0 with blk := true, spc := 0x20002, nspc := 0x20004 }
            block := { st.block with call := some entry0, spc := 0x20002 } }

/-- The answer is `x`. -/
def isOk {α : Type} [DecidableEq α] (r : Except Nat α) (x : α) : Bool := match r with | .ok y => decide (y = x) | .error _ => false

theorem ok_of {α : Type} [DecidableEq α] {r : Except Nat α} {x : α} (h : isOk r x = true) : r = .ok x := by
  cases r with
  | ok y => simpa [isOk] using h
  | error e => simp [isOk] at h

theorem calm_of {s : State} (hu : s.upsets = []) (hk : s.pkg.banks = []) (hd : s.dies = []) (hb : s.cur.bpctl = Vector.replicate 4 0) : s.calm :=
  ⟨hu, hk, fun d => by unfold State.die findBy; rw [hd]; exact (by decide : (0x1000028#64).getLsbD 0 = false), by rw [hb]; decide⟩

theorem word_issues (n : Nat) (h : n ≤ 1024) : (word n).issues :=
  ⟨⟨_, rfl, rfl, rfl, rfl, rfl, rfl, rfl, rfl, rfl, rfl, rfl⟩, rfl, (by decide : ∀ i < 4, (vget (Vector.replicate 4 (0 : Word)) i).getLsbD 0 = false), (by decide : (0#64).getLsbD 0 = false), rfl, rfl,
    ⟨(by decide : 1 ≤ 32), h⟩, rfl, (by decide : Status.running ≠ .saving)⟩

theorem paged_issues : paged.issues := ⟨⟨_, rfl, rfl, rfl, rfl, rfl, rfl, rfl, rfl, rfl, rfl, rfl⟩, rfl, by decide +kernel, rfl, rfl, rfl, by decide +kernel, rfl, by decide +kernel⟩

theorem block_issues (n : Nat) (h : n ≤ 1024) : (blockWord n).issues :=
  ⟨⟨_, rfl, rfl, rfl, rfl, rfl, rfl, rfl, rfl, rfl, rfl, rfl⟩, rfl, (by decide : ∀ i < 4, (vget (Vector.replicate 4 (0 : Word)) i).getLsbD 0 = false), (by decide : (0#64).getLsbD 0 = false), rfl, rfl,
    ⟨(by decide : 1 ≤ 32), h⟩, rfl, (by decide : Status.running ≠ .saving)⟩

theorem base_calm : base.calm := calm_of rfl rfl rfl rfl
theorem word_calm (n : Nat) : (word n).calm := calm_of rfl rfl rfl rfl
theorem paged_calm : paged.calm := calm_of rfl rfl rfl rfl
theorem pagedGen_calm : pagedGen.calm := calm_of rfl rfl rfl rfl
theorem unheld_of {s : State} (h0 : s.sched = []) (h1 : s.cur.sbuf = []) (h2 : s.cur.pend = []) (h3 : s.cur.copies = []) (h4 : s.others = []) : s.unheld :=
  ⟨h0, h1, h2, by rw [h3]; simp, by rw [h4]; simp⟩

theorem paged_unheld : paged.unheld := unheld_of rfl rfl rfl rfl rfl

theorem pagedGen_reaches (w f : Bool) (n : Nat) (h : n = 1 ∨ n = 2 ∨ n = 4 ∨ n = 8 ∨ n = 128) : pagedGen.reaches ⟨w, f⟩ 0x10000 n (locAt 0x10000) := by
  refine ⟨by rcases h with h | h | h | h | h <;> subst h <;> decide, ok_of ?_⟩
  cases w <;> cases f <;> decide +kernel

theorem paged_stands (w f : Bool) (n : Nat) (h : n = 1 ∨ n = 2 ∨ n = 4 ∨ n = 8 ∨ n = 16 ∨ n = 32) : paged.stands ⟨w, f⟩ 0x10000 n (locAt 0x10000) := by
  refine ⟨by rcases h with h | h | h | h | h | h <;> subst h <;> decide, Prod.ext ?_ (ok_of ?_), by decide +kernel, ?_⟩
  · cases w <;> cases f <;> rfl
  · cases w <;> cases f <;> decide +kernel
  · rcases h with h | h | h | h | h | h <;> subst h <;> decide +kernel

/-! ## Witnesses: states that meet the hypotheses of the statements, clause by clause -/

/-- `base` with a part of its strand changed. -/
def strand (f : Strand → Strand) : State := base.onCur f

/-- An entry of a store buffer at 0x10000. -/
def buf (k : SbKind) : SbEntry := { id := 0, ord := 0, ipc := 0x10002, ir := 0, kind := k, loc := locAt 0x10000, bad := none, park := true, budget := 0, waiter := none, exhausted := false, gw := none }

/-- `pagedGen` with that entry at the head of its store buffer. -/
def buffered (k : SbKind) : State := pagedGen.onCur fun st => { st with sbuf := [buf k] }

/-- The generator alone, at K level. -/
theorem witness_IntegerResults : (regs 5 7 9).free [3, 1, 2] ∧ (regs 5 7 9).cur.roomy := ⟨rfl, .inl rfl⟩
theorem witness_ImmediateResults : (regs 5 7 9).free [3, 1] ∧ (regs 5 7 9).cur.roomy := ⟨rfl, .inl rfl⟩
theorem witness_FloatResults : (regs 5 7 9).free [31, 0, 2] ∧ (regs 5 7 9).cur.roomy := ⟨rfl, .inl rfl⟩

theorem witness_NoOperations : (base.cur.roomy ∧ base.cur.noneLeft ∧ base.cur.idle = true) ∧
    ((buffered .feclr).cur.roomy ∧ ((buffered .feclr).cur.sbuf ≠ [] ∨ (buffered .feclr).cur.pend ≠ [])) ∧ ((word 1).cur.roomy ∧ (word 1).cur.idle = false) :=
  ⟨⟨.inl rfl, ⟨rfl, rfl⟩, rfl⟩, ⟨.inl rfl, .inl (by decide +kernel)⟩, .inr (by decide), rfl⟩

theorem witness_BranchTargets : (regs 5 7 9).free [31, 1, 2] ∧ (regs 5 7 9).cur.roomy := ⟨rfl, .inl rfl⟩

/-- LOOP: an exit at NextPC has no body; one halfword later it has one. -/
theorem witness_HardwareLoops_start : ((regs 0 1 9).free [1] ∧ (regs 0 1 9).cur.roomy ∧ (regs 0 1 9).cur.gen.pc.getLsbD 0 = false ∧
      (regs 0 1 9).cur.gen.npc.getLsbD 0 = false) ∧
    ((regs 0 1 9).cur.gen.pc + (1 : BitVec 27).signExtend 64 * 2).toNat ≤ (regs 0 1 9).cur.gen.npc.toNat ∧
    ((regs 0 1 9).cur.gen.npc.toNat < ((regs 0 1 9).cur.gen.pc + (2 : BitVec 27).signExtend 64 * 2).toNat ∧ (regs 0 1 9).cur.gen.act 0 = false ∧
      (regs 0 1 9).cur.gen.act 1 = false) := ⟨⟨rfl, .inl rfl, by decide +kernel, by decide +kernel⟩, by decide +kernel, by decide +kernel⟩

/-- Loop 0 or 1 alone active, its end at `e`. -/
def looping (c : Nat) (e : Word) : State :=
  strand fun st => { st with gen := { st.gen with lctl := if c = 0 then 1 else 6, lc0 := 2, lc1 := 1, lend0 := e, lend1 := e, lbeg0 := 0x10000, lbeg1 := 0x10000 } }

theorem witness_HardwareLoops_end : ((looping 0 0x10004).cur.roomy ∧ (looping 0 0x10004).cur.gen.act 0 = true ∧ (looping 0 0x10004).cur.gen.act 1 = false ∧
      (looping 0 0x10004).cur.gen.lend 0 = (looping 0 0x10004).cur.gen.npc) ∧
    ((looping 1 0x10006).cur.roomy ∧ (looping 1 0x10006).cur.gen.act 1 = true ∧ (looping 1 0x10006).cur.gen.act 0 = false ∧
      (looping 1 0x10006).cur.gen.lend 1 ≠ (looping 1 0x10006).cur.gen.npc ∧
      (looping 1 0x10006).cur.gen.lend 1 = (looping 1 0x10006).cur.gen.pc + (2 : BitVec 27).signExtend 64 * 2) :=
  ⟨⟨.inl rfl, by decide +kernel⟩, .inl rfl, by decide +kernel⟩

/-- Both loops active with one end, at the next instruction, loop 1 the INNER one. -/
def nested (n0 n1 : Nat) : State :=
  strand fun st => { st with gen := { st.gen with lctl := 7, lc0 := BitVec.ofNat 32 n0, lc1 := BitVec.ofNat 32 n1, lend0 := 0x10004, lend1 := 0x10004, lbeg0 := 0x10000, lbeg1 := 0x10000 } }

/-- The INNER loop goes on; it exits and the other goes on; both exit. A LOOP of loop 1 where loop 0 is active and ends at the LOOP, with a count, and with none. -/
theorem witness_HardwareLoops_nested : (∀ n ∈ [(2, 2), (2, 1), (1, 1)], (nested n.1 n.2).cur.roomy ∧ (nested n.1 n.2).cur.gen.act 1 = true ∧ (nested n.1 n.2).cur.gen.act 0 = true ∧
      (nested n.1 n.2).cur.gen.lend 1 = (nested n.1 n.2).cur.gen.npc ∧ (nested n.1 n.2).cur.gen.lend 0 = (nested n.1 n.2).cur.gen.npc ∧
      (nested n.1 n.2).cur.gen.lctl.getLsbD 2 = decide ((1 : Fin 2) = 1)) ∧
    ((nested 2 2).free [1] ∧ (nested 2 2).cur.gen.read 1 = 0 ∧ (nested 2 2).cur.gen.pc.getLsbD 0 = false ∧ (nested 2 2).cur.gen.npc.getLsbD 0 = false ∧
      (nested 2 2).cur.gen.npc.toNat < ((nested 2 2).cur.gen.pc + (2 : BitVec 27).signExtend 64 * 2).toNat ∧ (nested 2 2).cur.gen.lend 0 = (nested 2 2).cur.gen.npc) ∧
    (let s := (nested 1 2).onCur fun st => { st with gen := { st.gen with s := st.gen.s.set 1 3 } }
     s.cur.gen.read 1 = 3 ∧ (s.cur.gen.lc 0).toNat ≤ 1 ∧ s.free [1] ∧ s.cur.roomy) := by
  unfold Strand.roomy State.free; decide +kernel

theorem witness_PlainLoadReads : pagedGen.free [3, 1] ∧ pagedGen.cur.roomy ∧ pagedGen.cur.noneLeft ∧ pagedGen.calm ∧
    pagedGen.reaches ⟨false, false⟩ 0x10000 8 (locAt 0x10000) ∧ (locAt 0x10000).gw = false ∧
    pagedGen.copyHolds 0x10000 8 (fun _ => true) = false ∧ pagedGen.lineRead (locAt 0x10000) = .good ∧ pagedGen.cur.gen.read 1 = 0x10000 :=
  ⟨rfl, .inl rfl, ⟨rfl, rfl⟩, pagedGen_calm, pagedGen_reaches false false 8 (by simp), by decide +kernel⟩

/-- `pagedGen` with the sett at 0x10000 empty. -/
def emptied : State := pagedGen.setFull (locAt 0x10000).key false

theorem witness_WaitingLoads_full : pagedGen.reaches ⟨false, true⟩ 0x10000 1 (locAt 0x10000) ∧ pagedGen.reaches ⟨false, true⟩ 0x10000 8 (locAt 0x10000) ∧
    pagedGen.copyHolds 0x10000 1 (fun _ => true) = false ∧ pagedGen.full (locAt 0x10000).key = true :=
  ⟨pagedGen_reaches false true 1 (by simp), pagedGen_reaches false true 8 (by simp), by decide +kernel, by decide +kernel⟩

theorem witness_WaitingLoads_empty : emptied.free [3, 1] ∧ emptied.cur.roomy ∧ emptied.cur.noneLeft ∧ emptied.calm ∧
    emptied.reaches ⟨false, true⟩ 0x10000 8 (locAt 0x10000) ∧ emptied.lineRead (locAt 0x10000) = .good ∧
    emptied.copyHolds 0x10000 8 (fun _ => true) = false ∧ emptied.full (locAt 0x10000).key = false :=
  ⟨by unfold State.free; decide +kernel, by unfold Strand.roomy; decide +kernel, by unfold Strand.noneLeft; decide +kernel,
    calm_of (by decide +kernel) (by decide +kernel) (by decide +kernel) (by decide +kernel), ⟨by decide, ok_of (by decide +kernel)⟩, by decide +kernel⟩

/-- PWAIT with the target at the progress word (0), and one above it. -/
theorem witness_WaitingLoads_progress : pagedGen.free [0, 1] ∧ pagedGen.reaches ⟨false, false⟩ 0x10000 8 (locAt 0x10000) ∧
    (pagedGen.cur.gen.read 0).toNat ≤ pagedGen.valueAt (locAt 0x10000).key 8 ∧ pagedGen.valueAt (locAt 0x10000).key 8 < (pagedGen.cur.gen.read 1).toNat :=
  ⟨rfl, pagedGen_reaches false false 8 (by simp), by decide +kernel, by decide +kernel⟩

theorem witness_BufferedAccessesEnter : pagedGen.free [2, 3, 1, 5] ∧ pagedGen.cur.roomy ∧ pagedGen.cur.sbuf.length < 32 ∧
    pagedGen.reaches ⟨true, false⟩ 0x10000 8 (locAt 0x10000) ∧ pagedGen.reaches ⟨true, true⟩ 0x10000 8 (locAt 0x10000) ∧
    pagedGen.reaches ⟨false, true⟩ 0x10000 8 (locAt 0x10000) ∧ pagedGen.reaches ⟨true, true⟩ 0x10000 128 (locAt 0x10000) ∧
    pagedGen.reaches ⟨true, false⟩ 0x10000 4 (locAt 0x10000) ∧ pagedGen.reaches ⟨true, false⟩ 0x10000 2 (locAt 0x10000) :=
  ⟨rfl, .inl rfl, by decide +kernel, pagedGen_reaches true false 8 (by simp), pagedGen_reaches true true 8 (by simp),
    pagedGen_reaches false true 8 (by simp), pagedGen_reaches true true 128 (by simp), pagedGen_reaches true false 4 (by simp),
    pagedGen_reaches true false 2 (by simp)⟩

theorem witness_MisalignedAccessTraps : (regs 0x10007 0 0).free [3, 1, 2] ∧ (regs 0x10007 0 0).cur.idle = true ∧ (regs 0x10007 0 0).cur.drained = true ∧
    ((regs 0x10007 0 0).cur.gen.read 1 + (0 : BitVec 27).signExtend 64).toNat % sizeBytes .b8 ≠ 0 := ⟨rfl, rfl, rfl, by decide +kernel⟩

theorem witness_BufferedFormsPerform (k : SbKind) (hk : k ∈ [.st .b1 5, .stF .b8 5, .stS .b4 5, .feclr, .feset, .ldC .b8 false 3, .ldct 4, .launch 3 0x40,
      .amo .add 8 .none .st 3 5 0]) :
    (buffered k).performs (buf k) ∧ (buffered k).chaining (buf k).loc = false ∧ (buffered k).calm ∧ (buf k).loc.gw = false ∧ (buffered k).lineRead (buf k).loc = .good ∧ Memory.wf (buffered k).mem = true ∧ (buffered k).full (buf k).loc.key = true ∧
    (buf k).kind = k := by
  refine ⟨⟨rfl, (by decide +kernel : pagedGen.lost pagedGen.cur.part = false), ?_, ?_, rfl⟩, rfl, calm_of rfl rfl rfl rfl, (by decide +kernel : (locAt 0x10000).gw = false), ?_, rfl, ?_, rfl⟩ <;>
    (simp only [List.mem_cons, List.not_mem_nil, or_false] at hk; rcases hk with rfl | rfl | rfl | rfl | rfl | rfl | rfl | rfl | rfl <;> decide +kernel)

/-- The same on an empty sett: ST.f performs, LDCT and LAUNCH give their other answers. -/
theorem witness_BufferedFormsPerform_empty :
    ((buffered (.stF .b8 5)).setFull (locAt 0x10000).key false).full (locAt 0x10000).key = false ∧
    ((buffered (.stF .b8 5)).setFull (locAt 0x10000).key false).bufHead = some (buf (.stF .b8 5)) ∧
    ((buffered (.ldct 4)).setFull (locAt 0x10000).key false).bufHead = some (buf (.ldct 4)) ∧
    ((buffered (.launch 3 0x40)).setFull (locAt 0x10000).key false).bufHead = some (buf (.launch 3 0x40)) := by decide +kernel

theorem witness_AtomicPerforms : (buffered (.amo .faddBf16 2 .none .st 3 5 0)).bufHead = some (buf (.amo .faddBf16 2 .none .st 3 5 0)) ∧
    (buffered (.amo .cas 4 .none .st 0 5 0)).bufHead = some (buf (.amo .cas 4 .none .st 0 5 0)) := by decide +kernel

/-- A state with templates 0 and 255. -/
def templates : State := strand fun st => { st with tmpl := [⟨0, 0x8, [], [], []⟩, ⟨255, 0x8, [], [], []⟩] }

theorem witness_EmitQueue_push : templates.free [1, 2, 3] ∧ templates.cur.roomy ∧ templates.cur.qn < 64 ∧ templates.cur.dbgctl.getLsbD 0 = false ∧
    findBy Tmpl.num (255 : Fin 256).val templates.cur.tmpl = some ⟨255, 0x8, [], [], []⟩ ∧ findBy Tmpl.num (1 : Fin 256).val templates.cur.tmpl = none :=
  ⟨rfl, .inl rfl, by decide +kernel⟩

/-- RPLY with a reply, with none and the stream idle, with none and a word outstanding; EQWAIT at and above its bound. -/
theorem witness_EmitQueue_replies : ((strand fun st => { st with reply := [5] }).free [3] ∧ (strand fun st => { st with reply := [5] }).cur.roomy ∧
      (strand fun st => { st with reply := [5] }).cur.reply = 5 :: []) ∧
    (base.cur.reply = [] ∧ base.cur.idle = true) ∧ ((word 1).cur.reply = [] ∧ (word 1).cur.idle = false) ∧
    (word 1).cur.outstanding ≤ (1 : Fin 64).val ∧ (0 : Fin 64).val < (word 1).cur.outstanding :=
  ⟨⟨rfl, .inl rfl, rfl⟩, ⟨rfl, rfl⟩, ⟨rfl, rfl⟩, by decide +kernel, by decide +kernel⟩

/-- Full queues. -/
theorem witness_QueueStatus : (let s := strand fun st => { st with reply := List.replicate 16 0, queue := List.replicate 64 (.word entry0), nseq := -1 }
    s.free [3] ∧ s.cur.histUsed ≤ 56 ∧ s.cur.reply.length ≤ 16 ∧ s.cur.qn ≤ 64) := by unfold State.free; decide +kernel

/-- A state whose code line at virtual 0x10000 holds NOP. -/
def coded : State := State.reset.withFetchWord 16 0x8

/-- That state with s1 = 0x10000. -/
def codedAt : State := coded.onCur fun st => { st with gen := { st.gen with s := st.gen.s.set 1 0x10000, npc := 0x10004 } }

/-- The location of that line. -/
def codeLoc : Loc := match (codedAt.resolveFor 0 0 0x10000).2 with | .ok l => l | .error _ => Loc.nowhere

/-- A field of the line that a fetch gives. -/
def lineIs (r : Except Nat Nat) (p : Nat → Bool) : Bool := match r with | .ok y => p y | .error _ => false

/-- Registers, a line that is locked, one that fails its checks, a full cache, a page that is not there, an address that is not aligned. -/
theorem witness_TileSizesAndCacheLocks :
    let full := codedAt.onCur fun st => { st with icg := (List.range 256).map fun k => BitVec.ofNat 64 (0x20000 + 64 * k) }
    let blank := codedAt.onCur fun st => { st with gen := { st.gen with s := st.gen.s.set 1 0x10040 } }
    (regs 40 33 100).free [1, 2, 3] ∧ (regs 40 33 100).cur.roomy ∧ (codedAt.free [2, 1] ∧ codedAt.cur.roomy) ∧
    (codedAt.cur.gen.read 1 + (1 : BitVec 27).signExtend 64).toNat % 64 ≠ 0 ∧ (codedAt.cur.gen.read 1 + (0 : BitVec 27).signExtend 64).toNat % 64 = 0 ∧
    isOk (codedAt.fetchLine 0x10000 none).2 (lineOf1 0 0x8) = true ∧ lineOk (lineOf1 0 0x8) 0 = true ∧ (0x10000#64) ∉ codedAt.cur.icg ∧
    (codedAt.lockedLines false).length < 256 ∧ 256 ≤ (full.lockedLines false).length ∧ (0x10000#64) ∉ full.lockedLines false ∧ (0x10000#64) ∉ full.cur.icg ∧
    lineIs (blank.fetchLine 0x10040 none).2 (fun l => !lineOk l 0) = true ∧ (base.fetchLine 0x10000 none).2.toOption = none ∧ codedAt.calm ∧
    isOk (codedAt.resolveFor codedAt.cur.part codedAt.cur.coreNo 0x10000).2 codeLoc = true ∧ codeLoc.gw = false ∧ codedAt.lineRead codeLoc = .good ∧
    (base.resolveFor base.cur.part base.cur.coreNo 0x10000).2.toOption = none := by
  refine ⟨rfl, .inl rfl, ⟨by unfold State.free; decide +kernel, by unfold Strand.roomy; decide +kernel⟩, ?_, ?_, ?_, ?_, ?_, ?_, ?_, ?_, ?_, ?_, ?_,
    calm_of (by decide +kernel) (by decide +kernel) (by decide +kernel) (by decide +kernel), ?_, ?_, ?_, ?_⟩ <;> decide +kernel

theorem test_tileset_same_register_is_illegal : (Instr.tileset .f32 3 3 5).wf = false ∧ (Instr.tileset .f32 0 0 5).wf = true := by decide

/-- `pagedGen` with s1 = 0x10000 and s2 = 0x10040, and 8 in s3. -/
def copying : State := pagedGen.onCur fun st => { st with gen := { st.gen with s := (st.gen.s.set 2 0x10040).set 3 8 } }

/-- A copy of the strand. -/
def cpy (h : Nat) (st : CopySt) (err : BitVec 8) : Copy :=
  { handle := h, st := st, kind := .copy, mode := .plain, dst := 0x10040, src := 0x10000, len := 8, done := [], gw := none, buf := none, err := err, flg := 0, ord := 0
    id := 0 }

theorem witness_Copies_enter : copying.free [4, 2, 1, 3, 5] ∧ copying.cur.roomy ∧ copying.cur.sbuf.length < 32 ∧ copying.scoreboard < 16 ∧
    copyCheck .copy .plain (copying.cur.gen.read 2) (copying.cur.gen.read 1) (copying.cur.gen.read 3) = none ∧
    copyCheck .copy .bitsOut (copying.cur.gen.read 2) (copying.cur.gen.read 1) (copying.cur.gen.read 0) = none ∧
    copyCheck (.mc 1) .plain (BitVec.ofNat 64 (windowAddr 0 0)) (copying.cur.gen.read 1) (copying.cur.gen.read 0) = none ∧
    (copying.resolveStream ⟨false, false⟩ (copying.cur.gen.read 1).toNat).2 = .ok (locAt 0x10000) ∧ (locAt 0x10000).gw = false ∧
    ((copying.resolveStream ⟨false, false⟩ (copying.cur.gen.read 1).toNat).1.resolveStream ⟨true, false⟩ (copying.cur.gen.read 2).toNat).2 =
      .ok (locAt 0x10040) ∧ (copying.cur.gen.read 3 + 1).toNat % 8 ≠ 0 :=
  ⟨rfl, .inl rfl, by decide +kernel, by decide +kernel, by decide +kernel, by decide +kernel, by decide +kernel, ok_of (by decide +kernel), by decide +kernel,
    ok_of (by decide +kernel), by decide +kernel⟩

/-- CPYW: every copy done, one still under way, one that failed; with sa = s0 and with a handle. -/
theorem witness_Copies_wait : (strand fun st => { st with copies := [cpy 1 .retired 0] }).free [3, 1] ∧ (strand fun st => { st with copies := [cpy 1 .retired 0] }).cur.roomy ∧
    (∀ c ∈ (strand fun st => { st with copies := [cpy 1 .retired 0] }).cur.copies, c.st = .retired ∧ c.err = 0) ∧
    (∃ c ∈ (strand fun st => { st with copies := [cpy 1 .running 0] }).cur.copies, c.st ≠ .retired) ∧
    (∃ c ∈ (strand fun st => { st with copies := [cpy 1 .retired 4] }).cur.copies, c.err ≠ 0) ∧
    (strand fun st => { st with copies := [cpy 1 .retired 4] }).cur.idle = true ∧ (strand fun st => { st with copies := [cpy 1 .retired 4] }).cur.noneLeft :=
  ⟨rfl, .inl rfl, by simp [strand, State.onCur, cpy], by simp [strand, State.onCur, cpy], by simp [strand, State.onCur, cpy], rfl, rfl, rfl⟩

/-- Reads: at K level a K register and, of S level, TTB's neighbour 0x0F5; a number that names nothing. Writes: GFSTAT, a loop register, FCTL; a read-only one. -/
theorem witness_SystemRegisters : (regs 5 7 9).free [3] ∧ (regs 5 7 9).cur.roomy ∧ (regs 5 7 9).cur.gen.level = .k ∧ (regs 5 7 9).cur.idle = true ∧
    (∃ i, regInfo 0x020 = some i ∧ i.rd = .k ∧ i.waitR = true) ∧ (∃ i, regInfo 0x0F5 = some i ∧ i.rd = .s) ∧ regInfo 0x00F = none ∧
    (∃ i, regInfo 0x022 = some i ∧ i.wr = none) ∧ (∃ i, regInfo 0x06E = some i ∧ i.wr = some .s) ∧
    (∃ i, regInfo 0x014 = some i ∧ i.wr = some .k) ∧ (∃ i, regInfo 0x055 = some i ∧ i.wr = some .k) ∧ (∃ i, regInfo 0x010 = some i ∧ i.wr = some .k) ∧
    (regs 5 7 9).cur.queue = [] ∧ (regs 5 7 9).sysBad 0x010 5 = none ∧ (regs 5 7 9).sysBad 0x014 5 = none ∧ (regs 5 7 9).sysBad 0x055 5 = none ∧
    (regs 5 7 9).cur.gen.act 0 = false ∧ (regs 5 7 9).cur.gen.act 1 = false ∧ (regs 5 7 9).cur.vl < 2048 ∧ (regs 5 7 9).cur.rows < 64 ∧
    (regs 5 7 9).cur.reg 0x010 = some 0xF04 :=
  ⟨rfl, .inl rfl, rfl, rfl, ⟨_, rfl, rfl, rfl⟩, ⟨_, rfl, rfl⟩, rfl, ⟨_, rfl, rfl⟩, ⟨_, rfl, rfl⟩, ⟨_, rfl, rfl⟩, ⟨_, rfl, rfl⟩, ⟨_, rfl, rfl⟩, rfl, by decide +kernel⟩

/-- Writes of a register of the core, of the partition, of the die and of the fabric; a control register while a word is outstanding, and one that waits; a write
that a field check refuses; LC of the loop that ends here. -/
theorem witness_SystemRegisters_places :
    (let s := (regs 5 7 9).onCur fun st => { st with gen := { st.gen with level := .s } }
     (∀ n ∈ [0x0C0, 0x210, 0x228, 0x22B], (∃ i, regInfo n = some i ∧ i.wr.isSome = true) ∧ s.sysBad n 0 = none) ∧
      (∀ n ∈ [0x0F0, 0x0F7, 0x0FE], s.cur.reg n = none ∧ (∃ i, regInfo n = some i ∧ i.wr = some .s) ∧ (s.partWrite s.cur.part (s.cur.cluster / 5) n 0).isSome = true ∧
        s.tlbiWaits s.cur.part n 0 = false) ∧
      s.partWrite s.cur.part (s.cur.cluster / 5) 0x100 0 = none ∧ (s.partWrite s.cur.part (s.cur.cluster / 5) 0x0F2 1).isSome = true ∧ s.sysBad 0x200 0x30 ≠ none ∧
      (let t := s.onCur fun st => { st with cur := some { Cur.fresh entry0 with pins := [0x10000] } }
       t.tlbiWaits t.cur.part 0x0F2 1 = true ∧ (t.partWrite t.cur.part (t.cur.cluster / 5) 0x0F2 1).isSome = true)) ∧
    ((word 1).cur.idle = false ∧ (word 1).free [0] ∧ (word 1).cur.roomy ∧ (word 1).sysBad 0x010 0 = none ∧ (∃ i, regInfo 0x010 = some i ∧ i.waitW = false ∧ i.wr = some .k) ∧
      (∃ i, regInfo 0x020 = some i ∧ i.waitW = true ∧ i.wr = some .k)) ∧
    ((looping 0 0x10004).cur.gen.act 0 = true ∧ (looping 0 0x10004).cur.gen.lend 0 = (looping 0 0x10004).cur.gen.npc ∧ (looping 0 0x10004).cur.gen.act 1 = false ∧
      (looping 0 0x10004).free [1] ∧ ∃ i, regInfo 0x050 = some i ∧ i.wr = some .k ∧ i.waitW = false) := by
  unfold Strand.roomy State.free; decide +kernel

/-- A node at the bench. -/
def node0 : Node :=
  { id := 1, part := 0, q := 0, st := .ready, kcb := 0, args := [], half := false, ovlp := false, park := false, chk := 0, stages := 1, nbar := 0, gsize := 1, gps := 1
    budget := 0, entry := 0x10002, ktvec := 0, deleg := 0, tmpl := [], done := 0x10000, lp := false, preds := [0, 0, 0, 0], seen := 0, tiles := [], recorded := true
    reject := 0, prev := none, prio := 3, eff := 3, readyAt := 0, raises := 0, nextG := 0, ended := 0, lastCluster := none, fail := none, doneOk := true, slots := []
    gw := none }

/-- A bench with a candidate. -/
def candidate : State := { base with nodes := [node0] }

theorem witness_EndAndYield : (base.cur.idle = true ∧ base.cur.drained = true ∧ base.cur.copies = []) ∧ (word 1).cur.idle = false ∧
    (base.cur.roomy ∧ base.hasCandidate = false) ∧ (candidate.cur.roomy ∧ candidate.hasCandidate = true ∧ candidate.cur.handling = false ∧
      candidate.cur.fault = none ∧ candidate.cur.status = .running) ∧
    ((candidate.onCur fun st => { st with kbank := { st.kbank with stat := 1 } }).hasCandidate = true ∧
      (candidate.onCur fun st => { st with kbank := { st.kbank with stat := 1 } }).cur.handling = true) :=
  ⟨⟨rfl, rfl, rfl⟩, rfl, ⟨.inl rfl, by decide +kernel⟩, ⟨.inl rfl, by decide +kernel, by decide +kernel, rfl, rfl⟩, by decide +kernel, by decide +kernel⟩

/-- A strand with handlers at both levels, DELEG<0> set. -/
def handlers : State := strand fun st => { st with stvec := 0x4002, ktvec := 0x8002, deleg := 1 }
/-- That strand with a handler active in one bank. -/
def inHandler (k : Bool) : State := handlers.onCur fun st =>
  if k then { st with kbank := { st.kbank with stat := 1, cause := 0x01, epc := 0x10004 } }
  else { st with sbank := { st.sbank with stat := 1, cause := 0x106, epc := 0x10004, held := true }, gen := { st.gen with level := .s } }

theorem witness_TrapsTaken : (inHandler false).cur.sbank.hdl = true ∧
    ((inHandler true).cur.sbank.hdl = false ∧ (inHandler true).cur.kbank.hdl = true ∧ (inHandler true).cur.stvec ≠ 0) ∧
    (handlers.cur.sbank.hdl = false ∧ handlers.cur.kbank.hdl = false ∧ delegBit 0x07 = some 0 ∧ handlers.cur.deleg.getLsbD 0 = true ∧ handlers.cur.ktvec ≠ 0) ∧
    (delegBit 0x03 = none ∧ handlers.cur.stvec ≠ 0) ∧
    (handlers.cur.idle = true ∧ handlers.cur.drained = true ∧ handlers.cur.deleg.getLsbD 5 = false) := by decide +kernel

theorem witness_EretReturns : base.cur.kbank.stat.getLsbD 0 = false ∧
    ((inHandler true).cur.gen.level = .k ∧ (inHandler true).cur.kbank.stat.getLsbD 0 = true ∧ (inHandler true).cur.idle = true ∧ (inHandler true).cur.drained = true ∧
      (inHandler true).cur.preempt = false ∧ (inHandler true).cur.yielded = false ∧ (inHandler true).cur.kbank.cause.getLsbD 8 = false) ∧
    ((inHandler false).cur.gen.level = .s ∧ (inHandler false).cur.sbank.stat.getLsbD 0 = true ∧ (inHandler false).cur.idle = true ∧
      (inHandler false).cur.sbank.cause.getLsbD 8 = true ∧ (inHandler false).cur.sbank.cause.getLsbD 11 = false) := by decide +kernel

/-- `word 1` with x1 = n. -/
def count (n : Word) : State := (word 1).onCur fun st => { st with files := { st.files with x := st.files.x.set 1 n } }

theorem count_issues (n : Word) : (count n).issues :=
  ⟨⟨_, rfl, rfl, rfl, rfl, rfl, rfl, rfl, rfl, rfl, rfl, rfl⟩, rfl, (by decide : ∀ i < 4, (vget (Vector.replicate 4 (0 : Word)) i).getLsbD 0 = false), (by decide : (0#64).getLsbD 0 = false),
    rfl, rfl, ⟨(by decide : 1 ≤ 32), (by decide : 1 ≤ 1024)⟩, rfl, (by decide : Status.running ≠ .saving)⟩

/-- VSETROWS by x1: 1 and 32 set, 0 and 33 stop; VREP with room for one reply, and with none. -/
theorem witness_ControlWords : (count 32).issues ∧ (count 33).issues ∧ (0 : XReg) ≠ 1 ∧ (1 ≤ ((count 32).cur.files.x[(1 : XReg)]).toNat ∧
      ((count 32).cur.files.x[(1 : XReg)]).toNat ≤ 32) ∧ 32 < ((count 33).cur.files.x[(1 : XReg)]).toNat ∧ (count 33).cur.files.x[(0 : XReg)] = 0 ∧
    (count 32).cur.reply.length < 16 ∧ 16 ≤ ((count 32).onCur fun st => { st with reply := List.replicate 16 0 }).cur.reply.length :=
  ⟨count_issues 32, count_issues 33, by decide, by decide +kernel⟩

/-- A word of a block with count x1 = 5 and the strip and fragment state given. -/
def inBlock (n : Nat) (f : Block → Block) : State := (blockWord n).onCur fun st =>
  { st with block := f st.block, files := { st.files with x := st.files.x.set 1 5, m := st.files.m.set 1 1 } }

theorem inBlock_issues (n : Nat) (f : Block → Block) (h : n ≤ 1024) : (inBlock n f).issues :=
  ⟨⟨_, rfl, rfl, rfl, rfl, rfl, rfl, rfl, rfl, rfl, rfl, rfl⟩, rfl, (by decide : ∀ i < 4, (vget (Vector.replicate 4 (0 : Word)) i).getLsbD 0 = false), (by decide : (0#64).getLsbD 0 = false),
    rfl, rfl, ⟨(by decide : 1 ≤ 32), h⟩, rfl, (by decide : Status.running ≠ .saving)⟩

/-- VBSTRIP ended, going on, and without progress; VBR by an empty, a full and a mixed mask; VJOIN of each kind; VLOOP with a body of 0 and more. -/
theorem witness_BlockWords : (∀ f, (inBlock 2 f).issues) ∧ (inBlock 2 id).cur.word.blk = true ∧ (inBlock 2 id).cur.files.x[(0 : XReg)] = 0 ∧
    (inBlock 2 id).cur.files.x[(1 : XReg)] ≠ 0 ∧ (inBlock 2 id).cur.block.stripct.getLsbD 0 = false ∧
    (let b := (inBlock 2 fun b => { b with stripct := 3, strippc := 0x20002, stripv := 5 }).cur.block
     b.stripct.getLsbD 0 = true ∧ b.stripct.getLsbD 1 = true ∧ b.strippc = 0x20002 ∧ b.stripv.toNat ≤ 5) ∧
    ((inBlock 2 id).cur.block.pfb = [] ∧ 8 ≤ (inBlock 2 fun b => { b with pfb := List.replicate 8 ⟨.uni, 0, 0, 0⟩ }).cur.block.pfb.length) ∧
    ((vget (inBlock 2 id).cur.files.m 2).getLsbD 0 = false ∧ (vget (inBlock 2 id).cur.files.m 2).getLsbD 1 = false) ∧
    ((vget (inBlock 2 id).cur.files.m 1).getLsbD 0 = true ∧ (vget (inBlock 2 id).cur.files.m 1).getLsbD 1 = false ∧ (inBlock 2 id).cur.block.fm.getLsbD 1 = true) ∧
    ((inBlock 2 id).cur.word.nspc.toNat < ((inBlock 2 id).cur.word.spc + (2 : BitVec 16).signExtend 64 <<< 1).toNat) ∧
    (((inBlock 2 id).cur.word.spc + (1 : BitVec 16).signExtend 64 <<< 1).toNat ≤ (inBlock 2 id).cur.word.nspc.toNat) ∧
    (inBlock 2 fun b => { b with pfb := [⟨.pend, 0x20004, 1, 3⟩] }).cur.block.pfb = [] ++ [⟨.pend, 0x20004, 1, 3⟩] :=
  ⟨fun f => inBlock_issues 2 f (by decide), by decide +kernel⟩

/-- A state whose line at 0x10000 is a stream block line, with a word in progress. -/
def blockLine : State :=
  let s := (coded.onCur fun st => { st with cur := some (Cur.fresh entry0), vl := 1 })
  s.storeAt codeLoc (leBytes (lineOf1 1 0x48) 64)

theorem witness_BlocksCallAndReturn : (word 1).issues ∧ (0x10001#64).toNat % 64 ≠ 0 ∧ isOk (blockLine.fetchLine 0x10000 (some true)).2 (lineOf1 1 0x48) = true ∧
    lineOk (lineOf1 1 0x48) 1 = true ∧ (0x10000#64).toNat % 64 = 0 ∧ lineOk (lineOf1 0 0x8) 1 = false ∧
    ((inBlock 2 id).cur.word.blk = true ∧ (inBlock 2 id).cur.block.pfb = []) :=
  ⟨word_issues 1 (by decide), by decide, by decide +kernel, by decide +kernel, by decide, by decide +kernel, by decide +kernel, rfl⟩


theorem word_fpx (n : Nat) (fl : Flags) : (word n).cur.ctl.fpx fl = false := by
  show (fl &&& (0#64).setWidth 9 &&& fpxMask != 0) = false
  simp

theorem word_untrapped (n : Nat) (res : State → Nat → Nat → Nat × Flags) : (word n).untrapped res := fun _ _ _ => word_fpx n _

/-- Tiles at the bounds of R144: a group that ends at v63, VL = VLMAX of the type. -/
theorem witness_IntegerWords : (word 64).issues ∧ (word 64).fits 64 [63, 0, 5] ∧ (word 64).fits 8 [63, 62] ∧ Ty.n64.isInt = true ∧ Ty.i8.isInt = true ∧
    ∀ res, (word 64).untrapped res :=
  ⟨word_issues 64 (by decide), ⟨by decide, by decide⟩, ⟨by decide, by decide⟩, rfl, rfl, word_untrapped 64⟩

theorem witness_ComparesAndSelects : (word 128).issues ∧ (7 : VReg).val + (word 128).cur.rows ≤ 8 ∧ (word 128).fits 32 [63, 1] ∧ Ty.i32.isInt = true ∧ Ty.f32.isFloat = true ∧
    Ty.f32.isArithFloat = true ∧ (∀ fl, (word 128).cur.ctl.fpx fl = false) ∧ ∀ res, (word 128).untrapped res :=
  ⟨word_issues 128 (by decide), by decide, ⟨by decide, by decide⟩, rfl, rfl, rfl, word_fpx 128, word_untrapped 128⟩

theorem witness_FloatWords : (word 256).issues ∧ (word 256).fits 16 [63, 0, 1] ∧ Ty.bf16.isArithFloat = true ∧ ∀ res, (word 256).untrapped res :=
  ⟨word_issues 256 (by decide), ⟨by decide, by decide⟩, rfl, word_untrapped 256⟩

theorem witness_ConversionsAndPacking : (word 128).issues ∧ (word 128).fits (max Ty.f32.width Ty.e4m3.width) [10, 2] ∧ (word 128).fits 16 [8, 9] ∧
    (word 128).fits (max Ty.i32.width Ty.i8.width) [4, 6, 7] ∧ 2 * (word 128).cur.vl * Ty.i8.width ≤ (word 128).cur.lanes * 64 ∧
    (word 128).fits (max Ty.i8.width Ty.i16.width) [4, 6] ∧ (∀ fl, (word 128).cur.ctl.fpx fl = false) ∧ ∀ res, (word 128).untrapped res :=
  ⟨word_issues 128 (by decide), ⟨by decide, by decide⟩, ⟨by decide, by decide⟩, ⟨by decide, by decide⟩, by decide, ⟨by decide, by decide⟩, word_fpx 128, word_untrapped 128⟩

/-- `word 33` under CANON = 0. -/
def uncanon : State := (word 33).onCur fun st => { st with ctl := { st.ctl with fctl := 0xF00 } }

theorem witness_ReductionWords : (word 33).issues ∧ (word 33).fits 64 [63, 62] ∧ Ty.i64.isInt = true ∧ Ty.f64.isArithFloat = true ∧
    (word 33).cur.ctl.fctl.getLsbD 2 = true ∧ (∀ fl, (word 33).cur.ctl.fpx fl = false) ∧
    (uncanon.issues ∧ uncanon.fits 64 [63, 62] ∧ uncanon.cur.ctl.fctl.getLsbD 2 = false ∧ ∀ fl, uncanon.cur.ctl.fpx fl = false) :=
  ⟨word_issues 33 (by decide), ⟨by decide, by decide⟩, rfl, rfl, by decide, word_fpx 33,
    ⟨⟨_, rfl, rfl, rfl, rfl, rfl, rfl, rfl, rfl, rfl, rfl, rfl⟩, rfl, by decide +kernel, by decide +kernel, rfl, rfl, by decide +kernel, rfl, by decide +kernel⟩, ⟨by decide, by decide⟩, by decide +kernel, word_fpx 33⟩

theorem witness_ScanWords : (word 256).issues ∧ (word 256).fits 16 [20, 8] ∧ Ty.n16.isInt = true ∧ Ty.f16.isArithFloat = true ∧ ∀ fl, (word 256).cur.ctl.fpx fl = false :=
  ⟨word_issues 256 (by decide), ⟨by decide, by decide⟩, rfl, rfl, word_fpx 256⟩

theorem witness_PermuteWords : (word 64).issues ∧ (word 64).fits 64 [3, 3] ∧ (word 64).fits 64 [3] ∧ (63 : VReg).val < (word 64).cur.lanes * 64 / Ty.f64.width ∧
    (word 64).fits (max Ty.f32.width 16) [12, 4, 20] ∧ (word 64).cur.vl % 2 = 0 ∧ (∀ n, Third.s .xq ≠ .v n) ∧ ∀ fl, (word 64).cur.ctl.fpx fl = false :=
  ⟨word_issues 64 (by decide), ⟨by decide, by decide⟩, ⟨by decide, by decide⟩, by decide, ⟨by decide, by decide⟩, by decide, nofun, word_fpx 64⟩

theorem witness_AmaxHistory : (word 128).issues ∧ Ty.f32.isFloat = true ∧ (word 128).fits 32 [8] ∧ (word 128).cur.ctl.fpx fNV = false ∧
    (∃ f, (word 128).cur.fmaxOf .e4m3 0 = some f ∧ f.isZero = false ∧ f.isFin = true ∧ f.sign = false) ∧
    (∃ f, (word 128).cur.fmaxOf .cb4 0 = some f ∧ f.isZero = true) ∧
    (∃ f, ((word 128).onCur fun st => { st with files := { st.files with cb := st.files.cb.set 0 0x7F80 } }).cur.fmaxOf .cb4 0 = some f ∧ f.isZero = false ∧ f.isFin = false) ∧
    (vget (vget ((word 128).onCur fun st => { st with files := { st.files with amh := st.files.amh.set 1 ⟨Vector.replicate 16 0x40000000, 0⟩ } }).cur.files.amh 1).slots 0).toNat =
      0x40000000 :=
  ⟨word_issues 128 (by decide), rfl, ⟨by decide, by decide⟩, word_fpx 128 _, by decide +kernel⟩

theorem witness_BlockDotProducts : (word 9).issues ∧ (word 9).fits 4 [40, 0, 8, 16, 17] ∧ ∀ fl, (word 9).cur.ctl.fpx fl = false :=
  ⟨word_issues 9 (by decide), ⟨by decide, by decide⟩, word_fpx 9⟩

theorem paged_single : paged.single 0 := ⟨rfl, rfl, by decide, by decide, by decide +kernel⟩

/-- `paged` with one element, or two, at 0x10000 and 0x10008 by unit and by index v5, and these setts full or empty. -/
def pair (two hollow : Bool) : State := { paged.onCur fun st => { st with vl := if two then 2 else 1, files := { st.files with v := st.files.v.set 5 (8 <<< 64) } } with
  empties := if hollow then [(locAt 0x10000).key, (locAt 0x10008).key] else [] }

/-- The location of element i of `pair`, and its address, and the same in the lane view. -/
def pairLoc (_ i : Nat) : Loc := if i = 0 then locAt 0x10000 else locAt 0x10008
def pairVa (_ i : Nat) : Word := if i = 0 then 0x10000 else 0x10008
def laneOf (_ i : Nat) : Loc := match paged.resolvePad (windowAddr 0 (laneOffset i 0)) with | .ok l => l | .error _ => Loc.nowhere
def laneVa (_ i : Nat) : Word := BitVec.ofNat 64 (windowAddr 0 (laneOffset i 0))

theorem pair_on {two hollow : Bool} {r i : Nat} (h : (pair two hollow).on 0 r i) : r = 0 ∧ (i = 0 ∨ i = 1) := by
  have h1 : r < 1 := h.1
  have h2 : i < if two then 2 else 1 := h.2.1
  split at h2 <;> omega

theorem pair_all {two hollow : Bool} {p : Nat → Nat → Prop} (h0 : p 0 0) (h1 : p 0 1) : ∀ r i, (pair two hollow).on 0 r i → p r i := by
  intro r i h
  obtain ⟨rfl, rfl | rfl⟩ := pair_on h
  · exact h0
  · exact h1

theorem pair_any {two hollow : Bool} {p : Nat → Nat → Nat → Nat → Prop} (h : ∀ i < 2, ∀ j < 2, p 0 i 0 j) :
    ∀ r i q j, (pair two hollow).on 0 r i → (pair two hollow).on 0 q j → p r i q j :=
  fun r i q j a b => by
    obtain ⟨rfl, a⟩ := pair_on a
    obtain ⟨rfl, b⟩ := pair_on b
    exact h i (by omega) j (by omega)

theorem pair_issues (two hollow : Bool) : (pair two hollow).issues :=
  ⟨⟨_, rfl, rfl, rfl, rfl, rfl, rfl, rfl, rfl, rfl, rfl, rfl⟩, rfl, (by decide : ∀ i < 4, (vget (Vector.replicate 4 (0 : Word)) i).getLsbD 0 = false), (by decide : (0#64).getLsbD 0 = false), rfl, rfl,
    ⟨(by decide : 1 ≤ 32), (by cases two <;> decide : (if two then 2 else 1) ≤ 1024)⟩, rfl, (by decide : Status.running ≠ .saving)⟩

/-- What every word on `pair` relies on. -/
theorem pair_ready (two hollow : Bool) : (pair two hollow).issues ∧ (pair two hollow).calm ∧ (pair two hollow).unheld ∧ (pair two hollow).oneSet 0 ∧ Memory.wf (pair two hollow).mem = true ∧
    (pair two hollow).chains = [] ∧ ((pair two hollow).core (pair two hollow).cur.coreNo).l1 = [] ∧ ((pair two hollow).fits 64 [2, 5] ∧ (pair two hollow).cur.rows ≤ 8) ∧
    (pair two hollow).disjoint 2 5 :=
  ⟨pair_issues two hollow, calm_of rfl rfl rfl rfl, unheld_of rfl rfl rfl rfl rfl, .inr (by cases two <;> cases hollow <;> decide +kernel), rfl, rfl,
    by cases two <;> cases hollow <;> decide +kernel, ⟨⟨by cases two <;> cases hollow <;> decide +kernel, by cases two <;> cases hollow <;> decide +kernel⟩, (by decide : 1 ≤ 8)⟩, .inl (by decide : 2 + 1 ≤ 5)⟩

theorem pair_single (hollow : Bool) : (pair false hollow).single 0 := ⟨rfl, rfl, Nat.zero_lt_one, Nat.zero_lt_one, by cases hollow <;> decide +kernel⟩

theorem pair_stands (two hollow w f : Bool) : (pair two hollow).standAll 0 ⟨w, f⟩ pairVa 8 pairLoc :=
  have h0 : isOk ((pair two hollow).resolveStream ⟨w, f⟩ 0x10000).2 (locAt 0x10000) = true := by cases two <;> cases hollow <;> cases w <;> cases f <;> decide +kernel
  have h1 : isOk ((pair two hollow).resolveStream ⟨w, f⟩ 0x10008).2 (locAt 0x10008) = true := by cases two <;> cases hollow <;> cases w <;> cases f <;> decide +kernel
  have k0 : ((pair two hollow).resolveStream ⟨w, f⟩ 0x10000).1 = pair two hollow := by cases two <;> cases hollow <;> cases w <;> cases f <;> rfl
  have k1 : ((pair two hollow).resolveStream ⟨w, f⟩ 0x10008).1 = pair two hollow := by cases two <;> cases hollow <;> cases w <;> cases f <;> rfl
  pair_all ⟨by decide, Prod.ext k0 (ok_of h0), by decide +kernel, by cases two <;> cases hollow <;> decide +kernel⟩
    ⟨by decide, Prod.ext k1 (ok_of h1), by decide +kernel, by cases two <;> cases hollow <;> decide +kernel⟩

theorem window_found (s : State) (n : Need) (va : Nat) (l : Loc) (h : inWindow va = true) (hl : isOk (s.resolvePad va) l = true) : s.resolveStream n va = (s, .ok l) := by
  unfold State.resolveStream
  simp only [h, if_true, ok_of hl]

theorem pair_lanes (two hollow w f : Bool) : (pair two hollow).standAll 0 ⟨w, f⟩ laneVa 8 laneOf :=
  pair_all ⟨by decide +kernel, window_found _ _ _ _ (by decide +kernel) (by cases two <;> cases hollow <;> decide +kernel), by decide +kernel, by cases two <;> cases hollow <;> decide +kernel⟩
    ⟨by decide +kernel, window_found _ _ _ _ (by decide +kernel) (by cases two <;> cases hollow <;> decide +kernel), by decide +kernel, by cases two <;> cases hollow <;> decide +kernel⟩

/-- The addresses of the elements, and what keeps them from each other. -/
theorem pair_places (two hollow : Bool) : (pair two hollow).unitPlaces 0 64 (.x 1) none pairVa ∧ (pair two hollow).indexPlaces 0 (.x 1) 5 pairVa ∧
    (pair two hollow).lanePlaces 0 64 7 laneVa ∧ (pair two hollow).apart 0 64 pairLoc ∧ (pair two hollow).apart 0 64 laneOf ∧ (pair two hollow).oneKey 0 pairLoc ∧
    (pair two hollow).oneKey 0 laneOf ∧ (pair two hollow).groupSetts 0 64 pairLoc ∧ (pair two hollow).groupSetts 0 64 laneOf := by
  refine ⟨pair_all ?_ ?_, pair_all ?_ ?_, pair_all ?_ ?_, pair_any ?_, pair_any ?_, pair_any ?_, pair_any ?_, pair_any ?_, pair_any ?_⟩ <;>
    cases two <;> cases hollow <;> decide +kernel

theorem witness_VectorReads : (∀ two, ((pair two false).full (locAt 0x10000).key = true ∧ (pair two false).full (locAt 0x10008).key = true) ∧
      (pair two true).full (locAt 0x10000).key = false ∧ (pair two true).full (locAt 0x10008).key = false) ∧
    (paged.issues ∧ paged.calm ∧ paged.unheld ∧ paged.cur.slot (.x 1) = 0x10000 ∧ paged.stands ⟨false, false⟩ 0x10000 32 (locAt 0x10000) ∧
      (paged.cur.slot (.x 1) + 1).toNat % 32 ≠ 0) ∧ ∀ res, (pair true false).untrapped res :=
  ⟨by decide +kernel, ⟨paged_issues, paged_calm, paged_unheld, by decide +kernel, paged_stands false false 32 (by simp), by decide +kernel⟩, fun _ _ _ _ => word_fpx 1 _⟩

/-- The progress word at 0x10040 lies apart from the elements. -/
theorem witness_VectorStores (two : Bool) : (pair two false).stands ⟨true, false⟩ ((pair two false).cur.files.x[(2 : XReg)]) 8 (locAt 0x10040) ∧
    inWindow ((pair two false).cur.files.x[(2 : XReg)]).toNat = false ∧ (∀ r i, (pair two false).on 0 r i → settOf (locAt 0x10040).key ≠ settOf (pairLoc r i).key) ∧
    (∀ r i, (pair two false).on 0 r i → lineOf (locAt 0x10040).key = lineOf (pairLoc r i).key → (locAt 0x10040).enc = (pairLoc r i).enc) := by
  have h : (pair two false).cur.files.x[(2 : XReg)] = 0x10040 := by cases two <;> decide +kernel
  rw [h]
  exact ⟨⟨by decide, Prod.ext (by cases two <;> rfl) (ok_of (by cases two <;> decide +kernel)), by decide +kernel, by cases two <;> decide +kernel⟩, by decide,
    pair_all (by decide +kernel) (by decide +kernel), pair_all (by decide +kernel) (by decide +kernel)⟩

theorem witness_VectorAtomics (two : Bool) : Ty.i64 ≠ .cb4 ∧ (pair two false).fits (max 64 64) [2, 2, 5] :=
  ⟨nofun, by cases two <;> decide +kernel, by cases two <;> decide +kernel⟩

/-- `paged` with the slots of its mailbox empty, an arrival at the port and a group that holds barrier 3. -/
def grouped : State :=
  let k := (clusterLoc 0 (mailSlot 0 0 0)).key
  let s := paged.setFull k false
  let s := s.putCore { s.core 0 with arrivals := [⟨0, 0, 7⟩] }
  { s with groups := [{ id := 0, nid := 0, part := 0, gidx := 0, cluster := 0, cores := [0], bars := [3], half := false, seqNo := 0, pre := false, evicted := false, evSlots := []
                        live := 1 }] }

theorem grouped_issues : grouped.issues :=
  ⟨⟨_, rfl, rfl, rfl, rfl, rfl, rfl, rfl, rfl, rfl, rfl, rfl⟩, by decide +kernel, by decide +kernel, by decide +kernel, by decide +kernel, by decide +kernel, by decide +kernel,
    by decide +kernel, by decide +kernel⟩

/-- `pair` of two elements, the first two slots of the strand's own mailbox empty for its sends, and full for its receives. -/
def mailed (hollow : Bool) : State := { pair true false with
  empties := if hollow then [(clusterLoc 0 (mailSlot 0 0 0)).key, (clusterLoc 0 (mailSlot 0 0 1)).key] else [] }

/-- Both elements send to receiver 0, of x = 0 (v3); the second of x = 8 (v5) is outside the group. -/
theorem witness_Mailboxes_send : (mailed true).issues ∧ (mailed true).calm ∧ (mailed true).unheld ∧ Memory.wf (mailed true).mem = true ∧ (mailed true).fits 64 [2, 3] ∧
    (∀ r i, (mailed true).on 0 r i → (mailed true).vGet (3 + r) 64 i < (mailed true).cur.ident.gsize.toNat ∧ ((mailed true).cur.memberPlace ((mailed true).vGet (3 + r) 64 i)).1 < 48 ∧
      (let p := (mailed true).cur.memberPlace ((mailed true).vGet (3 + r) 64 i)
       let c := (mailed true).cur.cluster * 48 + p.1
       let sent := ((List.range ((mailed true).pos r i)).filter fun k => ((mailed true).activeMask 0).getLsbD (k % (mailed true).cur.vl) &&
         (mailed true).cur.memberPlace ((mailed true).vGet (3 + k / (mailed true).cur.vl) 64 (k % (mailed true).cur.vl)) == p).length
       let l := clusterLoc (mailed true).cur.cluster (mailSlot p.1 p.2 ((((mailed true).core c).tail p.2).toNat + sent))
       ((mailed true).core c).arrivals = [] ∧ (mailed true).full l.key = false ∧ (mailed true).lineRead l = .good)) ∧
    ((mailed true).on 0 0 1 ∧ (mailed true).cur.ident.gsize.toNat ≤ (mailed true).vGet 5 64 1 ∧ (mailed true).vGet 5 64 0 < (mailed true).cur.ident.gsize.toNat) :=
  ⟨⟨⟨_, rfl, rfl, rfl, rfl, rfl, rfl, rfl, rfl, rfl, rfl, rfl⟩, rfl, (pair_issues true false).breaks, (by decide : (0#64).getLsbD 0 = false), rfl, rfl, (pair_issues true false).shape, rfl,
      (by decide : Status.running ≠ .saving)⟩, calm_of rfl rfl rfl rfl, unheld_of rfl rfl rfl rfl rfl, rfl, ⟨by decide +kernel, by decide +kernel⟩,
    pair_all (two := true) (hollow := false) (by decide +kernel) (by decide +kernel), ⟨Nat.zero_lt_one, by decide +kernel, by decide +kernel⟩, by decide +kernel, by decide +kernel⟩

/-- The slots that the elements receive from, and their addresses. -/
def slotOf (_ i : Nat) : Loc := clusterLoc 0 (mailSlot 0 0 i)

theorem witness_Mailboxes_receive : (pair true false).oneSet 0 ∧ (pair true false).fits 64 [2] ∧ (pair true false).cur.rows * ((pair true false).actives 0).length ≤ 256 ∧
    (pair true false).standAll 0 ⟨false, true⟩ (fun r i => BitVec.ofNat 64 (mailSlot (fieldOf (pair true false).cur.ident.core 0 6) (fieldOf (pair true false).cur.ident.core 6 1)
      ((pair true false).cur.ident.mbxhead.toNat + r * ((pair true false).actives 0).length + (((pair true false).actives 0).filter fun j => j < i).length))) 8 slotOf ∧
    ∀ r i, (pair true false).on 0 r i → (pair true false).full (slotOf r i).key = true :=
  ⟨(pair_ready true false).2.2.2.1, ⟨by decide +kernel, by decide +kernel⟩, by decide +kernel,
    pair_all ⟨by decide +kernel, window_found _ _ _ _ (by decide +kernel) (by decide +kernel), by decide +kernel, by decide +kernel⟩
      ⟨by decide +kernel, window_found _ _ _ _ (by decide +kernel) (by decide +kernel), by decide +kernel, by decide +kernel⟩,
    pair_all (by decide +kernel) (by decide +kernel)⟩

theorem witness_Mailboxes : paged.calm ∧ Memory.wf paged.mem = true ∧ paged.issues ∧ paged.unheld ∧ paged.single 0 ∧
    (paged.cur.ident.gsize.toNat ≤ 1 ∧ paged.vGet 5 64 0 < paged.cur.ident.gsize.toNat ∧ (paged.cur.memberPlace 0).1 < 48 ∧ (paged.core 0).arrivals = []) ∧
    (grouped.full (clusterLoc 0 (mailSlot 0 0 0)).key = false ∧ grouped.lineRead (clusterLoc 0 (mailSlot 0 0 0)) = .good ∧
      (grouped.core 0).arrivals.find? (fun b => b.half == 0) = some ⟨0, 0, 7⟩ ∧ grouped.cur.id = 0 ∧ grouped.cur.cur.isSome = true ∧ grouped.cur.pod0.waiter = none ∧
      grouped.cur.pod0.exhausted = false) ∧
    (isOk (paged.resolveStream ⟨false, true⟩ (mailSlot 0 0 0)).2 (clusterLoc 0 (mailSlot 0 0 0)) = true ∧ paged.full (clusterLoc 0 (mailSlot 0 0 0)).key = true) :=
  ⟨paged_calm, rfl, paged_issues, paged_unheld, paged_single, by decide +kernel⟩

/-- Locks with 63 and 64 held; barriers of a strand without a group, and of one whose group holds barrier 3 with one arrival to come and with more. -/
theorem witness_LocksAndBarriers : paged.issues ∧ paged.calm ∧ paged.unheld ∧ paged.single 0 ∧ paged.stands ⟨false, true⟩ 0x10000 8 (locAt 0x10000) ∧
    paged.cur.ident.locks.length < 64 ∧ paged.full (locAt 0x10000).key = true ∧
    64 ≤ (paged.onCur fun st => { st with ident := { st.ident with locks := List.replicate 64 0 } }).cur.ident.locks.length ∧ paged.physBarrier 0 = none ∧
    (grouped.issues ∧ grouped.physBarrier 0 = some 3 ∧ grouped.lineRead (grouped.releaseSett 0 3 0) = .good ∧ grouped.full (grouped.releaseSett 0 3 0).key = true) :=
  ⟨paged_issues, paged_calm, paged_unheld, paged_single, paged_stands false true 8 (by simp), by decide +kernel, by decide +kernel, by decide +kernel, by decide +kernel,
    grouped_issues, by decide +kernel⟩


/-- `word n` with FCTL.ADOVM = SAT. -/
def satur (n : Nat) : State := (word n).onCur fun st => { st with ctl := { st.ctl with fctl := 0xF0C } }

theorem satur_issues (n : Nat) (h : n ≤ 1024) : (satur n).issues :=
  ⟨⟨_, rfl, rfl, rfl, rfl, rfl, rfl, rfl, rfl, rfl, rfl, rfl⟩, rfl, (by decide : ∀ i < 4, (vget (Vector.replicate 4 (0 : Word)) i).getLsbD 0 = false), (by decide : (0#64).getLsbD 0 = false),
    rfl, rfl, ⟨(by decide : 1 ≤ 32), h⟩, rfl, (by decide : Status.running ≠ .saving)⟩

theorem satur_goes (n : Nat) (msk : Nat) (res : State → Nat → Nat → Nat × Flags) : ∀ t r i, (satur n).on msk r i →
    (satur n).cur.ctl.fpx (res t r i).2 = false ∧ ((satur n).cur.ctl.dovSat = true ∨ (res t r i).2.getLsbD 6 = false) :=
  fun _ _ _ _ => ⟨word_fpx n _, .inl (by decide : Ctl.dovSat { Ctl.reset with fctl := 0xF0C } = true)⟩

/-- 512 cells of i8 in 32 blocks. -/
theorem witness_AnchoredSums : (satur 512).issues ∧ (satur 512).blocksFit ∧ Ty.i8.isDev = true ∧ (satur 512).fits 8 [2, 0, 1] ∧
    ∀ (res : State → Nat → Nat → Nat × Flags), ∀ t r i, (satur 512).on 0 r i → (satur 512).cur.ctl.fpx (res t r i).2 = false ∧ ((satur 512).cur.ctl.dovSat = true ∨ (res t r i).2.getLsbD 6 = false) :=
  ⟨satur_issues 512 (by decide), (by decide : (1 * 512 + 2 ^ 4 - 1) / 2 ^ 4 ≤ 64), rfl, ⟨by decide, by decide⟩, fun res => satur_goes 512 0 res⟩

theorem witness_AnchoredProducts : (satur 64).issues ∧ (satur 64).blocksFit ∧ Ty.i32.isDev = true ∧ (satur 64).fits 32 [2, 0, 1] ∧ (satur 64).fits 64 [0, 1] ∧
    (60 : VReg).val + 4 * (satur 64).cur.rows ≤ 64 ∧ ((2 : VReg).val + (satur 64).cur.rows ≤ (3 : VReg).val) ∧ (satur 64).fits (max Ty.i32.width Ty.f64.width) [2, 0] ∧
    (Ty.f64.isInt = true ∨ Ty.f64.isFloat = true) ∧ (∀ fl, (satur 64).cur.ctl.fpx fl = false) ∧
    ∀ (res : State → Nat → Nat → Nat × Flags), ∀ t r i, (satur 64).on 0 r i → (satur 64).cur.ctl.fpx (res t r i).2 = false ∧ ((satur 64).cur.ctl.dovSat = true ∨ (res t r i).2.getLsbD 6 = false) :=
  ⟨satur_issues 64 (by decide), (by decide : (1 * 64 + 2 ^ 4 - 1) / 2 ^ 4 ≤ 64), rfl, ⟨by decide, by decide⟩, ⟨by decide, by decide⟩, by decide, by decide,
    ⟨by decide, by decide⟩, .inr rfl, word_fpx 64, fun res => satur_goes 64 0 res⟩

/-- A word that watches waiter 0 and has sent the reads of block 0. -/
def watching (gone : Bool) : State :=
  let s := paged.onCur fun st => { st with cur := st.cur.map fun c => { c with watch := some 0, staged := [(2 ^ 20 + 1, 1)], pods := [⟨0, 0, [], 5, none, false, none, false⟩] } }
  { s with waiters := [{ id := 0, key := 0x20000, cond := .full, src := .pod 0 0, watch := true, changed := false, cancelled := gone, rejected := false, spent := false }], nextWaiter := 1 }

/-- Two cells of i8 at 0x10000 in two blocks of one cell, their headers at 0x10040 and 0x10050, full, or the first empty. -/
def twoCells (hollow : Bool) : State := { (pair true false).onCur fun st => { st with ctl := { st.ctl with ablk := 0 } } with
  empties := if hollow then [(locAt 0x10040).key] else [] }

theorem anchored_stands (hollow w f : Bool) : ∀ x ∈ [(0x10000#64, 1), (0x10001#64, 1), (0x10040#64, 16), (0x10050#64, 16)],
    (twoCells hollow).stands ⟨w, f⟩ x.1 x.2 (locAt x.1.toNat) := by
  have k : ∀ x ∈ [0x10000, 0x10001, 0x10040, 0x10050], isOk ((twoCells hollow).resolveStream ⟨w, f⟩ x).2 (locAt x) = true := by
    cases hollow <;> cases w <;> cases f <;> decide +kernel
  have k' : ∀ x ∈ [0x10000, 0x10001, 0x10040, 0x10050], ((twoCells hollow).resolveStream ⟨w, f⟩ x).1 = twoCells hollow := by
    simp only [List.mem_cons, List.not_mem_nil, or_false]
    rintro x (rfl | rfl | rfl | rfl) <;> cases hollow <;> cases w <;> cases f <;> rfl
  have g : ∀ x ∈ [(0x10000, 1), (0x10001, 1), (0x10040, 16), (0x10050, 16)], (locAt x.1).gw = false ∧ (twoCells hollow).lineReads (locAt x.1) x.2 = .good := by
    cases hollow <;> decide +kernel
  simp only [List.mem_cons, List.not_mem_nil, or_false]
  rintro x (rfl | rfl | rfl | rfl)
  · exact ⟨by decide, Prod.ext (k' _ (by simp)) (ok_of (k _ (by simp))), (g (0x10000, 1) (by simp)).1, (g (0x10000, 1) (by simp)).2⟩
  · exact ⟨by decide, Prod.ext (k' _ (by simp)) (ok_of (k _ (by simp))), (g (0x10001, 1) (by simp)).1, (g (0x10001, 1) (by simp)).2⟩
  · exact ⟨by decide, Prod.ext (k' _ (by simp)) (ok_of (k _ (by simp))), (g (0x10040, 16) (by simp)).1, (g (0x10040, 16) (by simp)).2⟩
  · exact ⟨by decide, Prod.ext (k' _ (by simp)) (ok_of (k _ (by simp))), (g (0x10050, 16) (by simp)).1, (g (0x10050, 16) (by simp)).2⟩

/-- The locations of the cells and of the headers. -/
def cellLoc (c : Nat) : Loc := if c = 0 then locAt 0x10000 else locAt 0x10001
def headLoc (q : Nat) : Loc := if q = 0 then locAt 0x10040 else locAt 0x10050

theorem anchored_block {hollow : Bool} {q : Nat} (h : (twoCells hollow).blockOn 0 q) : q = 0 ∨ q = 1 := by
  obtain ⟨n, hn, hq, -⟩ := h
  have hn : n < 2 := hn
  have : n / 1 = q := hq
  omega

theorem anchored_cell {hollow : Bool} {c : Nat} (h : c < (twoCells hollow).cur.rows * (twoCells hollow).cur.vl) : c = 0 ∨ c = 1 := by
  have h : c < 2 := h
  omega

/-- The places of cells and headers, on full headers and with the first empty; both blocks hold an active cell. -/
theorem witness_AnchoredMoves_places (hollow w : Bool) : ((twoCells hollow).issues ∧ (twoCells hollow).calm ∧ (twoCells hollow).unheld ∧ (twoCells hollow).fits 8 [2] ∧
      (twoCells hollow).blocksFit ∧ ((twoCells hollow).core (twoCells hollow).cur.coreNo).l1 = [] ∧ (∀ y ∈ (twoCells hollow).waiters, y.id < (twoCells hollow).nextWaiter) ∧
      Memory.wf (twoCells hollow).mem = true) ∧
    (∀ c, c < (twoCells hollow).cur.rows * (twoCells hollow).cur.vl → (twoCells hollow).stands ⟨w, false⟩ ((twoCells hollow).cur.slot (.x 1) + BitVec.ofNat 64 (c * 1)) 1 (cellLoc c)) ∧
    (∀ f q, (twoCells hollow).blockOn 0 q → (twoCells hollow).stands ⟨w, f⟩ ((twoCells hollow).cur.files.x[(2 : XReg)] + BitVec.ofNat 64 (16 * q)) 16 (headLoc q)) ∧
    ((twoCells hollow).blockOn 0 0 ∧ (twoCells hollow).blockOn 0 1) := by
  refine ⟨⟨⟨⟨_, rfl, rfl, rfl, rfl, rfl, rfl, rfl, rfl, rfl, rfl, rfl⟩, rfl, (pair_issues true false).breaks, (by decide : (0#64).getLsbD 0 = false), rfl, rfl,
      (pair_issues true false).shape, rfl, (by decide : Status.running ≠ .saving)⟩, calm_of rfl rfl rfl rfl, unheld_of rfl rfl rfl rfl rfl, ?_, ?_, ?_, nofun, rfl⟩, ?_, ?_, ?_, ?_⟩
  · exact ⟨by cases hollow <;> decide +kernel, by cases hollow <;> decide +kernel⟩
  · cases hollow <;> unfold State.blocksFit <;> decide +kernel
  · cases hollow <;> decide +kernel
  · intro c h
    have e : (twoCells hollow).cur.slot (.x 1) = 0x10000 := by cases hollow <;> decide +kernel
    rw [e]
    rcases anchored_cell h with rfl | rfl
    · exact anchored_stands hollow w false (0x10000, 1) (by simp)
    · exact anchored_stands hollow w false (0x10001, 1) (by simp)
  · intro f q h
    have e : (twoCells hollow).cur.files.x[(2 : XReg)] = 0x10040 := by cases hollow <;> decide +kernel
    rw [e]
    rcases anchored_block h with rfl | rfl
    · exact anchored_stands hollow w f (0x10040, 16) (by simp)
    · exact anchored_stands hollow w f (0x10050, 16) (by simp)
  · exact ⟨0, (by decide : 0 < 2), by cases hollow <;> decide +kernel, by cases hollow <;> decide +kernel⟩
  · exact ⟨1, (by decide : 1 < 2), by cases hollow <;> decide +kernel, by cases hollow <;> decide +kernel⟩

/-- Full and empty headers, the room at their home, and places that do not overlap, all under one key. -/
theorem witness_AnchoredMoves_apart : ((∀ q, (twoCells false).blockOn 0 q → (twoCells false).full (headLoc q).key = true ∧ (twoCells false).homeLoad (headLoc q).key < 64) ∧
      (twoCells true).full (headLoc 0).key = false) ∧
    (∀ q ∈ [0, 1], ∀ c ∈ [0, 1], (headLoc q).key + 16 ≤ (cellLoc c).key ∨ (cellLoc c).key + 1 ≤ (headLoc q).key) ∧
    (∀ q ∈ [0, 1], ∀ p ∈ [0, 1], q ≠ p → (headLoc q).key + 16 ≤ (headLoc p).key ∨ (headLoc p).key + 16 ≤ (headLoc q).key) ∧
    (∀ c ∈ [0, 1], ∀ b ∈ [0, 1], c ≠ b → (cellLoc c).key + 1 ≤ (cellLoc b).key ∨ (cellLoc b).key + 1 ≤ (cellLoc c).key) ∧
    ∀ a ∈ [headLoc 0, headLoc 1, cellLoc 0, cellLoc 1], a.enc = (headLoc 0).enc :=
  ⟨⟨fun q h => by rcases anchored_block h with rfl | rfl <;> decide +kernel, by decide +kernel⟩, by decide +kernel⟩

theorem witness_AnchoredMoves : (paged.issues ∧ (62 : VReg).val < 63) ∧ (paged.calm ∧ paged.unheld ∧ paged.single 0 ∧ paged.sched = [] ∧ Ty.i8.isDev = true ∧
      (paged.core paged.cur.coreNo).l1 = [] ∧ paged.waiters = []) ∧
    (paged.cur.xGet 1 = 0x10000 ∧ paged.stands ⟨false, false⟩ 0x10000 16 (locAt 0x10000) ∧ paged.stands ⟨true, false⟩ 0x10000 16 (locAt 0x10000) ∧
      paged.stands ⟨false, true⟩ 0x10000 16 (locAt 0x10000) ∧ paged.stands ⟨true, true⟩ 0x10000 16 (locAt 0x10000) ∧
      isOk (paged.resolveStream ⟨true, false⟩ 0x10040).2 (locAt 0x10040) = true ∧ paged.full (locAt 0x10000).key = true ∧ paged.homeLoad (locAt 0x10000).key < 64 ∧
      (paged.setFull (locAt 0x10000).key false).full (locAt 0x10000).key = false ∧ Memory.wf paged.mem = true ∧
      (locAt 0x10000).key + 16 ≤ (locAt 0x10040).key ∧ (locAt 0x10040).enc = (locAt 0x10000).enc) ∧
    (∃ c, (watching true).cur.cur = some c ∧ c.watch = some 0 ∧ (∃ x ∈ c.staged, x.1 = 2 ^ 20 + 1)) ∧
    (((watching true).cur.pod0.row * (watching true).cur.vl + (watching true).cur.pod0.idx) / (watching true).ablk = 0 ∧
      (∃ c, paged.cur.cur = some c ∧ ¬ ∃ x ∈ c.staged, x.1 = 2 ^ 20 + 1)) ∧ (∃ y, findBy Waiter.id 0 (watching true).waiters = some y ∧ y.cancelled = true) ∧
    (∃ y, findBy Waiter.id 0 (watching false).waiters = some y ∧ y.cancelled = false) :=
  ⟨⟨paged_issues, by decide⟩, ⟨paged_calm, paged_unheld, paged_single, rfl, rfl, by decide +kernel, rfl⟩,
    ⟨by decide +kernel, paged_stands false false 16 (by simp), paged_stands true false 16 (by simp), paged_stands false true 16 (by simp), paged_stands true true 16 (by simp),
      by decide +kernel, by decide +kernel, by decide +kernel, by decide +kernel, rfl, by decide +kernel, by decide +kernel⟩,
    ⟨_, rfl, rfl, _, List.mem_singleton.mpr rfl, rfl⟩, ⟨by decide +kernel, _, rfl, by rintro ⟨_, h, -⟩; cases h⟩, ⟨_, rfl, rfl⟩, ⟨_, rfl, rfl⟩⟩

/-- `paged` with a claim of tile width w. -/
def claimed (w : Nat) : State := paged.onCur fun st => { st with mctl := 0x100 + BitVec.ofNat 64 w }

theorem claimed_issues (w : Nat) : (claimed w).issues := ⟨paged_issues.word, paged_issues.captured, paged_issues.breaks, paged_issues.steps, paged_issues.upsets, paged_issues.banks,
  paged_issues.shape, paged_issues.plain, paged_issues.goesOn⟩

theorem witness_TileMoves : (claimed 1).issues ∧ paged.issues ∧ (claimed 1).cur.mctl.getLsbD 8 = true ∧ paged.cur.mctl.getLsbD 8 = false ∧
    fieldOf (claimed 1).cur.mctl 0 6 = 1 ∧ fieldOf (claimed 32).cur.mctl 0 6 ≤ 32 ∧ (claimed 1).cur.half = false ∧ (63 : VReg).val + (claimed 1).cur.rows ≤ 64 ∧
    (31 : Fin 32).val + (claimed 1).cur.rows ≤ 32 ∧ 32 < (31 : Fin 32).val + ((claimed 1).onCur fun st => { st with rows := 2 }).cur.rows ∧ (claimed 1).calm ∧
    (claimed 1).unheld ∧ Ty.f32 ≠ .cb4 ∧ (claimed 1).cur.slot (.x 1) = 0x10000 ∧ isOk ((claimed 1).resolveStream ⟨true, false⟩ 0x10000).2 (locAt 0x10000) = true ∧
    ((claimed 1).resolveStream ⟨true, false⟩ 0x10000).1 = claimed 1 ∧ (claimed 1).lineRead (locAt 0x10000) = .good ∧ Memory.wf (claimed 1).mem = true :=
  ⟨claimed_issues 1, paged_issues, by decide +kernel, by decide +kernel, by decide +kernel, by decide +kernel, rfl, by decide +kernel, by decide +kernel, by decide +kernel,
    calm_of rfl rfl rfl rfl, unheld_of rfl rfl rfl rfl rfl, nofun, by decide +kernel, by decide +kernel, rfl, by decide +kernel, rfl⟩

/-- A claim of width 2, its rows at 0x10000 and, 0x40 on, 0x10040. -/
def tiled : State := (claimed 2).onCur fun st => { st with files := { st.files with x := st.files.x.set 3 0x40 } }

/-- The location of element n of row m. -/
def tileLoc (m n : Nat) : Loc := locAt (0x10000 + 0x40 * m + 4 * n)

theorem witness_TileMoves_wide (w : Bool) : (tiled.issues ∧ tiled.cur.mctl.getLsbD 8 = true ∧ fieldOf tiled.cur.mctl 0 6 = 2 ∧ tiled.calm ∧ tiled.unheld ∧
      (tiled.core tiled.cur.coreNo).l1 = [] ∧ Memory.wf tiled.mem = true) ∧
    (∀ m n, m < 2 → n < 2 → tiled.stands ⟨w, false⟩ (tiled.cur.slot (.x 1) + BitVec.ofNat 64 m * tiled.cur.files.x[(3 : XReg)] + BitVec.ofNat 64 (4 * n)) 4 (tileLoc m n)) ∧
    (∀ a ∈ [(0, 0), (0, 1), (1, 0), (1, 1)], ∀ b ∈ [(0, 0), (0, 1), (1, 0), (1, 1)], a ≠ b →
      (tileLoc a.1 a.2).key + 4 ≤ (tileLoc b.1 b.2).key ∨ (tileLoc b.1 b.2).key + 4 ≤ (tileLoc a.1 a.2).key) := by
  have e : tiled.cur.slot (.x 1) = 0x10000 ∧ tiled.cur.files.x[(3 : XReg)] = 0x40 := by decide +kernel
  have k : ∀ x ∈ [0x10000, 0x10004, 0x10040, 0x10044], isOk (tiled.resolveStream ⟨w, false⟩ x).2 (locAt x) = true := by cases w <;> decide +kernel
  have k' : ∀ x ∈ [0x10000, 0x10004, 0x10040, 0x10044], (tiled.resolveStream ⟨w, false⟩ x).1 = tiled := by
    simp only [List.mem_cons, List.not_mem_nil, or_false]
    rintro x (rfl | rfl | rfl | rfl) <;> cases w <;> rfl
  have g : ∀ x ∈ [0x10000, 0x10004, 0x10040, 0x10044], (locAt x).gw = false ∧ tiled.lineReads (locAt x) 4 = .good := by decide +kernel
  refine ⟨⟨⟨paged_issues.word, rfl, paged_issues.breaks, (by decide : (0#64).getLsbD 0 = false), rfl, rfl, paged_issues.shape, rfl, (by decide : Status.running ≠ .saving)⟩, by decide +kernel,
    by decide +kernel, calm_of rfl rfl rfl rfl, unheld_of rfl rfl rfl rfl rfl, by decide +kernel, rfl⟩, ?_, by decide +kernel⟩
  rw [e.1, e.2]
  intro m n hm hn
  have hm : m = 0 ∨ m = 1 := by omega
  have hn : n = 0 ∨ n = 1 := by omega
  have one (x : Nat) (v : Word) (hx : x ∈ [0x10000, 0x10004, 0x10040, 0x10044]) (hv : v.toNat = x) (ha : x % 4 = 0) : tiled.stands ⟨w, false⟩ v 4 (locAt x) :=
    ⟨by rw [hv]; exact ha, by rw [hv]; exact Prod.ext (k' x hx) (ok_of (k x hx)), (g x hx).1, (g x hx).2⟩
  rcases hm with rfl | rfl <;> rcases hn with rfl | rfl
  · exact one 0x10000 _ (by simp) (by decide) (by decide)
  · exact one 0x10004 _ (by simp) (by decide) (by decide)
  · exact one 0x10040 _ (by simp) (by decide) (by decide)
  · exact one 0x10044 _ (by simp) (by decide) (by decide)

theorem witness_TileProducts : (claimed 32).issues ∧ paged.issues ∧ (claimed 32).cur.half = false ∧ (claimed 32).cur.mctl.getLsbD 8 = true ∧ (claimed 32).fits 32 [] ∧
    0 < (claimed 32).cur.vl ∧ (32 : VReg).val + ((31 : Fin 32).val + 1) ≤ 64 ∧ 0 < fieldOf (claimed 32).cur.mctl 0 6 ∧ fieldOf (claimed 32).cur.mctl 0 6 ≤ 32 ∧
    paged.cur.mctl.getLsbD 8 = false ∧ paged.fits 32 [] :=
  ⟨claimed_issues 32, paged_issues, rfl, by decide +kernel, ⟨by decide +kernel, nofun⟩, by decide +kernel, by decide, by decide +kernel, by decide +kernel, by decide +kernel,
    by decide +kernel, nofun⟩

/-! ## Witnesses for the machine's own steps -/

/-- A waiting load of s3 at 0x10000. -/
def load0 (g : Option Nat) : PendLoad :=
  { id := 5, ord := 0, ipc := 0x10002, ir := 0, bad := none, size := .b8, sext := false, sd := 3, target := none, plain := false, loc := { locAt 0x10000 with gw := g.isSome }, park := true, budget := 0
    waiter := if g.isSome then none else some 0, exhausted := false, gw := g, fwd := [] }

/-- `pagedGen` with that load, or a pod, waiting for the sett, in a partition with a park table. -/
def waiting (src : WaitSrc) (changed rejected full : Bool) : State :=
  let s := pagedGen.onCur fun st => { st with pend := [load0 none] }
  let s := s.setFull (locAt 0x10000).key full
  let s := s.putPart { s.part 0 with parkbase := 0x11000 }
  { s with waiters := [{ id := 0, key := settOf (locAt 0x10000).key, cond := .full, src := src, watch := false, changed := changed, cancelled := false, rejected := rejected, spent := false }] }

/-- The waiter of `waiting`. -/
def waiter0 : Waiter :=
  { id := 0, key := settOf (locAt 0x10000).key, cond := .full, src := .load 0 5, watch := false, changed := false, cancelled := false, rejected := false, spent := false }

/-- A strand that leaves its core for its park key, with its record at 0x10080 and its image at 0x12000. -/
def parking (status : Status) : State :=
  let s := waiting (.load 0 5) false false false
  s.onCur fun st => { st with status := status, parkKey := some (locAt 0x10000).key, record := 0x10080, image := 0x12000, pend := [] }

theorem witness_WaitersAndContexts_check :
    (findBy Waiter.id 0 (waiting (.load 0 5) true false true).waiters).isSome = true ∧ (waiting (.load 0 5) true false true).calm ∧
    ((waiting (.load 0 5) true false true).cur.pend.find? fun q => q.id == 5 && q.waiter == some 0) = some (load0 none) ∧
    (load0 none).target = none ∧ (load0 none).plain = false ∧ (load0 none).bad = none ∧ (load0 none).loc.gw = false ∧ (waiting (.load 0 5) true false true).lineRead (load0 none).loc = .good ∧
    (waiting (.load 0 5) true false true).full (load0 none).loc.key = true ∧ (waiting (.load 0 5) false true false).full (load0 none).loc.key = false ∧
    (waiting (.pod 0 1) true false true).waiters.map Waiter.src = [.pod 0 1] ∧ (waiting (.load 0 5) false true false).waiters.map Waiter.rejected = [true] ∧
    (waiting (.load 0 5) true false true).waiterLost waiter0 = false ∧ waiter0.spent = false ∧ { waiter0 with spent := true }.spent = true ∧
    { waiting (.load 0 5) true false true with pkg := { base.pkg with dead := [0] } }.waiterLost waiter0 = true :=
  ⟨by decide +kernel, calm_of (by decide +kernel) (by decide +kernel) (by decide +kernel) (by decide +kernel), by decide +kernel⟩

/-- The waiter may park; with FEMODE.PARK = 0 it may not. PARK reads and writes its bucket; WAKE finds the one record of the bucket. -/
theorem witness_WaitersAndContexts_park : (let s := waiting (.load 0 5) false false false
      findBy Waiter.id 0 s.waiters = some waiter0 ∧ waiter0.sid = some s.cur.id ∧ s.waiterLost waiter0 = false ∧ s.mayPark waiter0 = true ∧ s.full waiter0.key = false ∧ s.cur.fault = none ∧
      (s.onCur fun st => { st with pend := [{ load0 none with park := false }] }).mayPark waiter0 = false) ∧
    (let s := parking .saving
     let key := (locAt 0x10000).key
     let r := s.benchGet s.cur.part ((s.part s.cur.part).bucket key) 8
     let u := r.1
     let v := u.benchPut s.cur.part u.cur.record.toNat (u.cur.parkRecord 0 key)
     let x := v.1.benchPut s.cur.part ((s.part s.cur.part).bucket key) (leBytes v.1.cur.record.toNat 8)
     s.cur.parkKey = some key ∧ isOk r.2 0 = true ∧ isOk v.2 () = true ∧ isOk x.2 () = true ∧ (x.1.part x.1.cur.part).evctl.getLsbD 0 = false ∧
      s.partOfKey key = some 0 ∧ (s.part 0).parkbase ≠ 0 ∧ s.cur.part = 0 ∧ s.groups = [] ∧
      (bucketRecords 0 (x.1.strands.length + 1) ((x.1.part 0).bucket key) x.1).2 = [x.1.cur.record.toNat]) ∧
    (parking .parked).cur.status = .parked := by decide +kernel

/-- Saves and restores: nothing to finish, an image that can be written and one that cannot, an image that can be read. -/
theorem witness_WaitersAndContexts_save : (pagedGen.cur.status = .running ∧ pagedGen.cur.handling = false ∧ pagedGen.cur.fault = none) ∧
    ((inHandler true).cur.status = .running ∧ (inHandler true).cur.handling = true) ∧
    (let s := (parking .saving).onCur fun st => { st with parkKey := none }
     let y := (s.withdraw s.cur.id).onCur Strand.stopMerge
     s.cur.status = .saving ∧ s.awaited s.cur = false ∧ s.mustFinish s.cur = false ∧ s.cur.captured = [] ∧ s.cur.copies = [] ∧ isOk (y.imageWrite (y.cur.imagePieces y.pkg.time)).2 () = true ∧ s.groups = []) ∧
    (let w (f : Cur → Cur) : State := paged.onCur fun st => { st with status := .saving, cur := st.cur.map f }
     let asks := w fun c => { c with pods := [⟨0, 0, [], 5, none, false, some 9, false⟩] }
     let writes := w fun c => { c with stage := 2 }
     asks.cur.status = .saving ∧ asks.cur.cur.isSome = true ∧ asks.awaited asks.cur = true ∧ writes.awaited writes.cur = false ∧ writes.mustFinish writes.cur = true) ∧
    (let y := (((parking .saving).onCur fun st => { st with image := 0 }).withdraw (parking .saving).cur.id).onCur Strand.stopMerge
     match (y.imageWrite (y.cur.imagePieces y.pkg.time)).2 with | .ok _ => false | .error _ => true) = true ∧
    (let s := parking .saving
     s.cur.parkKey.isSome = true ∧ s.cur.recState ≠ 2 ∧ s.cur.fault = none ∧ isOk (s.benchPut s.cur.part (s.cur.record.toNat + 25) [1]).2 () = true ∧
      isOk (s.benchPut s.cur.part (s.cur.record.toNat + 25) [2]).2 () = true ∧
      (match (s.benchPut s.cur.part 25 [1]).2 with | .ok _ => false | .error _ => true) = true) := by decide +kernel

/-- The TLB entry of a page of 2 MB at virtual 0x200000. -/
def bigPage : TlbEntry := { part := 0, va := 0x200000, bits := 21, leaf := 0x20820B }

/-- A machine with one strand `c`, that page in the TLB of every core of its cluster, and there the header of an image and zeros. -/
def imaged (c : Strand) : State :=
  let s : State := { base with cur := c, mem := [(0x200000, 1), (0x200004, 64)], cores := (List.range 64).map fun k => { CoreSt.reset k with dtlb := [bigPage] } }
  s.putPart { s.part 0 with keyval := 1 }

/-- A strand that is ready, its image there. -/
def readyStrand : Strand := { base.cur with status := .ready, image := 0x200000 }

/-- What the loads of an image rely on. -/
def imageAt (c : Strand) : Prop :=
  c.part = 0 ∧ c.cluster = 0 ∧ c.image = 0x200000 ∧ c.half = false ∧ c.cur = none ∧ c.pend = [] ∧ ∀ i, vget c.files.vlt i ≤ 64

/-- Page and core as the units of the machine find them, in a partition that is in service. -/
def bigAt (s : State) (k : Nat) : Prop := (s.core k).dtlb = [bigPage] ∧ (s.part 0).keyval = 1 ∧ (s.part 0).stacks.contains 0 = true ∧ s.pkg.dead = []

theorem big_resolve (s : State) (k va : Nat) (hb : bigAt s k) (h : va / 2 ^ 21 = 1) :
    ∃ l : Loc, s.resolveFor 0 k va = (s, .ok l) ∧ l.gw = false ∧ l.wr = true ∧ l.enc = vget (s.part 0).keys 0 ∧ l.key = 0x200000 + va % 2 ^ 21 := by
  obtain ⟨hd, hv, hs, -⟩ := hb
  have hf : tlbFind (s.core k).dtlb 0 va = some bigPage := by
    rw [hd]
    have : va >>> 21 = 1 := by rw [Nat.shiftRight_eq_div_pow]; exact h
    simp only [tlbFind, bigPage, List.find?_cons, this]
    rfl
  have hc : canonical va = true := by
    have : va >>> 56 = 0 := by rw [Nat.shiftRight_eq_div_pow]; omega
    simp only [canonical, bits, this]
    rfl
  have hw : inWindow va = false := by
    have : va >>> 25 = 0 := by rw [Nat.shiftRight_eq_div_pow]; omega
    simp only [inWindow, bits, this]
    rfl
  have b1 : bits 0x20820B 60 4 = 0 := by decide
  have b2 : bits 0x20820B 12 3 = 0 := by decide
  have b3 : bits 0x20820B 16 20 = 0x20 := by decide
  have t1 : Nat.testBit 0x20820B 11 = false := by decide
  have t2 : Nat.testBit 0x20820B 15 = true := by decide
  have t3 : Nat.testBit 0x20820B 3 = true := by decide
  simp [State.resolveFor, State.described, State.lookupVa, hf, hc, hw, leafLoc, hv, bigPage, List.contains_iff_mem.mp hs, b1, b2, b3, t1, t2, t3]

/-- Nothing strikes an access, and no line is known. -/
def untouched (s : State) : Prop := s.upsets = [] ∧ s.pkg.banks = [] ∧ s.lines = []

theorem big_get (s : State) (k va n : Nat) (hb : bigAt s k) (hu : untouched s) (h : va / 2 ^ 21 = 1) :
    s.unitGet 0 k va n = (s, .ok (s.valueAt (0x200000 + va % 2 ^ 21) n)) := by
  obtain ⟨l, hr, hg, -, -, hkey⟩ := big_resolve s k va hb h
  obtain ⟨hu, hk, hl⟩ := hu
  have ht : ∀ k n, s.touch k n = s := fun k n => by simp [State.touch, State.demand, hk, hu]
  have hx : s.lineRead l = .good := by simp [State.lineRead, State.lineInfo, hl, findBy]
  have hn : s.lost 0 = false := by simp [State.lost, hb.2.2.2]
  unfold State.unitGet; rw [hr]; simp only [hn, hg, ht, hx, hkey]; rfl

theorem big_getMany (s : State) (k : Nat) (hb : bigAt s k) (hu : untouched s) : ∀ (fuel va n got acc : Nat), va / 2 ^ 21 = 1 → (va + n) / 2 ^ 21 = 1 →
    ∃ v, State.unitGetMany.go 0 k fuel va n got acc s = (s, .ok v)
  | 0, _, _, _, acc, _, _ => ⟨acc, rfl⟩
  | fuel + 1, va, n, got, acc, h, h' => by
    unfold State.unitGetMany.go
    by_cases hn : n = 0
    · exact ⟨acc, by simp [hn]⟩
    · have hv := big_get s k va (min n (128 - va % 128)) hb hu h
      simp only [hn, beq_iff_eq, if_false, hv]
      exact big_getMany s k hb hu fuel _ _ _ _ (by omega) (by omega)

theorem imaged_big (c : Strand) (k : Nat) (hk : k < 64) : bigAt (imaged c) k := by
  refine ⟨?_, rfl, ?_, rfl⟩
  · have e : (imaged c).core k = (imaged base.cur).core k := by rfl
    rw [e]; exact (by decide +kernel : ∀ k < 64, ((imaged base.cur).core k).dtlb = [bigPage]) k hk
  · have : (imaged c).part 0 = { base.part 0 with keyval := 1 } := by rfl
    rw [this]; decide +kernel

theorem imaged_read_eq (c : Strand) (h : imageAt c) (off n : Nat) :
    (imaged c).imageRead off n = State.unitGetMany.go 0 (fieldOf c.ident.core 0 6) (n / 128 + 2) (0x200000 + off) n 0 0 (imaged c) := by
  obtain ⟨h1, h2, h3, -⟩ := h
  have e : (imaged c).imageRead off n = State.unitGetMany.go 0 (fieldOf c.ident.core 0 6) (n / 128 + 2) (0x200000 + off) n 0 0 (imaged c) := by
    show State.unitGetMany.go c.part (c.cluster * 48 + fieldOf c.ident.core 0 6) _ (c.image.toNat + off) n 0 0 (imaged c) = _
    rw [h1, h2, h3]; simp
  exact e

theorem imaged_read (c : Strand) (h : imageAt c) (off n : Nat) (hn : off + n < 2 ^ 21) : ∃ v, (imaged c).imageRead off n = (imaged c, .ok v) := by
  rw [imaged_read_eq c h]; exact big_getMany _ _ (imaged_big c _ (Nat.mod_lt _ (by decide))) ⟨rfl, rfl, rfl⟩ _ _ _ _ _ (by omega) (by omega)

theorem imaged_each (put : Nat → Nat → Strand → Strand) (place : Nat → Strand → Nat × Nat) (hp : ∀ i v c, imageAt c → imageAt (put i v c)) :
    ∀ (l : List Nat), (∀ i ∈ l, ∀ c, imageAt c → (place i c).1 + (place i c).2 < 2 ^ 21) → ∀ c, imageAt c →
      ∃ d, imageAt d ∧ readEach put place l (imaged c) = (imaged d, .ok ())
  | [], _, c, h => ⟨c, h, rfl⟩
  | i :: l, hl, c, h => by
    obtain ⟨v, hv⟩ := imaged_read c h (place i c).1 (place i c).2 (hl i (by simp) c h)
    obtain ⟨d, hd, e⟩ := imaged_each put place hp l (fun j hj => hl j (by simp [hj])) (put i v c) (hp i v c h)
    refine ⟨d, hd, ?_⟩
    show readThen ((imaged c).imageRead (place i c).1 (place i c).2) _ = _
    rw [hv]; exact e

theorem imageAt_ite {p : Prop} [Decidable p] {a b : Strand} (ha : imageAt a) (hb : imageAt b) : imageAt (if p then a else b) := by
  by_cases h : p
  · rwa [if_pos h]
  · rwa [if_neg h]

/-- Bytes of that image within one line that are zero. -/
theorem imaged_zero (d : Strand) (h : imageAt d) (off n : Nat) (hl : off % 128 + n ≤ 128) (ho : off + n < 2 ^ 21) (hp : 0 < n)
    (hz : (imaged base.cur).valueAt (0x200000 + off) n = 0) : (imaged d).imageRead off n = (imaged d, .ok 0) := by
  have hk : min n (128 - (0x200000 + off) % 128) = n := by omega
  have hg := big_get (imaged d) (fieldOf d.ident.core 0 6) (0x200000 + off) n (imaged_big d _ (Nat.mod_lt _ (by decide))) ⟨rfl, rfl, rfl⟩ (by omega)
  have hv : (imaged d).valueAt (0x200000 + (0x200000 + off) % 2 ^ 21) n = 0 := by
    have : (0x200000 + off) % 2 ^ 21 = off := by omega
    rw [this]; exact hz
  rw [hv] at hg
  rw [imaged_read_eq d h]
  have hn : (n == 0) = false := by simp; omega
  unfold State.unitGetMany.go
  simp only [hn, Bool.false_eq_true, if_false, hk, hg, Nat.sub_self, Nat.zero_mul, Nat.add_zero]
  cases n / 128 + 1 with
  | zero => rfl
  | succ m => rfl

theorem setReg_imageAt (i : Nat) (v : Word) (c : Strand) (h : imageAt c) : imageAt (c.setReg i v) := by
  unfold Strand.setReg
  refine imageAt_ite h <| imageAt_ite h <| imageAt_ite (imageAt_ite h h) <| imageAt_ite (imageAt_ite h h) <| imageAt_ite h <| imageAt_ite h <| imageAt_ite h <|
    imageAt_ite h <| imageAt_ite h ?_
  split <;> exact h

theorem imaged_then {a : State → State × Except Nat Unit} {b : State → State × Except Nat Unit} (ha : ∀ c, imageAt c → ∃ d, imageAt d ∧ a (imaged c) = (imaged d, .ok ()))
    (hb : ∀ c, imageAt c → ∃ d, imageAt d ∧ b (imaged c) = (imaged d, .ok ())) (c : Strand) (h : imageAt c) : ∃ d, imageAt d ∧ andThenOk a b (imaged c) = (imaged d, .ok ()) := by
  obtain ⟨d, hd, e⟩ := ha c h
  obtain ⟨f, hf, e'⟩ := hb d hd
  exact ⟨f, hf, by unfold andThenOk; rw [e]; exact e'⟩

theorem vset_le {n : Nat} [NeZero n] (x : Vector Nat n) (h : ∀ i, vget x i ≤ 64) (k v : Nat) (hv : v ≤ 64) : ∀ i, vget (vset x k v) i ≤ 64 := by
  intro i
  have hi := h i
  unfold vget vset at *
  rw [Vector.getElem_set]
  split <;> assumption

theorem loadContext_imaged : ∀ c, imageAt c → ∃ d, imageAt d ∧ loadContext (imaged c) = (imaged d, .ok ()) := by
  have up : ∀ (n : Nat) (f : Nat → Strand → Nat × Nat) (B : Nat), (∀ i c, i < n → imageAt c → (f i c).1 + (f i c).2 < 2 ^ 21) →
      ∀ i ∈ List.range n, ∀ c, imageAt c → (f i c).1 + (f i c).2 < 2 ^ 21 := fun n f _ h i hi c => h i c (List.mem_range.mp hi)
  unfold loadContext
  simp only [List.foldr]
  refine imaged_then (imaged_each _ _ ?_ _ (up _ _ 0 ?_)) <| imaged_then (imaged_each _ _ ?_ _ (up _ _ 0 ?_)) <| imaged_then (imaged_each _ _ ?_ _ (up _ _ 0 ?_)) <|
    imaged_then (imaged_each _ _ ?_ _ (up _ _ 0 ?_)) <| imaged_then (imaged_each _ _ ?_ _ (up _ _ 0 ?_)) <| imaged_then (imaged_each _ _ ?_ _ (up _ _ 0 ?_)) <|
    imaged_then (imaged_each _ _ ?_ _ (up _ _ 0 ?_)) <| imaged_then (imaged_each _ _ ?_ _ (up _ _ 0 ?_)) <| imaged_then (imaged_each _ _ ?_ _ (up _ _ 0 ?_)) fun c h => ⟨c, h, rfl⟩
  · intro i v c h
    unfold Strand.put
    simp only
    split <;> exact h
  · intro i c hi h; simp only; omega
  · intro i v c h
    unfold Strand.loadReg
    split
    · exact setReg_imageAt i _ c h
    · exact h
  · intro i c hi h; simp only; omega
  · exact fun i v c h => ⟨h.1, h.2.1, h.2.2.1, h.2.2.2.1, h.2.2.2.2.1, h.2.2.2.2.2.1, vset_le _ h.2.2.2.2.2.2 _ _ (by omega)⟩
  · intro i c hi h; simp only; omega
  · exact fun i v c h => h
  · intro i c hi h; have := h.2.2.2.2.2.2 i; simp only; omega
  · exact fun i v c h => h
  · intro i c hi h; simp only [Strand.maskBytes, h.2.2.2.1]; simp only [Bool.false_eq_true, if_false]; omega
  · exact fun i v c h => h
  · intro i c hi h; simp only [Strand.lanes, h.2.2.2.1]; simp only [Bool.false_eq_true, if_false]; omega
  · exact fun i v c h => h
  · intro i c hi h; simp only; split <;> omega
  · exact fun i v c h => h
  · intro i c hi h; simp only; omega
  · exact fun i v c h => h
  · intro i c hi h; simp only; omega

/-- The header, the registers, the held word (none) and the locked lines (none) of that image are read; an image at virtual 0 cannot be. -/
theorem witness_WaitersAndContexts_restore : (imaged readyStrand).cur.status = .ready ∧ (imaged readyStrand).groups = [] ∧
    (∃ u x v, (imaged readyStrand).imageRead 0 8 = (u, .ok x) ∧ x % 2 ^ 16 = 1 ∧ x / 2 ^ 32 % 2 ^ 8 = (imaged readyStrand).cur.lanes ∧
      andThenOk loadContext (andThenOk loadQueue (andThenOk loadHeld loadLocks)) (u.l1Invalidate u.cur.coreNo true) = (v, .ok ()) ∧ v.cur.pend = []) ∧
    (match ((imaged { readyStrand with image := 0 }).imageRead 0 8).2 with | .ok _ => false | .error _ => true) = true ∧
    (match ((imaged { readyStrand with image := 0x200080 }).imageRead 0 8).2 with | .ok x => x % 2 ^ 16 != 1 | .error _ => false) = true := by
  have h0 : imageAt readyStrand := ⟨rfl, rfl, rfl, rfl, rfl, rfl, fun i => by
    have : vget readyStrand.files.vlt i = 0 := by
      show vget (Vector.replicate 64 0) i = 0
      simp [vget]
    omega⟩
  refine ⟨rfl, rfl, ?_, by decide +kernel, by decide +kernel⟩
  obtain ⟨d, hd, e⟩ := loadContext_imaged readyStrand h0
  obtain ⟨x, hx⟩ := imaged_read readyStrand h0 0 8 (by decide)
  have hv : (match ((imaged readyStrand).imageRead 0 8).2 with | .ok x => decide (x % 2 ^ 16 = 1 ∧ x / 2 ^ 32 % 2 ^ 8 = (imaged readyStrand).cur.lanes) | .error _ => false) = true := by
    decide +kernel
  rw [hx] at hv
  have hq : loadQueue (imaged d) = (imaged { d with queue := [] }, .ok ()) := by
    have h0 := imaged_zero d hd 0xA00 8 (by decide) (by decide) (by decide) (by decide +kernel)
    obtain ⟨m, hm⟩ := imaged_read d hd 0xA08 0 (by decide)
    unfold loadQueue
    rw [h0]
    simp [readThen, hm]
    rfl
  have hf : imageAt { d with queue := [] } := hd
  have hl : loadLocks (imaged { d with queue := [] }) = (imaged { d with queue := [], icg := [], ics := [] }, .ok ()) := by
    have h0 := imaged_zero _ hf 8 4 (by decide) (by decide) (by decide) (by decide +kernel)
    obtain ⟨m, hm⟩ := imaged_read _ hf 0x18000 0 (by decide)
    unfold loadLocks
    rw [h0]
    simp [readThen, hm]
    rfl
  have hi : (imaged readyStrand).l1Invalidate (imaged readyStrand).cur.coreNo true = imaged readyStrand := by rfl
  refine ⟨_, x, imaged { d with queue := [], icg := [], ics := [] }, hx, (of_decide_eq_true hv).1, (of_decide_eq_true hv).2, ?_, hd.2.2.2.2.2.1⟩
  have hh : loadHeld (imaged { d with queue := [] }) = (imaged { d with queue := [] }, .ok ()) := by
    unfold loadHeld
    show (match d.cur with | none => _ | some c => _) = _
    rw [hd.2.2.2.2.1]
  rw [hi]
  unfold andThenOk
  rw [e]
  show (match loadQueue (imaged d) with | (s, .ok _) => andThenOk loadHeld loadLocks s | r => r) = _
  rw [hq]
  show (match loadHeld (imaged { d with queue := [] }) with | (s, .ok _) => loadLocks s | r => r) = _
  rw [hh]; exact hl

/-! ## Witnesses for the engines, the registers and the bench -/

/-- `pagedGen` with one copy of eight bytes of mode m under way. -/
def copyOf (m : CopyMode) : State := pagedGen.onCur fun st => { st with copies := [{ cpy 1 .running 0 with mode := m }] }

theorem witness_EnginesAndTraps_copies (m : CopyMode) (hm : m ∈ [.plain, .withBits, .setFull, .setEmpty]) :
    findBy Copy.handle 1 (copyOf m).cur.copies = some { cpy 1 .running 0 with mode := m } ∧ (copyOf m).cur.status = .running ∧ (copyOf m).lost (copyOf m).cur.part = false ∧ (copyOf m).calm ∧
      Memory.wf (copyOf m).mem = true ∧ isOk ((copyOf m).resolveStream ⟨false, m != .plain⟩ 0x10000).2 (locAt 0x10000) = true ∧
      isOk ((copyOf m).resolveStream ⟨true, m != .plain⟩ 0x10040).2 (locAt 0x10040) = true ∧ (locAt 0x10000).gw = false ∧ (locAt 0x10040).gw = false ∧
      (copyOf m).lineRead (locAt 0x10000) = .good ∧ ((copyOf m).resolveStream ⟨false, m != .plain⟩ 0x10000).1 = copyOf m ∧
      ((copyOf m).resolveStream ⟨true, m != .plain⟩ 0x10040).1 = copyOf m := by
  simp only [List.mem_cons, List.not_mem_nil, or_false] at hm
  rcases hm with rfl | rfl | rfl | rfl <;>
    exact ⟨by decide +kernel, by decide +kernel, by decide +kernel, calm_of rfl rfl rfl rfl, rfl, by decide +kernel, by decide +kernel, by decide +kernel, by decide +kernel, by decide +kernel,
      rfl, rfl⟩

/-- A stream fault that is due, at S level entry; INT at a boundary, inside a handler and with one pending. -/
def faulted : State := handlers.onCur fun st =>
  { st with cur := some (Cur.fresh entry0), fault := some { cause := 0x03, val := 0x10001, stream := true, deferred := false, ord := 0, ipc := 0, ir := 0, depth := 0, entry := none } }

/-- An atomic of a store buffer in the chain of its line. -/
def chain0 : Chain := { line := lineOf (locAt 0x10000).key, src := .buf 0 0, loc := locAt 0x10000, bytes := 8, fn := .add, b := 5, cmp := 0, result := none }

/-- A deferred fault, and a breakpoint that an access has met, that may be taken. -/
def later (deferred : Bool) : State := handlers.onCur fun st =>
  let f : Pend := { cause := if deferred then 0x07 else 0x11, val := 0x10000, stream := false, deferred := deferred, ord := 0, ipc := 0x10002, ir := 0, depth := 0
                    entry := if deferred then some (buf .feclr) else none }
  if deferred then { st with ktvec := 0, fault := some f } else { st with ktvec := 0, brks := [f] }

theorem witness_EnginesAndTraps : (∀ x ∈ (buffered .feclr).chains, x.line = chain0.line → x.result.isSome = true) ∧
    (let s := { buffered (.amo .add 8 .none .st 3 5 0) with chains := [chain0] }
     (s.chains.filter fun x => x.line == chain0.line && x.result.isNone) = [chain0] ∧ chain0.src = .buf s.cur.id (buf .feclr).id ∧
      (s.cur.sbuf.find? fun x => x.id == 0) = some (buf (.amo .add 8 .none .st 3 5 0)) ∧ s.cur.status = .running ∧ s.lost s.cur.part = false ∧
      (let one : State := { s with chains := [] }
       one.bufHead = some (buf (.amo .add 8 .none .st 3 5 0)) ∧ one.chained (buf (.amo .add 8 .none .st 3 5 0)) = false)) ∧
    ((∀ x ∈ base.cur.copies, x.st ≠ .running) ∧ base.cur.status ≠ .saving ∧ base.cur.faultReady = false ∧ base.cur.breakReady = none) ∧
    ((∃ f, faulted.cur.fault = some f ∧ f.stream = true ∧ delegBit f.cause = none) ∧ faulted.cur.faultReady = true ∧ (∃ w, faulted.cur.cur = some w ∧ w.blk = false) ∧
      faulted.cur.sbank.hdl = false ∧ faulted.cur.kbank.hdl = false ∧ faulted.cur.stvec ≠ 0) ∧
    ((later true).cur.faultReady = true ∧ ((later true).cur.fault.any fun f => !f.stream && f.deferred) = true ∧ (later true).cur.ktvec = 0 ∧
      (later true).cur.stvec ≠ 0 ∧ (later false).cur.breakReady.isSome = true ∧ (later false).cur.ktvec = 0) ∧
    (handlers.cur.intReady = true ∧ handlers.cur.ints = [] ∧ handlers.cur.sbank.hdl = false ∧ handlers.cur.kbank.hdl = false ∧ handlers.cur.stvec ≠ 0) ∧
    ((inHandler true).cur.intReady = false ∧ (inHandler true).cur.status = .running) ∧
    ((strand fun st => { st with ints := [5] }).cur.ints ≠ [] ∧ (strand fun st => { st with status := .ended }).cur.status = .ended) :=
  ⟨by decide +kernel, by decide +kernel, by decide +kernel,
    ⟨⟨_, rfl, rfl, rfl⟩, by decide +kernel, ⟨_, rfl, rfl⟩, by decide +kernel⟩, by decide +kernel⟩

/-- Tables that map virtual 0 to 1 GB at itself, of stack 0, and the ingress entry of job 7 in partition 0. -/
def walked : State :=
  let k := 2 ^ 36
  let s := base.putPart { base.part 0 with keyval := 1, ttb := 0x40000 }
  { s with mem := [(0x8000, 1), (0x8001, 0x10), (0x8002, 0x04), (k + 0x8000, 1), (k + 0x8001, 0x20), (k + 0x8002, 0x04), (2 * k + 0x8000, 0x0B), (2 * k + 0x8001, 0x82)]
           pkg := { s.pkg with ingress := vset s.pkg.ingress 0 (some ⟨7, 0, true, true, true, true⟩) } }

/-- `walked` with its strand parked at 0x10000, or leaving its core for that. -/
def parkedIn (st : Status) : State := walked.onCur fun t => { t with status := st, parkKey := some 0x10000 }

/-- `base` with a buffer of samples, on. -/
def sampled : State := pagedGen.putCore { pagedGen.core 0 with smpctl := 0x1001, smpbase := 0x10000, smpsize := 0x100, smpptr := 0x80 }

theorem witness_RegistersOfThePackage_pages : (∀ t ∈ base.strands, t.coreNo ≠ 5) ∧
    (sampled.others = [] ∧ sampled.cur.coreNo = 0 ∧ sampled.cur.status = .running ∧ (sampled.core 0).smpctl.getLsbD 0 = true ∧ (sampled.core 0).smpctl.getLsbD 13 = false ∧
      (sampled.core 0).smpptr.toNat + 128 ≤ (sampled.core 0).smpsize.toNat ∧ isOk (sampled.unitPutMany 0 0 0x10080 (sampled.sampleRecord false)).2 () = true) ∧
    (base.part 0).ttb = 0 ∧
    (base.pinsHeld 0 (fun _ _ => true) = false ∧
      (paged.onCur fun st => { st with cur := st.cur.map fun c => { c with pins := [0x10010] } }).pinsHeld 0 (fun a b => a / 2 ^ max b 16 == 1) = true) ∧
    (∀ st ∈ [Status.saving, .parked], (parkedIn st).others = [] ∧ (parkedIn st).cur.part = 0 ∧ (parkedIn st).cur.parkKey = some 0x10000 ∧
      ((parkedIn st).pageWalked ((parkedIn st).part 0) 0x10000 0).keyIn ((parkedIn st).part 0) 0x10000 0 0x10000 = true ∧
      ((parkedIn st).pageWalked ((parkedIn st).part 0) 0x20000 0).keyIn ((parkedIn st).part 0) 0x20000 0 0x10000 = false ∧
      (let y := (parkedIn st).pageWalked ((parkedIn st).part 0) 0x10000 0; isOk (y.benchPut 0 ((parkedIn st).cur.record.toNat + 25) [2]).2 () = true) ∧ (parkedIn st).cur.status = st ∧
      (parkedIn st).group (parkedIn st).cur.gid = none) := by decide +kernel

/-- A descriptor table at 0x10000 with queue 0 of priority 7, on, its slots at 0x12000. -/
def tabled : State := { (pagedGen.putPart { pagedGen.part 0 with qtbase := 0x10000 }) with
  mem := [((locAt 0x10000).key + 1, 0x20), ((locAt 0x10000).key + 2, 1), ((locAt 0x10000).key + 8, 15), ((locAt 0x10000).key + 9, 7), ((locAt 0x10000).key + 10, 1)] }

/-- Quiescent and not; sample and event buffers of length 0 and more; LOG2 at 7, 8, 24 and 25; no descriptor table and one; the ends of the register map; keys; maps of dies. -/
theorem witness_RegistersOfThePackage : base.quiescent 0 = false ∧ State.reset.quiescent 0 = true ∧
    ((sampled.core 0).smpsize ≠ 0 ∧ (base.core 0).smpsize = 0 ∧ (0x0701#64).toNat / 2 ^ 8 % 2 ^ 5 < 8 ∧ 24 < (0x1901#64).toNat / 2 ^ 8 % 2 ^ 5 ∧
      8 ≤ (0x0801#64).toNat / 2 ^ 8 % 2 ^ 5 ∧ (0x1801#64).toNat / 2 ^ 8 % 2 ^ 5 ≤ 24) ∧
    ((base.part 0).evsize = 0 ∧ ((base.putPart { base.part 0 with evsize := 64 }).part 0).evsize ≠ 0) ∧
    ((base.part 0).qtbase = 0 ∧ (tabled.part 0).qtbase ≠ 0 ∧
      (match (tabled.unitGetMany 0 (tabled.part 0).benchCore 0x10000 32).2 with
       | .ok d => decide (d / 2 ^ 64 % 2 ^ 8 < 16) && decide (d / 2 ^ 72 % 2 ^ 8 ≤ 7) && decide (d / 2 ^ 80 % 2 ^ 8 = 1) && decide (d / 2 ^ 88 % 2 ^ 168 = 0) &&
          decide (d % 2 ^ 64 % 128 = 0)
       | .error _ => false) = true) ∧
    ((0x0EF : Nat) < 0x0F0 ∧ (0x233 : Nat) < 0x234) ∧ ((base.part 0).keyval.getLsbD 1 = false ∧ (walked.part 0).keyval.getLsbD 0 = true) ∧
    (5#4 ∉ [1#4, 2#4, 4#4, 8#4, 3#4, 12#4, 15#4]) ∧
    (∀ l ∈ [[1#4, 2#4, 12#4], [15#4], [3#4, 12#4]], (∀ x ∈ l, x ∈ [1#4, 2#4, 4#4, 8#4, 3#4, 12#4, 15#4]) ∧ (l.map BitVec.toNat).sum = (l.foldl (· ||| ·) 0#4).toNat) := by
  decide +kernel

/-! ## Witnesses for the bench, the package, remote work and the machine -/

/-- A state whose queue 0 of partition 0 has its slots at 0x10000, and there the address 0x10040 of a KCB. -/
def queued (full : Bool) : State :=
  let p := pagedGen.part 0
  let s := pagedGen.putPart { p with queues := vset p.queues 0 { vget p.queues 0 with en := true, slots := 0x10000, log2n := 1, prio := 3 } }
  let s := { s with mem := [((locAt 0x10000).key, 0x40), ((locAt 0x10000).key + 2, 1)] }
  s.setFull (locAt 0x10000).key full

theorem witness_NodesAdvance_take : (∀ f x, (queued f).lost x = false) ∧ base.upsets = [] ∧ (vget (base.part 0).queues 0).en = false ∧
    (∀ f, (queued f).upsets = [] ∧ (vget ((queued f).part 0).queues 0).en = true ∧ (queued f).quiet 0 ∧
      ((queued f).resolveFor 0 ((queued f).part 0).benchCore 0x10000).1 = queued f ∧
      isOk ((queued f).resolveFor 0 ((queued f).part 0).benchCore 0x10000).2 (locAt 0x10000) = true ∧ (locAt 0x10000).fev = true ∧ (locAt 0x10000).gw = false ∧
      (queued f).lineRead (locAt 0x10000) = .good ∧ (queued f).full (locAt 0x10000).key = f ∧
      (vget ((queued f).part 0).queues 0).slots.toNat + 128 * (vget ((queued f).part 0).queues 0).head = 0x10000) ∧
    (queued true).valueAt (locAt 0x10000).key 8 = 0x10040 ∧ 0x10040 % 64 = 0 ∧
    (match ((queued true).unitGetMany 0 ((queued true).part 0).benchCore 0x10040 256).2 with | .ok k => kcbAt k 40 8 == 0 | .error _ => false) = true ∧
    (∀ m ∈ (queued true).nodes, m.id < (queued true).nextNode) := by
  refine ⟨fun f x => by cases f <;> rfl, rfl, by decide +kernel, ?_, by decide +kernel, by decide, by decide +kernel, by decide +kernel⟩
  intro f
  cases f <;> exact ⟨by decide +kernel, by decide +kernel, by unfold State.quiet; decide +kernel, rfl, by decide +kernel⟩

/-- A bench of one node, with time 1,000,000 ns. -/
def noded (n : Node) : State := { pagedGen with nodes := [n], pkg := { pagedGen.pkg with time := 1000000 } }

/-- A node behind another of its queue. -/
def behind : State := { base with nodes := [{ node0 with st := .binding }, { node0 with id := 2, st := .taken, prev := some 1 }] }

/-- A node behind another; one that was rejected; one that becomes ready, and is; its age at 1 ms; the last strand; DONE; the choice of it. -/
theorem witness_NodesAdvance : base.node 1 = none ∧ base.quiet 0 ∧ behind.prevAllows { node0 with id := 2, st := .taken, prev := some 1 } = false ∧
    behind.node 2 = some { node0 with id := 2, st := .taken, prev := some 1 } ∧
    (noded { node0 with st := .taken }).prevAllows { node0 with st := .taken } = true ∧ { node0 with reject := 1 }.reject ≠ 0 ∧ ((noded { node0 with st := .taken, reject := 1 }).nodes.map Node.id).Nodup ∧ node0.reject = 0 ∧
    node0.preds = [0, 0, 0, 0] ∧ (noded { node0 with st := .taken }).tilesFree { node0 with st := .taken } = true ∧
    (noded node0).node 1 = some node0 ∧ ((noded node0).pkg.time - node0.readyAt) / 1000000 = node0.raises + 1 ∧
    ({ node0 with st := .running, ended := 0 } : Node).ended ≠ ({ node0 with st := .running, ended := 0 } : Node).total ∧
    ({ node0 with st := .running, ended := 1 } : Node).ended = ({ node0 with st := .running, ended := 1 } : Node).total ∧ node0.gw = none ∧
    ((noded { node0 with st := .done }).resolveFor 0 ((noded node0).part 0).benchCore node0.done.toNat).1 = noded { node0 with st := .done } ∧
    isOk ((noded { node0 with st := .done }).resolveFor 0 ((noded node0).part 0).benchCore node0.done.toNat).2 (locAt 0x10000) = true ∧ (locAt 0x10000).wr = true ∧
    (∀ m ∈ (noded { node0 with raises := 1 }).nodes, m.part = 0 → m.st = .ready → ((noded { node0 with raises := 1 }).pkg.time - m.readyAt) / 1000000 ≤ m.raises) ∧
    (noded { node0 with raises := 1 }).choose 0 = some { node0 with raises := 1 } ∧ (noded { node0 with raises := 1 }).bindingNode 0 = none ∧ base.choose 0 = none :=
  by unfold State.quiet; decide +kernel

/-- A group of node 1 on core 0 of cluster 0, its strand in the state given. -/
def group0 : Group :=
  { id := 0, nid := 1, part := 0, gidx := 0, cluster := 0, cores := [0], bars := [0], half := false, seqNo := 0, pre := false, evicted := false, evSlots := [], live := 1 }

/-- A machine of one die whose node n binds, with image slots, and the groups and cores given. -/
def binding (n : Node) (gs : List Group) (st : Status) (cores : List CoreSt) : State :=
  let s := base.putPart { base.part 0 with dies := 1, recpool := 96, order := [n.id], keyval := 1, spsave := 0x200000, spsaven := 2 }
  { s with nodes := [{ node0 with prio := 2 }, n], groups := gs, cores := cores, cur := { s.cur with gid := 0, nid := 1, status := st } }

/-- The cores of the die: core 0 held by group 0, and no other in service. -/
def taken : List CoreSt := (List.range 240).map fun k => { CoreSt.reset k with service := k == 0, owner := if k == 0 then some 0 else none }

/-- The node that binds. -/
def node2 : Node := { node0 with id := 2, st := .binding, prio := 7, gsize := 2 }

/-- Nothing to bind; too few image slots; cores that fit; none that fit, and the victim that gives way. -/
theorem witness_GroupsBind : base.bindingNode 0 = none ∧
    (let s := binding node2 [] .running []
     s.bindingNode 0 = some node2 ∧ node2.part = 0 ∧ node2.gsize ≤ (s.freeSlots 0).length ∧ s.pickCluster node2 = some (0, [0, 1]) ∧
      ((s.putPart { s.part 0 with recpool := 1 }).freeSlots 0).length < node2.gsize) ∧
    (binding { node2 with prio := 1 } [group0] .running taken).victim { node2 with prio := 1 } = none ∧
    (base.group 0 = none ∧ (binding node2 [group0] .running taken).group group0.id = some group0 ∧ group0.evicted = false) := by decide +kernel

theorem witness_GroupsBind_victim : (let s := binding node2 [group0] .running taken
     s.pickCluster node2 = none ∧ (s.groups.any fun h => h.part == 0 && h.pre) = false ∧ s.victim node2 = some group0 ∧ s.others = [] ∧ s.cur.gid = group0.id ∧
      s.cur.status = .running ∧ s.cur.handling = false ∧ s.cur.fault = none) := by decide +kernel

theorem settsChanged_keeps (ks : List Nat) (p : Bool) : ∀ s : State, (ks.foldl (fun s k => s.settChanged k p) s).cores = s.cores ∧
    ((ks.foldl (fun s k => s.settChanged k p) s).parts = s.parts ∧ (ks.foldl (fun s k => s.settChanged k p) s).pkg.dead = s.pkg.dead) ∧ (ks.foldl (fun s k => s.settChanged k p) s).lines = s.lines := by
  induction ks with
  | nil => exact fun _ => ⟨rfl, ⟨rfl, rfl⟩, rfl⟩
  | cons k t ih =>
    intro s
    have h : (s.settChanged k p).cores = s.cores ∧ ((s.settChanged k p).parts = s.parts ∧ (s.settChanged k p).pkg.dead = s.pkg.dead) ∧
        (s.settChanged k p).lines = s.lines := by
      unfold State.settChanged; simp only; split <;> exact ⟨rfl, ⟨rfl, rfl⟩, rfl⟩
    rw [List.foldl_cons]
    exact ⟨(ih _).1.trans h.1, ⟨(ih _).2.1.1.trans h.2.1.1, (ih _).2.1.2.trans h.2.1.2⟩, (ih _).2.2.trans h.2.2⟩

theorem mem_putBy {α : Type} (key : α → Nat) (a x : α) : ∀ l : List α, x ∈ putBy key a l → x = a ∨ x ∈ l
  | [], h => .inl (by simpa [putBy] using h)
  | b :: t, h => by
    unfold putBy at h
    split at h
    · exact (List.mem_cons.mp h)
    · split at h
      · exact (List.mem_cons.mp h).imp id (List.mem_cons_of_mem _)
      · rcases List.mem_cons.mp h with h | h
        · exact .inr (h ▸ List.mem_cons_self)
        · exact (mem_putBy key a x t h).imp id (List.mem_cons_of_mem _)

/-- Every line is known under the key of the page, with a tag that holds. -/
def tagged (s : State) : Prop := ∀ i ∈ s.lines, i.badTag = false ∧ i.enc = vget (s.part 0).keys 0

theorem bigAt_of {s t : State} {k : Nat} (hb : bigAt s k) (hc : t.cores = s.cores) (hp : t.parts = s.parts ∧ t.pkg.dead = s.pkg.dead) : bigAt t k := by
  unfold bigAt State.core State.part at *
  rw [hc, hp.1, hp.2]; exact hb

theorem tagged_put {s t : State} {x : LineInfo} (ht : tagged s) (hx : x.badTag = false ∧ x.enc = vget (s.part 0).keys 0) (hp : t.parts = s.parts)
    (hl : t.lines = putBy LineInfo.key x s.lines) : tagged t := by
  intro i hi
  have e : t.part 0 = s.part 0 := by unfold State.part; rw [hp]
  rw [hl] at hi
  rw [e]
  rcases mem_putBy _ _ _ _ hi with h | h
  · rw [h]; exact hx
  · exact ht i h

theorem lineWritten_keeps (s : State) (l : Loc) (ht : tagged s) (he : l.enc = vget (s.part 0).keys 0) :
    (s.lineWritten l).cores = s.cores ∧ ((s.lineWritten l).parts = s.parts ∧ (s.lineWritten l).pkg.dead = s.pkg.dead) ∧ tagged (s.lineWritten l) := by
  unfold State.lineWritten
  split
  · exact ⟨rfl, ⟨rfl, rfl⟩, ht⟩
  · split
    · exact ⟨rfl, ⟨rfl, rfl⟩, tagged_put ht ⟨rfl, he⟩ rfl rfl⟩
    · rename_i i hi
      have : i.enc = l.enc := (ht i (List.mem_of_find?_eq_some hi)).2.trans he.symm
      simp only [this, bne_self_eq_false, Bool.and_false, Bool.false_and, Bool.false_eq_true, if_false]
      exact ⟨trivial, ⟨trivial, trivial⟩, ht⟩

theorem storeAt_keeps (s : State) (l : Loc) (bs : List Byte) (ht : tagged s) (he : l.enc = vget (s.part 0).keys 0) :
    (s.storeAt l bs).cores = s.cores ∧ ((s.storeAt l bs).parts = s.parts ∧ (s.storeAt l bs).pkg.dead = s.pkg.dead) ∧ tagged (s.storeAt l bs) := by
  obtain ⟨h1, h2, h3⟩ := lineWritten_keeps { s with mem := Memory.setMany s.mem l.key bs } l ht he
  have hw : ∀ u : State, (u.settsWritten l bs.length).cores = u.cores ∧
      ((u.settsWritten l bs.length).parts = u.parts ∧ (u.settsWritten l bs.length).pkg.dead = u.pkg.dead) ∧
      ∀ i ∈ (u.settsWritten l bs.length).lines, i ∈ u.lines := by
    intro u; unfold State.settsWritten
    split
    · exact ⟨rfl, ⟨rfl, rfl⟩, fun _ h => h⟩
    · exact ⟨rfl, ⟨rfl, rfl⟩, fun _ h => (List.mem_filter.mp h).1⟩
  unfold State.storeAt
  obtain ⟨c1, c2, c3⟩ := hw (State.lineWritten { s with mem := Memory.setMany s.mem l.key bs } l)
  obtain ⟨k1, k2, k3⟩ := settsChanged_keeps (settsOf l.key bs.length) true ((State.lineWritten { s with mem := Memory.setMany s.mem l.key bs } l).settsWritten l bs.length)
  refine ⟨k1.trans (c1.trans h1), ⟨k2.1.trans (c2.1.trans h2.1), k2.2.trans (c2.2.trans h2.2)⟩, ?_⟩
  intro i hi
  have e := h3 i (c3 i (k3 ▸ hi))
  unfold State.part at *
  rw [k2.1, c2.1]; exact e

theorem not_badTag (s : State) (l : Loc) (ht : tagged s) (he : l.enc = vget (s.part 0).keys 0) : (s.lineRead l == .badTag) = false := by
  unfold State.lineRead
  cases h : s.lineInfo l.key with
  | none => rfl
  | some i =>
    have := ht i (List.mem_of_find?_eq_some h)
    simp only [this.1, this.2, he, bne_self_eq_false, Bool.and_false, Bool.false_and, Bool.or_self, Bool.false_eq_true, if_false]
    split <;> rfl

theorem big_put (s : State) (k va : Nat) (bs : List Byte) (hb : bigAt s k) (ht : tagged s) (h : va / 2 ^ 21 = 1) :
    ∃ u, s.unitPut 0 k va bs = (u, .ok ()) ∧ bigAt u k ∧ tagged u := by
  obtain ⟨l, hr, hg, hw, he, -⟩ := big_resolve s k va hb h
  have hd : (s.demand l.key).cores = s.cores ∧ ((s.demand l.key).parts = s.parts ∧ (s.demand l.key).pkg.dead = s.pkg.dead) ∧
      (s.demand l.key).lines = s.lines := by
    unfold State.demand; split <;> exact ⟨rfl, ⟨rfl, rfl⟩, rfl⟩
  have hn : s.lost 0 = false := by simp [State.lost, hb.2.2.2]
  unfold State.unitPut
  rw [hr]
  simp only [hn, Bool.false_eq_true, if_false]
  generalize s.demand l.key = d at hd
  have hb' : bigAt d k := bigAt_of hb hd.1 hd.2.1
  have hp : d.part 0 = s.part 0 := by unfold State.part; rw [hd.2.1.1]
  have ht' : tagged d := by unfold tagged; rw [hp, hd.2.2]; exact ht
  have he' : l.enc = vget (d.part 0).keys 0 := by rw [hp]; exact he
  obtain ⟨h1, h2, h3⟩ := storeAt_keeps d l bs ht' he'
  simp only [hg, hw, Bool.not_true, Bool.or_self, Bool.false_eq_true, if_false, not_badTag d l ht' he']
  have e : (d.storeAt l bs).part 0 = d.part 0 := by unfold State.part; rw [h2.1]
  split
  · exact ⟨_, rfl, bigAt_of hb' h1 h2, tagged_put h3 ⟨rfl, by rw [e]; exact he'⟩ rfl rfl⟩
  · exact ⟨_, rfl, bigAt_of hb' h1 h2, h3⟩

theorem big_putMany (k : Nat) : ∀ (fuel va : Nat) (bs : List Byte) (s : State), bigAt s k → tagged s → va / 2 ^ 21 = 1 → (va + bs.length) / 2 ^ 21 = 1 →
    ∃ u, State.unitPutMany.go 0 k fuel va bs s = (u, .ok ())
  | 0, _, _, s, _, _, _, _ => ⟨s, rfl⟩
  | fuel + 1, va, bs, s, hb, ht, h, h' => by
    unfold State.unitPutMany.go
    by_cases hn : bs.isEmpty
    · exact ⟨s, by simp [hn]⟩
    · obtain ⟨u, hu, hb', ht'⟩ := big_put s k va (bs.take (128 - va % 128)) hb ht h
      simp only [hn, hu]
      by_cases hl : (bs.drop (128 - va % 128)).length = 0
      · have : bs.drop (128 - va % 128) = [] := List.eq_nil_of_length_eq_zero hl
        rw [this]
        cases fuel with
        | zero => exact ⟨u, rfl⟩
        | succ n => exact ⟨u, by simp [State.unitPutMany.go]⟩
      · rw [List.length_drop] at hl
        exact big_putMany k fuel _ _ u hb' ht' (by omega) (by rw [List.length_drop]; omega)

/-- The group off its core, to be evicted, and evicted. -/
def evicting (g : Group) (held : Bool) : State :=
  let s := binding node2 [g] .ready [{ CoreSt.reset 0 with owner := if held then some 0 else none, dtlb := [bigPage] }]
  s.putPart { s.part 0 with order := [] }

theorem evicting_big (g : Group) (held : Bool) : bigAt (evicting g held) 0 :=
  ⟨rfl, rfl, (by decide +kernel : ((evicting group0 true).part 0).stacks.contains 0 = true), rfl⟩

/-- The group evicted into slot 0. -/
def group1 : Group := { group0 with evicted := true, evSlots := [0] }

theorem big_putAll (s : State) (k va : Nat) (bs : List Byte) (hb : bigAt s k) (ht : tagged s) (h : va / 2 ^ 21 = 1) (h' : (va + bs.length) / 2 ^ 21 = 1) :
    ∃ u, s.unitPutMany 0 k va bs = (u, .ok ()) := big_putMany k _ va bs s hb ht h h'

theorem big_getAll (s : State) (k va n : Nat) (hb : bigAt s k) (hu : untouched s) (h : va / 2 ^ 21 = 1) (h' : (va + n) / 2 ^ 21 = 1) :
    ∃ v, s.unitGetMany 0 k va n = (s, .ok v) := big_getMany s k hb hu _ va n 0 0 h h'

theorem barrierBytes_le (s : State) (g : Group) : (s.barrierBytes g).length ≤ 256 := by
  have : ∀ (l : List Nat) (f : Nat → List Byte), (∀ i, (f i).length = 16) → (l.flatMap f).length = 16 * l.length := by
    intro l f hf
    induction l with
    | nil => rfl
    | cons a t ih => rw [List.flatMap_cons, List.length_append, hf, ih, List.length_cons]; omega
  unfold State.barrierBytes
  rw [this]
  · simp
  · intro i; split <;> simp [leBytes_length]

theorem big_evict (s : State) (g : Group) (c : Nat) (hp : g.part = 0) (hc : (s.part 0).benchCore = 0) (ha : (s.part 0).spsave.toNat = 0x200000) (hl : s.lines = [])
    (hb : bigAt s 0) : ∃ u, s.evictCore g c 0 true = (u, .ok ()) := by
  unfold State.evictCore
  simp only [hl, List.any_nil, Bool.false_eq_true, if_false, if_true, hp, hc, ha]
  refine big_putAll s 0 _ _ hb (by unfold tagged; rw [hl]; nofun) (by decide) ?_
  have := barrierBytes_le s g
  simp only [List.length_append, State.bytesAt, Memory.getMany_length, bitmapOf, List.length_map, List.length_range, leBytes_length]
  omega

theorem big_restore (s : State) (g : Group) (c : Nat) (hp : g.part = 0) (hc : (s.part 0).benchCore = 0) (ha : (s.part 0).spsave.toNat = 0x200000) (hu : untouched s)
    (hb : bigAt s 0) : ∃ u, s.restoreCore g c 0 true = (u, .ok ()) := by
  obtain ⟨v, hv⟩ := big_getAll s 0 (0x200000 + 0x80000 * 0) 0x63110 hb hu (by decide) (by decide)
  unfold State.restoreCore
  simp only [hp, hc, ha, hv]
  exact ⟨_, rfl⟩

theorem evictCores_one {g : Group} {c j : Nat} {s u : State} (h : s.evictCore g c j true = (u, .ok ())) : evictCores g [(c, j)] true s = (u, .ok ()) := by
  unfold evictCores; rw [h]; rfl

theorem restoreCores_one {g : Group} {c j : Nat} {s u : State} (h : s.restoreCore g c j true = (u, .ok ())) : restoreCores g [(c, j)] true s = (u, .ok ()) := by
  unfold restoreCores; rw [h]; rfl

/-- A group that can be saved, and one with a line of its scratchpad that cannot be corrected. -/
theorem witness_GroupsBind_evict : ((evicting group0 true).groupOff group0.id = true ∧ ((evicting group0 true).freeEvSlots 0).take 1 = [0] ∧ ((evicting group0 true).core 0).owner = some 0) ∧
    (∀ b, let s := (evicting { group0 with pre := b } true).putPart { (evicting group0 true).part 0 with spsaven := 0 }
      s.group 0 = some { group0 with pre := b } ∧ s.groupOff 0 = true ∧ (s.freeEvSlots 0).take 1 = []) ∧
    (∃ u, evictCores group0 (group0.cores.zip [0]) true (evicting group0 true) = (u, .ok ())) ∧
    (∃ u c, evictCores group0 (group0.cores.zip [0]) true { evicting group0 true with lines := [⟨scratchKey 0 0, 0, true, false⟩] } = (u, .error c)) := by
  refine ⟨by decide +kernel, by decide +kernel, ?_, ⟨{ evicting group0 true with lines := [⟨scratchKey 0 0, 0, true, false⟩] }, cMEMUE, ?_⟩⟩
  · obtain ⟨u, hu⟩ := big_evict (evicting group0 true) group0 0 rfl (by decide +kernel) (by decide +kernel) rfl (evicting_big _ _)
    exact ⟨u, evictCores_one hu⟩
  · show evictCores group0 [(0, 0)] true _ = _
    unfold evictCores State.evictCore
    rw [if_pos (by decide +kernel)]

/-- The evicted group's core and barrier taken again. -/
def held : State :=
  let back := group1.cores.foldl (fun s x => s.takeCore (0 * 48 + x) group1.id group1.half) (evicting group1 false)
  back.putCluster { back.cluster 0 with holders := group1.bars.foldl (fun h b => vset h b (some group1.id)) (back.cluster 0).holders }

theorem witness_GroupsBind_restore : (evicting group1 false).group group1.id = some group1 ∧ group1.evicted = true ∧
    (∀ x ∈ group1.cores, ((evicting group1 false).core x).service = true ∧ ((evicting group1 false).core x).owner = none) ∧
    (∀ b ∈ group1.bars, vget ((evicting group1 false).cluster 0).holders b = none) ∧
    (∃ st ∈ (evicting group1 false).strands, st.gid = group1.id ∧ st.status = .ready) ∧ (evicting group1 false).bindingNode 0 = none ∧
    (((binding node2 [group1] .ready []).bindingNode 0).any fun m => decide (((binding node2 [group1] .ready []).node group1.nid).elim 0 Node.prio < m.prio)) = true ∧
    (∃ u, restoreCores group1 (group1.cores.zip group1.evSlots) true held = (u, .ok ())) := by
  refine ⟨by decide +kernel, rfl, by decide +kernel, by decide +kernel, ⟨_, List.mem_cons_self, rfl, rfl⟩, by decide +kernel, by decide +kernel, ?_⟩
  have hp : (held.part 0).benchCore = 0 ∧ (held.part 0).spsave.toNat = 0x200000 ∧ (held.part 0).keyval = 1 ∧ (held.part 0).stacks.contains 0 = true ∧ (held.core 0).dtlb = [bigPage] ∧
      held.pkg.dead = [] ∧ held.upsets = [] ∧ held.pkg.banks = [] ∧ held.lines = [] := by decide +kernel
  obtain ⟨u, hu⟩ := big_restore held group1 0 rfl hp.1 hp.2.1 hp.2.2.2.2.2.2 ⟨hp.2.2.2.2.1, hp.2.2.1, hp.2.2.2.1, hp.2.2.2.2.2.1⟩
  exact ⟨u, restoreCores_one hu⟩

/-! ## Witnesses for the package, remote work and the machine -/

/-- `base` with a part of the package changed. -/
def package (f : Pkg → Pkg) : State := { base with pkg := f base.pkg }

/-- Banks with 7 and 8 refreshes postponed and in a back-off; links at two failures, of full and half width; a port out of service. -/
theorem witness_BanksAndLinks :
    (let b (n : Nat) (o : Bool) : State := package fun p => { p with banks := [⟨0, 0, 0, none, n, o, 0⟩] }
     ((b 7 false).bank 0 0 0).postponed < 8 ∧ ((b 7 false).bank 0 0 0).backoff = false ∧ 8 ≤ ((b 8 false).bank 0 0 0).postponed ∧
      ((b 0 true).bank 0 0 0).backoff = true) ∧
    (let q (n : Nat) : State := package fun p => { p with hintq := List.replicate n ⟨7, 3, 1, 5⟩ }
     8 ≤ ((q 8).pkg.hintq.filter fun h => h.stack == 7 && h.chan == 3).length ∧ ((q 7).pkg.hintq.filter fun h => h.stack == 7 && h.chan == 3).length < 8 ∧
      ((q 8).pkg.hintq.filter fun h => h.stack == 0 && h.chan == 3) = []) ∧ (Link.port 51).real = true ∧ (Link.die 0 0).real = false ∧
    (base.partOfDie (7 / 2)).isSome = true ∧
    (let l (n : Nat) (h : Bool) : State := package fun p => { p with links := [⟨.port 51, n, h, false⟩] }
     ((l 1 false).link (.port 51)).fails + 1 < 3 ∧ 3 ≤ ((l 2 false).link (.port 51)).fails + 1 ∧ ((l 2 false).link (.port 51)).half = false ∧
      ((l 2 true).link (.port 51)).half = true) ∧
    (let s := package fun p => { p with links := [⟨.base 3, 2, true, false⟩] }
     (Link.base 3).real = true ∧ 3 ≤ (s.link (.base 3)).fails + 1 ∧ (s.link (.base 3)).half = true ∧ (s.partOfDie (3 / 2)).isSome = true) ∧
    base.portOos 51 = false ∧ (package fun p => { p with pstat := vset p.pstat 51 8 }).portOos 51 = true := by decide +kernel

/-- Windows at 2,659, 2,660, 2,800 and 2,801 W and the clock at 0.8 and 1.4 GHz; the pins; a rail once under-voltage; a core with no group, and with one. -/
theorem witness_PowerAndReset : (2800 < 2801 ∧ 2659 < 2660 ∧ 8 < base.pkg.clk ∧ (package fun p => { p with clk := 8 }).pkg.clk ≤ 8) ∧
    ((package fun p => { p with time := 100000000, clk := 13 }).pkg.noRaise = false ∧ base.pkg.cltOk = true ∧
      (package fun p => { p with time := 100000000, clk := 13 }).pkg.raiseAt + 100000000 ≤ (package fun p => { p with time := 100000000, clk := 13 }).pkg.time ∧
      (package fun p => { p with time := 100000000, clk := 12 }).pkg.clk < 13 ∧ base.pkg.time < base.pkg.raiseAt + 100000000 ∧
      (package fun p => { p with cltOk := false }).pkg.cltOk = false ∧ (package fun p => { p with noRaise := true }).pkg.noRaise = true) ∧
    base.pkg.arrays = [] ∧ Upset.bootFails ∉ base.upsets ∧ Upset.bootFails ∈ ({ base with upsets := [.bootFails] } : State).upsets ∧
    (base.pkg.noUv.contains 3 = false ∧ (package fun p => { p with noUv := [3] }).pkg.noUv.contains 3 = true) ∧
    (∀ x ∈ base.groups, ¬ (x.cluster = 0 ∧ 0 ∈ x.cores)) ∧
    ((binding node2 [group0] .running taken).groups = [group0] ∧ group0.cluster = 0 / 48 ∧ 0 % 48 ∈ group0.cores ∧
      ∀ x ∈ (binding node2 [group0] .running taken).strands, x.gid = group0.id) ∧
    (package fun p => { p with fatal := true }).pkg.fatal = true ∧ base.pkg.cltOk = true := by decide +kernel

/-- An array past its threshold both in undervolt windows and at nominal voltage. -/
def failing : State := package fun p => { p with arrays := [⟨3, 0, Config.failureRate 3 + 1, Config.failureRate 3 + 1⟩] }

theorem witness_PowerAndReset_arrays : (∃ a ∈ failing.pkg.arrays, Config.railOf a.array = Config.railOf 3 ∧ Config.failureRate a.array < a.under) ∧
    (∃ a ∈ failing.pkg.arrays, a.array = 3 ∧ Config.failureRate 3 < a.nominal) :=
  ⟨⟨_, List.mem_singleton_self _, rfl, Nat.lt_succ_self _⟩, _, List.mem_singleton_self _, rfl, Nat.lt_succ_self _⟩

/-- An operation on eight bytes at 0x10000 by job 7. -/
def op8 (form : BitVec 8) (n len : Nat) : RemoteOp :=
  { port := 51, pdc := 1, psn := 0, ordered := false, job := 7, form := form, flags := 0, wait := 0, rsv := 0, addr := 0x10000, len := len
    data := List.replicate n 1, fn := 0, size := 0 }

/-- The location of virtual 0x10000 in `walked`. -/
def walkedLoc : Loc := match walked.remoteLoc (walked.part 0) .read (op8 0 0 8) 0x10000 with | .ok l => l | .error _ => Loc.nowhere

/-- `walked` where the context of the operation has come to number n. -/
def inContext (n : BitVec 32) : State := { walked with pkg := { walked.pkg with pdcs := [⟨1, n, []⟩] } }

/-- The first packet of a context; an ordered one in its turn, one that has come before, and one that comes before its turn. -/
theorem witness_RemoteWork_turns : walked.repeated (op8 1 8 8) = false ∧ ((inContext 0).repeated (op8 1 8 8) = false ∧ ((inContext 0).pdc 1).next = 0 ∧ ((inContext 0).pdc 1).late = []) ∧
    (inContext 1).repeated (op8 1 8 8) = true ∧
    (let o : RemoteOp := { op8 0 8 8 with ordered := true, psn := 2 }
     let s := inContext 1
     s.repeated o = false ∧ psnLt (s.pdc o.pdc).next o.psn = true ∧ s.upsets = [] ∧ s.remotes = [] ∧ isOk (s.remoteCheck .write { o with size := 0, len := 8 }) 0 = true) := by
  decide +kernel

theorem witness_RemoteWork_premises : walked.upsets = [] ∧ walked.remotes = [] ∧ Memory.wf walked.mem = true ∧
    (op8 0 8 8).port < 52 ∧ base.ingressOf 7 = none ∧ opIll .write (op8 1 8 8) = false := by decide +kernel

/-- Each form passes its checks: forms 1, 2, 6, 7 of writes, 3, 4, 5 of reads, plain ones to the end of the line, an atomic. -/
theorem witness_RemoteWork :
    (∀ f ∈ [1#8, 2#8, 6#8, 7#8], isOk (walked.remoteCheck .write (op8 f 8 8)) 0 = true ∧
      isOk (walked.remoteLoc (walked.part 0) .write (op8 f 8 8) 0x10000) walkedLoc = true) ∧
    (∀ f ∈ [3#8, 4#8, 5#8], isOk (walked.remoteCheck .read (op8 f 0 8)) 0 = true ∧
      isOk (walked.remoteLoc (walked.part 0) .read (op8 f 0 8) 0x10000) walkedLoc = true) ∧
    (∀ n ∈ [1, 128], isOk (walked.remoteCheck .write (op8 0 n n)) 0 = true ∧ isOk (walked.remoteLoc (walked.part 0) .write (op8 0 n n) 0x10000) walkedLoc = true ∧
      isOk (walked.remoteCheck .read (op8 0 0 n)) 0 = true ∧ (0x10000#64).toNat % 128 + n ≤ 128) ∧
    isOk (walked.remoteCheck .atomic { op8 0 8 8 with size := 8 }) 0 = true ∧
    isOk (walked.remoteLoc (walked.part 0) .atomic { op8 0 8 8 with size := 8 } 0x10000) walkedLoc = true ∧ walked.lineRead walkedLoc = .good ∧ walked.lost 0 = false ∧ walked.chains = [] ∧
    walked.full walkedLoc.key = true ∧ (walked.setFull walkedLoc.key false).full walkedLoc.key = false := by decide +kernel

/-- A request of a load, without an answer, and the load. -/
def asked : State :=
  let s := pagedGen.onCur fun st => { st with pend := [load0 (some 9)] }
  { s with gwReqs := [{ id := 9, src := .load 0 5, node := 1, addr := 0, form := 0, rel := false, wait := 0, pcp := 1, len := 8, data := [], nibs := 0, fn := 0, deadline := 0, reply := none }] }

theorem witness_RemoteWork_answers : findBy GwReq.id 8 asked.gwReqs = none ∧ (∃ q, findBy GwReq.id 9 asked.gwReqs = some q ∧ q.reply = none ∧ q.src = .load asked.cur.id 5) ∧
    findBy PendLoad.id 5 asked.cur.pend = some (load0 (some 9)) ∧ (load0 (some 9)).target = none ∧ (load0 (some 9)).loc.gw = true ∧ (load0 (some 9)).gw = some 9 ∧ (load0 (some 9)).bad = none ∧
    (∀ i < 4, (vget asked.cur.bpctl i).getLsbD 0 = false) ∧ asked.cur.fault = none :=
  ⟨by decide +kernel, ⟨_, rfl, rfl, rfl⟩, by decide +kernel, rfl, rfl, rfl, rfl, by decide +kernel, rfl⟩

/-- Every operand at an end of its range: an instruction that is well-formed and its encoding; words that decode. -/
theorem witness_GeneratorEncodingsDecode : (Instr.addi 31 31 (BitVec.ofInt 27 (-67108864))).wf = true ∧
    (encodeGen (.addi 31 31 (BitVec.ofInt 27 (-67108864)))).isSome = true ∧ (Instr.add 0 31 0).wf = true ∧ (encodeGen (.add 0 31 0)).isSome = true := by decide +kernel
theorem witness_StreamEncodingsDecode : (Instr.vfadd 3 ⟨7, .f32, 63, 63, .v 63⟩).wf = true ∧ (encodeStream (.vfadd 3 ⟨7, .f32, 63, 63, .v 63⟩)).isSome = true := by decide +kernel
theorem witness_DecodedWordsAreEncodings : 0x00A40C81 < 2 ^ (16 * (0x00A40C81 % 8 + 1)) ∧ (decodeGen 0x00A40C81).toOption = some (.add 3 4 5) ∧
    0x80030011 < 2 ^ (16 * (0x80030011 % 8 + 1)) ∧ (decodeStream 0x80030011).toOption = some (.vsetvl .f64 3 0) := by decide +kernel

/-- Code at the PC, its turn chosen, and due: NOP, and a word that decodes to nothing. -/
def coding (w : Nat) : State := State.reset.withFetchWord 16 w

/-- Code whose word at the PC is zero. -/
def uncoded : State := (coding 0x8).storeAt codeLoc (leBytes (lineOf1 0 0) 64)

/-- The word and the next PC that a fetch gives. -/
def fetched (s : State) : Option (Nat × Word) := match (s.fetchAt s.cur.gen.pc 0).2 with | .ok x => some x | .error _ => none

theorem witness_GeneratorStepsExecute : (coding 0x8).genMoves (coding 0x8) ∧ (∃ u, ({ coding 0x8 with sched := [.gen] }).genMoves u) ∧
    (coding 0x8).cur.genReady = true ∧ (fetched (coding 0x8)).map Prod.fst = some 0x8 ∧ uncoded.genMoves uncoded ∧ (fetched uncoded).map Prod.fst = some 0 ∧
    (((coding 0x8).fetchAt (coding 0x8).cur.gen.pc 0).1.fetched 0x8 0).cur.pcBreak = none ∧
    (decodeGen 0x8).toOption = some .nop ∧ (decodeGen 0).toOption = none :=
  ⟨⟨by unfold State.goes; decide +kernel, by decide +kernel, .inr ⟨by unfold State.ownTurn; decide +kernel, by decide +kernel, rfl⟩⟩,
    ⟨_, by unfold State.goes; decide +kernel, by decide +kernel, .inl ⟨[], rfl, rfl⟩⟩, by decide +kernel, by decide +kernel,
    ⟨by unfold State.goes; decide +kernel, by decide +kernel, .inr ⟨by unfold State.ownTurn; decide +kernel, by decide +kernel, rfl⟩⟩, by decide +kernel⟩

/-- A word that waits in the queue. -/
def waitingWord (call : Bool) : State := (word 1).onCur fun st => { st with cur := none, queue := [.word { entry0 with call := call }] }

/-- A state in a stream block whose next word is the first of the line at virtual 0x10000. -/
def inLine : State := blockLine.onCur fun st => { st with cur := none, block := { st.block with call := some { entry0 with call := true }, spc := 0x10002 } }

/-- The word of a fetch of the block. -/
def fetchedWord (s : State) : Option Nat := match (s.fetchAt s.cur.block.spc 1).2 with | .ok x => some x.1 | .error _ => none

/-- A word in progress, its turn chosen and due; the next of the queue, a word and a call; and a word of a block. -/
theorem witness_StreamStepsExecute : (word 1).streamMoves (word 1) ∧ (∃ u, ({ word 1 with sched := [.stream] }).streamMoves u) ∧
    (∃ c, (word 1).cur.cur = some c ∧ c.e.call = false ∧ (decodeStream c.w).toOption = some .vnop) ∧
    (∀ b, (waitingWord b).streamMoves (waitingWord b) ∧ (waitingWord b).cur.cur = none ∧ (waitingWord b).cur.block.call = none ∧
      (popQueue (waitingWord b).cur.queue (waitingWord b).cur.ctl).2.2 = some { entry0 with call := b }) ∧
    (inLine.streamMoves inLine ∧ inLine.cur.cur = none ∧ inLine.cur.block.call = some { entry0 with call := true } ∧ fetchedWord inLine = some 0x48 ∧
      (decodeStream 0x48).toOption.isSome = true) := by
  have own : ∀ s : State, (s.sched = [] ∧ s.events.find? s.dueNow = none ∧ s.cur.stuck = false ∧ s.tick % 8 ≠ 7 ∧ s.cur.faultReady = false ∧
      s.cur.breakReady = none ∧ s.cur.ints = [] ∧ (s.bufHead.any fun e => !s.chained e) = false) → s.ownTurn := fun s h => h
  refine ⟨⟨by unfold State.goes; decide +kernel, by decide +kernel, by decide +kernel, .inr ⟨own _ (by decide +kernel), by decide +kernel, by decide +kernel, rfl⟩⟩,
    ⟨_, by unfold State.goes; decide +kernel, by decide +kernel, by decide +kernel, .inl ⟨[], rfl, rfl⟩⟩, ⟨_, rfl, rfl, by decide +kernel⟩, ?_,
    ⟨by unfold State.goes; decide +kernel, by decide +kernel, by decide +kernel, .inr ⟨own _ (by decide +kernel), by decide +kernel, by decide +kernel, rfl⟩⟩, by decide +kernel⟩
  intro b
  cases b <;>
    exact ⟨⟨by unfold State.goes; decide +kernel, by decide +kernel, by decide +kernel, .inr ⟨own _ (by decide +kernel), by decide +kernel, by decide +kernel, rfl⟩⟩, by decide +kernel⟩

/-- A step chosen, one due, and the same after a fatal error, with and without a reset. -/
theorem witness_EventStepsExecute : ({ base with sched := [.event 0], events := [.age 1] } : State).events[0]? = some (.age 1) ∧ base.goes ∧ (([Event.age 1].take 0).any (keepsBehind (.age 1))) = false ∧
    base.sched = [] ∧ ({ base with events := [.age 1] } : State).events.find? ({ base with events := [.age 1] } : State).dueNow = some (.age 1) ∧ base.sampleHeld (.age 1) = false ∧
    ([Event.age 1, .resetN].find? revives = some .resetN) ∧ (∀ x ∈ [Event.age 1], revives x = false) := by unfold State.goes; decide +kernel

/-- A state with memory in its form, and its step. -/
theorem witness_StepKeepsMemoryForm : Memory.wf (coding 0x8).mem = true ∧ (match step (coding 0x8) with | .next _ => true | _ => false) = true :=
  ⟨by decide +kernel, by decide +kernel⟩

/-! ## Steps: expected values from the spec's worked examples and tables, or worked out by hand from its rules -/

/-- s3 and the PC after a generator instruction. -/
def s3pc (t : State) : Word × Word := (t.cur.gen.read 3, t.cur.gen.pc)

/-- 04 R110: −1 + 1 wraps to 0; MULH of −1 by −1 is the high half of 1; a divisor of zero; −2^63 by −1; rotation by 64 + 1. -/
theorem test_integer_alu :
    after (exec (.add 3 1 2) (regs (-1) 1 9)) s3pc = some (0, 0x10004) ∧
    after (exec (.mulh 3 1 2) (regs (-1) (-1) 9)) s3pc = some (0, 0x10004) ∧
    after (exec (.mulhn 3 1 2) (regs (-1) (-1) 9)) s3pc = some (0xFFFFFFFFFFFFFFFE, 0x10004) ∧
    after (exec (.div 3 1 2) (regs 7 0 9)) s3pc = some (-1, 0x10004) ∧ after (exec (.rem 3 1 2) (regs 7 0 9)) s3pc = some (7, 0x10004) ∧
    after (exec (.div 3 1 2) (regs 0x8000000000000000 (-1) 9)) s3pc = some (0x8000000000000000, 0x10004) ∧
    after (exec (.rem 3 1 2) (regs (-7) 2 9)) s3pc = some (-1, 0x10004) ∧
    after (exec (.ror 3 1 2) (regs 3 65 9)) s3pc = some (0x8000000000000001, 0x10004) ∧
    after (exec (.andn 3 1 2) (regs 0xFF 0x0F 9)) s3pc = some (0xF0, 0x10004) ∧ after (exec (.bswap 3 1) (regs 0x0102 0 9)) s3pc = some (0x0201000000000000, 0x10004) ∧
    after (exec (.clz 3 1) (regs 0 0 9)) s3pc = some (64, 0x10004) := by decide +kernel

/-- 04 R111: SLTNI with −1 compares against 2^64 − 1; SRAI keeps the sign; LPC; a destination that is also a source; s0 stays zero. -/
theorem test_immediates :
    after (exec (.sltni 3 1 (-1)) (regs (-2) 0 9)) s3pc = some (1, 0x10004) ∧ after (exec (.sltni 3 1 (-1)) (regs (-1) 0 9)) s3pc = some (0, 0x10004) ∧
    after (exec (.srai 3 1 63) (regs 0x8000000000000000 0 9)) s3pc = some (-1, 0x10004) ∧ after (exec (.lpc 3 (-1)) (regs 0 0 9)) s3pc = some (0x10000, 0x10004) ∧
    after (exec (.xori 3 3 (-1)) (regs 0 0 9)) s3pc = some (-10, 0x10004) ∧ after (exec (.addi 0 1 5) (regs 1 0 9)) (fun t => t.cur.gen.read 0) = some 0 := by
  decide +kernel

/-- 04 R115 to R118: f32 1 + 2^−24 is 1 with NX; 1/0 is +∞ with DZ; FMIN of −0 and +0; CVT of −128.6 to a 32-bit integer by RNE (01 R23) is −129 with NX. -/
theorem test_generator_float :
    after (exec (.fadd .f32 3 1 2) (regs 0x3F800000 0x33800000 9)) (fun t => (t.cur.gen.read 3, t.cur.gen.gfstat)) = some (0x3F800000, 0x10) ∧
    after (exec (.fdiv .f32 3 1 2) (regs 0x3F800000 0 9)) (fun t => (t.cur.gen.read 3, t.cur.gen.gfstat)) = some (0x7F800000, 0x02) ∧
    after (exec (.fmin .f32 3 1 2) (regs 0x80000000 0 9)) (fun t => t.cur.gen.read 3) = some 0x80000000 ∧
    after (exec (.cvt .f32 .i32 0 3 1) (regs 0xC300999A 0 9)) (fun t => (t.cur.gen.read 3, t.cur.gen.gfstat)) = some (0xFFFFFFFFFFFFFF7F, 0x10) := by decide +kernel

/-- 04 R130, R131: targets are PC + Imm·2; that of JLR is s[sa] + Imm, with sa read before sd is written. -/
theorem test_transfers :
    after (exec (.blt 1 2 (-4)) (regs (-1) 0 9)) s3pc = some (9, 0xFFFA) ∧ after (exec (.bltn 1 2 (-4)) (regs (-1) 0 9)) s3pc = some (9, 0x10004) ∧
    after (exec (.jlr 3 3 2) (regs 0 0 0x20002)) s3pc = some (0x10004, 0x20004) ∧ after (exec (.jl 3 8) (regs 0 0 9)) s3pc = some (0x10004, 0x10012) := by decide +kernel

/-- 04 R133, R134: a count of 0 skips the body; the last iteration leaves the loop, one before goes back. -/
theorem test_loops :
    after (exec (.loop 1 0 5) (regs 0 0 9)) (fun t => (t.cur.gen.pc, t.cur.gen.act 0)) = some (0x1000C, false) ∧
    after (exec (.loop 1 0 5) (regs 4 0 9)) (fun t => (t.cur.gen.pc, t.cur.gen.act 0, t.cur.gen.lc0)) = some (0x10004, true, 4) ∧
    after (exec .nop (looping 0 0x10004)) (fun t => (t.cur.gen.pc, t.cur.gen.lc0)) = some (0x10000, 1) ∧
    after (exec .nop (looping 1 0x10004)) (fun t => (t.cur.gen.pc, t.cur.gen.lc1, t.cur.gen.act 1)) = some (0x10004, 0, false) := by decide +kernel

/-- 04 R120, R121: a load of the last byte, extended with its sign; a misaligned load takes ALIGN (0x03) at S level. -/
theorem test_loads :
    (let s := { pagedGen with mem := [((locAt 0x10000).key + 7, 0x80)] }
     after (exec (.ld .b1 true 3 1 7) s) (fun t => t.cur.gen.read 3) = some (-128) ∧ after (exec (.ld .b8 false 3 1 0) s) (fun t => t.cur.gen.read 3) = some 0x8000000000000000) ∧
    after (exec (.ld .b8 false 3 1 0) (handlers.onCur fun st => { st with deleg := 0, gen := { st.gen with s := st.gen.s.set 1 0x10004 } }))
      (fun t => (t.cur.gen.pc, t.cur.gen.level, t.cur.sbank.cause, t.cur.sbank.val)) = some (0x4002, .s, 0x03, 0x10004) := by decide +kernel

/-- 08 R229, 04 R107: BRK (0x11) goes to S, or to K where DELEG<5> is set; TVAL<63> marks a TRAP. -/
theorem test_delegation :
    after (exec (.trap 5) handlers) (fun t => (t.cur.gen.pc, t.cur.gen.level, t.cur.sbank.cause, t.cur.sbank.val)) = some (0x4002, .s, 0x11, 0x8000000000000005) ∧
    after (exec (.trap 5) (handlers.onCur fun st => { st with deleg := 0x20 })) (fun t => (t.cur.gen.pc, t.cur.gen.level, t.cur.kbank.cause, t.cur.kbank.val)) =
      some (0x8002, .k, 0x11, 0x8000000000000005) := by decide +kernel

/-- 04 R121, R127: a store enters the store buffer and, as its head, writes its low bytes alone; an atomic add of 32 bits gives its old value, zero-extended (16 R325). -/
theorem test_stores :
    after (exec (.st .b2 2 1 0) (pagedGen.onCur fun st => { st with gen := { st.gen with s := st.gen.s.set 2 0x12345 } }))
      (fun t => (t.cur.sbuf.map SbEntry.kind, t.mem)) = some ([.st .b2 0x12345], []) ∧
    after (exec (.storeBufferPerform 0) (buffered (.st .b2 0x12345))) (fun t => (t.mem, t.cur.sbuf)) = some ([((locAt 0x10000).key, 0x45), ((locAt 0x10000).key + 1, 0x23)], []) ∧
    after (exec (.storeBufferPerform 0) ({ buffered (.amo .add 4 .none .st 3 1 0) with mem := [((locAt 0x10000).key + 3, 0x80)] }))
      (fun t => (t.cur.gen.read 3, t.mem)) = some (0x80000000, [((locAt 0x10000).key, 1), ((locAt 0x10000).key + 3, 0x80)]) := by decide +kernel

/-- 08 R229: ERET goes on at the saved PC, and the handler is no longer active; with no handler active it is ILL. -/
theorem test_return : after (exec .eret (inHandler true)) (fun t => (t.cur.gen.pc, t.cur.kbank.hdl)) = some (0x10004, false) ∧
    after (exec .eret handlers) (fun t => (t.cur.gen.pc, t.cur.sbank.cause)) = some (0x4002, 0x01) := by decide +kernel

/-- A vector of elements of w bits, lowest first. -/
def vec (w : Nat) (l : List Nat) : BitVec 4096 := BitVec.ofNat 4096 (l.foldr (fun x a => x % 2 ^ w + a * 2 ^ w) 0)

/-- The lowest n elements of a register. -/
def elems (w n r : Nat) (t : State) : List Nat := (List.range n).map fun i => bits (vget t.cur.files.v r).toNat (w * i) w

/-- A word of VL n with v1, v2, v3 given, and m1 with bit 0 alone. -/
def vecs (n w : Nat) (a b c : List Nat) : State := (word n).onCur fun st =>
  { st with files := { st.files with v := ((st.files.v.set 1 (vec w a)).set 2 (vec w b)).set 3 (vec w c), m := st.files.m.set 1 1 } }

/-- 05 R149, 01 R12: sums wrap and saturate with SAT; an inactive element and a tail keep their values; division by zero sets DZ. -/
theorem test_vector_integer :
    after (exec (.vadd ⟨0, .i8, 3, 1, .v 2⟩) (vecs 2 8 [0x7F, 0xFF] [1, 1] [5, 5, 5])) (elems 8 3 3) = some [0x80, 0, 5] ∧
    after (exec (.vadds ⟨0, .i8, 3, 1, .v 2⟩) (vecs 2 8 [0x7F, 0xFF] [1, 1] [5, 5, 5])) (fun t => (elems 8 3 3 t, t.cur.fstat)) = some ([0x7F, 0, 5], 0x20) ∧
    after (exec (.vsub ⟨1, .n16, 3, 1, .i16 1⟩) (vecs 2 16 [0, 0] [] [9, 9])) (elems 16 2 3) = some [0xFFFF, 9] ∧
    after (exec (.vdiv ⟨0, .i32, 3, 1, .v 2⟩) (vecs 2 32 [7, 0x80000000] [0, 0xFFFFFFFF] [])) (fun t => (elems 32 2 3 t, t.cur.fstat)) =
      some ([0xFFFFFFFF, 0x80000000], 0x02) ∧
    after (exec (.vmulh ⟨0, .i16, 3, 1, .v 2⟩) (vecs 1 16 [0xFFFF] [0xFFFF] [])) (elems 16 1 3) = some [0] := by decide +kernel

/-- 05 R151 to R153: a compare writes mask bits of its elements; VSEL takes va where the mask is set; an ordered compare with a NaN is false. -/
theorem test_vector_compares :
    after (exec (.vcmplt ⟨0, .i32, 2, 1, .v 2⟩) (vecs 2 32 [0xFFFFFFFF, 3] [0, 3] [])) (fun t => (vget t.cur.files.m 2).toNat % 4) = some 1 ∧
    after (exec (.vsel ⟨1, .i32, 3, 1, .v 2⟩) (vecs 2 32 [1, 2] [3, 4] [])) (elems 32 2 3) = some [1, 4] ∧
    after (exec (.vfcmplt 0 ⟨0, .f32, 2, 1, .v 2⟩) (vecs 2 32 [0x3F800000, 0x7FC00000] [0x40000000, 0x40000000] [])) (fun t => (vget t.cur.files.m 2).toNat % 4) = some 1 := by
  decide +kernel

/-- 01 R23, R33: −128.4 in f32 converts to i8 as −128 with NX, −128.6 as −128 with NV; 1.0625 to e4m3 by RNE is 1.0; VFADD rounds. -/
theorem test_vector_float :
    after (exec (.vcvt .i8 0 ⟨0, .f32, 3, 1⟩) (vecs 1 32 [0xC3006666] [] [])) (fun t => (elems 8 1 3 t, t.cur.fstat)) = some ([0x80], 0x10) ∧
    after (exec (.vcvt .i8 0 ⟨0, .f32, 3, 1⟩) (vecs 1 32 [0xC300999A] [] [])) (fun t => (elems 8 1 3 t, t.cur.fstat)) = some ([0x80], 0x01) ∧
    after (exec (.vcvt .e4m3 0 ⟨0, .f32, 3, 1⟩) (vecs 1 32 [0x3F880000] [] [])) (fun t => (elems 8 1 3 t, t.cur.fstat)) = some ([0x38], 0x10) ∧
    after (exec (.vfadd 0 ⟨0, .f32, 3, 1, .v 2⟩) (vecs 1 32 [0x3F800000] [0x33800000] [])) (fun t => (elems 32 1 3 t, t.cur.fstat)) = some ([0x3F800000], 0x10) ∧
    after (exec (.vfma 0 ⟨0, .f32, 3, 1, .v 2⟩) (vecs 1 32 [0x40000000] [0x40400000] [0x3F800000])) (elems 32 1 3) = some [0x40E00000] := by decide +kernel

/-- 05 R165, 01 R36, R37: the sum of 2^24 and 39 ones, in the canonical order and in sequence. -/
theorem test_reductions :
    after (exec (.vredsum 0 ⟨0, .f32, 3, 1⟩) (vecs 40 32 (0x4B800000 :: List.replicate 39 0x3F800000) [] [])) (fun t => (elems 32 1 3 t, t.cur.fstat)) =
      some ([0x4B800013], 0x10) ∧
    after (exec (.vredso 0 ⟨0, .f32, 3, 1⟩) (vecs 40 32 (0x4B800000 :: List.replicate 39 0x3F800000) [] [])) (fun t => (elems 32 1 3 t, t.cur.fstat)) =
      some ([0x4B800000], 0x10) ∧
    after (exec (.vscansum 0 ⟨0, .i8, 3, 1⟩) (vecs 3 8 [1, 2, 3] [] [])) (elems 8 3 3) = some [1, 3, 6] ∧
    after (exec (.vscanexsum 0 ⟨0, .i8, 3, 1⟩) (vecs 3 8 [1, 2, 3] [] [])) (elems 8 3 3) = some [0, 1, 3] := by decide +kernel

/-- 05 R160 to R167: slides, a permute whose index is out of range, compress and expand by m1, interleaves, iota. -/
theorem test_permutes :
    after (exec (.vslideup ⟨0, .i8, 3, 1, .i16 1⟩) (vecs 3 8 [1, 2, 3] [] [9, 9, 9])) (elems 8 3 3) = some [9, 1, 2] ∧
    after (exec (.vslidedn ⟨0, .i8, 3, 1, .i16 1⟩) (vecs 3 8 [1, 2, 3] [] [9, 9, 9])) (elems 8 3 3) = some [2, 3, 0] ∧
    after (exec (.vperm ⟨0, .i16, 3, 1, 2⟩) (vecs 3 16 [7, 8, 9] [2, 0, 200] [])) (elems 16 3 3) = some [9, 7, 0] ∧
    after (exec (.vzipl ⟨0, .i8, 3, 1, 2⟩) (vecs 4 8 [1, 2, 3, 4] [5, 6, 7, 8] [])) (elems 8 4 3) = some [1, 5, 2, 6] ∧
    after (exec (.vtrno ⟨0, .i8, 3, 1, 2⟩) (vecs 4 8 [1, 2, 3, 4] [5, 6, 7, 8] [])) (elems 8 4 3) = some [2, 6, 4, 8] ∧
    after (exec (.viota 0 .i8 3) (vecs 4 8 [] [] [])) (elems 8 4 3) = some [0, 1, 2, 3] := by decide +kernel

/-- 03 R75 to R77, 05 R144: VSETVL of f64 and i8 in a whole-shape core; VSETROWS; VEXTR extends a signed element; VREP. -/
theorem test_control_words :
    after (exec (.vsetvl .f64 3 1) (count 100)) (fun t => (t.cur.vl, vget t.cur.files.x 3)) = some (64, 64) ∧
    after (exec (.vsetvl .i8 3 1) (count 100)) (fun t => (t.cur.vl, vget t.cur.files.x 3)) = some (100, 100) ∧
    after (exec (.vsetrowsImm 16) (word 1)) (fun t => t.cur.rows) = some 16 ∧
    after (exec (.vextr .i8 3 1 (.x 0)) (vecs 1 8 [0x80] [] [])) (fun t => vget t.cur.files.x 3) = some (-128) ∧
    after (exec (.vrep 1) (count 7)) (fun t => t.cur.reply) = some [7] := by decide +kernel

/-- `vecs` with the first entries of k1 and k2, and the blocks of 2^n cells. -/
def anchored (s : State) (n : Nat) (a b : Anchor) : State := s.onCur fun st =>
  { st with ctl := { st.ctl with ablk := BitVec.ofNat _ n, fctl := 0xF0C }
            files := { st.files with k := (st.files.k.set 1 (Vector.replicate 64 a)).set 2 (Vector.replicate 64 b) } }

/-- The lowest entry of an anchor register. -/
def entryOf (k : Nat) (t : State) : Word × BitVec 16 := let a := vget (vget t.cur.files.k k) 0; (a.a, a.e)

/-- 07 R204: the example of a sum of two anchored blocks under SAT: anchor 2^53 (f64 0x4340…), deviations 2, 2, 6, 127, EIDX4 and EIDX6. -/
theorem test_anchored_sum :
    after (exec (.aadd 1 2 3 ⟨0, .i8, 3, 1, 2⟩) (anchored (vecs 4 8 [1, 2, 3, 127] [1, 254, 4, 2] []) 2 ⟨0x4340000000000000, 0⟩ ⟨0x3FF0000000000000, -1⟩))
      (fun t => (elems 8 4 3 t, entryOf 3 t, t.cur.fstat, vget t.cur.eidx 4, vget t.cur.eidx 6)) =
    some ([2, 2, 6, 127], (0x4340000000000000, 0), 0x50, 0x0000000280000000, 0x0000000180000003) := by decide +kernel

/-- 07 R210: the two blocks of the example of REANC, by each policy; A′ of block 0 is 1114 (f64 0x4091680000000000). -/
theorem test_reanchoring :
    let s := anchored (vecs 8 8 [100, 110, 120, 127, 156, 206, 60, 127] [] []) 2 ⟨0x408F400000000000, 0⟩ ⟨0, 0⟩
    after (exec (.reancCentre 1 ⟨0, .i8, 3, 1⟩) s) (fun t => (elems 8 8 3 t, entryOf 1 t)) = some ([242, 252, 6, 13, 142, 192, 46, 113], (0x4091680000000000, 0)) ∧
    after (exec (.reancWiden 1 ⟨0, .i8, 3, 1⟩) s) (fun t => (elems 8 8 3 t, vget t.cur.eidx 4)) = some ([242, 252, 6, 13, 228, 240, 12, 28], 0x0000000380000004) ∧
    after (exec (.reancNarrow 1 ⟨0, .i8, 3, 1⟩) s) (fun t => elems 8 8 3 t) = some [228, 248, 12, 26, 228, 240, 12, 28] := by decide +kernel

/-- 06 R168, R178: a load of one f64 from x1 + 8, a store of one i16 there; the bytes beside them stay. -/
theorem test_vector_memory :
    (let s := { paged with mem := [((locAt 0x10000).key, 0x12), ((locAt 0x10000).key + 7, 0x34)] }
     after (exec (.vld ⟨0, .f64, 3, 0⟩ (.x 1) none) s) (elems 64 1 3) = some [0x3400000000000012] ∧
      after (exec (.vst ⟨0, .i16, 3, 0⟩ (.x 1) none) (s.onCur fun st => { st with files := { st.files with v := st.files.v.set 3 0xABCDEF } })) (fun t => t.mem) =
        some [((locAt 0x10000).key, 0xEF), ((locAt 0x10000).key + 1, 0xCD), ((locAt 0x10000).key + 7, 0x34)]) := by decide +kernel

/-- 13 R293, 22 R414, 24 R421: steps of the machine's own: a link that fails for the third time runs at half width, a port under-voltage window, a window above 2,800 W. -/
theorem test_own_steps :
    after (exec (.linkRetry (.die 0 1) true) (package fun p => { p with links := [⟨.die 0 1, 2, false, false⟩] })) (fun t => (t.link (.die 0 1)).half) = some true ∧
    after (exec (.powerWindow 2801) base) (fun t => t.pkg.clk) = some 13 ∧ after (exec (.powerWindow 2800) base) (fun t => t.pkg.clk) = some 14 := by decide +kernel

/-- 03 R76, R77, 04 R109: a SYSW of VL above 1,024 or of ROWS above 32 raises ILL (code 1) whatever its low bits are, and changes neither. -/
theorem test_sysw_of_vl_and_rows :
    (let s (v : Word) : State := (regs v 0 0).onCur fun st => { st with stvec := 0x4002 }
     after (exec (.sysw 1 0x020) (s 0x800)) (fun t => (t.cur.sbank.cause, t.cur.vl)) = some (1, 0) ∧
      after (exec (.sysw 1 0x021) (s 65)) (fun t => (t.cur.sbank.cause, t.cur.rows)) = some (1, 1)) := by decide +kernel

/-- 13 R288: ICLK locks a generator line that it has not locked, once. -/
theorem test_iclk : after (exec (.iclk 2 1 0) codedAt) (fun t => (t.cur.icg, t.cur.gen.read 2)) = some ([0x10000], 0) ∧
    after (exec (.iclk 2 1 0) (codedAt.onCur fun st => { st with icg := [0x10000] })) (fun t => (t.cur.icg, t.cur.gen.read 2)) = some ([0x10000], 0) := by decide +kernel

end Sys2Proof.Tests
end

section
/-!
SUPPORT. Laws of aligned words whose units are rows (05 R147): where nothing disturbs such a word, it performs every row once, in order, and ends.
-/
namespace Sys2Proof.Machine

theorem During.rows {s1 s : State} (h : During s1 s) : s.cur.rows = s1.cur.rows := by rw [h.cur]
theorem During.ctl {s1 s : State} (h : During s1 s) : s.cur.ctl = s1.cur.ctl := by rw [h.cur]
theorem During.upsets {s1 s : State} (h : During s1 s) : s.upsets = s1.upsets := by unfold During at h; rw [h]

/-- A strand of the same shape starts its pods at the same places. -/
theorem During.podAt {s1 s : State} (h : During s1 s) (pos : Nat × Nat) : s.cur.podAt pos = s1.cur.podAt pos := by rw [h.cur]; rfl
theorem During.pods {s1 s : State} (h : During s1 s) : s.cur.pods = s1.cur.pods := by rw [h.cur]; rfl

theorem Strand.pods_pos (st : Strand) : 0 < st.pods := by
  unfold Strand.pods; split <;> decide

/-! ## Units -/

/-- What a unit of row `row` leaves that raised `out`: its pods stand at the next place, and `k` element groups are counted. -/
def State.rowDone (s : State) (row : Nat) (next : Nat × Nat) (out : List Raised) (k : Nat) : State :=
  ((s.onWord fun c => { c with run := c.run.raiseAll row out }).allPods next).count 0x04 k

/-- A unit that nothing disturbs is followed by the next one. -/
theorem rowLoop_did {u : RowUnit} {n w fuel : Nat} {s v : State} {p : Pod} {out : List Raised} (hp : s.cur.word.pods.head? = some p)
    (hr : p.row < s.cur.rows) (hups : s.upsets = []) (hu : u s p.row p.idx = (v, .did out)) (hb : v.cur.word.brk = []) :
    ∃ k, rowLoop u n w false (fuel + 1) s = rowLoop u n w false fuel (v.rowDone p.row (v.cur.nextPlace n p.row p.idx) out k) := by
  rw [rowLoop, hp, hups]
  dsimp only [List.isEmpty_nil]
  rw [if_neg (Nat.not_le.2 hr), if_pos rfl]
  dsimp only
  rw [hu]
  generalize hk : (if (v.cur.nextPlace n p.row p.idx).1 == p.row then _ else _) - p.idx * w / 64 = k
  refine ⟨k, ?_⟩
  have hbrk : (v.rowDone p.row (v.cur.nextPlace n p.row p.idx) out k).cur.word.brk = [] := hb
  subst hk
  unfold State.rowDone at hbrk ⊢
  dsimp only
  rw [hbrk]
  rfl

/-- A word whose pods have come to their end performs nothing more. -/
theorem rowLoop_over {u : RowUnit} {n w fuel : Nat} {s : State} {p : Pod} (hp : s.cur.word.pods.head? = some p) (hr : s.cur.rows ≤ p.row) :
    rowLoop u n w false fuel s = (s, none) := by
  cases fuel with
  | zero => rfl
  | succ fuel => rw [rowLoop, hp]; exact if_pos hr

theorem Strand.nextPlace_row (st : Strand) {r : Nat} (h : r < st.rows) (i : Nat) : st.nextPlace 0 r i = (r + 1, 0) := by
  unfold Strand.nextPlace
  simp only [beq_self_eq_true, Bool.true_or, if_true]
  split
  · exact Prod.ext (by omega) rfl
  · rfl

/-! ## Rows -/

/-- The pods of an aligned word that stands at row `r`. -/
def Strand.rowPods (st : Strand) (r : Nat) : List Pod := (List.range st.pods).map fun _ => st.podAt (r, 0)

/-- An aligned word has come to row `r`, and `I` holds of the files and of what the word has raised. -/
structure RowInv (s1 : State) (I : Nat → Files → Run → Prop) (r : Nat) (s : State) : Prop where
  same : During s1 s
  word : ∃ run, s.cur.cur = some { s1.cur.word with pods := s1.cur.rowPods r, run := run, stage := 1 } ∧ I r s.cur.files run

/-- The unit of a row does no more than the files show, and takes `I` on to the next row. -/
def RowKeeps (u : RowUnit) (s1 : State) (I : Nat → Files → Run → Prop) : Prop :=
  ∀ r s, r < s1.cur.rows → RowInv s1 I r s →
    ∃ v out, u s r 0 = (v, .did out) ∧ During s1 v ∧ v.cur.cur = s.cur.cur ∧ I (r + 1) v.cur.files (s.cur.word.run.raiseAll r out)

theorem Strand.rowPods_head (st : Strand) (r : Nat) : (st.rowPods r).head? = some (st.podAt (r, 0)) := by
  obtain ⟨n, hn⟩ := Nat.exists_eq_add_of_lt st.pods_pos
  simp [Strand.rowPods, hn, List.range_succ_eq_map]

theorem Strand.word_of_cur {st : Strand} {c : Cur} (h : st.cur = some c) : st.word = c := by unfold Strand.word; rw [h]; rfl

theorem RowInv.head {s1 s : State} {I : Nat → Files → Run → Prop} {r : Nat} (h : RowInv s1 I r s) :
    s.cur.word.pods.head? = some (s1.cur.podAt (r, 0)) := by
  obtain ⟨run, hc, -⟩ := h.word
  rw [Strand.word_of_cur hc]
  exact s1.cur.rowPods_head r

theorem RowInv.podsDone {s1 s : State} {I : Nat → Files → Run → Prop} (h : RowInv s1 I s1.cur.rows s) : s.cur.podsDone = true := by
  obtain ⟨run, hc, -⟩ := h.word
  unfold Strand.podsDone
  rw [Strand.word_of_cur hc, h.same.rows]
  simp [Strand.rowPods, Strand.podAt]

/-- One row of a word that nothing disturbs. -/
theorem rowLoop_row {s1 s : State} {I : Nat → Files → Run → Prop} {u : RowUnit} {r : Nat} (h1 : s1.begins) (hu : RowKeeps u s1 I)
    (hr : r < s1.cur.rows) (h : RowInv s1 I r s) (w fuel : Nat) :
    ∃ t, rowLoop u 0 w false (fuel + 1) s = rowLoop u 0 w false fuel t ∧ RowInv s1 I (r + 1) t := by
  obtain ⟨v, out, hv, hd, hcur, hI⟩ := hu r s hr h
  obtain ⟨c, hc, -, -, -, hbrk, -⟩ := h1.word
  obtain ⟨run, hs, -⟩ := h.word
  have hword := Strand.word_of_cur (hcur.trans hs)
  have hrun : s.cur.word.run = run := by rw [Strand.word_of_cur hs]
  have hb : v.cur.word.brk = [] := by rw [hword, Strand.word_of_cur hc]; exact hbrk
  obtain ⟨k, hk⟩ := rowLoop_did (n := 0) (w := w) (fuel := fuel) h.head (by rw [h.same.rows]; exact hr) (h.same.upsets.trans h1.upsets) hv hb
  refine ⟨_, hk, ?_, run.raiseAll r out, ?_, hrun ▸ hI⟩
  · unfold During at hd ⊢; unfold State.rowDone State.allPods State.onWord State.onCur State.count; rw [hd]
  · rw [Strand.nextPlace_row _ (by rw [hd.rows]; exact hr)]
    change some { v.cur.word with run := v.cur.word.run.raiseAll r out, pods := v.cur.rowPods (r + 1), stage := 1 } = _
    have hp : v.cur.rowPods (r + 1) = s1.cur.rowPods (r + 1) := by unfold Strand.rowPods; rw [hd.pods, hd.podAt]
    rw [hword, hp]

/-- The rows that are left of a word that nothing disturbs. -/
theorem rowLoop_rows {s1 : State} {I : Nat → Files → Run → Prop} {u : RowUnit} (h1 : s1.begins) (hu : RowKeeps u s1 I) (w fuel r : Nat)
    (s : State) (h : RowInv s1 I r s) (hr : r ≤ s1.cur.rows) (hf : s1.cur.rows ≤ r + fuel) :
    ∃ t, rowLoop u 0 w false fuel s = (t, none) ∧ RowInv s1 I s1.cur.rows t := by
  induction fuel generalizing r s with
  | zero =>
    obtain rfl : r = s1.cur.rows := by omega
    exact ⟨s, rfl, h⟩
  | succ fuel ih =>
    rcases Nat.lt_or_ge r s1.cur.rows with hlt | hge
    · obtain ⟨t, ht, hI⟩ := rowLoop_row h1 hu hlt h w fuel
      obtain ⟨t', ht', hI'⟩ := ih (r + 1) t hI hlt (by omega)
      exact ⟨t', ht.trans ht', hI'⟩
    · obtain rfl : r = s1.cur.rows := by omega
      exact ⟨s, rowLoop_over h.head (Nat.le_of_eq h.same.rows), h⟩

/-- The rows that an aligned word performs from its start: none with VL = 0 (03 R76). -/
def State.rowsToDo (s : State) : Nat := if s.cur.vl = 0 then 0 else s.cur.rows

theorem State.startRows_begins {s : State} (h : s.begins) :
    s.startRows = s.allPods (if s.cur.vl = 0 then s.cur.rows else 0, 0) := by
  obtain ⟨c, hc, hst, hpods, -⟩ := h.word
  unfold State.startRows
  rw [Strand.word_of_cur hc, hst, hpods]
  by_cases hv : s.cur.vl = 0 <;> simp [hv]

/-- An aligned word of rows that nothing disturbs: every row is performed, and the word ends. -/
theorem rowWord_run {s : State} (h : s.begins) {u : RowUnit} {I : Nat → Files → Run → Prop} {fin : State → Res} (w : Nat)
    (hI : I 0 s.cur.files Run.none) (hu : RowKeeps u s I) :
    ∃ t, rowWord s 0 w u fin = fin t ∧ During s t ∧ I s.rowsToDo t.cur.files t.cur.word.run := by
  obtain ⟨c, hc, -, -, -, -, -, hrun⟩ := h.word
  have hstart (J : Nat → Files → Run → Prop) (r : Nat) (hJ : J r s.cur.files Run.none) : RowInv s J r (s.allPods (r, 0)) := by
    refine ⟨rfl, Run.none, ?_, hJ⟩
    change some { s.cur.word with pods := s.cur.rowPods r, stage := 1 } = _
    rw [Strand.word_of_cur hc, ← hrun]
  have hdone : ∃ J t, rowLoop u 0 w false (s.cur.rows * (s.cur.vl + 1)) s.startRows = (t, none) ∧ RowInv s J s.cur.rows t ∧
      ∀ f run, J s.cur.rows f run → I s.rowsToDo f run := by
    rw [State.startRows_begins h]
    unfold State.rowsToDo
    by_cases hv : s.cur.vl = 0
    · simp only [hv, if_true]
      have h0 := hstart (fun _ => I 0) s.cur.rows hI
      exact ⟨fun _ => I 0, _, rowLoop_over h0.head (Nat.le_refl _), h0, fun _ _ hJ => hJ⟩
    · simp only [hv, if_false]
      obtain ⟨t, ht, hI'⟩ := rowLoop_rows h hu w (s.cur.rows * (s.cur.vl + 1)) 0 _ (hstart I 0 hI) (Nat.zero_le _)
        (by rw [Nat.zero_add]; exact Nat.le_mul_of_pos_right _ (Nat.succ_pos _))
      exact ⟨I, t, ht, hI', fun _ _ hJ => hJ⟩
  obtain ⟨J, t, ht, hJ, hIJ⟩ := hdone
  obtain ⟨run, hcur, hrunI⟩ := hJ.word
  refine ⟨t, ?_, hJ.same, ?_⟩
  · unfold rowWord
    rw [h.steps, ht]
    exact if_pos hJ.podsDone
  · rw [Strand.word_of_cur hcur]
    exact hIJ _ _ hrunI

/-! ## Row-atomic words -/

theorem Ctl.groupFault_none {c : Ctl} {out : List Raised} (h : ∀ o ∈ out, c.fpx o.flags = false) : c.groupFault out = none := by
  unfold Ctl.groupFault
  rw [List.find?_eq_none.2 fun o ho => by simp [h o ho]]

/-- A row whose flags do not trap performs. -/
theorem rowUnit_did {op : State → (r : Nat) → List (Nat × Nat) × List Raised} {put : State → (r i v : Nat) → State} {s : State} {r : Nat}
    {ws : List (Nat × Nat)} {out : List Raised} (hop : op s r = (ws, out)) (h : ∀ o ∈ out, s.cur.ctl.fpx o.flags = false) (i : Nat) :
    rowUnit op put s r i = (ws.foldl (fun s x => put s r x.1 x.2) s, .did out) := by
  have hf : s.cur.ctl.rowOut out = none := by unfold Ctl.rowOut; rw [Ctl.groupFault_none h]
  unfold rowUnit
  rw [hop]
  dsimp only
  rw [hf]

theorem RowInv.active {s u : State} (hs : s.issues) {msk : Nat} {I : Nat → Files → Run → Prop} {r : Nat} (hu : RowInv (s.issued msk) I r u) :
    u.cur.active = s.actives msk := by
  obtain ⟨run, hcur, -⟩ := hu.word
  obtain ⟨c, -, -, hw⟩ := s.issued_word hs msk
  have hvl : u.cur.vl = s.cur.vl := by rw [hu.same.cur]; rfl
  unfold Strand.active State.actives
  rw [Strand.word_of_cur hcur, hvl, hw]

theorem State.fits_issueOk {s : State} {ty : Ty} {groups : List Nat} (hs : s.issues) (h : s.fits ty.width groups) :
    s.cur.issueOk [ty] [] groups [] = true := by
  obtain ⟨hvl, hg⟩ := h
  have hw : 1 ≤ ty.width := by cases ty <;> decide
  have hmax : (([ty].map Ty.width) ++ []).foldl max 1 = ty.width := Nat.max_eq_right hw
  have hlanes : s.cur.vlmax ty.width = s.cur.lanes * 64 / ty.width := by unfold Strand.vlmax; rw [hs.plain]; rfl
  have hlen : decide (s.cur.vl ≤ s.cur.vlmax ty.width) = true := decide_eq_true (by rw [hlanes]; exact (Nat.le_div_iff_mul_le hw).2 hvl)
  have hgroups : (groups.all fun g => decide (g + s.cur.rows ≤ 64)) = true := List.all_eq_true.2 fun g h => decide_eq_true (hg g h)
  unfold Strand.issueOk
  dsimp only
  rw [hmax, hlen, hgroups, hs.plain]
  rfl

end Sys2Proof.Machine
end

section
/-!
SUPPORT. Laws of words that act as a whole (05 R144), and of the retirement of control words (01 R29, 06 R188).
-/
namespace Sys2Proof.Machine

/-! ## Whole words -/

/-- With no physical event no group of lanes differs from its shadow (08 R236). -/
theorem State.meetUnit_none {s : State} (h : s.upsets = []) : s.meetUnit = (s, none) := by
  have hsh : s.shadows = [] := by unfold State.shadows; rw [h]; split <;> rfl
  unfold State.meetUnit State.meetWhere
  rw [hsh]
  rfl

/-- A word that acts as a whole, and that nothing disturbs, acts once and retires. -/
theorem wholeWord_run {s : State} (h : s.begins) {f : State → State} (hf : (f s).cur.stepping = false) :
    wholeWord s f = .next (f s).finishWord := by
  obtain ⟨c, hc, -, hpods, -⟩ := h.word
  have hover : s.cur.wordOver = false := by unfold Strand.wordOver; rw [Strand.word_of_cur hc, hpods]; rfl
  have hact : actWhole s f = retireWord (f s) := by unfold actWhole; simp only [hover, hf]; rfl
  unfold wholeWord
  rw [hover, State.meetUnit_none h.upsets]
  exact hact

theorem State.issued_files (s : State) (msk : Nat) : (s.issued msk).cur.files = s.cur.files := rfl
theorem State.issued_ctl (s : State) (msk : Nat) : (s.issued msk).cur.ctl = s.cur.ctl := rfl

/-- A word that has changed the files alone has only gone on. -/
theorem During.onFiles {s1 s : State} (h : During s1 s) (g : Strand → Files) : During s1 (s.onCur fun st => { st with files := g st }) := by
  unfold During at *; unfold State.onCur; rw [h]

/-! ## Control words -/

/-- What a control word issued in `s1` may have done before it retires: of the strand only VL, ROWS, the x registers, the reply queue and
the block have changed. -/
structure CtlActed (s1 u : State) : Prop where
  strand : ∃ vl rows x reply block, u.cur = { s1.cur with vl := vl, rows := rows, files := { s1.cur.files with x := x }, reply := reply, block := block }
  machine : u = { s1 with cur := u.cur }

theorem State.issued_run {s : State} (h : s.issues) (msk : Nat) : (s.issued msk).cur.word.run = Run.none := by
  obtain ⟨c, hc, -, -, -, -, -, -, -, hrun, -⟩ := h.word
  obtain ⟨c', hc', -, hw⟩ := s.issued_word h msk
  obtain rfl : c = c' := Option.some.inj (hc.symm.trans hc')
  rw [hw]; exact hrun

/-- A run without events leaves an event record but for its PART bit (01 R29). -/
theorem mergeEidx_none (x : Word) (e : Evt) (h : e.cnt = 0) : mergeEidx x e false = x &&& ~~~(1#64 <<< 30) := by
  unfold mergeEidx; simp [h]

theorem Run.none_cnt (c : Fin 8) : Run.none.evts[c].cnt = 0 := by simp [Run.none]

theorem Strand.merge_none_eidx (st : Strand) (c : Fin 8) :
    (st.merge Run.none false).eidx[c] &&& ~~~(1#64 <<< 30) = st.eidx[c] &&& ~~~(1#64 <<< 30) := by
  unfold Strand.merge
  by_cases hh : st.handling = true
  · simp only [hh, if_true]
  · have he : (Vector.ofFn fun c : Fin 8 => mergeEidx st.eidx[c] Run.none.evts[c] false)[c] = st.eidx[c] &&& ~~~(1#64 <<< 30) := by
      rw [← mergeEidx_none _ _ (Run.none_cnt c)]; simp
    simp only [hh, if_false, Bool.false_eq_true, he]
    rw [BitVec.and_assoc, BitVec.and_self]

/-- The retirement of a word that has raised nothing: of the strand only what orders and records its words changes. -/
theorem Strand.finish_unraised {st : Strand} (h : st.word.run = Run.none) (dest : Option Word) :
    ∃ e hist b, st.finish dest = { st with cur := none, sstall := wNone, eidx := e, hist := hist, block := b } ∧
      (∀ c : Fin 8, e[c] &&& ~~~(1#64 <<< 30) = st.eidx[c] &&& ~~~(1#64 <<< 30)) ∧
      b = if st.word.blk then st.block.advance st.word.nspc dest else st.block := by
  have hfl : st.fstat ||| st.word.run.flags = st.fstat := by rw [h]; exact BitVec.or_zero
  refine ⟨(st.finish dest).eidx, (st.finish dest).hist, _, ?_, fun c => ?_, rfl⟩
  · calc st.finish dest = { st with
          fstat := st.fstat ||| st.word.run.flags, cur := none, sstall := wNone, eidx := (st.finish dest).eidx, hist := (st.finish dest).hist
          block := if st.word.blk then st.block.advance st.word.nspc dest else st.block } := rfl
      _ = _ := by rw [hfl]
  · change (st.merge st.word.run false).eidx[c] &&& _ = _
    rw [h, Strand.merge_none_eidx]

theorem State.issued_cur (s : State) (msk : Nat) :
    (s.issued msk).cur = { s.cur with cur := some (s.issued msk).cur.word, chkcnt := s.cur.chkcnt + 1 } := rfl

/-- The retirement of a control word. -/
theorem CtlActed.finishWord {s u : State} (h : s.issues) {msk : Nat} (hu : CtlActed (s.issued msk) u) :
    CtlFrame s u.finishWord ∧ s.goesOn u.finishWord u.cur.block none := by
  obtain ⟨c, hc, -, hw⟩ := s.issued_word h msk
  obtain ⟨vl, rows, x, reply, b', hstrand⟩ := hu.strand
  have hword : u.cur.word = (s.issued msk).cur.word := by rw [hstrand]; rfl
  obtain ⟨e, hist, b, hfin, he, hb⟩ := Strand.finish_unraised (st := u.cur) (by rw [hword]; exact State.issued_run h msk) none
  have hcur : u.finishWord.cur = _ := hfin
  have hmachine : u.finishWord = { s with cur := u.finishWord.cur, tally := u.finishWord.tally } := by rw [hu.machine]; rfl
  rw [hword, hw] at hb
  rw [hstrand, State.issued_cur] at hcur he
  refine ⟨⟨?_, fun c => ?_, hmachine⟩, ?_⟩
  · rw [hcur]
  · rw [hcur]
    exact he c
  · unfold State.goesOn
    rw [hcur, Strand.word_of_cur hc]
    exact hb

/-- An instruction that retires a control word after it has acted, with the block as it was. -/
theorem CtlActed.controls {s u : State} (h : s.issues) {msk : Nat} (hu : CtlActed (s.issued msk) u) (hb : u.cur.block = s.cur.block) {i : Instr}
    (hi : exec i s = .next u.finishWord) {f : State → Prop} (hf : f u.finishWord) : Controls i s f := by
  obtain ⟨hframe, hgoes⟩ := hu.finishWord h
  rw [hb] at hgoes
  exact ⟨u.finishWord, hi, hframe, hgoes, hf⟩

theorem Controls.imp {i : Instr} {s : State} {f g : State → Prop} (h : Controls i s f) (hfg : ∀ t, f t → g t) : Controls i s g := by
  obtain ⟨t, hi, hframe, hgoes, hf⟩ := h
  exact ⟨t, hi, hframe, hgoes, hfg t hf⟩

/-- A control word may write an x register. -/
theorem State.xPut_acted (s : State) (r : XReg) (v : Word) : CtlActed s (s.xPut r v) := ⟨⟨_, _, _, _, _, rfl⟩, rfl⟩

theorem State.xPut_x (s : State) (r : XReg) (v : Word) : (s.xPut r v).cur.files.x = s.cur.files.x.set r v := rfl

theorem State.xPut_keeps (s : State) (r : XReg) (v : Word) :
    (s.xPut r v).cur.vl = s.cur.vl ∧ (s.xPut r v).cur.rows = s.cur.rows ∧ (s.xPut r v).cur.reply = s.cur.reply ∧ (s.xPut r v).cur.block = s.cur.block :=
  ⟨rfl, rfl, rfl, rfl⟩

end Sys2Proof.Machine
end

section
/-!
SUPPORT. Laws of the amax history (01 R38, 05 R158, R159): what VAMAX folds into the current slot, and what VAMSTEP clears.
-/
namespace Sys2Proof.Machine

/-! ## Magnitudes -/

theorem Fmt.roundFin_f32_lt (rm : Rm) (neg : Bool) (m : Nat) (e : Int) : ((fmtOf .f32).roundFin rm neg m e).1 < 2 ^ 32 := by
  have hcodes (c : Nat) (hc : c < 2 ^ 31) : (fmtOf .f32).signBit neg + c < 2 ^ 32 := by
    have hsign : (fmtOf .f32).signBit neg ≤ 2 ^ 31 := by cases neg <;> decide
    omega
  have hmax : (fmtOf .f32).signBit neg + (fmtOf .f32).maxCode < 2 ^ 32 := hcodes _ (by decide)
  have hinf : (fmtOf .f32).signBit neg + (fmtOf .f32).infCode < 2 ^ 32 := hcodes _ (by decide)
  have hto (c : Bool) : (fmtOf .f32).signBit neg + (if c then (fmtOf .f32).infCode else (fmtOf .f32).maxCode) < 2 ^ 32 := by
    cases c
    · exact hmax
    · exact hinf
  unfold Fmt.roundFin
  by_cases hm : m = 0
  · rw [if_pos hm]
    exact hcodes 0 (by decide)
  rw [if_neg hm]
  extract_lets top emin q d r code q' t u tiny above z zcode
  clear_value code zcode
  by_cases hover : above
  · rw [if_pos hover]
    cases rm with
    | rne => exact hto true
    | rtz => exact hto false
    | rup => exact hto !neg
    | rdn => exact hto neg
    | sr n =>
      by_cases hz : zcode ≤ (fmtOf .f32).maxCode
      · dsimp only; rw [if_pos hz]; exact hmax
      · dsimp only; rw [if_neg hz]; exact hmax
  · rw [if_neg hover]
    have hcode : code ≤ (fmtOf .f32).maxCode := Nat.le_of_not_lt hover
    exact Nat.lt_of_le_of_lt (Nat.add_le_add_left hcode _) hmax

/-- A value rounded into f32 has 32 bits. -/
theorem Fmt.encode_f32_lt (rm : Rm) (v : FVal) : ((fmtOf .f32).encode rm v).1 < 2 ^ 32 := by
  cases v with
  | nan s => exact (by decide : (fmtOf .f32).nan < 2 ^ 32)
  | inf neg => exact (by decide : ∀ n, (fmtOf .f32).signBit n + (fmtOf .f32).infCode < 2 ^ 32) neg
  | fin neg m e => exact Fmt.roundFin_f32_lt rm neg m e

theorem amaxMag_lt (ty : Ty) (x : Nat) : amaxMag ty x < 2 ^ 32 := Fmt.encode_f32_lt _ _

theorem foldl_max_lt {b : Nat} {l : List Nat} {a : Nat} (ha : a < b) (hl : ∀ x ∈ l, x < b) : l.foldl max a < b := by
  induction l generalizing a with
  | nil => exact ha
  | cons x l ih => exact ih (Nat.max_lt.2 ⟨ha, hl x (List.mem_cons_self ..)⟩) fun y hy => hl y (List.mem_cons_of_mem _ hy)

/-! ## Registers of the history -/

theorem Ctl.amaxWindow_le (c : Ctl) : c.amaxWindow ≤ 16 := by
  have := bits_lt c.fctl.toNat 8 4
  unfold Ctl.amaxWindow fieldOf
  omega

theorem Ctl.mod_amaxWindow_lt (c : Ctl) (n : Nat) : n % c.amaxWindow < 16 :=
  Nat.lt_of_lt_of_le (Nat.mod_lt n (Nat.succ_pos _)) c.amaxWindow_le

/-- Files with the amax history `h` replaced. -/
def Files.putAmh (f : Files) (h : Nat) (a : Amh) : Files := ({ f with amh := vset f.amh h a }).mark (100 + h)

theorem Files.putAmh_same (f : Files) (h : Nat) (a : Amh) : vget (f.putAmh h a).amh h = a := vget_vset_same _ _ _

theorem Files.putAmh_ne (f : Files) {h k : Nat} (a : Amh) (hh : h < 4) (hk : k < 4) (hne : k ≠ h) : vget (f.putAmh h a).amh k = vget f.amh k :=
  vget_vset_ne _ _ _ _ (by omega)

theorem Amh.slots_ne (a : Amh) {i j : Nat} (v : BitVec 32) (hi : i < 16) (hj : j < 16) (hne : j ≠ i) : vget (vset a.slots i v) j = vget a.slots j :=
  vget_vset_ne _ _ _ _ (by omega)

/-- A slot of a history. -/
def Amh.slot (a : Amh) (i : Nat) : Nat := (vget a.slots i).toNat

theorem Amh.slot_lt (a : Amh) (i : Nat) : a.slot i < 2 ^ 32 := (vget a.slots i).isLt

/-- Of the files only the amax history `h`, and tags of the save engine, have changed. -/
structure KeepAmh (f0 : Files) (h : Nat) (f : Files) : Prop where
  others : ∀ k < 4, k ≠ h → vget f.amh k = vget f0.amh k
  files : f = { f0 with amh := f.amh, dirty := f.dirty }

theorem KeepAmh.refl (f : Files) (h : Nat) : KeepAmh f h f := ⟨fun _ _ _ => rfl, rfl⟩

theorem KeepAmh.putAmh {f0 f : Files} {h : Nat} (hk : KeepAmh f0 h f) (hh : h < 4) (a : Amh) : KeepAmh f0 h (f.putAmh h a) where
  others k hk4 hne := (f.putAmh_ne a hh hk4 hne).trans (hk.others k hk4 hne)
  files := by rw [hk.files]; rfl

/-- What a word leaves that has changed one history alone. -/
theorem KeepAmh.rest {f0 f : Files} {h : Nat} (hk : KeepAmh f0 h f) :
    f.v = f0.v ∧ f.x = f0.x ∧ f.m = f0.m ∧ f.k = f0.k ∧ f.z = f0.z ∧ f.cb = f0.cb := by
  rw [hk.files]
  exact ⟨rfl, rfl, rfl, rfl, rfl, rfl⟩

/-! ## VAMSTEP -/

/-- The history once VAMSTEP has moved on in a window of `n` slots: the slot after the current one is current, and clear. -/
def Amh.stepped (a : Amh) (n : Nat) : Amh :=
  { slots := vset a.slots ((a.ap.toNat + 1) % n) 0, ap := BitVec.ofNat 4 ((a.ap.toNat + 1) % n) }

theorem Amh.stepped_ap (a : Amh) (c : Ctl) : (a.stepped c.amaxWindow).ap.toNat = (a.ap.toNat + 1) % c.amaxWindow := by
  unfold Amh.stepped
  rw [BitVec.toNat_ofNat, Nat.mod_eq_of_lt (c.mod_amaxWindow_lt _)]

theorem Amh.stepped_same (a : Amh) (n : Nat) : (a.stepped n).slot ((a.ap.toNat + 1) % n) = 0 :=
  congrArg BitVec.toNat (vget_vset_same a.slots _ 0)

theorem Amh.stepped_ne (a : Amh) (c : Ctl) {i : Nat} (hi : i < 16) (hne : i ≠ (a.ap.toNat + 1) % c.amaxWindow) :
    (a.stepped c.amaxWindow).slot i = a.slot i :=
  congrArg BitVec.toNat (a.slots_ne _ (c.mod_amaxWindow_lt _) hi hne)

/-- The files after VAMSTEP in a window of `n` slots. -/
def Files.stepAmh (f : Files) (n h : Nat) : Files := f.putAmh h ((vget f.amh h).stepped n)

theorem execVamstep_eq (h : AmhReg) (s : State) :
    execVamstep h s = issueWord s 0 false true fun s => wholeWord s fun s =>
      s.onCur fun st => { st with files := st.files.stepAmh st.ctl.amaxWindow h.val } := rfl

/-- VAMSTEP moves its history on, and leaves the rest. -/
theorem execVamstep_steps {s : State} (hs : s.issues) (h : AmhReg) :
    ∃ t, execVamstep h s = .next t ∧ WordFrame s t ∧ t.cur.ctl = s.cur.ctl ∧ t.cur.fstat = s.cur.fstat ∧
      t.cur.files = s.cur.files.stepAmh s.cur.ctl.amaxWindow h.val := by
  have hbegins := hs.begins 0
  have hrun := State.issued_run hs 0
  let u := (s.issued 0).onCur fun st => { st with files := st.files.stepAmh st.ctl.amaxWindow h.val }
  have hd : During (s.issued 0) u := (During.refl _).onFiles _
  have hexec : execVamstep h s = .next u.finishWord := by
    rw [execVamstep_eq, issueWord_issues hs]
    exact wholeWord_run hbegins hbegins.steps
  have hfl : u.cur.word.run.flags = 0 := congrArg Run.flags hrun
  have hfstat : u.cur.fstat = s.cur.fstat := rfl
  have hfiles : u.cur.files = s.cur.files.stepAmh s.cur.ctl.amaxWindow h.val := rfl
  have hctl : u.finishWord.cur.ctl = u.cur.ctl := rfl
  refine ⟨u.finishWord, hexec, State.finishWord_frame 0 hd, hctl.trans hd.ctl, ?_, ?_⟩
  · rw [State.finishWord_fstat, hfl, hfstat]
    exact BitVec.or_zero
  · rw [State.finishWord_files, hfiles]

/-! ## What VAMAX folds -/

/-- The value of an element is a NaN. -/
def nanOf (ty : Ty) (x : Nat) : Bool := ((fmtOf ty).decode x).isNan

/-- The largest of `m` and the magnitudes of the values that are no NaN. -/
def foldMags (ty : Ty) (m : Nat) (l : List Nat) : Nat := ((l.filter fun x => !nanOf ty x).map (amaxMag ty)).foldl max m

/-- The flags of the values: NV for a NaN. -/
def nanFlags (ty : Ty) (l : List Nat) : Flags := if l.any (nanOf ty) then fNV else 0

theorem foldMags_append (ty : Ty) (m : Nat) (l l' : List Nat) : foldMags ty m (l ++ l') = foldMags ty (foldMags ty m l) l' := by
  simp [foldMags]

theorem foldMags_lt (ty : Ty) {m : Nat} (hm : m < 2 ^ 32) (l : List Nat) : foldMags ty m l < 2 ^ 32 :=
  foldl_max_lt hm fun x hx => by
    obtain ⟨y, -, rfl⟩ := List.mem_map.1 hx
    exact amaxMag_lt ty y

/-- The fold over elements that are paired with their numbers. -/
theorem foldMags_pairs (ty : Ty) (m : Nat) (els : List (Nat × Nat)) :
    (els.filter fun x => !((fmtOf ty).decode x.2).isNan).foldl (fun m x => max m (amaxMag ty x.2)) m = foldMags ty m (els.map Prod.snd) := by
  unfold foldMags
  rw [List.filter_map, List.map_map, List.foldl_map]
  rfl

theorem nanFlags_append (ty : Ty) (l l' : List Nat) : nanFlags ty (l ++ l') = nanFlags ty l ||| nanFlags ty l' := by
  unfold nanFlags
  cases h : l.any (nanOf ty) <;> cases h' : l'.any (nanOf ty) <;> simp [List.any_append, h, h']

/-- What the NaNs among elements raise. -/
def nanRaised (ty : Ty) (els : List (Nat × Nat)) : List Raised :=
  (els.filter fun x => nanOf ty x.2).map fun x => ⟨x.1, fNV, false⟩

theorem mem_nanRaised {ty : Ty} {els : List (Nat × Nat)} {o : Raised} (h : o ∈ nanRaised ty els) : o.flags = fNV ∧ o.consult = false := by
  obtain ⟨x, -, rfl⟩ := List.mem_map.1 h
  exact ⟨rfl, rfl⟩

theorem nanRaised_flags (ty : Ty) (els : List (Nat × Nat)) (run : Run) (r : Nat) :
    (run.raiseAll r (nanRaised ty els)).flags = run.flags ||| nanFlags ty (els.map Prod.snd) := by
  apply BitVec.eq_of_getLsbD_eq
  intro b _
  rw [Bool.eq_iff_iff, Run.raiseAll_flags _ _ _ fun o ho => (mem_nanRaised ho).2, BitVec.getLsbD_or, Bool.or_eq_true]
  have hany : (els.map Prod.snd).any (nanOf ty) = true ↔ ∃ o, o ∈ nanRaised ty els := by
    rw [List.any_map, List.any_eq_true]
    constructor
    · rintro ⟨x, hx, hnan⟩
      exact ⟨_, List.mem_map.2 ⟨x, List.mem_filter.2 ⟨hx, hnan⟩, rfl⟩⟩
    · rintro ⟨o, ho⟩
      obtain ⟨x, hx, -⟩ := List.mem_map.1 ho
      exact ⟨x, List.mem_filter.1 hx⟩
  refine or_congr Iff.rfl ⟨?_, fun h => ?_⟩
  · rintro ⟨o, ho, hb⟩
    rw [(mem_nanRaised ho).1] at hb
    rwa [nanFlags, if_pos (hany.2 ⟨o, ho⟩)]
  · unfold nanFlags at h
    split at h
    · obtain ⟨o, ho⟩ := hany.1 ‹_›
      exact ⟨o, ho, by rwa [(mem_nanRaised ho).1]⟩
    · rw [show (0 : Flags).getLsbD b = false from BitVec.getLsbD_zero] at h
      cases h

/-! ## VAMAX -/

/-- The history with the current slot of a window of `n` slots replaced. -/
def Amh.folded (a : Amh) (n v : Nat) : Amh := { a with slots := vset a.slots (a.current n) (BitVec.ofNat 32 v) }

/-- Row `r` of VAMAX: the current slot's new value, and what the row's NaNs raise. -/
def amaxRow (ty : Ty) (h va : Nat) (s : State) (r : Nat) : List (Nat × Nat) × List Raised :=
  let a := vget s.cur.files.amh h
  let els := s.cur.active.map fun i => (i, s.vGet (va + r) ty.width i)
  ([(0, foldMags ty (a.slot (a.current s.cur.ctl.amaxWindow)) (els.map Prod.snd))], nanRaised ty els)

/-- VAMAX writes the current slot. -/
def amaxPut (h : Nat) (s : State) (_ _ v : Nat) : State :=
  s.onCur fun st => { st with files := st.files.putAmh h ((vget st.files.amh h).folded st.ctl.amaxWindow v) }

theorem execVamax_eq (msk : MReg) (ty : Ty) (h : AmhReg) (va : VReg) (s : State) :
    execVamax msk ty h va s =
      vecWord s msk.val [ty] [] [va.val] [] true fun s => rowWord s 0 ty.width (rowUnit (amaxRow ty h.val va.val) (amaxPut h.val)) retireWord := by
  unfold execVamax
  simp only [foldMags_pairs]
  rfl

/-- The values of the active elements of the first `R` rows of a group. -/
def State.amaxVals (s : State) (msk va w R : Nat) : List Nat :=
  (List.range R).flatMap fun r => (s.actives msk).map fun i => s.vGet (va + r) w i

theorem State.amaxVals_succ (s : State) (msk va w R : Nat) :
    s.amaxVals msk va w (R + 1) = s.amaxVals msk va w R ++ (s.actives msk).map fun i => s.vGet (va + R) w i := by
  simp [State.amaxVals, List.range_succ]

/-- With VL = 0 there is no value. -/
theorem State.amaxVals_rowsToDo (s : State) (msk va w : Nat) : s.amaxVals msk va w s.rowsToDo = s.amaxVals msk va w s.cur.rows := by
  unfold State.rowsToDo
  split
  · rename_i hv
    simp [State.amaxVals, State.actives, hv]
  · rfl

/-- The current slot of a history. -/
def State.amaxNow (s : State) (h : Nat) : Nat := (vget s.cur.files.amh h).current s.cur.ctl.amaxWindow

/-- The value of the current slot once the first `r` rows of VAMAX have been folded into it. -/
def State.amaxAfter (s : State) (msk : Nat) (ty : Ty) (h va r : Nat) : Nat :=
  foldMags ty ((vget s.cur.files.amh h).slot (s.amaxNow h)) (s.amaxVals msk va ty.width r)

theorem State.amaxAfter_succ (s : State) (msk : Nat) (ty : Ty) (h va r : Nat) :
    s.amaxAfter msk ty h va (r + 1) = foldMags ty (s.amaxAfter msk ty h va r) ((s.actives msk).map fun i => s.vGet (va + r) ty.width i) := by
  unfold State.amaxAfter
  rw [State.amaxVals_succ, foldMags_append]

theorem State.amaxAfter_lt (s : State) (msk : Nat) (ty : Ty) (h va r : Nat) : s.amaxAfter msk ty h va r < 2 ^ 32 :=
  foldMags_lt ty (Amh.slot_lt _ _) _

/-- What VAMAX has done before row `r`: the current slot holds the fold of the rows above, and NV is raised for their NaNs. -/
structure AmaxInv (s : State) (msk : Nat) (ty : Ty) (h va r : Nat) (f : Files) (run : Run) : Prop where
  keep : KeepAmh s.cur.files h f
  ap : (vget f.amh h).ap = (vget s.cur.files.amh h).ap
  others : ∀ i < 16, i ≠ s.amaxNow h → (vget f.amh h).slot i = (vget s.cur.files.amh h).slot i
  slot : (vget f.amh h).slot (s.amaxNow h) = s.amaxAfter msk ty h va r
  flags : run.flags = nanFlags ty (s.amaxVals msk va ty.width r)

/-- Which slot is current does not change. -/
theorem AmaxInv.now {s : State} {msk : Nat} {ty : Ty} {h va r : Nat} {f : Files} {run : Run} (hI : AmaxInv s msk ty h va r f run) :
    (vget f.amh h).current s.cur.ctl.amaxWindow = s.amaxNow h := by
  unfold Amh.current State.amaxNow Amh.current; rw [hI.ap]

/-- What a row of VAMAX computes from the history before it. -/
theorem AmaxInv.row {s u : State} (hs : s.issues) {msk : Nat} {ty : Ty} {h va r : Nat} (hu : RowInv (s.issued msk) (AmaxInv s msk ty h va) r u) :
    amaxRow ty h va u r =
      ([(0, s.amaxAfter msk ty h va (r + 1))], nanRaised ty ((s.actives msk).map fun i => (i, s.vGet (va + r) ty.width i))) := by
  obtain ⟨run, -, hI⟩ := hu.word
  have hctl : u.cur.ctl = s.cur.ctl := hu.same.ctl
  have hget (i : Nat) : u.vGet (va + r) ty.width i = s.vGet (va + r) ty.width i := by
    have hv : u.cur.files.v = s.cur.files.v := by rw [hI.keep.files]
    rw [State.vGet_plain (hu.same.lp.trans hs.plain), State.vGet_plain hs.plain, hv]
  unfold amaxRow
  dsimp only
  rw [hu.active hs, hctl, hI.now, hI.slot, State.amaxAfter_succ]
  simp only [hget, List.map_map]
  rfl

/-- The current slot after a fold. -/
theorem Amh.folded_same (a : Amh) (n : Nat) {v : Nat} (hv : v < 2 ^ 32) : (a.folded n v).slot (a.current n) = v := by
  unfold Amh.folded Amh.slot
  rw [vget_vset_same, BitVec.toNat_ofNat, Nat.mod_eq_of_lt hv]

theorem Amh.folded_ne (a : Amh) (c : Ctl) (v : Nat) {i : Nat} (hi : i < 16) (hne : i ≠ a.current c.amaxWindow) :
    (a.folded c.amaxWindow v).slot i = a.slot i :=
  congrArg BitVec.toNat (a.slots_ne _ (c.mod_amaxWindow_lt _) hi hne)

/-- The invariant of VAMAX goes on to the next row. -/
theorem AmaxInv.next {s : State} {msk : Nat} {ty : Ty} {h va r : Nat} {f : Files} {run : Run} (hI : AmaxInv s msk ty h va r f run) (hh : h < 4) :
    AmaxInv s msk ty h va (r + 1)
      (f.putAmh h ((vget f.amh h).folded s.cur.ctl.amaxWindow (s.amaxAfter msk ty h va (r + 1))))
      (run.raiseAll r (nanRaised ty ((s.actives msk).map fun i => (i, s.vGet (va + r) ty.width i)))) := by
  refine ⟨hI.keep.putAmh hh _, ?_, fun i hi hne => ?_, ?_, ?_⟩
  · rw [Files.putAmh_same]; exact hI.ap
  · rw [Files.putAmh_same, Amh.folded_ne _ _ _ hi (hI.now ▸ hne)]; exact hI.others i hi hne
  · rw [Files.putAmh_same, ← hI.now]
    exact Amh.folded_same _ _ (s.amaxAfter_lt msk ty h va (r + 1))
  · rw [nanRaised_flags, hI.flags, State.amaxVals_succ, nanFlags_append, List.map_map]
    rfl

theorem amaxPut_during {s1 u : State} (hu : During s1 u) (h r i v : Nat) : During s1 (amaxPut h u r i v) := hu.onFiles _

/-- A row of VAMAX. -/
theorem amaxRow_keeps {s : State} (hs : s.issues) {msk : Nat} {ty : Ty} {h va : Nat} (hh : h < 4) (hnv : s.cur.ctl.fpx fNV = false) :
    RowKeeps (rowUnit (amaxRow ty h va) (amaxPut h)) (s.issued msk) (AmaxInv s msk ty h va) := by
  intro r u hr hu
  obtain ⟨run, hcur, hI⟩ := hu.word
  have hctl : u.cur.ctl = s.cur.ctl := hu.same.ctl
  have hrun : u.cur.word.run = run := by rw [Strand.word_of_cur hcur]
  refine ⟨amaxPut h u r 0 _, _, rowUnit_did (AmaxInv.row hs hu) (fun o ho => ?_) 0, amaxPut_during hu.same h r 0 _, rfl, ?_⟩
  · rw [(mem_nanRaised ho).1, hctl]; exact hnv
  · change AmaxInv s msk ty h va (r + 1) (u.cur.files.putAmh h ((vget u.cur.files.amh h).folded u.cur.ctl.amaxWindow _)) _
    rw [hctl, hrun]
    exact hI.next hh

/-- After the last row the invariant speaks of every row, of which there is none to do with VL = 0. -/
theorem AmaxInv.last {s : State} {msk : Nat} {ty : Ty} {h va : Nat} {f : Files} {run : Run} (hI : AmaxInv s msk ty h va s.rowsToDo f run) :
    AmaxInv s msk ty h va s.cur.rows f run :=
  have hvals := s.amaxVals_rowsToDo msk va ty.width
  ⟨hI.keep, hI.ap, hI.others, hI.slot.trans (congrArg (foldMags ty _) hvals), hI.flags.trans (congrArg (nanFlags ty) hvals)⟩

/-- VAMAX folds every row into the current slot of its history, and leaves the rest. -/
theorem execVamax_folds {s : State} (hs : s.issues) {msk : MReg} {ty : Ty} {h : AmhReg} {va : VReg} (hfit : s.fits ty.width [va.val])
    (hnv : s.cur.ctl.fpx fNV = false) :
    ∃ t run, execVamax msk ty h va s = .next t ∧ WordFrame s t ∧ t.cur.ctl = s.cur.ctl ∧
      AmaxInv s msk.val ty h.val va.val s.cur.rows t.cur.files run ∧ t.cur.fstat = s.cur.fstat ||| run.flags := by
  have hstart : AmaxInv s msk.val ty h.val va.val 0 (s.issued msk.val).cur.files Run.none := ⟨KeepAmh.refl _ _, rfl, fun _ _ _ => rfl, rfl, rfl⟩
  obtain ⟨t, ht, hd, hI⟩ := rowWord_run (hs.begins msk.val) (fin := retireWord) ty.width hstart (amaxRow_keeps hs h.isLt hnv)
  have hctl : t.finishWord.cur.ctl = t.cur.ctl := rfl
  have hfstat : t.cur.fstat = s.cur.fstat := by rw [hd.cur]; rfl
  refine ⟨t.finishWord, t.cur.word.run, ?_, State.finishWord_frame _ hd, hctl.trans hd.ctl, AmaxInv.last hI, ?_⟩
  · rw [execVamax_eq, vecWord_issues hs (State.fits_issueOk hs hfit) rfl]
    exact ht
  · rw [State.finishWord_fstat, hfstat]

end Sys2Proof.Machine
end

section
/-!
SUPPORT. The exact order of dyadics (01 R15), and the scale of VQSCALE (01 R39, 05 R160).
-/
namespace Sys2Proof.Machine

/-! ## Dyadics in common units -/

/-- A dyadic in units of 2^g, for a `g` not above its exponent. -/
def Dy.units (a : Dy) (g : Int) : Int := a.m * 2 ^ (a.e - g).toNat

theorem Dy.units_neg (a : Dy) (g : Int) : a.neg.units g = -a.units g := Int.neg_mul ..

theorem Dy.units_zero {a : Dy} (h : a.m = 0) (g : Int) : a.units g = 0 := by
  unfold Dy.units; rw [h, Int.zero_mul]

/-- A number of units of 2^e, in units of 2^g. -/
theorem units_finer (m : Int) {x e g : Int} (hx : e ≤ x) (hg : g ≤ e) : m * 2 ^ (x - e).toNat * 2 ^ (e - g).toNat = m * 2 ^ (x - g).toNat := by
  rw [Int.mul_assoc, ← Int.pow_add]
  congr 2
  omega

theorem Dy.units_add {a b : Dy} {g : Int} (ha : g ≤ a.e) (hb : g ≤ b.e) : (a.add b).units g = a.units g + b.units g := by
  unfold Dy.add
  by_cases ha0 : a.m = 0
  · rw [if_pos ha0, Dy.units_zero ha0, Int.zero_add]
  by_cases hb0 : b.m = 0
  · rw [if_neg ha0, if_pos hb0, Dy.units_zero hb0, Int.add_zero]
  rw [if_neg ha0, if_neg hb0]
  have hg : g ≤ min a.e b.e := by omega
  change (a.m * 2 ^ (a.e - min a.e b.e).toNat + b.m * 2 ^ (b.e - min a.e b.e).toNat) * 2 ^ (min a.e b.e - g).toNat = _
  rw [Int.add_mul, units_finer a.m (by omega) hg, units_finer b.m (by omega) hg]
  rfl

/-- The sign of a dyadic. -/
theorem Dy.units_lt_zero (a : Dy) (g : Int) : a.units g < 0 ↔ a.m < 0 := by
  have hpos : (0 : Int) < 2 ^ (a.e - g).toNat := Int.pow_pos (by decide)
  constructor
  · intro h
    refine Int.lt_of_not_ge fun hm => ?_
    have h0 : 0 ≤ a.units g := Int.mul_nonneg hm (Int.le_of_lt hpos)
    omega
  · exact fun h => Int.mul_neg_of_neg_of_pos h hpos

/-- The order of dyadics is that of their numbers of units. -/
theorem Dy.lt_iff {a b : Dy} {g : Int} (ha : g ≤ a.e) (hb : g ≤ b.e) : a.lt b = true ↔ a.units g < b.units g := by
  have hsum : (a.add b.neg).units g = a.units g + -b.units g := by rw [Dy.units_add ha (show g ≤ b.neg.e from hb), Dy.units_neg]
  unfold Dy.lt
  rw [decide_eq_true_iff, ← Dy.units_lt_zero _ g, hsum]
  omega

theorem Dy.not_lt_iff {a b : Dy} {g : Int} (ha : g ≤ a.e) (hb : g ≤ b.e) : a.lt b = false ↔ b.units g ≤ a.units g := by
  rw [← Bool.not_eq_true, Dy.lt_iff ha hb]
  omega

/-- One power of two more doubles a dyadic. -/
theorem Dy.units_scale_succ (a : Dy) {k g : Int} (h : g ≤ a.e + k) : (a.scale (k + 1)).units g = 2 * (a.scale k).units g := by
  have hn : (a.e + (k + 1) - g).toNat = (a.e + k - g).toNat + 1 := by omega
  change a.m * 2 ^ (a.e + (k + 1) - g).toNat = 2 * (a.m * 2 ^ (a.e + k - g).toNat)
  rw [hn, Int.pow_succ, ← Int.mul_assoc, Int.mul_comm _ 2]

/-! ## The scale -/

/-- The place of the leading bit of a dyadic. -/
def Dy.top (a : Dy) : Int := a.e + a.m.natAbs.log2

theorem Dy.top_scale (a : Dy) (k : Int) : (a.scale k).top = a.top + k := by
  change a.e + k + (a.m.natAbs.log2 : Int) = a.e + (a.m.natAbs.log2 : Int) + k
  omega

/-- A positive dyadic lies in the octave that its leading bit begins. -/
theorem Dy.top_bounds {a : Dy} {g : Int} (h : 0 < a.m) (hg : g ≤ a.e) :
    2 ^ (a.top - g).toNat ≤ a.units g ∧ a.units g < 2 * 2 ^ (a.top - g).toNat := by
  have hm : a.m = (a.m.natAbs : Int) := by omega
  have hn : a.m.natAbs ≠ 0 := by omega
  have hlo : ((2 ^ a.m.natAbs.log2 : Nat) : Int) ≤ a.m := by rw [hm]; exact Int.ofNat_le.2 (Nat.log2_self_le hn)
  have hhi : a.m < ((2 ^ (a.m.natAbs.log2 + 1) : Nat) : Int) := by
    have := Int.ofNat_lt.2 (Nat.lt_log2_self (n := a.m.natAbs))
    omega
  have hpos : (0 : Int) < 2 ^ (a.e - g).toNat := Int.pow_pos (by decide)
  have htop : (a.top - g).toNat = a.m.natAbs.log2 + (a.e - g).toNat := by unfold Dy.top; omega
  rw [Int.natCast_pow] at hlo hhi
  rw [htop, Int.pow_add, ← Int.mul_assoc, Int.mul_comm 2, ← Int.pow_succ]
  exact ⟨Int.mul_le_mul_of_nonneg_right hlo (Int.le_of_lt hpos), Int.mul_lt_mul_of_pos_right hhi hpos⟩

/-- The exponent of the largest power of two that keeps `m` within `f`: `m` is moved to the leading place of `f`, where both lie in one octave. -/
theorem floorLog2Ratio_spec {f m : Dy} (hf : 0 < f.m) (hm : 0 < m.m) :
    f.lt (m.scale (floorLog2Ratio f m)) = false ∧ f.lt (m.scale (floorLog2Ratio f m + 1)) = true := by
  let k := f.top - m.top
  let g := min f.e (m.e + k - 1)
  have hgf : g ≤ f.e := Int.min_le_left ..
  have hg (j : Int) (hj : k - 1 ≤ j) : g ≤ (m.scale j).e := by change min f.e (m.e + k - 1) ≤ m.e + j; omega
  have hfb := Dy.top_bounds hf hgf
  have hmb := Dy.top_bounds (a := m.scale k) hm (hg k (by omega))
  have hone : (m.scale k).top = f.top := by rw [Dy.top_scale]; omega
  have hdown := m.units_scale_succ (k := k - 1) (hg (k - 1) (by omega))
  have hup := m.units_scale_succ (hg k (by omega))
  rw [Int.sub_add_cancel] at hdown
  rw [hone] at hmb
  have hk : floorLog2Ratio f m = if f.lt (m.scale k) then k - 1 else k := rfl
  rw [hk]
  generalize (2 : Int) ^ (f.top - g).toNat = t at *
  by_cases h : f.lt (m.scale k) = true
  · rw [if_pos h, Int.sub_add_cancel, Dy.not_lt_iff hgf (hg (k - 1) (by omega))]
    exact ⟨by omega, h⟩
  · rw [if_neg h, Dy.lt_iff hgf (hg (k + 1) (by omega))]
    exact ⟨Bool.eq_false_iff.2 h, by omega⟩

/-! ## Values of f32 codes -/

/-- The code of a magnitude between zero and infinity. -/
theorem Fmt.decode_f32_fin {x : Nat} (h0 : 0 < x) (h : x < 0x7F800000) :
    let v := (fmtOf .f32).decode x
    v.isZero = false ∧ v.isFin = true ∧ v.sign = false := by
  have hsign : (x / 2 ^ 31 % 2 == 1) = false := by rw [Nat.div_eq_of_lt (by omega)]; rfl
  have hex : (x / 2 ^ 23 % 2 ^ 8 == 255) = false := by rw [beq_eq_false_iff_ne]; omega
  have hd : (fmtOf .f32).decode x =
      if x / 2 ^ 23 % 2 ^ 8 = 0 then .fin false (x % 2 ^ 23) (1 - 127 - 23) else .fin false (2 ^ 23 + x % 2 ^ 23) ((x / 2 ^ 23 % 2 ^ 8 : Nat) - 127 - 23) := by
    change (if (true && (x / 2 ^ 23 % 2 ^ 8 == 255)) = true then _ else if (false && _ && _) = true then _ else
      if x / 2 ^ 23 % 2 ^ 8 = 0 then FVal.fin (x / 2 ^ 31 % 2 == 1) _ _ else FVal.fin (x / 2 ^ 31 % 2 == 1) _ _) = _
    rw [hex, hsign]
    rfl
  rw [hd]
  split
  · have hfr : x % 2 ^ 23 ≠ 0 := by omega
    exact ⟨beq_eq_false_iff_ne.2 hfr, rfl, rfl⟩
  · have hfr : 2 ^ 23 + x % 2 ^ 23 ≠ 0 := by omega
    exact ⟨beq_eq_false_iff_ne.2 hfr, rfl, rfl⟩

theorem FVal.dy_pos {v : FVal} (hz : v.isZero = false) (hf : v.isFin = true) (hs : v.sign = false) : 0 < v.dy.m := by
  cases v with
  | nan s => cases hf
  | inf n => cases hf
  | fin neg m e =>
    obtain rfl : neg = false := hs
    have : m ≠ 0 := by simpa [FVal.isZero] using hz
    change (0 : Int) < m
    omega

theorem quantScale_none (m : Nat) : quantScale none m = 0x7FC00000 := rfl

theorem quantScale_zero_target {f : FVal} (hf : f.isZero = true) (m : Nat) : quantScale (some f) m = 0x7FC00000 := by
  simp [quantScale, hf]

theorem quantScale_zero {f : FVal} (hf : f.isZero = false) : quantScale (some f) 0 = 0x3F800000 := by
  have h0 : ((fmtOf .f32).decode 0).isZero = true := by decide
  simp [quantScale, hf, h0]

theorem quantScale_inf {f : FVal} (hf : f.isZero = false) : quantScale (some f) 0x7F800000 = 0x00800000 := by
  have hz : ((fmtOf .f32).decode 0x7F800000).isZero = false := by decide
  have hn : ((fmtOf .f32).decode 0x7F800000).isFin = false := by decide
  simp [quantScale, hf, hz, hn]

theorem quantScale_inf_target {f : FVal} {m : Nat} (hf : f.isZero = false) (hi : f.isFin = false) (h0 : 0 < m) (h : m < 0x7F800000) :
    quantScale (some f) m = 0x7F000000 := by
  obtain ⟨hz, hn, -⟩ := Fmt.decode_f32_fin h0 h
  simp [quantScale, hf, hi, hz, hn]

theorem quantScale_fin {f : FVal} {m : Nat} (hf : f.isZero = false) (hi : f.isFin = true) (h0 : 0 < m) (h : m < 0x7F800000) :
    quantScale (some f) m =
      (min (max (floorLog2Ratio f.dy ((fmtOf .f32).decode m).dy) (-126)) 127 + 127).toNat * 2 ^ 23 := by
  obtain ⟨hz, hn, -⟩ := Fmt.decode_f32_fin h0 h
  simp [quantScale, hf, hi, hz, hn, Nat.shiftLeft_eq]

/-- A scale fits in a word. -/
theorem quantScale_lt (f : Option FVal) (m : Nat) : quantScale f m < 2 ^ 64 := by
  have hexp (k : Int) : (min (max k (-126)) 127 + 127).toNat ≤ 254 := by omega
  unfold quantScale
  cases f with
  | none => exact (by decide : 0x7FC00000 < 2 ^ 64)
  | some f =>
    dsimp only
    split
    · decide
    split
    · decide
    split
    · decide
    split
    · decide
    · have := hexp (floorLog2Ratio f.dy ((fmtOf .f32).decode m).dy)
      rw [Nat.shiftLeft_eq]
      omega

/-! ## VQSCALE -/

/-- The largest magnitude of a history's window of `n` slots. -/
def Amh.windowMax (a : Amh) (n : Nat) : Nat := (List.range n).foldl (fun m i => max m (a.slot i)) 0

/-- The scale that VQSCALE gives. -/
def Strand.scale (st : Strand) (ty : Ty) (h cb : Nat) : Nat := quantScale (st.fmaxOf ty cb) ((vget st.files.amh h).windowMax st.ctl.amaxWindow)

theorem execVqscale_eq (ty : Ty) (xd : XReg) (h : AmhReg) (cb : CbReg) (s : State) :
    execVqscale ty xd h cb s = issueWord s 0 false (!s.cur.lp || 16 ≤ ty.width) fun s => wholeWord s fun s =>
      s.xPut xd (BitVec.ofNat 64 (s.cur.scale ty h.val cb.val)) := rfl

/-- The largest magnitude of a target depends on its codebook alone. -/
theorem Strand.fmaxOf_files {st st' : Strand} (h : st.files = st'.files) (ty : Ty) (cb : Nat) : st.fmaxOf ty cb = st'.fmaxOf ty cb := by
  have he : st.cbEntries cb = st'.cbEntries cb := by unfold Strand.cbEntries Strand.cbGet; rw [h]
  unfold Strand.fmaxOf
  rw [he]

theorem State.issued_scale (s : State) (msk : Nat) (ty : Ty) (h cb : Nat) : (s.issued msk).cur.scale ty h cb = s.cur.scale ty h cb := by
  unfold Strand.scale
  rw [s.issued_files, s.issued_ctl, Strand.fmaxOf_files (s.issued_files msk)]

/-- VQSCALE writes its x register, as a control word. -/
theorem execVqscale_controls {s : State} (hs : s.issues) (ty : Ty) (xd : XReg) (h : AmhReg) (cb : CbReg) :
    Controls (.vqscale ty xd h cb) s fun t => t.cur.files.x = s.cur.files.x.set xd (BitVec.ofNat 64 (s.cur.scale ty h.val cb.val)) ∧
      t.cur.vl = s.cur.vl ∧ t.cur.rows = s.cur.rows ∧ t.cur.reply = s.cur.reply := by
  have hbegins := hs.begins 0
  have hok : (!s.cur.lp || decide (16 ≤ ty.width)) = true := by rw [hs.plain]; rfl
  have hexec : exec (.vqscale ty xd h cb) s =
      .next ((s.issued 0).xPut xd (BitVec.ofNat 64 ((s.issued 0).cur.scale ty h.val cb.val))).finishWord := by
    change execVqscale ty xd h cb s = _
    rw [execVqscale_eq, hok, issueWord_issues hs]
    exact wholeWord_run hbegins hbegins.steps
  rw [s.issued_scale] at hexec
  obtain ⟨hvl, hrows, hreply, hblock⟩ := (s.issued 0).xPut_keeps xd (BitVec.ofNat 64 (s.cur.scale ty h.val cb.val))
  exact ((s.issued 0).xPut_acted xd _).controls hs hblock hexec
    ⟨(s.issued 0).xPut_x xd _, hvl, hrows, hreply⟩

end Sys2Proof.Machine
end

section
/-!
The amax history and its scales (01 R38, R39, 05 R158 to R160).
-/
namespace Sys2Proof.Machine

/-- Settles O31: VAMAX by an invariant over its rows, VAMSTEP and VQSCALE as words that act once, and the scale by the order of exact values. -/
theorem amaxHistory : Obligations.AmaxHistory := by
  unfold Obligations.AmaxHistory
  intro s msk ty qty h va xd cb hs A W ap slot vals nan mag only M
  refine ⟨fun _ hfit hnv => ?vamax, ?vamstep, ?vqscale⟩
  case vamax =>
    obtain ⟨t, run, ht, hframe, hctl, hI, hfstat⟩ := execVamax_folds hs hfit hnv
    obtain ⟨hv, hx, hm, hk, hz, hcb⟩ := hI.keep.rest
    refine ⟨t, ht, hframe, ⟨hI.keep.others, hv, hx, hm, hk, hz, hcb, hctl⟩, ⟨hI.ap, hI.others, hI.slot⟩, ?_⟩
    rw [hfstat, hI.flags]
    rfl
  case vamstep =>
    obtain ⟨t, ht, hframe, hctl, hfstat, hfiles⟩ := execVamstep_steps hs h
    have hkeep : KeepAmh s.cur.files h.val t.cur.files := hfiles ▸ (KeepAmh.refl _ _).putAmh h.isLt _
    have hB : vget t.cur.files.amh h.val = A.stepped W := by rw [hfiles]; exact Files.putAmh_same _ _ _
    obtain ⟨hv, hx, hm, hk, hz, hcb⟩ := hkeep.rest
    refine ⟨t, ht, hframe, ⟨hkeep.others, hv, hx, hm, hk, hz, hcb, hctl⟩, hfstat, ?_⟩
    rw [hB]
    exact ⟨A.stepped_ap s.cur.ctl, A.stepped_same W, fun i hi hne => A.stepped_ne s.cur.ctl hi hne⟩
  case vqscale =>
    refine (execVqscale_controls hs qty xd h cb).imp fun t ⟨hx, hvl, hrows, hreply⟩ => ?_
    have hxd : (t.cur.files.x[xd]).toNat = quantScale (s.cur.fmaxOf qty cb.val) M := by
      have hset : (s.cur.files.x.set xd (BitVec.ofNat 64 (s.cur.scale qty h.val cb.val)))[xd] = _ := Vector.getElem_set_self _
      rw [hx, hset]
      exact Nat.mod_eq_of_lt (quantScale_lt _ _)
    refine ⟨fun r hr => by rw [hx]; exact Vector.getElem_set_ne _ _ fun e => hr (Fin.ext e.symm), hvl, hrows, hreply, fun hnone => ?_, fun f hf => ?_⟩
    · rw [hnone, quantScale_none] at hxd
      exact BitVec.eq_of_toNat_eq hxd
    · rw [hf] at hxd
      refine ⟨fun hz => hxd.trans (quantScale_zero_target hz M), fun hz hM => ?_, fun hz hM => ?_,
        fun hz hi h0 hlt => hxd.trans (quantScale_inf_target hz hi h0 hlt), fun hz hi hsign h0 hlt => ?_⟩
      · exact hxd.trans (hM ▸ quantScale_zero hz)
      · exact hxd.trans (hM ▸ quantScale_inf hz)
      · obtain ⟨hmz, hmi, hms⟩ := Fmt.decode_f32_fin h0 hlt
        obtain ⟨hle, hgt⟩ := floorLog2Ratio_spec (FVal.dy_pos hz hi hsign) (FVal.dy_pos hmz hmi hms)
        exact ⟨_, hle, hgt, hxd.trans (quantScale_fin hz hi h0 hlt)⟩

end Sys2Proof.Machine
end

section
/-!
The values of reset (01 R25 to R38, and the rules of the other chapters that give one).
-/
namespace Sys2Proof.Machine

/-- An entry of a register file that holds one value throughout. -/
@[simp] theorem vget_replicate {α : Type} {n : Nat} [NeZero n] (a : α) (i : Nat) : vget (Vector.replicate n a) i = a := by
  simp [vget]

/-- A core that nothing has touched. -/
theorem State.reset_core (k : Nat) : State.reset.core k = CoreSt.reset k := rfl

/-- A die that nothing has touched. -/
theorem State.reset_die (d : Nat) : State.reset.die d = DieSt.reset d := rfl

/-- The partition of the four dies. -/
theorem State.reset_part : State.reset.part 0 = Part.reset 0 0xF 2 := rfl

/-- Every sett is full. -/
theorem State.reset_full (a : Nat) : State.reset.full a = true := rfl

/-- The files of a strand. -/
theorem Files.reset_vectors (v : Nat) : vget Files.reset.v v = 0 := vget_replicate 0 v

theorem Files.reset_tiles (z : Nat) : vget Files.reset.z z = 0 := vget_replicate 0 z

theorem Files.reset_amh (h : Nat) : vget Files.reset.amh h = ⟨Vector.replicate 16 0, 0⟩ := vget_replicate _ h

/-- Settles O58, value by value: each stands in the reset state as it is, and a register file holds its value in every entry. -/
theorem resetValues : Obligations.ResetValues := by
  unfold Obligations.ResetValues
  refine ⟨rfl, rfl, rfl, rfl, fun h _ k _ => ?slots, fun h _ => ?current, rfl, rfl, rfl, fun v _ => Files.reset_vectors v, fun z _ => Files.reset_tiles z,
    rfl, rfl, rfl, rfl, rfl, rfl, rfl, fun i _ => ⟨vget_replicate 0 i, vget_replicate 0 i⟩, rfl, rfl, fun k => ?cores, fun d => ?dies, ?hmask,
    fun a => ⟨Memory.get_nil a, State.reset_full a⟩⟩
  case slots => exact (congrArg (fun a : Amh => vget a.slots k) (Files.reset_amh h)).trans (vget_replicate 0 k)
  case current => exact congrArg Amh.ap (Files.reset_amh h)
  case cores =>
    rw [State.reset_core]
    exact ⟨rfl, rfl, rfl, fun i _ => ⟨vget_replicate 0 i, vget_replicate 0 i⟩⟩
  case dies => rw [State.reset_die]; exact ⟨rfl, rfl, rfl⟩
  case hmask => rw [State.reset_part]; rfl

end Sys2Proof.Machine
end
